-- ==== Sys2Proof/Word.lean ====
section
/-! DEFINITION. The words of the part: bytes on the link (R172), and what a frame's payload is. -/

namespace Sys2Proof

/-- One byte of a frame, or of a journal slot. -/
abbrev Byte := BitVec 8

/-- The payload of a frame, in the order its bytes travel (R180). -/
abbrev Payload := List Byte

/-- A byte from its number. -/
abbrev byte (n : Nat) : Byte := BitVec.ofNat 8 n

end Sys2Proof
end

