-- ==== Sys2Proof/Syntax.lean ====
section
/-! DEFINITION. The commands: one constructor per row of spec/opcode_table.json. A request of the cell
computer is its frame (R172): the row fixes KIND, the operands are TAG and PAYLOAD. The other rows are
the events at the part's ports and timers. -/

namespace Sys2Proof

/-- The eight sensor lines, numbered 0 to 7 in this order (R149). -/
inductive Line where
  | wireIntact
  | lowerDetect
  | slugPresent
  | holderEngaged
  | doorClosed
  | tankFull
  | aux0
  | aux1
deriving DecidableEq, Repr

/-- The steps of the part (spec/opcode_table.json, in its order). -/
inductive Instr where
  /-- Power-on reset (R176). -/
  | powerOn
  /-- The reset line is pulsed (R176). -/
  | resetLine
  /-- Bytes arrive at the receive input, as a rule one whole frame (R172). -/
  | receiveFrame (bytes : List Byte)
  /-- A request frame whose KIND no request has (R173). -/
  | unknownKindRequest (kind tag : Byte) (payload : Payload)
  /-- The last byte of the frame in transmission has been sent (R174). -/
  | transmitEnd
  /-- The IDENTIFY request (R178). -/
  | identify (tag : Byte) (payload : Payload)
  /-- The READ_STATUS request (R178). -/
  | readStatus (tag : Byte) (payload : Payload)
  /-- The QUERY_RESET_CAUSE request (R176). -/
  | queryResetCause (tag : Byte) (payload : Payload)
  /-- The RESET request (R177). -/
  | reset (tag : Byte) (payload : Payload)
  /-- The SET_PARAM request (R179). -/
  | setParam (tag : Byte) (payload : Payload)
  /-- The SET_PARAM_TRAVEL_WINDOW request (R39). -/
  | setParamTravelWindow (tag : Byte) (payload : Payload)
  /-- The SET_PARAM_KEEP_OUT request (R40). -/
  | setParamKeepOut (tag : Byte) (payload : Payload)
  /-- The SET_PARAM_CORRECTED_COUNT request (R44). -/
  | setParamCorrectedCount (tag : Byte) (payload : Payload)
  /-- The GET_PARAM request (R179). -/
  | getParam (tag : Byte) (payload : Payload)
  /-- The SET_OVERRIDE request (R179). -/
  | setOverride (tag : Byte) (payload : Payload)
  /-- The OPEN_CHAIN request (R26). -/
  | openChain (tag : Byte) (payload : Payload)
  /-- The LOAD_SEGMENTS request (R27). -/
  | loadSegments (tag : Byte) (payload : Payload)
  /-- The CLOSE_CHAIN request (R34). -/
  | closeChain (tag : Byte) (payload : Payload)
  /-- The DROP_CHAIN request (R37). -/
  | dropChain (tag : Byte) (payload : Payload)
  /-- The QUERY_CHAIN request (R38). -/
  | queryChain (tag : Byte) (payload : Payload)
  /-- The DEFINE_CONTOUR request (R14). -/
  | defineContour (tag : Byte) (payload : Payload)
  /-- The DELETE_CONTOUR request (R18). -/
  | deleteContour (tag : Byte) (payload : Payload)
  /-- The QUERY_CONTOUR request (R19). -/
  | queryContour (tag : Byte) (payload : Payload)
  /-- The START_JOB request (R76). -/
  | startJob (tag : Byte) (payload : Payload)
  /-- The START_JOB_RESUMED request (R120). -/
  | startJobResumed (tag : Byte) (payload : Payload)
  /-- The ABORT_JOB request (R86). -/
  | abortJob (tag : Byte) (payload : Payload)
  /-- The HOLD request (R141). -/
  | hold (tag : Byte) (payload : Payload)
  /-- The RESUME request (R143). -/
  | resume (tag : Byte) (payload : Payload)
  /-- The PARK request (R144). -/
  | park (tag : Byte) (payload : Payload)
  /-- The WAKE request (R146). -/
  | wake (tag : Byte) (payload : Payload)
  /-- The SKIP_CONTOUR request (R85). -/
  | skipContour (tag : Byte) (payload : Payload)
  /-- The RELEASE_SEVER request (R83). -/
  | releaseSever (tag : Byte) (payload : Payload)
  /-- The RELEASE_HOLDER request (R132). -/
  | releaseHolder (tag : Byte) (payload : Payload)
  /-- The CONFIRM_SLUG request (R128). -/
  | confirmSlug (tag : Byte) (payload : Payload)
  /-- The RETHREAD_DONE request (R119). -/
  | rethreadDone (tag : Byte) (payload : Payload)
  /-- The CONFIG_LINE request (R152). -/
  | configLine (tag : Byte) (payload : Payload)
  /-- The ENABLE_CONDITIONS request (R159). -/
  | enableConditions (tag : Byte) (payload : Payload)
  /-- The CLEAR_CONDITIONS request (R160). -/
  | clearConditions (tag : Byte) (payload : Payload)
  /-- The QUERY_CONDITIONS request (R161). -/
  | queryConditions (tag : Byte) (payload : Payload)
  /-- The JOURNAL_SUMMARY request (R169). -/
  | journalSummary (tag : Byte) (payload : Payload)
  /-- The JOURNAL_READ request (R170). -/
  | journalRead (tag : Byte) (payload : Payload)
  /-- The JOURNAL_ERASE request (R171). -/
  | journalErase (tag : Byte) (payload : Payload)
  /-- JOURNAL_ERASE_COMPLETE (R166). -/
  | journalEraseComplete
  /-- A sensor line's input takes a level (R150). -/
  | lineInputChange (line : Line) (high : Bool)
  /-- A line's hold timer reaches the filter time (R150). -/
  | lineFilterExpiry (line : Line)
  /-- AXIS_FAULT_INPUT (R153). -/
  | axisFaultInput (fault : Bool)
  /-- GEN_FAULT_INPUT (R153). -/
  | genFaultInput (fault : Bool)
  /-- WAKE_SETTLE_EXPIRY (R147). -/
  | wakeSettleExpiry
  /-- A gap sample: mean gap voltage, pulse, short and open counts (R54). -/
  | gapSample (voltage pulses shorts opens : Nat)
  /-- The axis drives ask for the next commanded position (R62). -/
  | driveUpdate
  /-- TIP_CUT_EXPIRY (R99). -/
  | tipCutExpiry
  /-- FEED_TIMEOUT_EXPIRY (R100). -/
  | feedTimeoutExpiry
  /-- RETRACT_EXPIRY (R101). -/
  | retractExpiry
  /-- UNTHREAD_CUT_EXPIRY (R104). -/
  | unthreadCutExpiry
  /-- PULL_TIMEOUT_EXPIRY (R104). -/
  | pullTimeoutExpiry
  /-- DROP_WAIT_EXPIRY (R127). -/
  | dropWaitExpiry
  /-- HOLDER_ENGAGE_TIMEOUT (R131). -/
  | holderEngageTimeout
  /-- HOLDER_RELEASE_TIMEOUT (R133). -/
  | holderReleaseTimeout
deriving DecidableEq, Repr

end Sys2Proof
end

