-- ==== Sys2Proof/Decode.lean ====
section
/-! DEFINITION. The commands that a word spells: none, since no row of spec/opcode_table.json gives bits. The
part has no instruction words; a request travels as a frame (R172), whose bytes `frameBytes` writes and
`readFrame` reads. -/

namespace Sys2Proof

/-- The command that a word spells by the table's bits (DEDUCED, log entry 3). -/
def decodeTableWord (_nbits _w : Nat) : Option Instr := none

end Sys2Proof
end

