-- ==== Sys2Proof/Config.lean ====
section
/-! DEFINITION. The capacities that the manual fixes, and the free values: what the manual leaves to
the hardware and no rule determines. A free value has no body, so that no proof can rest on it. -/

namespace Sys2Proof.Config

/-- Segment slots of the store (R23). -/
def segmentSlots : Nat := 4096

/-- The largest number of frames the receive queue holds (R172). -/
def receiveQueue : Nat := 4

/-- The largest number of records the journal's pending queue holds (R167). -/
def pendingRecords : Nat := 8

/-- Largest coordinate, in ticks, either side of zero (Units and conventions). -/
def maxCoordinate : Int := 4000000

/-- Largest length along a path (Units and conventions). -/
def maxLength : Nat := 2147483647

/-- Largest sequence number of a record or a page (R163). -/
def maxSequence : Nat := 4294967295

/-- The revision byte of the part documented (R178). -/
def revision : Nat := 1

/-- How many reports between blocks one step works through. A report left over is worked off by the
next step, before its command (DESIGN CHOICE, log entry 4). -/
def reportsPerStep : Nat := 1024

/-- FREE VALUE (DESIGN CHOICE, log entry 8): how long, in ms, an input has held its level when CONFIG_LINE changes the
filter time of a running hold (R150). Applied to the free-value counter of State. -/
opaque heldTime : Nat → Nat

/-- FREE VALUE (DESIGN CHOICE, log entry 9): whether a slot of a page whose erase a reset cut short keeps its old
contents (R168). Applied to the free-value counter and to the slot's number. -/
opaque eraseCutKeeps : Nat → Nat → Bool

/-- FREE VALUE (DESIGN CHOICE, log entry 10): what a reset leaves of a slot write that it cut short (R168): nothing
cut, or the twenty bytes found there. Applied to the free-value counter. -/
opaque writeCutLeaves : Nat → Option (List Byte)

/-- FREE VALUE (DESIGN CHOICE, log entry 7): the error, if any, that arises in a segment slot while the part idles
(section 2.8): chain id, segment index, and whether it can be corrected. -/
opaque slotUpset : Nat → Option (Nat × Nat × Bool)

/-- FREE VALUE (DESIGN CHOICE, log entry 11): the next page sequence after the largest that four bytes hold; the
manual gives none (R166). -/
opaque pageSequenceAfterLast : Nat

end Sys2Proof.Config
end

