-- ==== Sys2Proof/Machine/State.lean ====
section
/-! DEFINITION. The state of the part as plain data: every record of the ten blocks, the levels at its
inputs, the frames in its link port, the commands that wait, and State.reset. The records carry the
names of the manual's tables. An absent value is `none`: an EMPTY contour, a FREE chain and an IDLE
threading unit have no other field, and are absent. -/

namespace Sys2Proof.Machine

/-- A position in ticks (Units and conventions). -/
structure Point where
  x : Int
  y : Int
deriving DecidableEq, Repr

/-- A rectangle of the work area, its edges included (R39, R40). -/
structure Rect where
  xMin : Int
  xMax : Int
  yMin : Int
  yMax : Int
deriving DecidableEq, Repr

/-- A slot of the contour table (R1). -/
abbrev Slot := Fin 64

/-- A chain id (R24). -/
abbrev ChainId := Fin 128

/-! ## The plate program (chapter 1) -/

/-- Role of a pass (R4). -/
inductive Role where
  | rough
  | skim
  | sever
deriving DecidableEq, Repr

/-- Hold method of a contour (R5). -/
inductive HoldMethod where
  | drop
  | holder
  | tack
deriving DecidableEq, Repr

/-- Attendance of a bridge (R6). -/
inductive Attendance where
  | attended
  | unattended
deriving DecidableEq, Repr

/-- The thirteen contour states (R11). `empty` is reported for a slot that holds no contour. -/
inductive ContourState where
  | empty
  | queued
  | threading
  | cutting
  | reentry
  | reentryWait
  | unthreading
  | bridged
  | severing
  | done
  | skipped
  | faulted
  | stopped
deriving DecidableEq, Repr

/-- What has become of a slug (R5). -/
inductive Retention where
  | attached
  | bridged
  | tacked
  | held
  | dropped
  | droppedEarly
  | released
  | lost
deriving DecidableEq, Repr

/-- Fault reasons of a contour (R3). -/
inductive FaultReason where
  | stuck
  | corrupt
  | discontinuous
  | keepOut
  | breakLimit
  | threadExhausted
  | reentryFailed
  | unthreadFailed
deriving DecidableEq, Repr

/-- A bridge: hold-back H and attendance (R6). -/
structure Bridge where
  holdBack : Nat
  attendance : Attendance
deriving DecidableEq, Repr

/-- A tack span: its start position and its length (R8). -/
structure Span where
  start : Nat
  length : Nat
deriving DecidableEq, Repr

/-- A pass record (R4). -/
structure PassRec where
  role : Role
  chain : ChainId
  setting : Nat
  vset : Nat
  gain : Nat
  feedMax : Nat
  retractStep : Nat
  shortLimit : Nat
deriving DecidableEq, Repr

/-- The definition part of a contour record (R2). -/
structure ContourDef where
  centre : Point
  diameter : Nat
  inGap : Bool
  method : HoldMethod
  bridge : Option Bridge
  engage : Option Nat
  tacks : Option (List Span)
  passes : List PassRec
deriving DecidableEq, Repr

/-- A contour record that is not EMPTY: its definition part (R2) and its working part (R3). The front
here is also the front of the running pass: the two are one value (R46). -/
structure Contour where
  defn : ContourDef
  state : ContourState
  passIndex : Nat
  front : Nat
  breakPoint : Option (Nat × Nat)
  breakCount : Nat
  attemptsUsed : Nat
  retention : Retention
  fault : Option FaultReason
  severReleased : Bool
deriving DecidableEq, Repr

/-- Job states (R20). -/
inductive JobState where
  | idle
  | stageA
  | stageB
  | severWait
  | complete
  | aborted
deriving DecidableEq, Repr

/-- A resume point (R20). -/
structure ResumePoint where
  slot : Slot
  pass : Nat
  pos : Nat
deriving DecidableEq, Repr

/-- The order of the contour table that is in hand for the current contour: given to a unit whose
outcome is awaited, or due and waiting for the mode RUN (R74, R113, R122). -/
inductive Work where
  /-- The first order of a taken contour, at which LOWER_DETECT is read (R74, R122). -/
  | firstOrder
  /-- The UNTHREAD that opens a taken or resumed contour (R74, R122). -/
  | openingUnthread
  /-- The rapid move to the start hole (R75, R113). -/
  | holeRapid
  /-- THREAD_AT_HOLE (R75, R113). -/
  | holeThread
  /-- The UNTHREAD that ends a stage (R81). -/
  | stageUnthread
  /-- THREAD_IN_GAP (R113, R114). -/
  | gapThread
  /-- The dry re-approach (R116). -/
  | approach
  /-- The rapid move to point(s) (R114). -/
  | pointRapid
deriving DecidableEq, Repr

/-- The job record (R20), the last-changed contour (R91), and what the contour table keeps between its
orders: the order in hand, whether it is still due, the wire position a break left (R113), the outcomes
of the retention unit kept through re-entry (R112), and the first pass that the current contour completes
in its stage (R36). -/
structure Job where
  state : JobState
  current : Option Slot
  resume : Option ResumePoint
  lastChanged : Option Slot
  work : Option Work
  due : Bool
  wire : Option Nat
  keptHolding : Bool
  keptProceed : Bool
  stageFrom : Nat
deriving DecidableEq, Repr

/-! ## The segment store (chapter 2) -/

/-- Kind of a segment (R25). -/
inductive SegKind where
  | line
  | arcCw
  | arcCcw
deriving DecidableEq, Repr

/-- Mode of a segment (R25). -/
inductive SegMode where
  | cut
  | dry
deriving DecidableEq, Repr

/-- What the check information of a slot would find at its next read (section 2.8, R41). -/
inductive SlotCheck where
  | unchanged
  | correctable
  | uncorrectable
deriving DecidableEq, Repr

/-- A segment as stored in a slot (R25), with the standing of the slot's content (R41). -/
structure Segment where
  kind : SegKind
  mode : SegMode
  endPt : Point
  centre : Option Point
  length : Nat
  radius : Option Nat
  cumStart : Nat
  check : SlotCheck
deriving DecidableEq, Repr

/-- State of a chain that is not FREE (R24). -/
inductive ChainState where
  | opened
  | closed
  | corrupt
deriving DecidableEq, Repr

/-- A chain record that is not FREE (R24). The segment count is the length of the list. -/
structure Chain where
  state : ChainState
  start : Point
  segs : List Segment
  loaded : Nat
  endPt : Point
  binding : Option (Slot × Nat)
deriving DecidableEq, Repr

/-- A keep-out rectangle (R40). -/
structure KeepOut where
  enabled : Bool
  rect : Rect
deriving DecidableEq, Repr

/-- The segment store: chain records, free-slot count, corrected-error count and the work area. -/
structure Store where
  chains : Vector (Option Chain) 128
  freeSlots : Nat
  corrected : Nat
  window : Rect
  keepOuts : Vector KeepOut 4
deriving DecidableEq, Repr

/-! ## The path unit (chapter 3) -/

/-- Sub-states of the running pass (R47). -/
inductive SubState where
  | moving
  | starved
  | waitHolder
  | slugWait
  | paused
deriving DecidableEq, Repr

/-- The running-pass record (R46). Its front is the front of the current contour's record. -/
structure RunPass where
  chain : ChainId
  s : Nat
  floor : Nat
  cutRunStart : Option Nat
  stopPoint : Nat
  sub : SubState
  segIndex : Nat
  approach : Option Nat
  openCount : Nat
  stuckCount : Nat
  floorReported : Bool
  segsCompleted : Nat
  lastCheckpoint : Nat
deriving DecidableEq, Repr

/-- Who ordered a rapid move (R65). -/
inductive MoveOwner where
  | contourTable
  | search
  | centre
deriving DecidableEq, Repr

/-- A rapid move in progress (R65). -/
structure Rapid where
  origin : Point
  target : Point
  length : Nat
  done : Nat
  owner : MoveOwner
deriving DecidableEq, Repr

/-- The path unit: running pass, rapid move, commanded position, the position last supplied to the
drives (R62), and the generator command (R60). -/
structure PathUnit where
  pass : Option RunPass
  rapid : Option Rapid
  commanded : Point
  supplied : Point
  genOn : Bool
  genSetting : Nat
deriving DecidableEq, Repr

/-! ## The threading unit (chapter 5) -/

/-- Threading operations (R93). -/
inductive ThreadOp where
  | atHole
  | inGap
  | unthread
deriving DecidableEq, Repr

/-- States of the threading unit other than IDLE (R93). -/
inductive ThreadStep where
  | searchMove
  | tipCut
  | feed
  | retract
  | centreMove
  | unthreadCut
  | unthreadPull
deriving DecidableEq, Repr

/-- The operation record of the threading unit while it is not IDLE (R93). `again` is the decision
made on entering RETRACT (R101). -/
structure Threading where
  op : ThreadOp
  contour : Slot
  step : ThreadStep
  held : Bool
  limit : Nat
  made : Nat
  centre : Option Point
  ring : Option Nat
  search : Option Nat
  timer : Option Nat
  again : Bool
deriving DecidableEq, Repr

/-! ## The retention unit (chapter 7) -/

/-- State of the drop wait (R123). -/
inductive DropState where
  | idle
  | waiting
  | expired
deriving DecidableEq, Repr

/-- States of the holder (R129). -/
inductive HolderState where
  | free
  | engaging
  | holding
  | releasing
deriving DecidableEq, Repr

/-- State of an engage request (R123). -/
inductive RequestState where
  | waiting
  | timedOut
deriving DecidableEq, Repr

/-- Slug watch (the contour it is armed for, absent while disarmed) and drop wait (R123). -/
structure SlugRecords where
  watch : Option Slot
  drop : DropState
  dropContour : Option Slot
  dropTimer : Option Nat
deriving DecidableEq, Repr

/-- The holder record (R123). -/
structure Holder where
  state : HolderState
  owner : Option Slot
  claimant : Option Slot
  output : Bool
  timer : Option Nat
  request : Option (RequestState × Slot)
deriving DecidableEq, Repr

/-! ## The mode unit (chapter 8) -/

/-- Cell modes (R138). -/
inductive Mode where
  | run
  | hold
  | park
  | waking
deriving DecidableEq, Repr

/-- The mode unit's record (R138). -/
structure ModeUnit where
  mode : Mode
  parkPending : Bool
  settle : Option Nat
  pump : Bool
deriving DecidableEq, Repr

/-! ## Sensor lines and conditions (chapter 9) -/

/-- Polarity of a line (R149). -/
inductive Polarity where
  | activeHigh
  | activeLow
deriving DecidableEq, Repr

/-- The record of a sensor line (R149): levels are `true` for high. `input` is the level at the
input, `active` the active value that the blocks read, kept while the line is masked (R151). -/
structure LineRec where
  polarity : Polarity
  filter : Nat
  mask : Bool
  level : Bool
  holding : Bool
  input : Bool
  active : Bool
deriving DecidableEq, Repr

/-- The lines, the fault inputs of the axis drive and generator ports (R153), and the reference value
of SLUG_CHANGE (R156). -/
structure Sensors where
  lines : Vector LineRec 8
  axisFault : Bool
  genFault : Bool
  slugReference : Bool
deriving DecidableEq, Repr

/-- The 28 conditions, in the order of their numbers (R153). -/
inductive Cond where
  | doorOpen
  | tankLow
  | axisFault
  | genFault
  | aux
  | journalBlocked
  | storeCorrected
  | storeCorrupt
  | linkError
  | slugChange
  | shortRetract
  | retraceExhausted
  | gapOpen
  | chainLow
  | chainStarved
  | wireBreak
  | breakLimit
  | discontinuous
  | threadRetry
  | threadFailed
  | ingapFailed
  | slugEarly
  | slugStuck
  | holderTimeout
  | holderBusy
  | holderLost
  | jobComplete
  | contourFault
deriving DecidableEq, Repr

/-- A condition record (R153), with its membership of the pending set (R157). -/
structure CondRec where
  latch : Bool
  enable : Bool
  noticed : Bool
  pending : Bool
  live : Bool
deriving DecidableEq, Repr

/-! ## The journal (chapter 10) -/

/-- Kind of a journal record (R163). -/
inductive RecordKind where
  | state
  | position
  | job
deriving DecidableEq, Repr

/-- The contents of a record as offered, before it is given a sequence (R163). `code` is the contour
state or the job state by its number (R180). -/
structure JRecord where
  kind : RecordKind
  slot : Option Slot
  pass : Nat
  chain : Nat
  closed : Bool
  total : Nat
  front : Nat
  code : Nat
  breaks : Nat
deriving DecidableEq, Repr

/-- The journal: its non-volatile storage as bytes, and the append state of R165. `waitRoll` is the
page a roll waits for (R166), `waitFirst` the activation of page 0 that awaits its erase (R168),
`blocked` the source of JOURNAL_BLOCKED (R167), `erasingAll` a JOURNAL_ERASE in progress (R171), and
`writing` the slot the latest step wrote last, which a reset may cut short (R168). -/
structure Journal where
  mem : List Host.Cell
  active : Option Nat
  nextSlot : Nat
  nextSeq : Option Nat
  nextPageSeq : Nat
  erasing : Option Nat
  eraseList : List Nat
  queue : List JRecord
  waitRoll : Option Nat
  waitFirst : Bool
  blocked : Bool
  erasingAll : Bool
  writing : Option (Nat × Nat)
deriving DecidableEq, Repr

/-! ## The message link (chapter 11) -/

/-- A good frame: KIND, TAG and PAYLOAD; SYNC, LEN and CRC follow from them (R172). -/
structure Frame where
  kind : Byte
  tag : Byte
  payload : Payload
deriving DecidableEq, Repr

/-- What sort of frame the transmitter is sending (R174). -/
inductive TxKind where
  | reply
  | notice
  | progress
  | startup
deriving DecidableEq, Repr

/-- The frame in transmission (R174). -/
structure TxFrame where
  sort : TxKind
  frame : Frame
deriving DecidableEq, Repr

/-- The link port: the bytes of a frame being collected (empty while hunting), the receive queue, the
replies waiting, the frame in transmission, the link error count, the reset-cause flags, what is due or
pending to be sent, and whether a RESET has been taken (R172 to R177). -/
structure Link where
  collecting : List Byte
  queue : List Frame
  replies : List Frame
  sending : Option TxFrame
  errors : Nat
  causePowerOn : Bool
  causeLine : Bool
  causeRequest : Bool
  startupDue : Bool
  progressPending : Bool
  resetTaken : Bool
deriving DecidableEq, Repr

/-! ## The parameter set -/

/-- The parameters 1 to 22 of the index (chapter 11); the work area stands in the store. -/
structure Params where
  retraceDepth : Nat
  stuckSamples : Nat
  openLimit : Nat
  dryStep : Nat
  rapidStep : Nat
  override : Nat
  tackSetting : Nat
  lowWater : Nat
  progressEvery : Nat
  checkpointEvery : Nat
  threadAttempts : Nat
  searchRadius : Nat
  inGapAttempts : Nat
  tipTime : Nat
  feedTimeout : Nat
  retractTime : Nat
  pullTimeout : Nat
  breakLimit : Nat
  dropWait : Nat
  holderTimeout : Nat
  wakeSettle : Nat
  latchDisabled : Bool
deriving DecidableEq, Repr

/-- What one block reports to another inside a step; a step works its reports off before it ends. -/
inductive Report where
  /-- Path unit: a rapid move is complete (R65). -/
  | moveDone (owner : MoveOwner)
  /-- Path unit: a rapid move is refused for a keep-out rectangle (R65). -/
  | moveRefused (owner : MoveOwner)
  /-- Path unit: the engage point is reached (R52). -/
  | engageReached
  /-- Path unit: the pass end is reached (R52). -/
  | passEnd
  /-- Path unit: the dry re-approach is complete (R64). -/
  | approachDone
  /-- Path unit: the STUCK fault (R59). -/
  | stuck
  /-- Store: an uncorrectable slot in a chain of the current contour (R42). -/
  | corrupt
  /-- Threading unit: THREAD_AT_HOLE succeeded (R102). -/
  | threaded
  /-- Threading unit: THREAD_AT_HOLE is exhausted (R101). -/
  | exhausted
  /-- Threading unit: a search or centre move was refused (R98). -/
  | threadKeepOut
  /-- Threading unit: THREAD_IN_GAP succeeded (R103). -/
  | gapThreaded
  /-- Threading unit: THREAD_IN_GAP failed (R103). -/
  | gapFailed
  /-- Threading unit: the wire is withdrawn (R104). -/
  | withdrawn
  /-- Threading unit: the pull timed out (R104). -/
  | pullTimedOut
  /-- Retention unit: the holder is HOLDING for the current contour (R131). -/
  | holderHolding
  /-- Retention unit: the contour may proceed (R126, R127). -/
  | proceed
deriving DecidableEq, Repr

/-- The state of the part. `agenda` (reports not yet worked off), `free` (the counter of free values)
and `pending` (the commands that wait, first in first out) are the model's own fields. -/
structure State where
  params : Params
  contours : Vector (Option Contour) 64
  job : Job
  store : Store
  path : PathUnit
  thread : Option Threading
  slug : SlugRecords
  holder : Holder
  modes : ModeUnit
  sensors : Sensors
  conds : Vector CondRec 28
  journal : Journal
  link : Link
  agenda : List Report
  free : Nat
  pending : List Instr
deriving DecidableEq, Repr

/-- No rule of the manual stops the part: an event that finds nothing to act on has no effect, and a
request that cannot be taken is refused in its reply. No constructor, so no meaning can raise one. -/
inductive Fault where
deriving DecidableEq, Repr

/-- Why a command has no outcome. -/
inductive Refusal where
  /-- Raised by an arm of `exec` that has no meaning yet, and by nothing else. Safe: the model says
  nothing about such a command. -/
  | notModelled (mnemonic : String)
deriving DecidableEq, Repr

namespace State

/-! ## One setter per field -/

def withParams (s : State) (v : Params) : State := { s with params := v }
def withContours (s : State) (v : Vector (Option Contour) 64) : State := { s with contours := v }
def withJob (s : State) (v : Job) : State := { s with job := v }
def withStore (s : State) (v : Store) : State := { s with store := v }
def withPath (s : State) (v : PathUnit) : State := { s with path := v }
def withThread (s : State) (v : Option Threading) : State := { s with thread := v }
def withSlug (s : State) (v : SlugRecords) : State := { s with slug := v }
def withHolder (s : State) (v : Holder) : State := { s with holder := v }
def withModes (s : State) (v : ModeUnit) : State := { s with modes := v }
def withSensors (s : State) (v : Sensors) : State := { s with sensors := v }
def withConds (s : State) (v : Vector CondRec 28) : State := { s with conds := v }
def withJournal (s : State) (v : Journal) : State := { s with journal := v }
def withLink (s : State) (v : Link) : State := { s with link := v }
def withAgenda (s : State) (v : List Report) : State := { s with agenda := v }
def withFree (s : State) (v : Nat) : State := { s with free := v }
def withPending (s : State) (v : List Instr) : State := { s with pending := v }

end State

/-! ## Reset -/

/-- The defaults of the parameter index, taken after every reset (R68, R66, R67, R107, R111, R136,
R147, R156). -/
def Params.default : Params where
  retraceDepth := 20000
  stuckSamples := 2000
  openLimit := 5000
  dryStep := 500
  rapidStep := 10000
  override := 100
  tackSetting := 31
  lowWater := 50000
  progressEvery := 8
  checkpointEvery := 20000
  threadAttempts := 5
  searchRadius := 1000
  inGapAttempts := 2
  tipTime := 400
  feedTimeout := 4000
  retractTime := 800
  pullTimeout := 5000
  breakLimit := 5
  dropWait := 1500
  holderTimeout := 2000
  wakeSettle := 5000
  latchDisabled := false

/-- The travel window's default extent (R39). -/
def Rect.full : Rect := ⟨-4000000, 4000000, -4000000, 4000000⟩

/-- A keep-out rectangle after reset (R40). -/
def KeepOut.default : KeepOut := ⟨false, ⟨0, 0, 0, 0⟩⟩

/-- The store after every reset (R45). -/
def Store.reset : Store where
  chains := Vector.replicate 128 none
  freeSlots := Config.segmentSlots
  corrected := 0
  window := Rect.full
  keepOuts := Vector.replicate 4 KeepOut.default

/-- The job record and the contour table's own fields after every reset (R22, R91). -/
def Job.reset : Job := ⟨.idle, none, none, none, none, false, none, false, false, 0⟩

/-- The retention unit's slug records after every reset (R123). -/
def SlugRecords.reset : SlugRecords := ⟨none, .idle, none, none⟩

/-- The holder after power-on (R137). -/
def Holder.reset : Holder := ⟨.free, none, none, false, none, none⟩

/-- The mode unit after every reset (R138). -/
def ModeUnit.reset : ModeUnit := ⟨.park, false, none, false⟩

/-- A line's record after every reset, its filtered level taken from the input (R149). -/
def LineRec.reset (input : Bool) : LineRec := ⟨.activeHigh, 2, false, input, false, input, input⟩

/-- A condition record after every reset (R162). -/
def CondRec.reset (enable : Bool) : CondRec := ⟨false, enable, false, false, false⟩

/-- The condition records after every reset: all enabled but STORE_CORRECTED (6) and LINK_ERROR (8)
(R162). -/
def Cond.resetAll : Vector CondRec 28 :=
  ((Vector.replicate 28 (CondRec.reset true)).set 6 (CondRec.reset false)).set 8 (CondRec.reset false)

/-- The levels at the eight inputs in State.reset: wire whole, nothing in the lower guide, a slug in
place, holder open, door closed, tank full, AUX inputs low (DESIGN CHOICE, log entry 5). -/
def Sensors.reset : Sensors where
  lines := #v[.reset true, .reset false, .reset true, .reset false, .reset true, .reset true,
    .reset false, .reset false]
  axisFault := false
  genFault := false
  slugReference := true

/-- The path unit after power-on (R69). -/
def PathUnit.reset : PathUnit := ⟨none, none, ⟨0, 0⟩, ⟨0, 0⟩, false, 0⟩

/-- The journal after a start-up scan that found its storage blank (R168): page 0 active, its header
written with page sequence 1. That the storage was blank is a DESIGN CHOICE
(log entry 6). -/
def Journal.reset : Journal where
  mem := [(0, 0x01), (1, 0x00), (2, 0x00), (3, 0x00), (4, 0xFE)]
  active := some 0
  nextSlot := 1
  nextSeq := some 1
  nextPageSeq := 2
  erasing := none
  eraseList := []
  queue := []
  waitRoll := none
  waitFirst := false
  blocked := false
  erasingAll := false
  writing := none

/-- The link port after power-on: hunting, nothing queued, STARTUP due (R172, R176). -/
def Link.reset : Link := ⟨[], [], [], none, 0, true, false, false, true, false, false⟩

/-- The part right after power-on, before its transmitter has taken the STARTUP that is due. -/
def State.reset : State where
  params := Params.default
  contours := Vector.replicate 64 none
  job := Job.reset
  store := Store.reset
  path := PathUnit.reset
  thread := none
  slug := SlugRecords.reset
  holder := Holder.reset
  modes := ModeUnit.reset
  sensors := Sensors.reset
  conds := Cond.resetAll
  journal := Journal.reset
  link := Link.reset
  agenda := []
  free := 0
  pending := []

end Sys2Proof.Machine
end

