-- ==== Sys2Proof/Machine/Bytes.lean ====
section
/-! DEFINITION. Byte order, the CRC of a frame, the bytes of a frame on the link, and the numbers of the
enumerations (R172, R180). -/

namespace Sys2Proof.Machine

/-! ## Numbers in records: least significant byte first (R180) -/

/-- The `n` bytes of a number, least significant first; an absent value is `absentBytes`. -/
def leBytes : Nat → Nat → List Byte
  | 0, _ => []
  | n + 1, v => byte v :: leBytes n (v / 256)

/-- The number whose bytes these are, least significant first. -/
def leNat : List Byte → Nat
  | [] => 0
  | b :: bs => b.toNat + 256 * leNat bs

/-- An absent value of `n` bytes: all ones (R180). -/
def absentBytes (n : Nat) : List Byte := List.replicate n 0xFF

/-- A value of `n` bytes, or absent. -/
def optBytes (n : Nat) (v : Option Nat) : List Byte :=
  match v with
  | some x => leBytes n x
  | none => absentBytes n

/-- A signed 32-bit number in two's complement. -/
def intBytes (v : Int) : List Byte := leBytes 4 (BitVec.ofInt 32 v).toNat

/-- A position: X, then Y. -/
def pointBytes (p : Point) : List Byte := intBytes p.x ++ intBytes p.y

/-- A yes/no value (R180). -/
def boolByte (b : Bool) : Byte := if b then 1 else 0

/-- The byte at an offset of a payload; the offset is within the payload wherever the length has been
checked. -/
def u8 (p : Payload) (at' : Nat) : Nat := (p.getD at' 0).toNat

/-- The unsigned number of `n` bytes at an offset. -/
def uN (n : Nat) (p : Payload) (at' : Nat) : Nat := leNat ((p.drop at').take n)

/-- The signed 32-bit number at an offset. -/
def i32 (p : Payload) (at' : Nat) : Int := (BitVec.ofNat 32 (uN 4 p at')).toInt

/-- The position at an offset: X, then Y. -/
def pointAt (p : Payload) (at' : Nat) : Point := ⟨i32 p at', i32 p (at' + 4)⟩

/-! ## CRC (R172) -/

/-- One bit of the CRC: shift left, and the polynomial 0x1021 where a one falls out. -/
def crcBit (c : Nat) : Nat :=
  if c.testBit 15 then ((c <<< 1) % 65536) ^^^ 0x1021 else (c <<< 1) % 65536

/-- One byte of the CRC, most significant bit first. -/
def crcByte (c : Nat) (b : Byte) : Nat :=
  crcBit (crcBit (crcBit (crcBit (crcBit (crcBit (crcBit (crcBit (c ^^^ (b.toNat <<< 8)))))))))

/-- The CRC over a list of bytes: initial value 0xFFFF, nothing combined at the end. -/
def crc (bs : List Byte) : Nat := bs.foldl crcByte 0xFFFF

/-- What the CRC of a frame covers: LEN, KIND, TAG and the payload. -/
def frameBody (f : Frame) : List Byte := byte f.payload.length :: f.kind :: f.tag :: f.payload

/-- SYNC. -/
def sync : Byte := 0xA5

/-- The bytes of a frame on the link (section 11.5). -/
def frameBytes (f : Frame) : List Byte := sync :: (frameBody f ++ leBytes 2 (crc (frameBody f)))

/-! ## Enumerations, numbered from 0 in the order of their tables (R180) -/

def Role.code : Role → Nat
  | .rough => 0
  | .skim => 1
  | .sever => 2

def HoldMethod.code : HoldMethod → Nat
  | .drop => 0
  | .holder => 1
  | .tack => 2

def Attendance.code : Attendance → Nat
  | .attended => 0
  | .unattended => 1

def ContourState.code : ContourState → Nat
  | .empty => 0
  | .queued => 1
  | .threading => 2
  | .cutting => 3
  | .reentry => 4
  | .reentryWait => 5
  | .unthreading => 6
  | .bridged => 7
  | .severing => 8
  | .done => 9
  | .skipped => 10
  | .faulted => 11
  | .stopped => 12

def Retention.code : Retention → Nat
  | .attached => 0
  | .bridged => 1
  | .tacked => 2
  | .held => 3
  | .dropped => 4
  | .droppedEarly => 5
  | .released => 6
  | .lost => 7

def FaultReason.code : FaultReason → Nat
  | .stuck => 0
  | .corrupt => 1
  | .discontinuous => 2
  | .keepOut => 3
  | .breakLimit => 4
  | .threadExhausted => 5
  | .reentryFailed => 6
  | .unthreadFailed => 7

def JobState.code : JobState → Nat
  | .idle => 0
  | .stageA => 1
  | .stageB => 2
  | .severWait => 3
  | .complete => 4
  | .aborted => 5

def HolderState.code : HolderState → Nat
  | .free => 0
  | .engaging => 1
  | .holding => 2
  | .releasing => 3

def Mode.code : Mode → Nat
  | .run => 0
  | .hold => 1
  | .park => 2
  | .waking => 3

/-- The threading state by its number in R93, where IDLE is 0. -/
def threadCode : Option ThreadStep → Nat
  | none => 0
  | some .searchMove => 1
  | some .tipCut => 2
  | some .feed => 3
  | some .retract => 4
  | some .centreMove => 5
  | some .unthreadCut => 6
  | some .unthreadPull => 7

def SegKind.code : SegKind → Nat
  | .line => 0
  | .arcCw => 1
  | .arcCcw => 2

def SegMode.code : SegMode → Nat
  | .cut => 0
  | .dry => 1

/-- The chain state by its number in R24, where FREE is 0. -/
def chainStateCode : Option ChainState → Nat
  | none => 0
  | some .opened => 1
  | some .closed => 2
  | some .corrupt => 3

def Polarity.code : Polarity → Nat
  | .activeHigh => 0
  | .activeLow => 1

def RecordKind.code : RecordKind → Nat
  | .state => 0
  | .position => 1
  | .job => 2

/-- The number of a line (R149). -/
def lineNum : Line → Fin 8
  | .wireIntact => 0
  | .lowerDetect => 1
  | .slugPresent => 2
  | .holderEngaged => 3
  | .doorClosed => 4
  | .tankFull => 5
  | .aux0 => 6
  | .aux1 => 7

/-- The line of a number. -/
def lineOf (n : Fin 8) : Line :=
  match n with
  | 0 => .wireIntact
  | 1 => .lowerDetect
  | 2 => .slugPresent
  | 3 => .holderEngaged
  | 4 => .doorClosed
  | 5 => .tankFull
  | 6 => .aux0
  | 7 => .aux1

/-- A slot of the contour table from a byte of a request (R1). -/
def slotOf (n : Nat) : Option Slot := if h : n < 64 then some ⟨n, h⟩ else none

/-- A chain id from a byte of a request (R24). -/
def chainOf (n : Nat) : Option ChainId := if h : n < 128 then some ⟨n, h⟩ else none

end Sys2Proof.Machine
end

