-- ==== Sys2Proof/Machine/Geometry.lean ====
section
/-! DEFINITION. Path arithmetic: lengths, points, bounding boxes, and the tests against the travel
window and the keep-out rectangles (R29 to R32, R49, R50, R97). Angles are fixed-point numbers of 192
fractional bits, so that the rounding is that of the exact value (DEDUCED, log entry 12). -/

namespace Sys2Proof.Machine

/-! ## Roundings -/

/-- Bits of the integer square root from bit `k - 1` down. -/
def isqrtBits : Nat → Nat → Nat → Nat
  | 0, _, r => r
  | k + 1, n, r => isqrtBits k n (if (r + 2 ^ k) * (r + 2 ^ k) ≤ n then r + 2 ^ k else r)

/-- The largest whole number whose square does not exceed `n`. -/
def isqrt (n : Nat) : Nat := isqrtBits (n.log2 / 2 + 1) n 0

/-- The square root of `n`, rounded to nearest with ties upward (R49). -/
def roundRoot (n : Nat) : Nat := (isqrt (4 * n) + 1) / 2

/-- `num / den` rounded to nearest with ties away from zero (R50). -/
def roundDiv (num : Int) (den : Nat) : Int :=
  let q : Nat := (2 * num.natAbs + den) / (2 * den)
  if num < 0 then -(q : Int) else (q : Int)

/-! ## Points and vectors -/

/-- The vector from one point to another. -/
def Point.to (a b : Point) : Point := ⟨b.x - a.x, b.y - a.y⟩

def Point.add (a b : Point) : Point := ⟨a.x + b.x, a.y + b.y⟩

def cross (u v : Point) : Int := u.x * v.y - u.y * v.x

def dot (u v : Point) : Int := u.x * v.x + u.y * v.y

/-- Distance between two points, rounded to nearest with ties upward (R29, R49). -/
def distance (a b : Point) : Nat := roundRoot (dot (a.to b) (a.to b)).toNat

/-- Two positions agree within a tolerance of ticks, coordinate by coordinate (R15). -/
def within (tol : Nat) (a b : Point) : Bool :=
  decide ((a.x - b.x).natAbs ≤ tol ∧ (a.y - b.y).natAbs ≤ tol)

/-- A coordinate lies in −4,000,000…+4,000,000. -/
def coordOk (v : Int) : Bool := decide (-Config.maxCoordinate ≤ v ∧ v ≤ Config.maxCoordinate)

def Point.inRange (p : Point) : Bool := coordOk p.x && coordOk p.y

/-! ## Angles -/

/-- Fractional bits of an angle. -/
def angleBits : Nat := 192

/-- Euler's series for the arc tangent: each term is the one before times
(2n + 2) / (2n + 3) times y² / (x² + y²). -/
def arctanSum (y x : Nat) : Nat → Nat → Nat → Nat → Nat
  | 0, _, _, acc => acc
  | k + 1, n, term, acc =>
    arctanSum y x k (n + 1) (term * ((2 * n + 2) * (y * y)) / ((2 * n + 3) * (x * x + y * y)))
      (acc + term)

/-- The angle of (x, y) in the first octant, where y is at most x and x is not 0. -/
def octant (y x : Nat) : Nat := arctanSum y x 220 0 (2 ^ angleBits * (x * y) / (x * x + y * y)) 0

/-- The number π as an angle. -/
def anglePi : Nat := 4 * octant 1 1

/-- The direction of a vector, counter-clockwise from +X, from 0 up to but not including 2π. -/
def direction (v : Point) : Nat :=
  let a := v.y.natAbs
  let b := v.x.natAbs
  let base := if a ≤ b then octant a b else anglePi / 2 - octant b a
  if 0 ≤ v.x then (if 0 ≤ v.y then base else 2 * anglePi - base)
  else (if 0 ≤ v.y then anglePi - base else anglePi + base)

/-- The angle from `u` to `v` turned in the sense of the arc kind (R49): 2π for a full circle. -/
def sweep (kind : SegKind) (u v : Point) (full : Bool) : Nat :=
  if full then 2 * anglePi
  else
    match kind with
    | .arcCw => direction ⟨dot u v, -(cross u v)⟩
    | _ => direction ⟨dot u v, cross u v⟩

/-- Radius times angle, rounded to nearest with ties upward (R49). -/
def arcLength (r theta : Nat) : Nat := (2 * r * theta + 2 ^ angleBits) / 2 ^ (angleBits + 1)

/-- The alternating series of cosine (`odd` false) and sine (`odd` true) of d / r. -/
def trigSum (d r : Nat) (odd : Bool) : Nat → Nat → Nat → Bool → Int → Int
  | 0, _, _, _, acc => acc
  | k + 1, n, term, neg, acc =>
    let m := 2 * n + (if odd then 1 else 0)
    trigSum d r odd k (n + 1) (term * (d * d) / (r * r * ((m + 1) * (m + 2)))) (!neg)
      (if neg then acc - (term : Int) else acc + (term : Int))

def cosine (d r : Nat) : Int := trigSum d r false 90 0 (2 ^ angleBits) false 0

def sine (d r : Nat) : Int := trigSum d r true 90 0 (2 ^ angleBits * d / r) false 0

/-- The vector `u` turned through d / r radians in the sense of the arc kind, each component rounded to
nearest with ties away from zero (R50). -/
def turned (kind : SegKind) (u : Point) (d r : Nat) : Point :=
  let c := cosine d r
  let s := match kind with
    | .arcCw => -(sine d r)
    | _ => sine d r
  ⟨roundDiv (u.x * c - u.y * s) (2 ^ angleBits), roundDiv (u.y * c + u.x * s) (2 ^ angleBits)⟩

/-! ## Segments -/

/-- The point at distance `d` along the straight line of length `len` from `a` to `b` (R50). -/
def linePoint (a b : Point) (len d : Nat) : Point :=
  if len ≤ d then b
  else ⟨a.x + roundDiv ((b.x - a.x) * d) len, a.y + roundDiv ((b.y - a.y) * d) len⟩

/-- The point at distance `d` into a segment that starts at `start` (R50). -/
def Segment.pointFrom (g : Segment) (start : Point) (d : Nat) : Point :=
  if g.length ≤ d then g.endPt
  else
    match g.kind, g.centre, g.radius with
    | .line, _, _ => linePoint start g.endPt g.length d
    | k, some c, some r => c.add (turned k (c.to start) d r)
    | _, _, _ => start

/-- The index of the segment that contains position `pos`: the greatest cumulative start not exceeding
it; the total length lies in the last segment (R25). -/
def segmentAt (segs : List Segment) (pos : Nat) : Nat :=
  (segs.takeWhile (fun g => decide (g.cumStart ≤ pos))).length - 1

/-- The start point of the segment at an index: the end of the one before it, or the chain's start. -/
def Chain.segStart (c : Chain) (i : Nat) : Point :=
  match i with
  | 0 => c.start
  | k + 1 => match c.segs[k]? with
    | some g => g.endPt
    | none => c.start

/-- point(s) of a chain (R50). -/
def Chain.point (c : Chain) (pos : Nat) : Point :=
  let i := segmentAt c.segs pos
  match c.segs[i]? with
  | some g => g.pointFrom (c.segStart i) (pos - g.cumStart)
  | none => c.start

/-- The mode of the segment that contains a position, absent on an empty chain. -/
def Chain.modeAt (c : Chain) (pos : Nat) : Option SegMode :=
  (c.segs[segmentAt c.segs pos]?).map (·.mode)

/-! ## Bounding box of an arc (R30) -/

/-- Where the direction of `w` stands, counter-clockwise from `u`: 0 the same direction, 1 before the
half turn, 2 the half turn, 3 beyond it. -/
def turnClass (u w : Point) : Nat :=
  if 0 < cross u w then 1 else if cross u w < 0 then 3 else if 0 ≤ dot u w then 0 else 2

/-- Turning counter-clockwise from `u`, the direction `e` comes no later than `v`. -/
def reachedCcw (u e v : Point) : Bool :=
  let a := turnClass u e
  let b := turnClass u v
  decide (a < b) || (decide (a = b) && (decide (a = 0 ∨ a = 2) || decide (0 ≤ cross e v)))

/-- A vector mirrored in the X axis. -/
def Point.mirror (p : Point) : Point := ⟨p.x, -p.y⟩

/-- The arc from start vector `u` to end vector `v` reaches the direction `e`, both ends included. -/
def reaches (kind : SegKind) (u v : Point) (full : Bool) (e : Point) : Bool :=
  full || match kind with
    | .arcCw => reachedCcw u.mirror e.mirror v.mirror
    | _ => reachedCcw u e v

/-- The smallest rectangle that holds a rectangle and a point. -/
def Rect.cover (q : Rect) (p : Point) : Rect :=
  ⟨min q.xMin p.x, max q.xMax p.x, min q.yMin p.y, max q.yMax p.y⟩

/-- The bounding box of an arc: start, end, and each quadrant extreme reached. -/
def arcBox (kind : SegKind) (start endPt centre : Point) (r : Nat) : Rect :=
  let u := centre.to start
  let v := centre.to endPt
  let full := decide (start = endPt)
  let box := Rect.cover ⟨start.x, start.x, start.y, start.y⟩ endPt
  ([⟨1, 0⟩, ⟨0, 1⟩, ⟨-1, 0⟩, ⟨0, -1⟩] : List Point).foldl
    (fun q e => if reaches kind u v full e then q.cover ⟨centre.x + r * e.x, centre.y + r * e.y⟩ else q)
    box

/-! ## Work area (R31, R32) -/

/-- A point lies in a rectangle, edges included. -/
def Rect.holds (q : Rect) (p : Point) : Bool :=
  decide (q.xMin ≤ p.x ∧ p.x ≤ q.xMax ∧ q.yMin ≤ p.y ∧ p.y ≤ q.yMax)

/-- A rectangle lies in another, edges included. -/
def Rect.inside (q w : Rect) : Bool :=
  decide (w.xMin ≤ q.xMin ∧ q.xMax ≤ w.xMax ∧ w.yMin ≤ q.yMin ∧ q.yMax ≤ w.yMax)

/-- Two closed rectangles have a point in common. -/
def Rect.meets (q w : Rect) : Bool :=
  decide (q.xMin ≤ w.xMax ∧ w.xMin ≤ q.xMax ∧ q.yMin ≤ w.yMax ∧ w.yMin ≤ q.yMax)

/-- The straight line from `a` to `b`, ends included, has a point in a closed rectangle: their boxes
meet, and the corners do not all lie strictly on one side of the line. -/
def lineMeets (a b : Point) (q : Rect) : Bool :=
  let box := Rect.cover ⟨a.x, a.x, a.y, a.y⟩ b
  let side (c : Point) : Int := cross (a.to b) (a.to c)
  let corners : List Point := [⟨q.xMin, q.yMin⟩, ⟨q.xMin, q.yMax⟩, ⟨q.xMax, q.yMin⟩, ⟨q.xMax, q.yMax⟩]
  box.meets q && !(corners.all (fun c => decide (0 < side c))) &&
    !(corners.all (fun c => decide (side c < 0)))

/-- The enabled keep-out rectangles. -/
def Store.enabledKeepOuts (t : Store) : List Rect :=
  (t.keepOuts.toList.filter (·.enabled)).map (·.rect)

/-- A point lies in an enabled keep-out rectangle (R15, R26). -/
def Store.pointKeptOut (t : Store) (p : Point) : Bool := t.enabledKeepOuts.any (·.holds p)

/-- A straight line meets an enabled keep-out rectangle (R32, R65). -/
def Store.lineKeptOut (t : Store) (a b : Point) : Bool := t.enabledKeepOuts.any (lineMeets a b)

/-- A box meets an enabled keep-out rectangle (R32). -/
def Store.boxKeptOut (t : Store) (q : Rect) : Bool := t.enabledKeepOuts.any (·.meets q)

/-! ## The search ring (R97) -/

/-- The component of the ring radius at 45 degrees, rounded to nearest. -/
def diagonal (rs : Nat) : Int := (((isqrt (2 * rs * rs) + 1) / 2 : Nat) : Int)

/-- The nine search offsets, by index. -/
def searchVector (rs : Nat) (i : Nat) : Point :=
  let r : Int := rs
  let d := diagonal rs
  match i with
  | 1 => ⟨r, 0⟩
  | 2 => ⟨0, r⟩
  | 3 => ⟨-r, 0⟩
  | 4 => ⟨0, -r⟩
  | 5 => ⟨d, d⟩
  | 6 => ⟨-d, d⟩
  | 7 => ⟨-d, -d⟩
  | 8 => ⟨d, -d⟩
  | _ => ⟨0, 0⟩

end Sys2Proof.Machine
end

