-- ==== Sys2Proof/Machine/Ops.lean ====
section
/-! DEFINITION. The named reads and updates of the records, through which every meaning goes. -/

namespace Sys2Proof.Machine

namespace State

/-! ## Updates of one record by a function -/

def onJob (s : State) (f : Job → Job) : State := s.withJob (f s.job)
def onStore (s : State) (f : Store → Store) : State := s.withStore (f s.store)
def onPath (s : State) (f : PathUnit → PathUnit) : State := s.withPath (f s.path)
def onSlug (s : State) (f : SlugRecords → SlugRecords) : State := s.withSlug (f s.slug)
def onHolder (s : State) (f : Holder → Holder) : State := s.withHolder (f s.holder)
def onModes (s : State) (f : ModeUnit → ModeUnit) : State := s.withModes (f s.modes)
def onSensors (s : State) (f : Sensors → Sensors) : State := s.withSensors (f s.sensors)
def onJournal (s : State) (f : Journal → Journal) : State := s.withJournal (f s.journal)
def onLink (s : State) (f : Link → Link) : State := s.withLink (f s.link)
def onParams (s : State) (f : Params → Params) : State := s.withParams (f s.params)

/-- The running-pass record changed, where there is one. -/
def onPass (s : State) (f : RunPass → RunPass) : State :=
  s.onPath fun p => { p with pass := p.pass.map f }

/-- The threading record changed, where the unit is not IDLE. -/
def onThread (s : State) (f : Threading → Threading) : State := s.withThread (s.thread.map f)

/-- A report between blocks, worked off after those already waiting. -/
def report (s : State) (r : Report) : State := s.withAgenda (s.agenda ++ [r])

/-- The next free value: the counter rises, so that each use is fresh (DESIGN CHOICE, log entry 43). -/
def nextFree (s : State) : State := s.withFree (s.free + 1)

/-! ## Contours (R1, R3) -/

def contour (s : State) (i : Slot) : Option Contour := s.contours[i]

def setContour (s : State) (i : Slot) (c : Option Contour) : State :=
  s.withContours (s.contours.set i c)

/-- A contour record changed, where the slot is not EMPTY. -/
def onContour (s : State) (i : Slot) (f : Contour → Contour) : State :=
  s.setContour i ((s.contour i).map f)

/-- The record of the current contour (R21). -/
def curContour (s : State) : Option Contour := s.job.current.bind s.contour

/-- The current contour's record changed. -/
def onCur (s : State) (f : Contour → Contour) : State :=
  match s.job.current with
  | some i => s.onContour i f
  | none => s

/-- The state of a slot, EMPTY for one that holds no contour (R11). -/
def slotState (s : State) (i : Slot) : ContourState :=
  match s.contour i with
  | some c => c.state
  | none => .empty

/-! ## Chains (R24) -/

def chain (s : State) (c : ChainId) : Option Chain := s.store.chains[c]

def setChain (s : State) (c : ChainId) (v : Option Chain) : State :=
  s.onStore fun t => { t with chains := t.chains.set c v }

/-- A chain record changed, where the chain is not FREE. -/
def onChain (s : State) (c : ChainId) (f : Chain → Chain) : State :=
  s.setChain c ((s.chain c).map f)

/-- Every chain is FREE (R39, R40). -/
def allFree (s : State) : Bool := s.store.chains.toList.all (·.isNone)

/-! ## Lines (R149) -/

def lineRec (s : State) (l : Line) : LineRec := s.sensors.lines[lineNum l]

def setLine (s : State) (l : Line) (r : LineRec) : State :=
  s.onSensors fun n => { n with lines := n.lines.set (lineNum l) r }

/-- The active value that the blocks read. -/
def active (s : State) (l : Line) : Bool := (s.lineRec l).active

/-! ## Modes -/

def mode (s : State) : Mode := s.modes.mode

def running (s : State) : Bool := decide (s.modes.mode = .run)

/-! ## Contour properties -/

end State

/-- The pass record at a contour's pass index (R77). -/
def Contour.pass (c : Contour) : Option PassRec := c.defn.passes[c.passIndex]?

/-- Pass count of a contour. -/
def Contour.passCount (c : Contour) : Nat := c.defn.passes.length

/-- The index of the closing pass (R10): pass 0 without a bridge, the SEVER pass, which is the last,
with one. -/
def ContourDef.closingPass (d : ContourDef) : Nat :=
  match d.bridge with
  | some _ => d.passes.length - 1
  | none => 0

/-- The hold-back that a pass leaves: H for a non-SEVER pass of a bridged contour (R10). -/
def ContourDef.holdBack (d : ContourDef) (k : Nat) : Nat :=
  match d.bridge, d.passes[k]? with
  | some b, some p => if p.role = .sever then 0 else b.holdBack
  | some b, none => b.holdBack
  | none, _ => 0

/-- The reserve R of a pass (R10). -/
def ContourDef.reserve (d : ContourDef) (k : Nat) : Nat :=
  if d.holdBack k ≠ 0 then d.holdBack k
  else if k = d.closingPass ∧ d.method = .holder then d.engage.getD 0
  else 0

/-- The pass end of a pass whose chain has length `len` (R10). -/
def ContourDef.passEnd (d : ContourDef) (k len : Nat) : Nat := len - d.holdBack k

/-- The bridge is ATTENDED (R12). -/
def ContourDef.attended (d : ContourDef) : Bool :=
  match d.bridge with
  | some b => decide (b.attendance = .attended)
  | none => false

/-- The active states (R11). -/
def ContourState.isActive : ContourState → Bool
  | .threading | .cutting | .reentry | .reentryWait | .unthreading | .severing => true
  | .empty | .queued | .bridged | .done | .skipped | .faulted | .stopped => false

/-- The finished states (R11). -/
def ContourState.isFinished : ContourState → Bool
  | .done | .skipped | .faulted => true
  | .empty | .queued | .threading | .cutting | .reentry | .reentryWait | .unthreading | .bridged
  | .severing | .stopped => false

/-- CUTTING or SEVERING: a pass runs (R77). -/
def ContourState.isCutting : ContourState → Bool
  | .cutting | .severing => true
  | .empty | .queued | .threading | .reentry | .reentryWait | .unthreading | .bridged | .done
  | .skipped | .faulted | .stopped => false

/-- REENTRY or REENTRY_WAIT (R112). -/
def ContourState.isReentering : ContourState → Bool
  | .reentry | .reentryWait => true
  | .empty | .queued | .threading | .cutting | .unthreading | .bridged | .severing | .done
  | .skipped | .faulted | .stopped => false

namespace State

/-- The current contour is CUTTING or SEVERING. -/
def cutting (s : State) : Bool :=
  match s.curContour with
  | some c => c.state.isCutting
  | none => false

/-- The current contour is in REENTRY or REENTRY_WAIT. -/
def reentering (s : State) : Bool :=
  match s.curContour with
  | some c => c.state.isReentering
  | none => false

/-- The front of the running pass: the current contour's front (R46). -/
def front (s : State) : Nat :=
  match s.curContour with
  | some c => c.front
  | none => 0

/-- The reserve of the running pass (R10). -/
def reserve (s : State) : Nat :=
  match s.curContour with
  | some c => c.defn.reserve c.passIndex
  | none => 0

end State

end Sys2Proof.Machine
end

