-- ==== Sys2Proof/Machine/Flags.lean ====
section
/-! DEFINITION. Conditions: their numbers, kinds and groups, latching, the live values of the level
conditions and what a rise brings about (R142, R146, R153 to R158); with them the generator's going
off and the entry into HOLD, which they cause (R61, R140). -/

namespace Sys2Proof.Machine

/-- The number of a condition (R153). -/
def Cond.num : Cond → Fin 28
  | .doorOpen => 0
  | .tankLow => 1
  | .axisFault => 2
  | .genFault => 3
  | .aux => 4
  | .journalBlocked => 5
  | .storeCorrected => 6
  | .storeCorrupt => 7
  | .linkError => 8
  | .slugChange => 9
  | .shortRetract => 10
  | .retraceExhausted => 11
  | .gapOpen => 12
  | .chainLow => 13
  | .chainStarved => 14
  | .wireBreak => 15
  | .breakLimit => 16
  | .discontinuous => 17
  | .threadRetry => 18
  | .threadFailed => 19
  | .ingapFailed => 20
  | .slugEarly => 21
  | .slugStuck => 22
  | .holderTimeout => 23
  | .holderBusy => 24
  | .holderLost => 25
  | .jobComplete => 26
  | .contourFault => 27

/-- Validity groups (R154). -/
inductive Group where
  | always
  | gap
  | path
  | thread
deriving DecidableEq, Repr

/-- The group of a condition: Cell, Retention and Job are valid always (R153, R154). -/
def Cond.group : Cond → Group
  | .shortRetract | .retraceExhausted | .gapOpen => .gap
  | .chainLow | .chainStarved | .wireBreak | .breakLimit | .discontinuous => .path
  | .threadRetry | .threadFailed | .ingapFailed => .thread
  | .doorOpen | .tankLow | .axisFault | .genFault | .aux | .journalBlocked | .storeCorrected
  | .storeCorrupt | .linkError | .slugChange | .slugEarly | .slugStuck | .holderTimeout
  | .holderBusy | .holderLost | .jobComplete | .contourFault => .always

/-- The wake attribute (R146, R153). -/
def Cond.wakes : Cond → Bool
  | .slugChange | .holderLost | .doorOpen | .genFault | .axisFault => true
  | _ => false

/-- The level conditions that force HOLD at a rise (R142, R158). -/
def Cond.forcesHold : Cond → Bool
  | .doorOpen | .tankLow | .axisFault | .genFault | .journalBlocked => true
  | _ => false

/-- The conditions of the Job and Path groups, whose latches START_JOB clears (R76, R153). -/
def Cond.jobOrPath : List Cond :=
  [.chainLow, .chainStarved, .wireBreak, .breakLimit, .discontinuous, .jobComplete, .contourFault]

/-- The level conditions, GAP_OPEN apart, whose source is decided at each taken sample (R56, R153). -/
def Cond.levels : List Cond :=
  [.doorOpen, .tankLow, .axisFault, .genFault, .aux, .journalBlocked, .chainLow, .chainStarved,
    .holderBusy]

namespace State

def cond (s : State) (c : Cond) : CondRec := s.conds[c.num]

def setCond (s : State) (c : Cond) (r : CondRec) : State := s.withConds (s.conds.set c.num r)

/-- A condition's live value, as reported (R155). -/
def live (s : State) (c : Cond) : Bool := (s.cond c).live

/-- A condition is in force only while its group is valid (R154). -/
def groupValid (s : State) (g : Group) : Bool :=
  match g with
  | .always => true
  | .gap => s.path.genOn
  | .path => s.job.current.isSome
  | .thread => s.thread.isSome

/-! ## Generator off, HOLD and waking -/

/-- The generator is commanded off: the consecutive counts become 0, and GAP_OPEN, whose group is no
longer valid, is not live (R56, R59, R61, R154). The setting index is kept (DEDUCED, log entry 13). -/
def genOff (s : State) : State :=
  ((s.onPath fun p => { p with genOn := false }).onPass fun r =>
      { r with openCount := 0, stuckCount := 0 }).setCond .gapOpen
    { s.cond .gapOpen with live := false }

/-- The mode passes from RUN to HOLD (R140). -/
def holdEntry (s : State) : State :=
  (s.genOff.onModes fun m => { m with mode := .hold }).onPass fun r =>
    if r.sub = .moving then { r with sub := .paused } else r

/-- A forced hold: HOLD from RUN, and nothing in any other mode (R142). -/
def forceHold (s : State) : State := if s.mode = .run then s.holdEntry else s

/-- The cell is woken from PARK (R146). -/
def wakeCell (s : State) : State :=
  if s.mode = .park then
    s.onModes fun m => { m with mode := .waking, pump := true, settle := some s.params.wakeSettle }
  else s

/-! ## Latching (R156) -/

/-- A condition's event happens, or its live value rises. -/
def latch (s : State) (c : Cond) : State :=
  let r := s.cond c
  if r.latch then s
  else if r.enable then
    let t := s.setCond c { r with latch := true, pending := true }
    if c.wakes then t.wakeCell else t
  else if s.params.latchDisabled then s.setCond c { r with latch := true }
  else s

/-- An event is raised: it has no effect while its group is not valid (R154). -/
def raise (s : State) (c : Cond) : State := if s.groupValid c.group then s.latch c else s

/-- A level condition takes a live value. A rise latches it, and forces HOLD where it is one of the
five that do (R155, R158); a fall latches nothing. -/
def setLive (s : State) (c : Cond) (v : Bool) : State :=
  let r := s.cond c
  if r.live = v then s
  else
    let t := s.setCond c { r with live := v }
    if v then
      let u := t.latch c
      if c.forcesHold then u.forceHold else u
    else t

/-! ## Sources of the level conditions (R53, R130, R153, R167) -/

/-- CHAIN_LOW: the running chain is OPEN and loaded length less R less s is below LowWater (R53). -/
def chainLowSource (s : State) : Bool :=
  match s.path.pass with
  | some r =>
    match s.chain r.chain with
    | some c => decide (c.state = .opened) &&
        decide ((c.loaded : Int) - s.reserve - r.s < s.params.lowWater)
    | none => false
  | none => false

/-- CHAIN_STARVED: the contour is CUTTING or SEVERING and the running pass is STARVED (R53). -/
def chainStarvedSource (s : State) : Bool :=
  match s.path.pass with
  | some r => s.cutting && decide (r.sub = .starved)
  | none => false

/-- What the source of a level condition says. -/
def source (s : State) : Cond → Bool
  | .doorOpen => !s.active .doorClosed
  | .tankLow => !s.active .tankFull
  | .axisFault => s.sensors.axisFault
  | .genFault => s.sensors.genFault
  | .aux => s.active .aux0 || s.active .aux1
  | .journalBlocked => s.journal.blocked
  | .chainLow => s.chainLowSource
  | .chainStarved => s.chainStarvedSource
  | .holderBusy =>
    match s.holder.request with
    | some (.waiting, _) => true
    | _ => false
  | _ => false

/-- The level conditions take the values of their sources, each false while its group is not valid. -/
def refreshLevels (s : State) : State :=
  Cond.levels.foldl (fun t c => t.setLive c (t.groupValid c.group && t.source c)) s

/-- GAP_OPEN is decided: the consecutive-open count is at least OpenLimit (R56). -/
def decideGapOpen (s : State) : State :=
  match s.path.pass with
  | some r => s.setLive .gapOpen (s.path.genOn && decide (s.params.openLimit ≤ r.openCount))
  | none => s

/-- None of the five hold-forcing level conditions is live (R143). -/
def mayRun (s : State) : Bool :=
  !(s.live .doorOpen || s.live .tankLow || s.live .axisFault || s.live .genFault ||
    s.live .journalBlocked)

/-- The latch of a condition is cleared, with its noticed flag, and it leaves the pending set (R160). -/
def clearLatch (s : State) (c : Cond) : State :=
  s.setCond c { s.cond c with latch := false, noticed := false, pending := false }

/-- START_JOB clears the latches of the Job and Path groups (R76). -/
def clearJobAndPath (s : State) : State := Cond.jobOrPath.foldl clearLatch s

/-- Any condition has its latch set and its enable on (R145). -/
def latchedEnabled (s : State) : Bool := s.conds.toList.any fun r => r.latch && r.enable

/-- A NOTICE is pending: the pending set is not empty (R157). -/
def noticePending (s : State) : Bool := s.conds.toList.any (·.pending)

end State

/-- A condition set as a number in which condition n is bit n (R180). -/
def condSet (recs : List CondRec) (f : CondRec → Bool) : Nat :=
  recs.foldr (fun r n => 2 * n + (if f r then 1 else 0)) 0

namespace State

/-- A set of conditions, by a property of their records. -/
def condBits (s : State) (f : CondRec → Bool) : Nat := condSet s.conds.toList f

/-- The active line set: line n is bit n (R180). -/
def lineBits (s : State) (f : LineRec → Bool) : Nat :=
  s.sensors.lines.toList.foldr (fun r n => 2 * n + (if f r then 1 else 0)) 0

/-! ## Parking (R144, R145) -/

/-- A threading step is running: a timed step that is not held (R95). -/
def stepRunning (s : State) : Bool :=
  match s.thread with
  | some t =>
    !t.held && (match t.step with
      | .tipCut | .feed | .retract | .unthreadCut | .unthreadPull => true
      | .searchMove | .centreMove => false)
  | none => false

/-- PARK falls to be entered: an enabled latch turns it into HOLD, otherwise the mode becomes PARK
(R145). -/
def parkEntry (s : State) : State :=
  if s.latchedEnabled then
    s.onModes fun m => { m with mode := .hold, parkPending := false, settle := none, pump := true }
  else
    s.onModes fun m => { m with mode := .park, parkPending := false, settle := none, pump := false }

/-- The threading unit tells the mode unit that a step has ended or that it is IDLE: a deferred PARK is
entered (R144; DEDUCED, log entry 19). -/
def parkIfDue (s : State) : State :=
  if s.modes.parkPending && decide (s.mode = .hold) && !s.stepRunning then s.parkEntry else s

end State

end Sys2Proof.Machine
end

