-- ==== Sys2Proof/Machine/Memory.lean ====
section
/-! DEFINITION. The journal's non-volatile storage: 4 pages of 128 slots of 20 bytes (R163, R182) at the
addresses 0 to 10239, as a list of the bytes that are not all ones. -/

namespace Sys2Proof.Machine

/-- What a byte that is not listed reads as: an erased slot reads all-ones (R163). -/
def erasedByte : Byte := 0xFF

/-- The addresses of the storage. -/
def storageBytes : Nat := 10240

/-- The address of the first byte of a slot. -/
def slotAddr (page slot : Nat) : Nat := (page * 128 + slot) * 20

/-- A byte of the storage. -/
def memRead : List Host.Cell → Nat → Byte
  | [], _ => erasedByte
  | (k, v) :: m, a => if k = a then v else memRead m a

/-- A byte written: the list stays sorted, and holds no byte that reads all-ones. -/
def memWrite : List Host.Cell → Nat → Byte → List Host.Cell
  | [], a, b => if b = erasedByte then [] else [(a, b)]
  | (k, v) :: m, a, b =>
    if a < k then (if b = erasedByte then (k, v) :: m else (a, b) :: (k, v) :: m)
    else if a = k then (if b = erasedByte then m else (a, b) :: m)
    else (k, v) :: memWrite m a b

/-- Bytes written at rising addresses. -/
def memWriteAll : List Host.Cell → Nat → List Byte → List Host.Cell
  | m, _, [] => m
  | m, a, b :: bs => memWriteAll (memWrite m a b) (a + 1) bs

/-- Bytes from `a` on, `n` of them, made all-ones. -/
def memErase (m : List Host.Cell) (a n : Nat) : List Host.Cell :=
  m.filter fun c => !(decide (a ≤ c.1) && decide (c.1 < a + n))

/-- `n` bytes from an address on. -/
def memBytes (m : List Host.Cell) (a : Nat) : Nat → List Byte
  | 0 => []
  | n + 1 => memRead m a :: memBytes m (a + 1) n

/-- No byte listed from `a` on, `n` of them: all of them read all-ones. -/
def memBlank (m : List Host.Cell) (a n : Nat) : Bool :=
  m.all fun c => !(decide (a ≤ c.1) && decide (c.1 < a + n))

/-- The canonical form: addresses rise, and each entry differs from what an unlisted byte reads as. -/
def memSorted : List Host.Cell → Bool
  | [] => true
  | [c] => decide (c.2 ≠ erasedByte)
  | c :: d :: m => decide (c.2 ≠ erasedByte) && decide (c.1 < d.1) && memSorted (d :: m)

/-- The storage is well formed: canonical, and every address exists. -/
def memWf (m : List Host.Cell) : Bool := memSorted m && m.all fun c => decide (c.1 < storageBytes)

/-- The twenty bytes of a slot. -/
def slotBytes (m : List Host.Cell) (page slot : Nat) : List Byte := memBytes m (slotAddr page slot) 20

/-- A slot is blank (R163). -/
def slotBlank (m : List Host.Cell) (page slot : Nat) : Bool := memBlank m (slotAddr page slot) 20

/-- A page is blank (R163). -/
def pageBlank (m : List Host.Cell) (page : Nat) : Bool := memBlank m (slotAddr page 0) 2560

/-- A slot written with twenty bytes. -/
def slotWrite (m : List Host.Cell) (page slot : Nat) (bs : List Byte) : List Host.Cell :=
  memWriteAll m (slotAddr page slot) (bs.take 20)

/-- A slot made blank. -/
def slotErase (m : List Host.Cell) (page slot : Nat) : List Host.Cell :=
  memErase m (slotAddr page slot) 20

/-- A page made blank. -/
def pageErase (m : List Host.Cell) (page : Nat) : List Host.Cell := memErase m (slotAddr page 0) 2560

end Sys2Proof.Machine
end

