-- ==== Sys2Proof/Machine/Journal.lean ====
section
/-! DEFINITION. The progress journal: records and headers as bytes, offers, page roll, erase, the
pending queue and the start-up scan (chapter 10). -/

namespace Sys2Proof.Machine

/-! ## Slots as bytes (R163, R182) -/

/-- The check byte over the bytes it covers: 255 less their sum modulo 256. -/
def checkByte (bs : List Byte) : Byte := byte (255 - (bs.foldl (fun n b => n + b.toNat) 0) % 256)

/-- The slot number of a record, or absent. -/
def slotByte (s : Option Slot) : List Byte := optBytes 1 (s.map (·.val))

/-- The bytes 0 to 18 of a record slot. -/
def recordBody (seq : Nat) (r : JRecord) : List Byte :=
  leBytes 4 seq ++ [byte r.kind.code] ++ slotByte r.slot ++ [byte r.pass, byte r.chain, boolByte r.closed] ++
    leBytes 4 r.total ++ leBytes 4 r.front ++ [byte r.code, byte r.breaks]

/-- A record slot. -/
def recordBytes (seq : Nat) (r : JRecord) : List Byte :=
  recordBody seq r ++ [checkByte (recordBody seq r)]

/-- A header slot: page sequence, its check byte, the rest all ones. -/
def headerBytes (seq : Nat) : List Byte :=
  leBytes 4 seq ++ [checkByte (leBytes 4 seq)] ++ absentBytes 15

/-- The check byte of a record agrees with its contents. -/
def recordValid (bs : List Byte) : Bool := decide (bs.getD 19 0 = checkByte (bs.take 19))

/-- The check byte of a header agrees with its contents. -/
def headerValid (bs : List Byte) : Bool := decide (bs.getD 4 0 = checkByte (bs.take 4))

/-- The sequence number of a record, the page sequence of a header. -/
def slotSeq (bs : List Byte) : Nat := leNat (bs.take 4)

/-- The pages in ring order after a page. -/
def nextPage (p : Nat) : Nat := (p + 1) % 4

namespace Journal

/-! ## Writing (R165, R166) -/

/-- A record can be written: an active page with a slot left, and a sequence to give. -/
def canWrite (j : Journal) : Bool :=
  j.active.isSome && decide (j.nextSlot ≤ 127) && j.nextSeq.isSome

/-- The sequence after a sequence; after the largest the journal is exhausted (R165). -/
def seqAfter (n : Nat) : Option Nat := if n = Config.maxSequence then none else some (n + 1)

/-- A record is written into the next slot with the next sequence. -/
def writeRecord (j : Journal) (r : JRecord) : Journal :=
  match j.active, j.nextSeq with
  | some p, some n =>
    { j with
      mem := slotWrite j.mem p j.nextSlot (recordBytes n r)
      nextSlot := j.nextSlot + 1
      nextSeq := seqAfter n
      writing := some (p, j.nextSlot) }
  | _, _ => j

/-- The first page of the erase list begins to be erased when no erase is in progress (R166). -/
def startErase (j : Journal) : Journal :=
  match j.erasing, j.eraseList with
  | none, p :: rest => { j with erasing := some p, eraseList := rest }
  | _, _ => j

/-- A page is erasing or waits to be erased. -/
def awaitsErase (j : Journal) (p : Nat) : Bool :=
  decide (j.erasing = some p) || j.eraseList.contains p

/-- A page goes to the end of the erase list, one that is erasing or listed already too (R166). -/
def listErase (j : Journal) (p : Nat) : Journal :=
  ({ j with eraseList := j.eraseList ++ [p] }).startErase

/-- A blank page becomes the active page: its header is written with the next page sequence (R166). -/
def activate (j : Journal) (p : Nat) : Journal :=
  ({ j with
      mem := slotWrite j.mem p 0 (headerBytes j.nextPageSeq)
      active := some p
      nextSlot := 1
      nextPageSeq := if j.nextPageSeq = Config.maxSequence then Config.pageSequenceAfterLast
        else j.nextPageSeq + 1
      waitRoll := none
      writing := some (p, 0) } : Journal).listErase (nextPage p)

/-- The roll of a full page: the next page becomes active when it is blank and no erase of it is under way or
listed, otherwise the roll waits for its erase (R166; DEDUCED, log entry 22). -/
def roll (j : Journal) : Journal :=
  match j.active with
  | some p =>
    let q := nextPage p
    if pageBlank j.mem q && !j.awaitsErase q then j.activate q
    else { j with active := none, waitRoll := some q }
  | none => j

/-- A record is written, and a full page rolls. -/
def append (j : Journal) (r : JRecord) : Journal :=
  let k := j.writeRecord r
  if k.nextSlot = 128 then k.roll else k

/-! ## The pending queue (R167) -/

/-- Queued records are written from the head while the journal can write. -/
def drainGo : Nat → Journal → Journal
  | 0, j => j
  | k + 1, j =>
    match j.queue with
    | r :: rest => if j.canWrite then drainGo k (({ j with queue := rest } : Journal).append r) else j
    | [] => j

/-- The queue drains; JOURNAL_BLOCKED's source ends when it becomes empty. -/
def drain (j : Journal) : Journal :=
  let k := drainGo j.queue.length j
  { k with blocked := k.blocked && !k.queue.isEmpty }

/-- A POSITION record of the same contour and pass. -/
def samePosition (r q : JRecord) : Bool :=
  decide (r.kind = .position) && decide (q.kind = .position) && decide (q.slot = r.slot) &&
    decide (q.pass = r.pass)

/-- A list without the last element that has a property. -/
def dropLast (f : JRecord → Bool) (l : List JRecord) : List JRecord :=
  (l.reverse.eraseP f).reverse

/-- An offer that cannot be written: it takes the place of a queued POSITION, joins the queue, or is
discarded with JOURNAL_BLOCKED's source set. -/
def enqueue (j : Journal) (r : JRecord) : Journal :=
  if j.queue.any (samePosition r) then
    { j with queue := dropLast (samePosition r) j.queue ++ [r] }
  else if j.queue.length < Config.pendingRecords then { j with queue := j.queue ++ [r] }
  else { j with blocked := true }

/-- An offer is written or joins the queue (R165). -/
def take (j : Journal) (r : JRecord) : Journal :=
  if j.canWrite && j.queue.isEmpty then (j.append r).drain else j.enqueue r

/-! ## Erase (R166, R168, R171) -/

/-- Page 0 becomes active with page sequence 1 (R168, R171). -/
def activateFirst (j : Journal) : Journal :=
  { j with
    mem := slotWrite j.mem 0 0 (headerBytes 1)
    active := some 0
    nextSlot := 1
    nextPageSeq := 2
    waitRoll := none
    waitFirst := false
    writing := some (0, 0) }

/-- An erase completes: the page is blank, the next listed erase begins, and a roll or an activation that
waited for the page is made, once no further erase of it is due (DEDUCED, log entry 22). -/
def eraseDone (j : Journal) (p : Nat) : Journal :=
  let k := ({ j with mem := pageErase j.mem p, erasing := none } : Journal).startErase
  if k.erasingAll then
    if k.erasing.isNone then
      ({ k with erasingAll := false, nextSeq := some 1 } : Journal).activateFirst.drain
    else k
  else if k.awaitsErase p then k
  else if k.waitFirst && decide (p = 0) then k.activateFirst.drain
  else if k.waitRoll = some p then (k.activate p).drain
  else k

/-- JOURNAL_ERASE begins (R171). -/
def eraseAll (j : Journal) : Journal :=
  ({ j with
      active := none
      eraseList := [0, 1, 2, 3]
      waitRoll := none
      waitFirst := false
      erasingAll := true } : Journal).startErase

/-! ## The start-up scan (R168) -/

/-- The page sequence of a page's header, absent where the header is blank or its check byte fails. -/
def pageSeq (m : List Host.Cell) (p : Nat) : Option Nat :=
  if headerValid (slotBytes m p 0) then some (slotSeq (slotBytes m p 0)) else none

/-- The page whose valid header carries the highest page sequence, with that sequence (R168); of two with the same one
the page with the lower number (DESIGN CHOICE, log entry 56). -/
def newestPage (m : List Host.Cell) : Option (Nat × Nat) :=
  [0, 1, 2, 3].foldl (fun best p =>
    match pageSeq m p, best with
    | some n, some (_, k) => if k < n then some (p, n) else best
    | some n, none => some (p, n)
    | none, _ => best) none

/-- The valid records of a page, in slot order. -/
def pageRecords (m : List Host.Cell) (p : Nat) : List (List Byte) :=
  if pageBlank m p then []
  else ((List.range 127).map (fun k => slotBytes m p (k + 1))).filter recordValid

/-- The highest sequence of a list of records, 0 for none. -/
def highestSeq (rs : List (List Byte)) : Nat := rs.foldl (fun n r => max n (slotSeq r)) 0

/-- The slot after the highest-numbered slot of a page that is not blank. -/
def slotAfterLast (m : List Host.Cell) (p : Nat) : Nat :=
  (List.range 128).foldl (fun n k => if slotBlank m p k then n else k + 1) 0

/-- The scan of the storage after a reset (R168). Where it leaves the active page absent, the next slot and the next
page sequence hold 1, which nothing reads (DESIGN CHOICE, log entry 55). -/
def scan (m : List Host.Cell) : Journal :=
  let top := highestSeq ([0, 1, 2, 3].flatMap (pageRecords m))
  let base : Journal :=
    { mem := m, active := none, nextSlot := 1, nextSeq := seqAfter top, nextPageSeq := 1,
      erasing := none, eraseList := [], queue := [], waitRoll := none, waitFirst := false,
      blocked := false, erasingAll := false, writing := none }
  match newestPage m with
  | some (p, n) =>
    let q := nextPage p
    let others := [nextPage q, nextPage (nextPage q)].filter fun k =>
      !pageBlank m k && (pageSeq m k).isNone
    let j := ({ base with
        active := some p
        nextSlot := slotAfterLast m p
        nextPageSeq := if n = Config.maxSequence then Config.pageSequenceAfterLast else n + 1
        eraseList := (if pageBlank m q then [] else [q]) ++ others } : Journal).startErase
    if j.nextSlot = 128 then j.roll else j
  | none =>
    let j := ({ base with eraseList := [0, 1, 2, 3].filter fun k => !pageBlank m k } : Journal).startErase
    if pageBlank m 0 then j.activateFirst else { j with waitFirst := true }

/-- The slots of a page whose erase a reset cut short, each kept or blank by a free value (R168). -/
def cutErase (m : List Host.Cell) (p free : Nat) : List Host.Cell :=
  (List.range 128).foldl (fun n k => if Config.eraseCutKeeps free k then n else slotErase n p k) m

/-- A slot whose write a reset cut short: complete, blank, or contents whose check byte fails (R168). -/
def cutWrite (m : List Host.Cell) (p k free : Nat) : List Host.Cell :=
  match Config.writeCutLeaves free with
  | some bs =>
    let torn := (bs ++ absentBytes 20).take 20
    if (if k = 0 then headerValid torn else recordValid torn) then m
    else slotWrite (slotErase m p k) p k torn
  | none => m

/-- The storage as a reset leaves it. -/
def memAfterReset (j : Journal) (free : Nat) : List Host.Cell :=
  let m := match j.writing with
    | some (p, k) => cutWrite j.mem p k free
    | none => j.mem
  match j.erasing with
  | some p => cutErase m p free
  | none => m

/-! ## What the requests read (R169, R170) -/

/-- Pages that are neither erasing nor on the erase list. -/
def readable (j : Journal) : List Nat := [0, 1, 2, 3].filter fun p => !j.awaitsErase p

/-- The valid records of the readable pages. -/
def records (j : Journal) : List (List Byte) := j.readable.flatMap (pageRecords j.mem)

/-- The record of the highest sequence among those with a property, or absent. -/
def newest (rs : List (List Byte)) (f : List Byte → Bool) : Option (List Byte) :=
  (rs.filter f).foldl (fun best r =>
    match best with
    | some b => if slotSeq b < slotSeq r then some r else best
    | none => some r) none

end Journal

namespace State

/-- A record is offered to the journal: it is written, queued or discarded, and JOURNAL_BLOCKED takes
the value of its source (R164 to R167). -/
def offer (s : State) (r : JRecord) : State :=
  let t := s.onJournal fun j => j.take r
  t.setLive .journalBlocked t.journal.blocked

/-- A slot write made by an earlier step is complete by the time of the next (DESIGN CHOICE, log entry 10). -/
def settleWrite (s : State) : State := s.onJournal fun j => { j with writing := none }

/-- The contents of a STATE or POSITION record of a contour (R163). -/
def contourRecord (s : State) (kind : RecordKind) (i : Slot) (c : Contour) : JRecord :=
  match c.pass with
  | some p =>
    let ch := s.chain p.chain
    { kind := kind, slot := some i, pass := c.passIndex, chain := p.chain.val,
      closed := (match ch with
        | some k => decide (k.state = .closed)
        | none => false),
      total := (match ch with
        | some k => k.loaded
        | none => 0),
      front := c.front, code := c.state.code, breaks := c.breakCount }
  | none =>
    { kind := kind, slot := some i, pass := c.passIndex, chain := 0, closed := false, total := 0,
      front := c.front, code := c.state.code, breaks := c.breakCount }

/-- The STATE record of a slot; one that has become EMPTY carries the slot and EMPTY only (R163). -/
def stateRecord (s : State) (i : Slot) : JRecord :=
  match s.contour i with
  | some c => s.contourRecord .state i c
  | none => { kind := .state, slot := some i, pass := 0, chain := 0, closed := false, total := 0,
              front := 0, code := ContourState.empty.code, breaks := 0 }

/-- A JOB record of a job state and a current contour (R92, R163). -/
def jobRecord (js : JobState) (cur : Option Slot) : JRecord :=
  { kind := .job, slot := cur, pass := 0, chain := 0, closed := false, total := 0, front := 0,
    code := js.code, breaks := 0 }

/-- A PROGRESS record becomes pending; one already pending absorbs it (R175). -/
def progress (s : State) : State := s.onLink fun l => { l with progressPending := true }

/-- A contour's state has changed: it is the last-changed contour, its STATE record is offered, and
PROGRESS becomes pending (R11, R91). -/
def contourChanged (s : State) (i : Slot) : State :=
  let t := s.onJob fun j => { j with lastChanged := some i }
  (t.offer (t.stateRecord i)).progress

/-- A contour takes a state, with other changes to its record (R11). -/
def changeContour (s : State) (i : Slot) (f : Contour → Contour) : State :=
  (s.onContour i f).contourChanged i

/-- The job takes a state; a change makes PROGRESS pending (R20). -/
def setJobState (s : State) (js : JobState) : State :=
  if s.job.state = js then s
  else (s.onJob fun j => { j with state := js }).progress

end State

end Sys2Proof.Machine
end

