-- ==== Sys2Proof/Machine/Path.lean ====
section
/-! DEFINITION. The path unit: reading of slots, the stop point and the events taken there, the
generator command, the front with its completions and checkpoints, the creation of the running-pass
record, and rapid moves (chapter 3, section 2.8). -/

namespace Sys2Proof.Machine

namespace State

/-! ## Freeing and reading chains (R36, R41, R42) -/

/-- A chain becomes FREE: its slots return to the free-slot count (R36). A FREE chain stays as it is. -/
def freeChain (s : State) (c : ChainId) : State :=
  match s.chain c with
  | some k => (s.setChain c none).onStore fun t => { t with freeSlots := t.freeSlots + k.segs.length }
  | none => s

/-- An uncorrectable slot has been read: the chain becomes CORRUPT, STORE_CORRUPT is raised, and where
the chain is bound to the current contour the generator goes off and the fault is reported (R42). -/
def markCorrupt (s : State) (c : ChainId) : State :=
  let bound := match s.chain c with
    | some k => k.binding.map (·.1)
    | none => none
  let t := (s.onChain c fun k => { k with state := .corrupt }).raise .storeCorrupt
  if bound.isSome && decide (bound = s.job.current) then t.genOff.report .corrupt else t

/-- A correctable slot has been read: the content is written back, the corrected-error count rises and
STORE_CORRECTED is raised (R41, R44). -/
def correctSlot (s : State) (c : ChainId) (i : Nat) : State :=
  ((s.onChain c fun k => { k with segs := k.segs.modify i fun g => { g with check := .unchanged } }).onStore
    fun t => { t with corrected := min 255 (t.corrected + 1) }).raise .storeCorrected

/-- Slots of a chain are read in order, each checked (R41). The second part is false where a read found
an error that cannot be corrected; the slots after it are not read. -/
def readSlots (c : ChainId) : List Nat → State → State × Bool
  | [], s => (s, true)
  | i :: is, s =>
    match (s.chain c).bind fun k => k.segs[i]? with
    | some g =>
      match g.check with
      | .unchanged => readSlots c is s
      | .correctable => readSlots c is (s.correctSlot c i)
      | .uncorrectable => (s.markCorrupt c, false)
    | none => readSlots c is s

/-! ## Generator command (R60, R61) -/

/-- The position lies in a tack span, its start included and its end excluded (R60). -/
def inSpan (spans : List Span) (pos : Nat) : Bool :=
  spans.any fun t => decide (t.start ≤ pos) && decide (pos < t.start + t.length)

/-- The tack spans of the running pass: those of pass 0 of a TACK contour (R51). -/
def tackSpans (s : State) : List Span :=
  match s.curContour with
  | some c => if c.passIndex = 0 ∧ c.defn.method = .tack then c.defn.tacks.getD [] else []
  | none => []

/-- The setting index at a position: TackSetting in a tack span, else the pass's setting (R60). -/
def settingAt (s : State) (pos : Nat) : Nat :=
  if inSpan s.tackSpans pos then s.params.tackSetting
  else match s.curContour.bind Contour.pass with
    | some p => p.setting
    | none => 0

/-- The generator may be on: mode RUN, the contour CUTTING or SEVERING with sub-state MOVING,
WIRE_INTACT active, and s on a CUT segment (R60). -/
def genAllowed (s : State) : Bool :=
  match s.path.pass with
  | some r => s.running && s.cutting && decide (r.sub = .moving) && s.active .wireIntact &&
      r.cutRunStart.isSome
  | none => false

/-- The setting index is chosen for the position s (R60). -/
def chooseSetting (s : State) : State :=
  match s.path.pass with
  | some r => s.onPath fun p => { p with genSetting := s.settingAt r.s }
  | none => s

/-- The generator command follows its conditions: off where they fail, on with the setting chosen where
they come to hold, unchanged where it is on and stays on (R61). -/
def refreshGen (s : State) : State :=
  if s.genAllowed then
    if s.path.genOn then s else (s.chooseSetting.onPath fun p => { p with genOn := true }).decideGapOpen
  else s.genOff

/-! ## Stop point (R51) -/

/-- The indexes read to find the next mode boundary: from the segment at s up to the first of another
mode. -/
def boundaryReads (c : Chain) (pos : Nat) : List Nat :=
  let i := segmentAt c.segs pos
  match c.segs[i]? with
  | some g =>
    let same := ((c.segs.drop i).takeWhile fun h => decide (h.mode = g.mode)).length
    (List.range (min (same + 1) (c.segs.length - i))).map (· + i)
  | none => []

/-- The next mode boundary beyond a position (R51). -/
def modeBoundary (c : Chain) (pos : Nat) : Option Nat :=
  let i := segmentAt c.segs pos
  match c.segs[i]? with
  | some g => ((c.segs.drop i).find? fun h => decide (h.mode ≠ g.mode)).map (·.cumStart)
  | none => none

/-- The next tack boundary beyond a position (R51). -/
def tackBoundary (spans : List Span) (pos : Nat) : Option Nat :=
  ((spans.flatMap fun t => [t.start, t.start + t.length]).filter fun b => decide (pos < b)).min?

/-- The holder is HOLDING with the current contour as owner (R51). -/
def holdsForCurrent (s : State) : Bool :=
  decide (s.holder.state = .holding) && s.holder.owner.isSome && decide (s.holder.owner = s.job.current)

/-- The engage point of the running pass: L − E on the closing pass of a HOLDER contour (R7). -/
def engagePoint (c : Contour) (len : Nat) : Option Nat :=
  if c.defn.method = .holder ∧ c.passIndex = c.defn.closingPass then some (len - c.defn.engage.getD 0)
  else none

/-- The engage point as a candidate: it exists on a CLOSED chain while the holder is not HOLDING for
the contour, and lies at or beyond the position (R51). -/
def engageCandidate (s : State) (c : Contour) (k : Chain) (pos : Nat) : Option Nat :=
  if k.state = .closed ∧ s.holdsForCurrent = false then
    (engagePoint c k.loaded).filter fun e => decide (pos ≤ e)
  else none

/-- The pass end, where the chain is CLOSED (R51). -/
def endCandidate (c : Contour) (k : Chain) (pos : Nat) : Option Nat :=
  if k.state = .closed then
    (some (c.defn.passEnd c.passIndex k.loaded)).filter fun e => decide (pos ≤ e)
  else none

/-- The open-chain limit: loaded length less the reserve, not below 0 (R51). A limit below s, which the
loading rules do not lead to, counts as s (R51: the stop point does not lie below s; DEDUCED, log entry 31). -/
def limitCandidate (c : Contour) (k : Chain) (pos : Nat) : Option Nat :=
  if k.state = .opened then some (max pos (k.loaded - c.defn.reserve c.passIndex)) else none

/-- The stop point in force at a position: the smallest candidate (R51); the position itself where
there is none. -/
def stopPointAt (s : State) (c : Contour) (k : Chain) (pos : Nat) : Nat :=
  (([endCandidate c k pos, modeBoundary k pos, tackBoundary s.tackSpans pos, s.engageCandidate c k pos,
    limitCandidate c k pos].filterMap id).min?).getD pos

/-- The sub-state of a pass that may move: MOVING in RUN, PAUSED in any other mode (R47). -/
def moveState (s : State) : SubState := if s.mode = .run then .moving else .paused

/-- A waiting pass may move again (R47, R53). -/
def liftSub (s : State) : State := s.onPass fun r => { r with sub := s.moveState }

/-- The floor of the running pass: front less RetraceDepth, the cut run start and 0, the largest
(R57). -/
def floorOf (s : State) (r : RunPass) : Nat :=
  max (s.front - s.params.retraceDepth) (r.cutRunStart.getD 0)

/-- The floor and the segment index are brought up to the position, the front and the cut run start
(R48, R57). -/
def settlePosition (s : State) : State :=
  match s.path.pass with
  | some r =>
    match s.chain r.chain with
    | some k => s.onPass fun q => { q with floor := s.floorOf q, segIndex := segmentAt k.segs q.s }
    | none => s
  | none => s

/-- The mode boundary at s is taken: off a CUT run the generator goes off and the cut run start becomes
absent; onto one the cut run start becomes s (R52). -/
def takeModeBoundary (s : State) (k : Chain) : State :=
  match s.path.pass with
  | some r =>
    match k.modeAt r.s, r.cutRunStart with
    | some .dry, some _ => s.genOff.onPass fun q => { q with cutRunStart := none }
    | some .cut, none => s.onPass fun q => { q with cutRunStart := some q.s }
    | _, _ => s
  | none => s

/-- The candidates at which motion stops (R52). -/
inductive StopRow where
  | engage
  | passEnd
  | limit
deriving DecidableEq, Repr

/-- The candidate at a position that stops motion there, the first in the order of R52. -/
def stopRow (s : State) (c : Contour) (k : Chain) (pos : Nat) : Option StopRow :=
  if s.engageCandidate c k pos = some pos then some .engage
  else if endCandidate c k pos = some pos then some .passEnd
  else if limitCandidate c k pos = some pos then some .limit
  else none

/-- The event of a candidate that stops motion (R52). -/
def stopAt (s : State) : StopRow → State
  | .engage => (s.genOff.onPass fun r => { r with sub := .waitHolder }).report .engageReached
  | .passEnd => s.genOff.report .passEnd
  | .limit => s.genOff.onPass fun r => { r with sub := .starved }

/-- The tack boundary at s is taken: the setting index is chosen anew, and the generator stays as it is (R52,
R60). -/
def takeTackBoundary (s : State) (pos : Nat) : State :=
  if s.tackSpans.any fun t => decide (t.start = pos) || decide (t.start + t.length = pos) then s.chooseSetting
  else s

/-- The stop point is computed anew, and where it equals s the pass stands at it, the event that stops it being
taken (R51, R52). A pass that was STARVED and whose stop point now lies beyond s moves again (R53). -/
def recompute (s : State) : State :=
  match s.path.pass, s.curContour with
  | some r, some c =>
    match s.chain r.chain with
    | some k =>
      let (t, ok) := readSlots r.chain (boundaryReads k r.s) s
      if ok then
        let u := (t.takeModeBoundary k).settlePosition
        let stop := u.stopPointAt c k r.s
        let v := u.onPass fun q => { q with stopPoint := stop }
        if stop = r.s then
          (match v.stopRow c k r.s with
            | some row => v.stopAt row
            | none => v).refreshLevels
        else if r.sub = .starved then v.liftSub.refreshGen.refreshLevels
        else v.refreshGen.refreshLevels
      else t
    | none => s
  | _, _ => s

/-- The stop point of the running pass is computed, with no event taken (R51). The second part is false
where a slot could not be read; the stop point stays then. -/
def findStop (s : State) : State × Bool :=
  match s.path.pass, s.curContour with
  | some r, some c =>
    match s.chain r.chain with
    | some k =>
      let (t, ok) := readSlots r.chain (boundaryReads k r.s) s
      if ok then ((t.onPass fun q => { q with stopPoint := t.stopPointAt c k r.s }).settlePosition, true)
      else (t, false)
    | none => (s, false)
  | _, _ => (s, false)

/-- The stop point is computed anew without taking an event (R117, for what R112 holds). -/
def recomputeQuietly (s : State) : State :=
  let (t, ok) := s.findStop
  if ok then t.refreshLevels else t

/-- The mode boundary and the tack boundary at s are taken, with the generator command that R60 gives (R52). -/
def takeBoundaries (s : State) (k : Chain) (pos : Nat) : State :=
  ((s.takeModeBoundary k).refreshGen).takeTackBoundary pos

/-- A step has brought s to the stop point in force: the events there are taken, and the stop point is then computed
anew (R51, R52). At the pass end its event alone is taken, so that a span at or beyond the end has no effect, and
nothing is computed after it, as no motion follows (R8, R52). -/
def arrive (s : State) : State :=
  match s.path.pass, s.curContour with
  | some r, some c =>
    match s.chain r.chain with
    | some k =>
      match s.stopRow c k r.s with
      | some .passEnd => (s.stopAt .passEnd).refreshLevels
      | some row => ((s.takeBoundaries k r.s).stopAt row).refreshLevels.recomputeQuietly
      | none => (s.takeBoundaries k r.s).recompute
    | none => s
  | _, _ => s

/-! ## Front, completions and checkpoints (R57, R66, R67) -/

/-- Segments whose end lies above `f1` and at or below `f2` (R66). -/
def completedBetween (segs : List Segment) (f1 f2 : Nat) : Nat :=
  (segs.filter fun g => decide (f1 < g.cumStart + g.length) && decide (g.cumStart + g.length ≤ f2)).length

/-- Segments are completed: the count rises, and at ProgressEvery PROGRESS becomes pending (R66). -/
def complete (s : State) (n : Nat) : State :=
  match n, s.path.pass with
  | 0, _ => s
  | _, some r =>
    let total := min 255 (r.segsCompleted + n)
    let t := s.onPass fun q => { q with segsCompleted := total }
    if 0 < s.params.progressEvery ∧ s.params.progressEvery ≤ total then t.progress else t
  | _, none => s

/-- A checkpoint is offered when the front has advanced CheckpointEvery beyond the last (R67). -/
def checkpoint (s : State) : State :=
  match s.path.pass, s.job.current, s.curContour with
  | some r, some i, some c =>
    if 0 < s.params.checkpointEvery ∧ r.lastCheckpoint + s.params.checkpointEvery ≤ c.front then
      (s.onPass fun q => { q with lastCheckpoint := c.front }).offer (s.contourRecord .position i c)
    else s
  | _, _, _ => s

/-- The front rises to a position that lies beyond it (R57, R66, R67). -/
def raiseFront (s : State) (k : Chain) (pos : Nat) : State :=
  if s.front < pos then
    ((s.onCur fun c => { c with front := pos }).complete (completedBetween k.segs s.front pos)).checkpoint
  else s

/-- The running pass takes a position: s, the front, the commanded position, floor and segment index
(R57, R63). -/
def movePass (s : State) (k : Chain) (pos : Nat) : State :=
  (((s.onPass fun r => { r with s := pos }).raiseFront k pos).onPath fun p =>
    { p with commanded := k.point pos }).settlePosition.refreshLevels

/-- The segments stepped through between two positions, and those that hold them, in ascending index on a
retract too (DESIGN CHOICE, log entry 45). -/
def stepReads (k : Chain) (a b : Nat) : List Nat :=
  let i := segmentAt k.segs (min a b)
  (List.range (segmentAt k.segs (max a b) + 1 - i)).map (· + i)

/-! ## Pass record (R46, R48) -/

/-- The indexes read to find the cut run start: from the segment at s back to a DRY one or the first. -/
def runReads (k : Chain) (pos : Nat) : List Nat :=
  let i := segmentAt k.segs pos
  let before := (k.segs.take (i + 1)).reverse
  let n := (before.takeWhile fun g => decide (g.mode = .cut)).length
  (List.range (min (n + 1) before.length)).map fun d => i - d

/-- The cut run start for a position: the start of the run of CUT segments that contains it, absent on
a DRY segment and on an empty chain (R48). -/
def runStart (k : Chain) (pos : Nat) : Option Nat :=
  (((k.segs.take (segmentAt k.segs pos + 1)).reverse.takeWhile fun g =>
    decide (g.mode = .cut)).getLast?).map (·.cumStart)

/-- The running-pass record of a pass at a position (R46). Its floor and stop point are set by the
computations of R57 and R51 that follow its creation. -/
def newPass (chain : ChainId) (k : Chain) (pos : Nat) (sub : SubState) : RunPass where
  chain := chain
  s := pos
  floor := 0
  cutRunStart := runStart k pos
  stopPoint := pos
  sub := sub
  segIndex := segmentAt k.segs pos
  approach := none
  openCount := 0
  stuckCount := 0
  floorReported := false
  segsCompleted := 0
  lastCheckpoint := pos

/-- The path unit creates the running-pass record of a chain at a position, finding its cut run start by
reading back (R46, R48). The second part is false where a slot could not be read; no record is created
then (DESIGN CHOICE, log entry 49). -/
def createPass (s : State) (chain : ChainId) (k : Chain) (pos : Nat) (sub : SubState) : State × Bool :=
  let (t, ok) := readSlots chain (runReads k pos) s
  if ok then
    ((t.onPath fun p => { p with pass := some (newPass chain k pos sub) }).settlePosition, true)
  else (t, false)

/-- The running-pass record is discarded; the level conditions it made live fall (R46, R53). -/
def discardPass (s : State) : State :=
  (s.genOff.onPath fun p => { p with pass := none }).refreshLevels

/-! ## Rapid moves (R65) -/

/-- A rapid move is ordered: complete at once, refused for a keep-out rectangle, or begun. -/
def orderRapid (s : State) (owner : MoveOwner) (target : Point) : State :=
  let from' := s.path.commanded
  if target = from' then s.report (.moveDone owner)
  else if s.store.lineKeptOut from' target then s.report (.moveRefused owner)
  else s.onPath fun p =>
    { p with rapid := some ⟨from', target, distance from' target, 0, owner⟩ }

/-- A rapid step, made at a drive update in RUN. -/
def rapidStep (s : State) (m : Rapid) : State :=
  let d := m.done + min s.params.rapidStep (m.length - m.done)
  let at' := if d = m.length then m.target else linePoint m.origin m.target m.length d
  if d = m.length then
    (s.onPath fun p => { p with commanded := at', rapid := none }).report (.moveDone m.owner)
  else s.onPath fun p => { p with commanded := at', rapid := some { m with done := d } }

/-- A rapid move in progress ends with the commanded position where it stands. -/
def endRapid (s : State) : State := s.onPath fun p => { p with rapid := none }

end State

end Sys2Proof.Machine
end

