-- ==== Sys2Proof/Machine/Threading.lean ====
section
/-! DEFINITION. The threading unit: threading at the hole with its search, threading in the gap,
unthreading, and operations ended from outside (chapter 5). -/

namespace Sys2Proof.Machine

/-! ## Outputs (R94) -/

/-- The feed rollers (R94). -/
inductive Rollers where
  | off
  | forward
  | reverse
deriving DecidableEq, Repr

/-- Cutter, jet and feed rollers, as state and held field command them. -/
structure ThreadOutputs where
  cutter : Bool
  jet : Bool
  rollers : Rollers
deriving DecidableEq, Repr

namespace State

/-- The outputs of the threading mechanism: off in IDLE and in every held step (R94). -/
def threadOutputs (s : State) : ThreadOutputs :=
  match s.thread with
  | some t =>
    if t.held then ⟨false, false, .off⟩
    else match t.step with
      | .tipCut | .unthreadCut => ⟨true, false, .off⟩
      | .feed => ⟨false, true, .forward⟩
      | .retract | .unthreadPull => ⟨false, false, .reverse⟩
      | .searchMove | .centreMove => ⟨false, false, .off⟩
  | none => ⟨false, false, .off⟩

/-! ## The search pattern (R97) -/

/-- The search offset of an index. -/
def searchOffset (centre : Point) (rs i : Nat) : Point := centre.add (searchVector rs i)

/-- The next usable offset from an index on: one within the travel window (R97). -/
def nextOffset (s : State) (centre : Point) (rs from' : Nat) : Option Nat :=
  (List.range 9).find? fun i =>
    decide (from' ≤ i) && s.store.window.holds (searchOffset centre rs i)

/-! ## Steps (R93, R95) -/

/-- The unit returns to IDLE: the record's fields cease to have values. -/
def threadIdle (s : State) : State := s.withThread none

/-- The timer of the step in progress is started. -/
def startTimer (s : State) (ms : Nat) : State := s.onThread fun t => { t with timer := some ms }

/-- A step is entered: held while the mode is not RUN (R95). -/
def enterStep (s : State) (st : ThreadStep) : State :=
  s.onThread fun t => { t with step := st, timer := none, held := !s.running }

/-- The target of the search move or the centre move in progress (R98, R102). -/
def moveTarget (t : Threading) : Point :=
  match t.step, t.centre with
  | .searchMove, some c => searchOffset c (t.ring.getD 0) (t.search.getD 0)
  | _, some c => c
  | _, none => ⟨0, 0⟩

/-- Another attempt follows a failed one (R101). -/
def attemptFollows (s : State) (t : Threading) : Bool :=
  decide (t.made < t.limit) && (match t.op, t.centre with
    | .atHole, some c => (s.nextOffset c (t.ring.getD 0) (t.search.getD 0 + 1)).isSome
    | .atHole, none => false
    | _, _ => true)

/-- RETRACT is entered after a failed attempt: the decision is made, and THREAD_RETRY is raised where
another attempt follows (R101). -/
def failAttempt (s : State) : State :=
  match s.thread with
  | some t =>
    let again := s.attemptFollows t
    let u := (s.onThread fun t => { t with again := again }).enterStep .retract
    let v := if again then u.raise .threadRetry else u
    if v.running then v.startTimer v.params.retractTime else v
  | none => s

/-- CENTRE_MOVE begins: the rapid move back to the hole centre is ordered (R102). -/
def beginCentre (s : State) : State :=
  match s.thread with
  | some t => s.orderRapid .centre (moveTarget t)
  | none => s

/-- An attempt's feed has succeeded (R100, R102, R103). -/
def feedSucceeded (s : State) : State :=
  match s.thread with
  | some t =>
    match t.op with
    | .atHole =>
      let u := s.enterStep .centreMove
      if u.running then u.beginCentre else u
    | _ => s.threadIdle.report .gapThreaded
  | none => s

/-- FEED begins by reading LOWER_DETECT and WIRE_INTACT (R100); a WIRE_INTACT masked while inactive reads so, and the
attempt fails (DESIGN CHOICE, log entry 54). -/
def beginFeed (s : State) : State :=
  if s.active .lowerDetect then s.feedSucceeded
  else if !s.active .wireIntact then s.failAttempt
  else s.startTimer s.params.feedTimeout

/-- The pull is complete: the unit is IDLE and reports the wire withdrawn (R104). -/
def pullComplete (s : State) : State := s.threadIdle.report .withdrawn

/-- UNTHREAD_PULL begins by reading LOWER_DETECT (R104). -/
def beginPull (s : State) : State :=
  if s.active .lowerDetect then s.startTimer s.params.pullTimeout else s.pullComplete

/-- The step in progress begins, with its timer or its move (R95). -/
def beginStep (s : State) : State :=
  match s.thread with
  | some t =>
    match t.step with
    | .searchMove => s.orderRapid .search (moveTarget t)
    | .tipCut => s.startTimer s.params.tipTime
    | .feed => s.beginFeed
    | .retract => s.startTimer s.params.retractTime
    | .centreMove => s.beginCentre
    | .unthreadCut => s.startTimer s.params.tipTime
    | .unthreadPull => s.beginPull
  | none => s

/-- A step is entered, and begins where the mode is RUN. -/
def goStep (s : State) (st : ThreadStep) : State :=
  let u := s.enterStep st
  if u.running then u.beginStep else u

/-- A held step begins when the mode becomes RUN (R95). -/
def beginHeld (s : State) : State :=
  match s.thread with
  | some t => if t.held then (s.onThread fun t => { t with held := false }).beginStep else s
  | none => s

/-! ## Orders (R96, R98, R103, R104) -/

/-- The contour's thread attempts used rises by one, saturating at 255 (R3; DEDUCED, log entry 20). -/
def countAttempt (s : State) (i : Slot) : State :=
  s.onContour i fun c => { c with attemptsUsed := min 255 (c.attemptsUsed + 1) }

/-- An attempt of THREAD_AT_HOLE begins at the next usable offset from an index on (R98). -/
def beginHoleAttempt (s : State) (from' : Nat) : State :=
  match s.thread with
  | some t =>
    let i := s.nextOffset (t.centre.getD ⟨0, 0⟩) (t.ring.getD 0) from'
    ((s.onThread fun t => { t with made := t.made + 1, search := i }).countAttempt t.contour).goStep
      .searchMove
  | none => s

/-- An attempt of THREAD_IN_GAP begins (R103). -/
def beginGapAttempt (s : State) : State :=
  match s.thread with
  | some t =>
    ((s.onThread fun t => { t with made := t.made + 1 }).countAttempt t.contour).goStep .tipCut
  | none => s

/-- An operation record as an order fills it; the decision of R101 holds no before the first RETRACT (DESIGN CHOICE,
log entry 55). -/
def newOp (op : ThreadOp) (i : Slot) (step : ThreadStep) (limit : Nat) (centre : Option Point)
    (ring : Option Nat) : Threading :=
  ⟨op, i, step, false, limit, 0, centre, ring, none, none, false⟩

/-- THREAD_AT_HOLE is taken (R96). -/
def threadAtHole (s : State) (i : Slot) (d : ContourDef) : State :=
  (s.withThread (some (newOp .atHole i .searchMove s.params.threadAttempts (some d.centre)
    (some (min s.params.searchRadius (d.diameter / 4)))))).beginHoleAttempt 0

/-- THREAD_IN_GAP is taken; with an attempt limit of 0 it fails at once (R103). -/
def threadInGap (s : State) (i : Slot) : State :=
  if s.params.inGapAttempts = 0 then s.report .gapFailed
  else (s.withThread (some (newOp .inGap i .tipCut s.params.inGapAttempts none none))).beginGapAttempt

/-- UNTHREAD is taken (R104). Its attempt fields have no value; the record holds 0 in them, which nothing reads (DESIGN
CHOICE, log entry 55). -/
def unthread (s : State) (i : Slot) : State :=
  (s.withThread (some (newOp .unthread i .unthreadCut 0 none none))).goStep .unthreadCut

/-! ## Endings of steps -/

/-- The step timer runs in a step: its expiry is an event of that step. -/
def timing (s : State) (st : ThreadStep) : Bool :=
  match s.thread with
  | some t => decide (t.step = st) && t.timer.isSome && !t.held
  | none => false

/-- TipTime expires in TIP_CUT: FEED is entered (R99). -/
def tipCutDone (s : State) : State :=
  if s.timing .tipCut then (s.goStep .feed).parkIfDue else s

/-- FeedTimeout expires: the attempt fails (R100). -/
def feedTimedOut (s : State) : State :=
  if s.timing .feed then s.failAttempt.parkIfDue else s

/-- RetractTime expires: the next attempt begins, or exhaustion or failure is reported (R101). -/
def retractDone (s : State) : State :=
  if s.timing .retract then
    match s.thread with
    | some t =>
      (match t.op, t.again with
        | .atHole, true => s.beginHoleAttempt (t.search.getD 0 + 1)
        | .atHole, false => (s.raise .threadFailed).threadIdle.report .exhausted
        | _, true => s.beginGapAttempt
        | _, false => (s.raise .ingapFailed).threadIdle.report .gapFailed).parkIfDue
    | none => s
  else s

/-- TipTime expires in UNTHREAD_CUT: the pull begins (R104). -/
def unthreadCutDone (s : State) : State :=
  if s.timing .unthreadCut then (s.goStep .unthreadPull).parkIfDue else s

/-- PullTimeout expires: the unit is IDLE and reports the failure (R104). -/
def pullTimedOut (s : State) : State :=
  if s.timing .unthreadPull then (s.threadIdle.report .pullTimedOut).parkIfDue else s

/-- LOWER_DETECT changes: it ends a running FEED when it becomes active, and a running pull when it
becomes inactive (R100, R104). -/
def threadLowerDetect (s : State) : State :=
  if s.timing .feed && s.active .lowerDetect then s.feedSucceeded.parkIfDue
  else if s.timing .unthreadPull && !s.active .lowerDetect then s.pullComplete.parkIfDue
  else s

/-- WIRE_INTACT becomes inactive while the unit is not IDLE: a running FEED fails (R106). -/
def threadWireLost (s : State) : State :=
  if s.timing .feed then s.failAttempt.parkIfDue else s

/-- A search move is complete: TIP_CUT is entered (R98). -/
def searchMoved (s : State) : State := if s.thread.isSome then s.goStep .tipCut else s

/-- A centre move is complete: the lines are read, a masked one at its frozen value (R102; DESIGN CHOICE, log entry
54). -/
def centreMoved (s : State) : State :=
  if s.thread.isSome then
    if s.active .lowerDetect && s.active .wireIntact then s.threadIdle.report .threaded
    else s.failAttempt
  else s

/-- A search or centre move is refused: the unit is IDLE and reports KEEP_OUT (R98, R102). -/
def threadMoveRefused (s : State) : State :=
  if s.thread.isSome then s.threadIdle.report .threadKeepOut else s

/-- An operation is ended from outside: outputs off, any move ended, the unit IDLE, and no outcome
(R105); its return to IDLE is told to the mode unit (R144). -/
def endThread (s : State) : State :=
  if s.thread.isSome then s.endRapid.threadIdle.parkIfDue else s

end State

end Sys2Proof.Machine
end

