-- ==== Sys2Proof/Machine/Retention.lean ====
section
/-! DEFINITION. The retention unit: slug watch, drop wait, and the holder with its engage request
(chapter 7). -/

namespace Sys2Proof.Machine

namespace State

/-- A contour's retention is set (R5, R123). -/
def setRetention (s : State) (i : Slot) (r : Retention) : State :=
  s.onContour i fun c => { c with retention := r }

/-! ## Slug watch (R124, R125) -/

/-- An early drop of the watched contour (R125). -/
def earlyDrop (s : State) (i : Slot) : State :=
  ((((s.onSlug fun g => { g with watch := none }).setRetention i .droppedEarly).raise .slugEarly).genOff).forceHold

/-- The slug watch is armed for a contour: a SLUG_PRESENT that reads inactive is an early drop at once,
unless the line is masked (R124). -/
def armWatch (s : State) (i : Slot) : State :=
  let t := s.onSlug fun g => { g with watch := some i }
  if t.active .slugPresent || (t.lineRec .slugPresent).mask then t else t.earlyDrop i

def disarmWatch (s : State) : State := s.onSlug fun g => { g with watch := none }

/-! ## Drop wait (R127) -/

/-- The drop wait becomes IDLE with its timer stopped. -/
def dropIdle (s : State) : State :=
  s.onSlug fun g => { g with drop := .idle, dropContour := none, dropTimer := none }

/-- The drop wait's timer expires: SLUG_STUCK is raised, and HOLD is forced. -/
def dropExpired (s : State) : State :=
  ((s.onSlug fun g => { g with drop := .expired, dropTimer := none }).raise .slugStuck).forceHold

/-- The drop wait waits with its full time; a DropWait of 0 expires at once. -/
def dropWaiting (s : State) : State :=
  let t := s.onSlug fun g => { g with drop := .waiting, dropTimer := some s.params.dropWait }
  if s.params.dropWait = 0 then t.dropExpired else t

/-- The drop wait ends with a retention, and its contour proceeds. -/
def dropEnds (s : State) (r : Retention) : State :=
  match s.slug.dropContour with
  | some i => ((s.setRetention i r).dropIdle).report .proceed
  | none => s.dropIdle

/-- The drop wait starts for a contour (R127). -/
def startDrop (s : State) (i : Slot) : State :=
  let t := (s.onPass fun r => { r with sub := .slugWait }).refreshLevels.onSlug fun g =>
    { g with dropContour := some i }
  if t.active .slugPresent then t.dropWaiting else t.dropEnds .dropped

/-- The mode becomes RUN: a drop wait starts its timer afresh (R127, R143). -/
def restartDrop (s : State) : State := if s.slug.drop = .idle then s else s.dropWaiting

/-- SLUG_PRESENT becomes inactive: a drop wait ends, an armed watch takes the early drop (R125,
R127). -/
def slugGone (s : State) : State :=
  if s.slug.drop = .idle then
    match s.slug.watch with
    | some i => s.earlyDrop i
    | none => s
  else s.dropEnds .dropped

/-- The slug-free event of the current contour (R126). -/
def slugFree (s : State) : State :=
  match s.job.current, s.curContour with
  | some i, some c =>
    let t := s.disarmWatch
    match c.defn.method with
    | .drop => if c.retention = .droppedEarly then t.report .proceed else t.startDrop i
    | .holder => (if t.holdsForCurrent then t.setRetention i .held else t).report .proceed
    | .tack =>
      (if c.retention = .droppedEarly then t else t.setRetention i .tacked).report .proceed
  | _, _ => s

/-! ## Holder (R129 to R134) -/

/-- HOLDER_ENGAGED is found active while ENGAGING: the holder is HOLDING for its claimant (R131). -/
def holderConfirmed (s : State) : State :=
  let t := s.onHolder fun h =>
    { h with state := .holding, owner := h.claimant, claimant := none, timer := none }
  if t.holdsForCurrent then t.report .holderHolding else t

/-- An engage begins for a contour (R131). -/
def beginEngage (s : State) (i : Slot) : State :=
  let t := (s.onHolder fun h =>
    { h with state := .engaging, claimant := some i, output := true,
             timer := some s.params.holderTimeout, request := none }).refreshLevels
  if t.active .holderEngaged then t.holderConfirmed else t

/-- An engage request is made for a contour (R130). -/
def engageRequest (s : State) (i : Slot) : State :=
  if s.holder.state = .free then s.beginEngage i
  else if s.holder.state = .engaging ∧ s.holder.claimant = some i then s
  else (s.onHolder fun h => { h with request := some (.waiting, i) }).refreshLevels

/-- A WAITING request is taken up when the holder is FREE (R130). -/
def takeUpWaiting (s : State) : State :=
  match s.holder.request, s.holder.state with
  | some (.waiting, i), .free => s.beginEngage i
  | _, _ => s

/-- A TIMED_OUT request is taken up when the mode becomes RUN (R131). -/
def takeUpTimedOut (s : State) : State :=
  match s.holder.request with
  | some (.timedOut, i) => (s.onHolder fun h => { h with request := none }).engageRequest i
  | _ => s

/-- HolderTimeout expires while ENGAGING: a claimant that is the current contour, one taken again at a
resumed start too, is left TIMED_OUT (R131; DEDUCED, log entry 47). -/
def engageTimedOut (s : State) : State :=
  if s.holder.state = .engaging ∧ s.holder.timer.isSome then
    let claimant := s.holder.claimant
    let t := (s.raise .holderTimeout).onHolder fun h =>
      { h with state := .free, output := false, claimant := none, timer := none }
    let u := match claimant with
      | some i => if s.job.current = some i then
          t.onHolder fun h => { h with request := some (.timedOut, i) } else t
      | none => t
    u.refreshLevels.forceHold.takeUpWaiting
  else s

/-- HolderTimeout expires while RELEASING: the holder stays RELEASING (R133). -/
def releaseTimedOut (s : State) : State :=
  if s.holder.state = .releasing ∧ s.holder.timer.isSome then
    ((s.raise .holderTimeout).onHolder fun h => { h with timer := none }).forceHold
  else s

/-- A release ends: the holder is FREE and its owner RELEASED (R133). -/
def releaseDone (s : State) : State :=
  let owner := s.holder.owner
  let t := s.onHolder fun h => { h with state := .free, owner := none, timer := none }
  (match owner with
    | some i => t.setRetention i .released
    | none => t).takeUpWaiting

/-- The current contour is on its closing pass. -/
def onClosingPass (s : State) : Bool :=
  match s.curContour with
  | some c => decide (c.passIndex = c.defn.closingPass)
  | none => false

/-- The holder no longer holds for the current contour: on its closing pass the path unit computes its stop
point anew, and a report kept through re-entry is discarded, with what R112 held of the engage point (R112,
R134). -/
def lostForCurrent (s : State) : State :=
  if s.cutting then (if s.onClosingPass then s.recompute else s)
  else if s.reentering then
    (s.onJob fun j => { j with keptHolding := false }).onPass fun r =>
      if r.sub = .waitHolder then { r with sub := .paused } else r
  else s

/-- A lost slug (R134). -/
def slugLost (s : State) : State :=
  let owner := s.holder.owner
  let t := match owner with
    | some i => s.setRetention i .lost
    | none => s
  let u := ((t.raise .holderLost).onHolder fun h =>
    { h with state := .free, owner := none, output := false, timer := none }).forceHold.takeUpWaiting
  if owner.isSome ∧ owner = s.job.current then u.lostForCurrent else u

/-- HOLDER_ENGAGED changes: in FREE it has no effect (R129, R131, R133, R134). -/
def holderLine (s : State) : State :=
  match s.holder.state, s.active .holderEngaged with
  | .engaging, true => s.holderConfirmed
  | .holding, false => s.slugLost
  | .releasing, false => s.releaseDone
  | _, _ => s

/-- The current contour stops being current by SKIP_CONTOUR, ABORT_JOB or a per-contour fault (R135). -/
def retentionLeft (s : State) (i : Slot) : State :=
  let t := s.disarmWatch
  let u := if t.slug.dropContour = some i then t.dropIdle else t
  (u.onHolder fun h =>
    { h with request := match h.request with
        | some (q, k) => if k = i then none else some (q, k)
        | none => none }).refreshLevels

end State

end Sys2Proof.Machine
end

