-- ==== Sys2Proof/Machine/Job.lean ====
section
/-! DEFINITION. The contour table at work: the choice of contour, the orders to the units, passes and
stages, per-contour faults, breaks and re-entry, the taking up of cutting, the mode's becoming RUN, the
changes of the lines, and the reports between the blocks (chapters 4 and 6, R143, R149). -/

namespace Sys2Proof.Machine

/-! ## Orders (R74, R113) -/

namespace State

/-- The rapid move to point(s) of the running pass is ordered, once the slot that holds s has been read
(R48, R114; DEDUCED, log entry 34). -/
def rapidToPass (s : State) : State :=
  match s.path.pass with
  | some r =>
    match s.chain r.chain with
    | some k =>
      let (t, ok) := readSlots r.chain [segmentAt k.segs r.s] s
      if ok then t.orderRapid .contourTable (k.point r.s) else t
    | none => s
  | none => s

/-- An order of the contour table is given to its unit. -/
def order (s : State) (w : Work) : State :=
  let t := s.onJob fun j => { j with work := some w, due := false }
  match s.job.current, s.curContour with
  | some i, some c =>
    match w with
    | .openingUnthread | .stageUnthread => t.unthread i
    | .holeRapid => t.orderRapid .contourTable c.defn.centre
    | .holeThread => t.threadAtHole i c.defn
    | .gapThread => t.threadInGap i
    | .pointRapid => t.rapidToPass
    | .firstOrder | .approach => t
  | _, _ => t

/-- An order falls due: it is given in RUN, and in any other mode it waits for RUN. -/
def askOrder (s : State) (w : Work) : State :=
  if s.running then s.order w else s.onJob fun j => { j with work := some w, due := true }

/-- The current contour enters REENTRY_WAIT, and HOLD is forced (R118). -/
def enterReentryWait (s : State) : State :=
  match s.job.current with
  | some i =>
    ((s.changeContour i fun c => { c with state := .reentryWait }).onJob fun j =>
      { j with work := none, due := false }).forceHold
  | none => s

/-- The running pass's chain, where there is one. -/
def runChain (s : State) : Option (RunPass × Chain) :=
  match s.path.pass with
  | some r => (s.chain r.chain).map fun k => (r, k)
  | none => none

/-- The choice of R114, for a pass other than pass 0. -/
def laterPassChoice (s : State) (c : Contour) : State :=
  match s.runChain with
  | some (r, k) =>
    let (t, ok) := readSlots r.chain [segmentAt k.segs r.s] s
    if ok then
      if t.path.commanded ≠ k.point r.s then t.askOrder .pointRapid
      else if c.defn.inGap ∧ k.modeAt r.s = some .cut then t.askOrder .gapThread
      else t.enterReentryWait
    else t
  | none => s

/-- In-gap threading on pass 0 is to be tried at a wire position (R113, case 1). -/
def gapAllowed (s : State) (c : Contour) (k : Chain) (w : Nat) : Bool :=
  c.defn.inGap && decide (s.path.commanded = k.point w) && decide (k.modeAt w = some .cut)

/-- The wire position stays where the commanded position is point(w), and is none otherwise (R113). -/
def keepWire (s : State) (k : Chain) (w : Nat) : State :=
  if s.path.commanded = k.point w then s else s.onJob fun j => { j with wire := none }

/-- The re-entry choice (R113, R114; DEDUCED, log entry 34). -/
def reentryChoice (s : State) : State :=
  match s.curContour, s.runChain with
  | some c, some (r, k) =>
    if c.passIndex = 0 then
      match s.job.wire with
      | some w =>
        let (t, ok) := readSlots r.chain [segmentAt k.segs w] s
        if ok then
          let u := t.keepWire k w
          if u.gapAllowed c k w then u.askOrder .gapThread else u.askOrder .holeRapid
        else t
      | none => s.askOrder .holeRapid
    else s.laterPassChoice c
  | _, _ => s

/-- What follows the first order of a taken contour, or its opening unthread: the rapid move to the
start hole, or for a resumed pass other than pass 0 the choice of R114 (R74, R122). -/
def towardsHole (s : State) : State :=
  match s.curContour with
  | some c =>
    if c.state = .reentry ∧ c.passIndex ≠ 0 then s.laterPassChoice c else s.askOrder .holeRapid
  | none => s

/-- The first order of a taken or resumed contour is given: LOWER_DETECT is read (R74, R122). -/
def firstOrder (s : State) : State :=
  if s.active .lowerDetect then s.order .openingUnthread else s.towardsHole

/-- An order that is due is given where the mode is RUN. -/
def giveDue (s : State) : State :=
  if s.running && s.job.due then
    match s.job.work with
    | some .firstOrder => s.firstOrder
    | some w => s.order w
    | none => s
  else s

end State

/-! ## The choice of contour (R71) -/

/-- A BRIDGED contour is eligible for stage B (R71). -/
def Contour.eligible (c : Contour) : Bool :=
  decide (c.state = .bridged) && (match c.defn.bridge with
    | some b => decide (b.attendance = .unattended) || c.severReleased
    | none => false)

/-- What the choice comes to. -/
inductive Choice where
  /-- A contour is taken, in a stage. -/
  | take (i : Slot) (stage : JobState)
  /-- The job waits in SEVER_WAIT. -/
  | wait
  /-- The job is COMPLETE. -/
  | complete
deriving DecidableEq, Repr

/-- The job state a choice leads to. -/
def Choice.jobState : Choice → JobState
  | .take _ st => st
  | .wait => .severWait
  | .complete => .complete

/-- The contour a choice takes. -/
def Choice.current : Choice → Option Slot
  | .take i _ => some i
  | .wait | .complete => none

namespace State

/-- The lowest slot whose contour has a property. -/
def firstSlot (s : State) (f : Contour → Bool) : Option Slot :=
  (List.finRange 64).find? fun i =>
    match s.contour i with
    | some c => f c
    | none => false

/-- The choice of R71, by its five cases in order. -/
def choice (s : State) : Choice :=
  let bridged := s.firstSlot Contour.eligible
  let queued := s.firstSlot fun c => decide (c.state = .queued)
  match decide (s.job.state = .stageB), bridged, queued with
  | true, some i, _ => .take i .stageB
  | _, _, some i => .take i .stageA
  | false, some i, none => .take i .stageB
  | _, none, none =>
    if (s.firstSlot fun c => decide (c.state = .bridged)).isSome then .wait else .complete

/-- A taken contour becomes THREADING; one taken from BRIDGED goes on to its SEVER pass (R74). -/
def takenContour (c : Contour) : Contour :=
  if c.state = .bridged then
    { c with state := .threading, passIndex := c.passIndex + 1, breakPoint := none }
  else { c with state := .threading }

/-- A contour is taken (R74). -/
def takeContour (s : State) (i : Slot) (stage : JobState) : State :=
  let t := (s.setJobState stage).onJob fun j =>
    { j with current := some i, resume := none, work := some .firstOrder, due := true, wire := none,
             keptHolding := false, keptProceed := false }
  let u := t.changeContour i takenContour
  (u.onJob fun j => { j with stageFrom := match u.contour i with
    | some c => c.passIndex
    | none => 0 }).refreshLevels.giveDue

/-- The job becomes COMPLETE (R73). -/
def completeJob (s : State) : State :=
  (((s.setJobState .complete).offer (jobRecord .complete none)).raise .jobComplete).progress

/-- What a choice comes to is carried out. -/
def applyChoice (s : State) (c : Choice) : State :=
  match c with
  | .take i stage => s.takeContour i stage
  | .wait => s.setJobState .severWait
  | .complete => s.completeJob

/-- The choice of contour is made (R71, R72). -/
def choose (s : State) : State := s.applyChoice s.choice

/-! ## The current contour leaves the active states (R85, R86, R89) -/

/-- The work on the current contour ends: generator off, moves and threading ended, the running pass
discarded, and the retention unit told. Reports still under way are those of the ended work
(DEDUCED, log entry 38). -/
def endWork (s : State) (i : Slot) : State :=
  ((s.genOff.endRapid.endThread.discardPass.retentionLeft i).onJob fun j =>
    { j with work := none, due := false, wire := none, keptHolding := false, keptProceed := false }).withAgenda []

/-- The current contour becomes absent, and with it the resume point (R21). -/
def dropCurrent (s : State) : State :=
  (s.onJob fun j => { j with current := none, resume := none }).refreshLevels

end State

/-- The fault reasons that raise CONTOUR_FAULT (R88, R115). -/
def FaultReason.raisesContourFault : FaultReason → Bool
  | .stuck | .corrupt | .discontinuous | .keepOut | .reentryFailed | .unthreadFailed => true
  | .breakLimit | .threadExhausted => false

/-- The fault reasons that force HOLD (R88). -/
def FaultReason.forcesHold : FaultReason → Bool
  | .stuck | .unthreadFailed => true
  | .corrupt | .discontinuous | .keepOut | .breakLimit | .threadExhausted | .reentryFailed => false

/-- The state a per-contour fault leaves its contour in (R88). -/
def FaultReason.leaves : FaultReason → ContourState
  | .threadExhausted => .skipped
  | .stuck | .corrupt | .discontinuous | .keepOut | .breakLimit | .reentryFailed | .unthreadFailed =>
    .faulted

namespace State

/-- A per-contour fault of the current contour (R88, R89). -/
def faultCurrent (s : State) (f : FaultReason) : State :=
  match s.job.current with
  | some i =>
    let t := if f.raisesContourFault then s.raise .contourFault else s
    let u := if f.forcesHold then t.forceHold else t
    (((u.endWork i).changeContour i fun c => { c with state := f.leaves, fault := some f }).dropCurrent).choose
  | none => s

/-- The current contour is skipped (R85). -/
def skipCurrent (s : State) (i : Slot) : State :=
  (((s.endWork i).changeContour i fun c => { c with state := .skipped, fault := none }).dropCurrent).choose

/-- The job is aborted (R86; DEDUCED, log entry 18). -/
def abort (s : State) : State :=
  let t := match s.job.current with
    | some i => ((s.endWork i).changeContour i fun c => { c with state := .stopped }).dropCurrent
    | none => s.genOff
  ((t.setJobState .aborted).offer (jobRecord .aborted none)).forceHold

/-! ## Passes and stages (R78, R79, R81) -/

/-- The pass at the contour's pass index starts (R78). Where the segment read for the cut run start cannot be
corrected, the contour is faulted with no record made and with the front of the pass before it; a later slot
that fails, when the stop point is computed, finds the front at 0 (DESIGN CHOICE, log entry 49). -/
def startPass (s : State) : State :=
  match s.curContour with
  | some c =>
    match c.pass with
    | some p =>
      match s.chain p.chain with
      | some k =>
        if k.state = .corrupt then s.faultCurrent .corrupt
        else if within 2 k.start s.path.commanded = false then
          (s.raise .discontinuous).faultCurrent .discontinuous
        else
          let (t, ok) := s.createPass p.chain k 0 s.moveState
          if ok then
            ((t.onCur fun c => { c with front := 0 }).onPath fun q =>
              { q with commanded := k.start }).recompute
          else t
      | none => s
    | none => s
  | none => s

/-- The role of the pass after the one at the pass index, absent at the end of the plan. -/
def nextRole (c : Contour) : Option Role := (c.defn.passes[c.passIndex + 1]?).map (·.role)

/-- The pass at the pass index is the SEVER pass. -/
def onSever (c : Contour) : Bool := decide ((c.pass).map (·.role) = some .sever)

/-- A pass is ended: the next non-SEVER pass starts, or the stage ends (R79, R81). -/
def endPass (s : State) : State :=
  match s.job.current, s.curContour with
  | some i, some c =>
    let t := s.discardPass
    match nextRole c with
    | some .rough | some .skim =>
      (t.onContour i fun c => { c with passIndex := c.passIndex + 1, breakPoint := none }).startPass
    | some .sever | none => (t.changeContour i fun c => { c with state := .unthreading }).askOrder .stageUnthread
  | _, _ => s

/-- The pass end is reached: on the closing pass it is the slug-free event (R52, R79, R80). -/
def passEnded (s : State) : State :=
  match s.curContour with
  | some c => if c.passIndex = c.defn.closingPass then s.slugFree else s.endPass
  | none => s

/-- The chain of a pass is freed where it is still bound to that pass (R36). -/
def freePass (s : State) (i : Slot) (c : Contour) (k : Nat) : State :=
  match c.defn.passes[k]? with
  | some p =>
    if (s.chain p.chain).bind (·.binding) = some (i, k) then s.freeChain p.chain else s
  | none => s

/-- The passes from an index up to another. -/
def passesFrom (a b : Nat) : List Nat := (List.range (b + 1 - a)).map (· + a)

/-- The unthread that ends a stage is complete (R81, R124). -/
def stageDone (s : State) : State :=
  match s.job.current, s.curContour with
  | some i, some c =>
    let t := if c.defn.bridge.isSome && !onSever c then
        ((s.changeContour i fun c => { c with state := .bridged }).setRetention i .bridged).disarmWatch
      else s.changeContour i fun c => { c with state := .done }
    let u := (passesFrom s.job.stageFrom c.passIndex).foldl (fun u k => u.freePass i c k) t
    ((u.onJob fun j => { j with work := none, due := false }).dropCurrent).choose
  | _, _ => s

/-- UNTHREAD reports the wire withdrawn (R74, R81, R115). -/
def wireWithdrawn (s : State) : State :=
  match s.job.work with
  | some .openingUnthread => s.towardsHole
  | some .stageUnthread => s.stageDone
  | _ => s

/-! ## Breaks (R109 to R111) -/

/-- The wire position that a break leaves; between two orders, the one the break before it left, which the
re-entry choice then compares with the commanded position (R113). -/
def breakWire (s : State) (r : RunPass) : Option Nat :=
  if s.path.rapid.isSome then none
  else if s.cutting then some r.s
  else if s.job.work = some .approach then r.approach
  else s.job.wire

/-- A break is taken (R110, R111; DEDUCED, log entry 36). -/
def takeBreak (s : State) : State :=
  match s.job.current, s.curContour, s.path.pass with
  | some i, some c, some r =>
    let wire := s.breakWire r
    let t := (s.genOff.endRapid.onContour i fun c =>
      { c with breakPoint := some (c.passIndex, r.s) }).raise .wireBreak
    if s.params.breakLimit ≤ c.breakCount then (t.raise .breakLimit).faultCurrent .breakLimit
    else
      let u := t.onJob fun j => { j with wire := wire, work := none, due := false }
      let v := if c.state.isCutting then
          (u.changeContour i fun c => { c with state := .reentry, breakCount := c.breakCount + 1 }).refreshLevels
        else u.onContour i fun c => { c with breakCount := c.breakCount + 1 }
      v.reentryChoice
  | _, _, _ => s

/-! ## Re-entry (R113 to R118) -/

/-- The dry re-approach begins at a position; at s it is complete at once (R64, R113;
DEDUCED, log entry 35). -/
def beginApproach (s : State) (a : Nat) : State :=
  match s.path.pass with
  | some r =>
    let t := s.onJob fun j => { j with work := some .approach, due := false }
    if r.s ≤ a then (t.onPass fun q => { q with approach := none }).report .approachDone
    else t.onPass fun q => { q with approach := some a }
  | none => s

/-- CUTTING, or SEVERING on the SEVER pass. -/
def cutState (c : Contour) : ContourState := if onSever c then .severing else .cutting

/-- The resumed take-up asks for the holder: the closing pass of a HOLDER contour at a position beyond
the engage point, with the holder not HOLDING for it (R130). -/
def resumeEngages (s : State) (c : Contour) (r : RunPass) (k : Chain) : Bool :=
  !s.holdsForCurrent && (match engagePoint c k.loaded with
    | some e => decide (e < r.s)
    | none => false)

/-- Cutting is taken up at s (R117); at a resumed start the slug watch is armed and the holder asked for
(R124, R130; DEDUCED, log entry 33), also where the computation of the stop point before it finds a slot that cannot be
read (DESIGN CHOICE, log entry 52). -/
def takeUp (s : State) : State :=
  match s.job.current, s.curContour, s.runChain with
  | some i, some c, some (r, k) =>
    let resumed := s.job.resume.isSome
    let keptHolding := s.job.keptHolding
    let keptProceed := s.job.keptProceed
    let t := if resumed && decide (c.passIndex ≤ c.defn.closingPass) then s.armWatch i else s
    let u := (t.changeContour i fun c => { c with state := cutState c }).onJob fun j =>
      { j with work := none, due := false, wire := none, resume := none, keptHolding := false,
               keptProceed := false }
    let (v, ok) := readSlots r.chain (runReads k r.s) u
    if ok then
      let w := (v.onPass fun q =>
        { q with approach := none, floorReported := false, cutRunStart := runStart k r.s }).onPath fun p =>
          { p with commanded := k.point r.s }
      if r.sub = .slugWait then
        if keptProceed then w.endPass else w.recomputeQuietly
      else if r.sub = .waitHolder ∧ keptHolding = false then w.recomputeQuietly
      else if resumed && w.resumeEngages c r k then
        ((w.onPass fun q => { q with sub := .waitHolder }).recomputeQuietly).engageRequest i
      else w.liftSub.recompute
    else v
  | _, _, _ => s

/-- THREAD_AT_HOLE succeeded (R75, R115, R124). -/
def holeThreaded (s : State) : State :=
  match s.job.current, s.curContour with
  | some i, some c =>
    if c.state = .threading then
      (((s.armWatch i).changeContour i fun c => { c with state := cutState c }).onJob fun j =>
        { j with work := none, due := false }).startPass
    else s.beginApproach 0
  | _, _ => s

/-- THREAD_AT_HOLE is exhausted (R75, R115). -/
def holeExhausted (s : State) : State :=
  match s.curContour with
  | some c =>
    if c.state = .threading then s.faultCurrent .threadExhausted else s.faultCurrent .reentryFailed
  | none => s

/-- THREAD_IN_GAP succeeded (R113, R114). -/
def gapThreaded (s : State) : State :=
  match s.curContour, s.path.pass with
  | some c, some r =>
    if c.passIndex = 0 then s.beginApproach (s.job.wire.getD r.s) else s.takeUp
  | _, _ => s

/-- THREAD_IN_GAP failed (R113, R114). -/
def gapFailed (s : State) : State :=
  match s.curContour with
  | some c => if c.passIndex = 0 then s.askOrder .holeRapid else s.enterReentryWait
  | none => s

/-- A rapid move of the contour table is complete (R75, R113, R114). -/
def tableMoveDone (s : State) : State :=
  match s.job.work with
  | some .holeRapid => s.askOrder .holeThread
  | some .pointRapid =>
    match s.curContour with
    | some c => s.laterPassChoice c
    | none => s
  | _ => s

/-- The holder is HOLDING for the current contour (R112, R131). -/
def holderHolds (s : State) : State :=
  if s.cutting then
    let waiting := (s.path.pass.map (·.sub)) = some .waitHolder
    (if waiting then s.liftSub else s).recompute
  else if s.reentering then s.onJob fun j => { j with keptHolding := true }
  else s

/-- The retention unit lets the contour proceed (R80, R112). -/
def proceed (s : State) : State :=
  if s.cutting then s.endPass
  else if s.reentering then s.onJob fun j => { j with keptProceed := true }
  else s

/-! ## Reports between the blocks -/

/-- A report is taken by the block it is meant for. -/
def handle (s : State) : Report → State
  | .moveDone .contourTable => s.tableMoveDone
  | .moveDone .search => s.searchMoved
  | .moveDone .centre => s.centreMoved
  | .moveRefused .contourTable => s.faultCurrent .keepOut
  | .moveRefused .search => s.threadMoveRefused
  | .moveRefused .centre => s.threadMoveRefused
  | .engageReached =>
    match s.job.current with
    | some i => s.engageRequest i
    | none => s
  | .passEnd => s.passEnded
  | .approachDone => s.takeUp
  | .stuck => s.faultCurrent .stuck
  | .corrupt => s.faultCurrent .corrupt
  | .threaded => s.holeThreaded
  | .exhausted => s.holeExhausted
  | .threadKeepOut => s.faultCurrent .keepOut
  | .gapThreaded => s.gapThreaded
  | .gapFailed => s.gapFailed
  | .withdrawn => s.wireWithdrawn
  | .pullTimedOut => s.faultCurrent .unthreadFailed
  | .holderHolding => s.holderHolds
  | .proceed => s.proceed

/-- Reports are taken in the order they were made, up to a number of them. -/
def settleGo : Nat → State → State
  | 0, s => s
  | n + 1, s =>
    match s.agenda with
    | [] => s
    | r :: rest => settleGo n ((s.withAgenda rest).handle r)

/-- The reports of a step are worked off (DESIGN CHOICE, log entry 4). -/
def settle (s : State) : State := settleGo Config.reportsPerStep s

/-! ## The mode becomes RUN (R143) -/

/-- A PAUSED pass becomes MOVING, and the generator comes on where R60 allows. -/
def resumePass (s : State) : State :=
  (s.onPass fun r => if r.sub = .paused then { r with sub := .moving } else r).refreshGen

/-- The mode unit sets the mode to RUN, and the blocks take up their work (DEDUCED, log entry 37). -/
def toRun (s : State) : State :=
  ((s.onModes fun m => { m with mode := .run, parkPending := false }).resumePass.beginHeld.giveDue).restartDrop.takeUpTimedOut

/-! ## Lines (R109, R149, R156) -/

/-- WIRE_INTACT has changed (R61, R106, R109). -/
def wireLine (s : State) : State :=
  if s.active .wireIntact then
    match s.path.pass with
    | some _ => s.refreshGen
    | none => s
  else if s.thread.isSome then s.threadWireLost
  else match s.curContour with
    | some c => if c.state.isCutting || decide (c.state = .reentry) then s.takeBreak else s
    | none => s

/-- SLUG_PRESENT has changed: SLUG_CHANGE is decided against the reference, and the retention unit takes
a slug that is gone (R125, R127, R156). -/
def slugLine (s : State) : State :=
  let t := if s.active .slugPresent = s.sensors.slugReference then s else s.raise .slugChange
  if t.active .slugPresent then t else t.slugGone

/-- The active value of a line has changed, and the blocks that read it take the change (R149). -/
def lineChanged (s : State) : Line → State
  | .wireIntact => s.wireLine
  | .lowerDetect => s.threadLowerDetect
  | .slugPresent => s.slugLine
  | .holderEngaged => s.holderLine
  | .doorClosed => s.refreshLevels
  | .tankFull => s.refreshLevels
  | .aux0 => s.refreshLevels
  | .aux1 => s.refreshLevels

end State

end Sys2Proof.Machine
end

