-- ==== Sys2Proof/Machine/Lines.lean ====
section
/-! DEFINITION. The filters of the sensor lines: levels taken, inputs followed, masking and polarity (R149
to R152). -/

namespace Sys2Proof.Machine

/-- The active value of a level under a polarity (R149). -/
def Polarity.matches (p : Polarity) (level : Bool) : Bool :=
  match p with
  | .activeHigh => level
  | .activeLow => !level

namespace State

/-- A line's record is replaced; where the active value changes, the blocks that read the line take the
change. -/
def putLine (s : State) (l : Line) (r : LineRec) : State :=
  let t := s.setLine l r
  if r.active = s.active l then t else t.lineChanged l

/-- The filtered level of an unmasked line takes the input's level (R150). -/
def takeLevel (s : State) (l : Line) : State :=
  let r := s.lineRec l
  s.putLine l { r with level := r.input, holding := false, active := r.polarity.matches r.input }

/-- The filter of an unmasked line follows its input: a new level starts the hold, which a filter time
of 0 ends at once, and a return to the filtered level stops it (R150). -/
def follow (s : State) (l : Line) : State :=
  let r := s.lineRec l
  if r.input = r.level then s.setLine l { r with holding := false }
  else if r.filter = 0 then s.takeLevel l
  else s.setLine l { r with holding := true }

/-- The input of a line takes a level; a masked line does not follow it (R150, R151). -/
def inputChange (s : State) (l : Line) (high : Bool) : State :=
  let t := s.setLine l { s.lineRec l with input := high }
  if (t.lineRec l).mask then t else t.follow l

/-- The hold of a line has lasted for the filter time (R150). -/
def filterExpiry (s : State) (l : Line) : State :=
  if (s.lineRec l).holding then s.takeLevel l else s

/-- Step 1 of R152: a line is frozen, its hold discarded. -/
def freeze (s : State) (l : Line) : State :=
  s.setLine l { s.lineRec l with mask := true, holding := false }

/-- The time that a running hold has lasted, below its filter time (DESIGN CHOICE, log entry 8). -/
def heldFor (s : State) (r : LineRec) : Nat := Config.heldTime s.free % r.filter

/-- Step 2 of R152: polarity and filter time are written. On an unmasked line the active value follows
the new polarity, and a running hold is measured against the new filter time. Where one request does both, the
flip is a change that the blocks take, and then the level is taken (DESIGN CHOICE, log entry 50). -/
def rewrite (s : State) (l : Line) (p : Polarity) (f : Nat) : State :=
  let r := s.lineRec l
  if r.mask then s.setLine l { r with polarity := p, filter := f }
  else
    let t := (s.putLine l { r with polarity := p, filter := f, active := p.matches r.level }).settle
    if r.holding && decide (f ≠ r.filter) then
      if f ≤ s.heldFor r then t.nextFree.takeLevel l else t.nextFree
    else t

/-- Step 3 of R152: a masked line is unmasked; its frozen level is read by the polarity in force, and the
input is followed anew (DEDUCED, log entry 21). -/
def unmask (s : State) (l : Line) : State :=
  let r := s.lineRec l
  ((s.putLine l { r with mask := false, active := r.polarity.matches r.level }).settle).follow l

/-- CONFIG_LINE is taken: the three steps of R152 in order. -/
def configure (s : State) (l : Line) (p : Polarity) (f : Nat) (mask : Bool) : State :=
  let masked := (s.lineRec l).mask
  let t := if mask && !masked then s.freeze l else s
  let u := t.rewrite l p f
  if !mask && masked then u.unmask l else u

end State

end Sys2Proof.Machine
end

