-- ==== Sys2Proof/Machine/Operands.lean ====
section
/-! DEFINITION. What a request carries and what its reply carries: status codes, answers, the payload
forms of the requests, and the layouts of segments, contours and pass records (R173, R179 to R181). -/

namespace Sys2Proof.Machine

/-! ## Answers (R173) -/

/-- The status codes, numbered in this order. -/
inductive Status where
  | ok
  | accepted
  | clamped
  | unknownKind
  | badLength
  | badValue
  | wrongState
  | notFound
  | inUse
  | storeFull
  | geometry
  | window
  | keepOut
  | mismatch
deriving DecidableEq, Repr

def Status.code : Status → Nat
  | .ok => 0
  | .accepted => 1
  | .clamped => 2
  | .unknownKind => 3
  | .badLength => 4
  | .badValue => 5
  | .wrongState => 6
  | .notFound => 7
  | .inUse => 8
  | .storeFull => 9
  | .geometry => 10
  | .window => 11
  | .keepOut => 12
  | .mismatch => 13

/-- What a request comes to: the state it leaves, the status of its reply, and the contents that follow
the free-slot count, taken from the part as it stands when the reply is formed. -/
structure Answer where
  state : State
  status : Status
  extra : State → List Byte

/-- A refusal: no effect, and nothing after the count. -/
def refuse (s : State) (st : Status) : Answer := ⟨s, st, fun _ => []⟩

/-- A refusal that names an index (R15, R28). -/
def refuseAt (s : State) (st : Status) (i : Nat) : Answer := ⟨s, st, fun _ => [byte i]⟩

/-- A request taken with status OK and nothing after the count. -/
def done (s : State) : Answer := ⟨s, .ok, fun _ => []⟩

/-- A request taken with status OK and contents. -/
def report (s : State) (f : State → List Byte) : Answer := ⟨s, .ok, f⟩

/-- A request whose payload has one length only (R173). -/
def ofLength (n : Nat) (p : Payload) (s : State) (f : Payload → State → Answer) : Answer :=
  if p.length = n then f p s else refuse s .badLength

/-- A request whose first byte names a slot of the contour table (R1). -/
def withSlot (p : Payload) (s : State) (f : Slot → State → Answer) : Answer :=
  match slotOf (u8 p 0) with
  | some i => f i s
  | none => refuse s .badValue

/-- A request whose first byte names a chain (R24). -/
def withChain (p : Payload) (s : State) (f : ChainId → State → Answer) : Answer :=
  match chainOf (u8 p 0) with
  | some c => f c s
  | none => refuse s .badValue

/-- A value brought into a range. -/
def clamp (lo hi v : Nat) : Nat := max lo (min hi v)

/-- An absent or present slot as a byte. -/
def slotOpt (i : Option Slot) : List Byte := optBytes 1 (i.map (·.val))

/-- A position along a chain, or absent. -/
def posOpt (v : Option Nat) : List Byte := optBytes 4 v

/-! ## Segments as they travel (R181) -/

/-- The bytes of a segment, from its first byte: 17 for an arc, 9 for any other kind field. -/
def segSize (b : Byte) : Nat :=
  if b.toNat % 4 = 1 ∨ b.toNat % 4 = 2 then 17 else 9

/-- The segments of a message, each as its bytes; absent where the payload is not as long as its count
and kinds declare. -/
def splitSegs : Nat → Payload → Option (List Payload)
  | 0, [] => some []
  | 0, _ :: _ => none
  | _ + 1, [] => none
  | n + 1, b :: bs =>
    if segSize b ≤ (b :: bs).length then
      (splitSegs n ((b :: bs).drop (segSize b))).map fun rest => (b :: bs).take (segSize b) :: rest
    else none

/-- The kind of a segment, absent for a kind field of 3 or a byte with bits 2 to 6 not 0. -/
def segKindOf (b : Byte) : Option SegKind :=
  match b.toNat % 128 with
  | 0 => some .line
  | 1 => some .arcCw
  | 2 => some .arcCcw
  | _ => none

/-- The mode of a segment: bit 7. -/
def segModeOf (b : Byte) : SegMode := if b.toNat < 128 then .cut else .dry

/-! ## The contour definition as it travels (R181) -/

/-- The fields of a DEFINE_CONTOUR payload, before any check. -/
structure RawContour where
  slot : Nat
  centre : Point
  diameter : Nat
  inGap : Nat
  method : Nat
  presence : Nat
  bridge : Option (Nat × Nat)
  engage : Option Nat
  tacks : Option (List Span)
  passes : List Payload
deriving DecidableEq, Repr

/-- Pieces of a fixed size, as many as a count says. -/
def chunks (size : Nat) : Nat → Payload → List Payload
  | 0, _ => []
  | n + 1, p => p.take size :: chunks size n (p.drop size)

/-- The fields of a DEFINE_CONTOUR payload; absent where its length does not agree with its presence
flags and counts. -/
def rawContour (p : Payload) : Option RawContour :=
  if p.length < 15 then none
  else
    let pres := u8 p 13
    let has (bit : Nat) : Bool := pres.testBit bit
    let atBridge := 14
    let atEngage := atBridge + (if has 0 then 5 else 0)
    let atTacks := atEngage + (if has 1 then 2 else 0)
    let nTacks := u8 p atTacks
    let atPasses := atTacks + (if has 2 then 1 + 6 * nTacks else 0)
    let nPasses := u8 p atPasses
    if p.length = atPasses + 1 + 10 * nPasses then
      some {
        slot := u8 p 0
        centre := pointAt p 1
        diameter := uN 2 p 9
        inGap := u8 p 11
        method := u8 p 12
        presence := pres
        bridge := if has 0 then some (uN 4 p atBridge, u8 p (atBridge + 4)) else none
        engage := if has 1 then some (uN 2 p atEngage) else none
        tacks := if has 2 then
            some ((chunks 6 nTacks (p.drop (atTacks + 1))).map fun q => ⟨uN 4 q 0, uN 2 q 4⟩)
          else none
        passes := chunks 10 nPasses (p.drop (atPasses + 1)) }
    else none

def roleOf (n : Nat) : Option Role :=
  match n with
  | 0 => some .rough
  | 1 => some .skim
  | 2 => some .sever
  | _ => none

def methodOf (n : Nat) : Option HoldMethod :=
  match n with
  | 0 => some .drop
  | 1 => some .holder
  | 2 => some .tack
  | _ => none

def attendanceOf (n : Nat) : Option Attendance :=
  match n with
  | 0 => some .attended
  | 1 => some .unattended
  | _ => none

/-- A pass record as taken, its tuning fields clamped (R4); absent where a structural field is out of
its range. -/
def passOf (q : Payload) : Option PassRec :=
  match roleOf (u8 q 0), chainOf (u8 q 1) with
  | some role, some chain =>
    if u8 q 2 ≤ 31 then
      some { role := role, chain := chain, setting := u8 q 2, vset := u8 q 3, gain := u8 q 4,
             feedMax := clamp 1 2000 (uN 2 q 5), retractStep := clamp 0 2000 (uN 2 q 7),
             shortLimit := clamp 1 63 (u8 q 9) }
    else none
  | _, _ => none

/-- Every element of a list has a value. -/
def allSome {α : Type} : List (Option α) → Option (List α)
  | [] => some []
  | none :: _ => none
  | some a :: rest => (allSome rest).map (a :: ·)

/-- A pass record in its layout on the link. -/
def passBytes (p : PassRec) : List Byte :=
  [byte p.role.code, byte p.chain.val, byte p.setting, byte p.vset, byte p.gain] ++
    leBytes 2 p.feedMax ++ leBytes 2 p.retractStep ++ [byte p.shortLimit]

/-- The pass count and the pass records. -/
def passesBytes (ps : List PassRec) : List Byte := byte ps.length :: ps.flatMap passBytes

/-- A definition in the DEFINE_CONTOUR layout. -/
def defnBytes (i : Slot) (d : ContourDef) : List Byte :=
  [byte i.val] ++ pointBytes d.centre ++ leBytes 2 d.diameter ++ [boolByte d.inGap, byte d.method.code,
    byte ((if d.bridge.isSome then 1 else 0) + (if d.engage.isSome then 2 else 0) +
      (if d.tacks.isSome then 4 else 0))] ++
  (match d.bridge with
    | some b => leBytes 4 b.holdBack ++ [byte b.attendance.code]
    | none => []) ++
  (match d.engage with
    | some e => leBytes 2 e
    | none => []) ++
  (match d.tacks with
    | some ts => byte ts.length :: ts.flatMap fun t => leBytes 4 t.start ++ leBytes 2 t.length
    | none => []) ++
  passesBytes d.passes

/-- A stored segment with all the fields of R25, absent centre and radius as absent values
(DEDUCED, log entry 27). -/
def segBytes (g : Segment) : List Byte :=
  [byte g.kind.code, byte g.mode.code] ++ pointBytes g.endPt ++
  (match g.centre with
    | some c => pointBytes c
    | none => absentBytes 8) ++
  leBytes 4 g.length ++ posOpt g.radius ++ leBytes 4 g.cumStart

end Sys2Proof.Machine
end

