-- ==== Sys2Proof/Machine/ConditionRequests.lean ====
section
/-! DEFINITION. The requests of lines and conditions: CONFIG_LINE, ENABLE_CONDITIONS, CLEAR_CONDITIONS and
QUERY_CONDITIONS (R152, R159 to R161). -/

namespace Sys2Proof.Machine

/-! ## CONFIG_LINE (R152) -/

def polarityOf (n : Nat) : Option Polarity :=
  match n with
  | 0 => some .activeHigh
  | 1 => some .activeLow
  | _ => none

/-- The line of a number in a request. -/
def lineOfNat (n : Nat) : Option Line := if h : n < 8 then some (lineOf ⟨n, h⟩) else none

def takeConfigLine (p : Payload) (s : State) : Answer :=
  ofLength 4 p s fun p s =>
    match lineOfNat (u8 p 0), polarityOf (u8 p 1) with
    | some l, some pol =>
      if 1 < u8 p 3 then refuse s .badValue
      else
        let t := s.configure l pol (min 15 (u8 p 2)) (decide (u8 p 3 = 1))
        if u8 p 2 ≤ 15 then done t else ⟨t, .clamped, fun _ => [15]⟩
    | _, _ => refuse s .badValue

/-! ## Sets of conditions (R180) -/

/-- Condition n is in a set. -/
def inSet (set n : Nat) : Bool := set.testBit n

/-- A set names no number above 27. -/
def setOk (set : Nat) : Bool := decide (set < 2 ^ 28)

namespace State

/-- Every condition record changed, by its number. -/
def mapConds (s : State) (f : Nat → CondRec → CondRec) : State :=
  s.withConds (s.conds.mapFinIdx fun i r _ => f i r)

end State

/-- The record of a condition under a new enable (R159). -/
def CondRec.enabled (r : CondRec) (on : Bool) : CondRec :=
  if r.enable = on then r
  else if on then { r with enable := true, pending := r.pending || (r.latch && !r.noticed) }
  else { r with enable := false, pending := false }

/-- The record of a condition whose latch is cleared (R160). -/
def CondRec.cleared (r : CondRec) : CondRec := { r with latch := false, noticed := false, pending := false }

/-- ENABLE_CONDITIONS: the enable set whole (R159). -/
def takeEnableConditions (p : Payload) (s : State) : Answer :=
  ofLength 4 p s fun p s =>
    if setOk (uN 4 p 0) then done (s.mapConds fun n r => r.enabled (inSet (uN 4 p 0) n))
    else refuse s .badValue

/-- CLEAR_CONDITIONS (R160). -/
def takeClearConditions (p : Payload) (s : State) : Answer :=
  ofLength 4 p s fun p s =>
    if setOk (uN 4 p 0) then done (s.mapConds fun n r => if inSet (uN 4 p 0) n then r.cleared else r)
    else refuse s .badValue

/-- What QUERY_CONDITIONS reports (R161, R181). -/
def conditionBytes (s : State) : List Byte :=
  leBytes 4 (s.condBits (·.live)) ++ leBytes 4 (s.condBits (·.latch)) ++ leBytes 4 (s.condBits (·.enable)) ++
  leBytes 4 (s.condBits (·.noticed)) ++ leBytes 4 (s.condBits (·.pending)) ++
  [boolByte s.params.latchDisabled] ++
  s.sensors.lines.toList.flatMap (fun r => [byte r.polarity.code, byte r.filter, boolByte r.mask]) ++
  [byte (s.lineBits (·.active)), byte (s.lineBits (·.input))]

/-- QUERY_CONDITIONS (R161). -/
def takeQueryConditions (p : Payload) (s : State) : Answer :=
  ofLength 0 p s fun _ s => report s conditionBytes

end Sys2Proof.Machine
end

