-- ==== Sys2Proof/Machine/RunRequests.lean ====
section
/-! DEFINITION. The requests of the run group: START_JOB in its two forms, ABORT_JOB, HOLD, RESUME, PARK,
WAKE, SKIP_CONTOUR, RELEASE_SEVER, RELEASE_HOLDER, CONFIRM_SLUG and RETHREAD_DONE (R76, R83 to R86, R119 to
R122, R128, R132, R141 to R146). -/

namespace Sys2Proof.Machine

/-! ## START_JOB (R76) -/

/-- The job states in which a job may be started (R76, R120), and the journal erased (R171). -/
def JobState.atRest : JobState → Bool
  | .idle | .complete | .aborted => true
  | .stageA | .stageB | .severWait => false

/-- Some contour is STOPPED. -/
def State.anyStopped (s : State) : Bool := (s.firstSlot fun c => decide (c.state = .stopped)).isSome

/-- START_JOB without a resume point is taken: its JOB record is offered ahead of what the choice
offers. -/
def State.start (s : State) : State :=
  let t := s.clearJobAndPath.toRun
  let c := t.choice
  (t.offer (jobRecord c.jobState c.current)).applyChoice c

def takeStart (s : State) : Answer :=
  if s.mode = .hold ∧ s.job.state.atRest = true ∧ s.anyStopped = false ∧ s.mayRun = true then done s.start
  else refuse s .wrongState

/-! ## START_JOB with a resume point (R120 to R122) -/

/-- Step 7: the chain of the pass is bound to it and CLOSED (DEDUCED, log entry 24). -/
def resumeChain (s : State) (i : Slot) (c : Contour) (n : Nat) : Except Status Chain :=
  match c.defn.passes[n]? with
  | none => .error .badValue
  | some p =>
    match s.chain p.chain with
    | none => .error .notFound
    | some k =>
      if k.binding ≠ some (i, n) ∨ k.state = .corrupt then .error .notFound
      else if k.state = .opened then .error .wrongState
      else .ok k

/-- Step 10: a STOPPED contour whose present pass's chain is CLOSED has its front below that pass's
end. -/
def stoppedAtEnd (s : State) (c : Contour) : Bool :=
  decide (c.state = .stopped) && (match c.pass with
    | some p =>
      match s.chain p.chain with
      | some k => decide (k.state = .closed) && decide (c.defn.passEnd c.passIndex k.loaded ≤ c.front)
      | none => false
    | none => false)

/-- The checks 5 to 10 of R120; absent where all pass. -/
def resumeFault (s : State) (i : Slot) (n pos len : Nat) : Option Status :=
  match s.contour i with
  | none => some .wrongState
  | some c =>
    if c.state ≠ .queued ∧ c.state ≠ .stopped then some .wrongState
    else if c.passCount ≤ n then some .badValue
    else
      match resumeChain s i c n with
      | .error st => some st
      | .ok k =>
        if len ≠ k.loaded then some .mismatch
        else if c.defn.passEnd n k.loaded ≤ pos then some .badValue
        else if stoppedAtEnd s c then some .wrongState
        else none

/-- The contour as it is taken at a resume point (R121). -/
def resumedContour (n pos : Nat) (c : Contour) : Contour :=
  { c with
    state := .reentry
    passIndex := n
    breakPoint := if n = c.passIndex then c.breakPoint else none
    front := pos
    severReleased := c.severReleased ||
      (decide ((c.defn.passes[n]?).map (·.role) = some .sever) && c.defn.attended) }

/-- The stage of a resumed pass (R121). -/
def resumeStage (c : Contour) (n : Nat) : JobState :=
  if (c.defn.passes[n]?).map (·.role) = some .sever then .stageB else .stageA

/-- The wire stands threaded at the resume position: no threading is needed (R122, step 1). -/
def State.threadedAt (s : State) (at' : Point) : Bool :=
  s.active .lowerDetect && s.active .wireIntact && within 2 s.path.commanded at'

/-- The re-entry of a resumed contour is ordered (R122). -/
def State.orderResumed (s : State) : State :=
  match s.runChain with
  | some (r, k) => if s.threadedAt (k.point r.s) then s.takeUp else s.giveDue
  | none => s

/-- The contour named by a resume point is taken, and its running-pass record made with the stop point of
R51 (R46, R121; DEDUCED, log entry 46) and sub-state MOVING, in HOLD too (R121; DEDUCED, log entry 51). -/
def State.takeResumed (s : State) (i : Slot) (n pos : Nat) (stage : JobState) : State :=
  let t := (s.setJobState stage).onJob fun j =>
    { j with current := some i, resume := some ⟨i, n, pos⟩, work := some .firstOrder, due := true,
             wire := none, keptHolding := false, keptProceed := false, stageFrom := n }
  let u := (t.changeContour i (resumedContour n pos)).refreshLevels
  match u.curContour.bind Contour.pass with
  | some p =>
    match u.chain p.chain with
    | some k =>
      let (v, ok) := u.createPass p.chain k pos .moving
      if ok then
        let (w, found) := v.findStop
        if found then w.orderResumed else w
      else v
    | none => u
  | none => u

/-- START_JOB with a resume point is taken (R121; DEDUCED, log entry 37). -/
def State.startResumed (s : State) (i : Slot) (n pos : Nat) : State :=
  match s.contour i with
  | some c =>
    let stage := resumeStage c n
    (((s.clearJobAndPath.onJob fun j => { j with resume := some ⟨i, n, pos⟩ }).offer
      (jobRecord stage (some i))).toRun).takeResumed i n pos stage
  | none => s

def takeStartResumed (p : Payload) (s : State) : Answer :=
  withSlot p s fun i s =>
    if 7 < u8 p 1 then refuse s .badValue
    else if s.mode ≠ .hold ∨ s.job.state.atRest = false ∨ s.mayRun = false then refuse s .wrongState
    else
      match resumeFault s i (u8 p 1) (uN 4 p 2) (uN 4 p 6) with
      | some st => refuse s st
      | none => done (s.startResumed i (u8 p 1) (uN 4 p 2))

/-- START_JOB, by the length of its payload (R181). -/
def takeStartJob (p : Payload) (s : State) : Answer :=
  if p.length = 0 then takeStart s else ofLength 10 p s takeStartResumed

/-! ## ABORT_JOB (R86) -/

/-- The job runs or waits: STAGE_A, STAGE_B or SEVER_WAIT. -/
def JobState.underWay (j : JobState) : Bool := !j.atRest

def takeAbortJob (p : Payload) (s : State) : Answer :=
  ofLength 0 p s fun _ s =>
    if (s.mode = .run ∨ s.mode = .hold) ∧ s.job.state.underWay = true then done s.abort
    else refuse s .wrongState

/-! ## HOLD, RESUME, PARK, WAKE (R141, R143, R144, R146) -/

/-- The mode as a reply carries it (DEDUCED, log entry 29). -/
def modeByte (s : State) : List Byte := [byte s.mode.code]

/-- A request of the mode unit is taken; its reply carries the mode after it. -/
def modeTaken (s : State) : Answer := ⟨s, .ok, modeByte⟩

/-- A request of the mode unit is refused; its reply carries the mode unchanged. -/
def modeRefused (s : State) : Answer := ⟨s, .wrongState, modeByte⟩

def takeHold (p : Payload) (s : State) : Answer :=
  ofLength 0 p s fun _ s =>
    match s.mode with
    | .run => modeTaken s.holdEntry
    | .hold => modeTaken (s.onModes fun m => { m with parkPending := false })
    | .park | .waking => modeRefused s

/-- RESUME. Its reply carries the mode as the step leaves it, HOLD where an effect of RUN entry has forced it (R138,
R143; DEDUCED, log entry 53). -/
def takeResume (p : Payload) (s : State) : Answer :=
  ofLength 0 p s fun _ s =>
    if s.mode = .hold ∧ s.mayRun = true then modeTaken s.toRun else modeRefused s

/-- PARK from RUN or HOLD: entered as soon as no threading step is running (R144). -/
def State.askPark (s : State) : State :=
  (s.onModes fun m => { m with parkPending := true }).parkIfDue

def takePark (p : Payload) (s : State) : Answer :=
  ofLength 0 p s fun _ s =>
    match s.mode with
    | .run => modeTaken s.holdEntry.askPark
    | .hold => modeTaken s.askPark
    | .park => modeTaken s
    | .waking => modeTaken s.parkEntry

def takeWake (p : Payload) (s : State) : Answer :=
  ofLength 0 p s fun _ s =>
    match s.mode with
    | .park => modeTaken s.wakeCell
    | .waking => modeTaken s
    | .run | .hold => modeRefused s

/-! ## SKIP_CONTOUR (R84, R85) -/

/-- A contour that is not current is skipped (R84). -/
def State.skipOther (s : State) (i : Slot) (c : Contour) : State :=
  let t := s.changeContour i fun c => { c with state := .skipped }
  if t.job.state = .severWait ∧ c.state = .bridged then t.choose else t

def takeSkipContour (p : Payload) (s : State) : Answer :=
  ofLength 1 p s fun p s => withSlot p s fun i s =>
    match s.contour i with
    | none => refuse s .wrongState
    | some c =>
      match c.state with
      | .queued | .bridged | .stopped => done (s.skipOther i c)
      | .reentryWait => done (s.skipCurrent i)
      | .threading | .cutting | .reentry | .unthreading | .severing =>
        if s.mode = .run then refuse s .wrongState else done (s.skipCurrent i)
      | .empty | .done | .skipped | .faulted => refuse s .wrongState

/-! ## RELEASE_SEVER (R6, R83) -/

/-- RELEASE_SEVER is taken for a contour: a state that R12 accepts, with an ATTENDED bridge. -/
def Contour.releasable (c : Contour) : Bool :=
  c.defn.attended && (match c.state with
    | .queued | .threading | .cutting | .reentry | .unthreading | .severing | .reentryWait | .bridged
    | .stopped => true
    | .empty | .done | .skipped | .faulted => false)

/-- A BRIDGED contour whose field goes from no to yes. -/
def Contour.freshRelease (c : Contour) : Bool :=
  c.releasable && decide (c.state = .bridged) && !c.severReleased

/-- The releases named are made; in SEVER_WAIT a fresh release of a BRIDGED contour makes the choice. -/
def State.release (s : State) (named : Slot → Bool) : State :=
  let fresh := (List.finRange 64).any fun i => named i && (match s.contour i with
    | some c => c.freshRelease
    | none => false)
  let t := (List.finRange 64).foldl (fun t i =>
    if named i then t.onContour i fun c =>
      if c.releasable then { c with severReleased := true } else c
    else t) s
  if fresh = true ∧ t.job.state = .severWait then t.choose else t

def takeReleaseSever (p : Payload) (s : State) : Answer :=
  ofLength 1 p s fun p s =>
    if u8 p 0 = 255 then done (s.release fun _ => true)
    else withSlot p s fun i s =>
      match s.contour i with
      | none => refuse s .wrongState
      | some c =>
        if c.releasable then done (s.release fun k => decide (k = i)) else refuse s .wrongState

/-! ## RELEASE_HOLDER (R132) -/

/-- The holder may be opened: HOLDING with no owner, or with an owner whose retention is HELD, be it on its
closing pass again after a resumed start (DEDUCED, log entry 48). -/
def State.holderReleasable (s : State) : Bool :=
  decide (s.holder.state = .holding) && (match s.holder.owner with
    | none => true
    | some i => decide ((s.contour i).map (·.retention) = some .held))

/-- The holder opens. -/
def State.openHolder (s : State) : State :=
  s.onHolder fun h => { h with state := .releasing, output := false, timer := some s.params.holderTimeout }

def takeReleaseHolder (p : Payload) (s : State) : Answer :=
  ofLength 0 p s fun _ s => if s.holderReleasable then done s.openHolder else refuse s .wrongState

/-! ## CONFIRM_SLUG (R128) -/

/-- The drop wait of a contour is under way: the contour is current, its pass is in SLUG_WAIT, and the
wait has not ended (DEDUCED, log entry 23). -/
def State.awaitsSlug (s : State) (i : Slot) : Bool :=
  decide (s.job.current = some i) && decide (s.path.pass.map (·.sub) = some .slugWait) &&
    decide (s.slug.drop ≠ .idle)

def takeConfirmSlug (p : Payload) (s : State) : Answer :=
  ofLength 1 p s fun p s => withSlot p s fun i s =>
    if s.awaitsSlug i then done (s.dropEnds .released) else refuse s .wrongState

/-! ## RETHREAD_DONE (R119) -/

/-- The commanded position is point(s) of the running pass. The comparison is with the position held and
reads no slot; the taking up that follows reads it (DEDUCED, log entry 34). -/
def State.standsAtPass (s : State) : Bool :=
  match s.runChain with
  | some (r, k) => decide (s.path.commanded = k.point r.s)
  | none => false

def takeRethreadDone (p : Payload) (s : State) : Answer :=
  ofLength 1 p s fun p s => withSlot p s fun i s =>
    if s.slotState i = .reentryWait ∧ s.active .lowerDetect = true ∧ s.active .wireIntact = true ∧
        s.standsAtPass = true then done s.takeUp
    else refuse s .wrongState

end Sys2Proof.Machine
end

