-- ==== Sys2Proof/Machine/JournalRequests.lean ====
section
/-! DEFINITION. The requests of the journal: JOURNAL_SUMMARY, JOURNAL_READ and JOURNAL_ERASE (R169 to
R171). -/

namespace Sys2Proof.Machine

/-! ## JOURNAL_SUMMARY (R169) -/

/-- A record, or its width of 0xFF where it is absent. -/
def recordOpt (r : Option (List Byte)) : List Byte :=
  match r with
  | some bs => bs
  | none => absentBytes 20

/-- A record is of a kind. -/
def ofKind (k : RecordKind) (r : List Byte) : Bool := decide (u8 r 4 = k.code)

/-- The lowest and the highest sequence of the records, absent when there is none. -/
def spanBytes (rs : List (List Byte)) : List Byte :=
  posOpt ((rs.map slotSeq).min?) ++ posOpt ((rs.map slotSeq).max?)

/-- What JOURNAL_SUMMARY reports (DEDUCED, log entry 30). -/
def summaryBytes (j : Journal) (first count : Nat) : List Byte :=
  let rs := j.records
  recordOpt (Journal.newest rs (ofKind .state)) ++ recordOpt (Journal.newest rs (ofKind .position)) ++
  recordOpt (Journal.newest rs (ofKind .job)) ++
  (List.range count).flatMap (fun n =>
    recordOpt (Journal.newest rs fun r => ofKind .state r && decide (u8 r 5 = first + n))) ++
  spanBytes rs ++
  [byte j.queue.length, boolByte j.erasing.isSome, byte j.eraseList.length]

def takeJournalSummary (p : Payload) (s : State) : Answer :=
  ofLength 2 p s fun p s =>
    if 63 < u8 p 0 ∨ 6 < u8 p 1 ∨ 64 < u8 p 0 + u8 p 1 then refuse s .badValue
    else report s fun t => summaryBytes t.journal (u8 p 0) (u8 p 1)

/-! ## JOURNAL_READ (R170, R182) -/

/-- The type byte of a slot: blank, header, record or invalid. -/
def slotType (m : List Host.Cell) (p k : Nat) : Byte :=
  if slotBlank m p k then 0
  else if k = 0 then (if headerValid (slotBytes m p k) then 1 else 3)
  else if recordValid (slotBytes m p k) then 2
  else 3

/-- The slots of a range, each its type and its bytes as stored. -/
def readBytes (m : List Host.Cell) (p first count : Nat) : List Byte :=
  (List.range count).flatMap fun n => slotType m p (first + n) :: slotBytes m p (first + n)

def takeJournalRead (p : Payload) (s : State) : Answer :=
  ofLength 3 p s fun p s =>
    if 3 < u8 p 0 ∨ 127 < u8 p 1 ∨ u8 p 2 = 0 ∨ 8 < u8 p 2 ∨ 128 < u8 p 1 + u8 p 2 then refuse s .badValue
    else if s.journal.erasing = some (u8 p 0) then refuse s .wrongState
    else report s fun t => readBytes t.journal.mem (u8 p 0) (u8 p 1) (u8 p 2)

/-! ## JOURNAL_ERASE (R171) -/

def takeJournalErase (p : Payload) (s : State) : Answer :=
  ofLength 0 p s fun _ s =>
    if s.job.state.atRest = true ∧ s.journal.erasingAll = false then
      ⟨s.onJournal fun j => j.eraseAll, .accepted, fun _ => []⟩
    else refuse s .wrongState

end Sys2Proof.Machine
end

