-- ==== Sys2Proof/Machine/LinkRequests.lean ====
section
/-! DEFINITION. The requests of the link group and the parameter set: IDENTIFY, READ_STATUS,
QUERY_RESET_CAUSE, RESET, SET_PARAM in its forms, GET_PARAM and SET_OVERRIDE (R176 to R179). -/

namespace Sys2Proof.Machine

/-! ## IDENTIFY, READ_STATUS, QUERY_RESET_CAUSE, RESET -/

/-- The part name "EW-410" in ASCII (R178). -/
def partName : List Byte := [0x45, 0x57, 0x2D, 0x34, 0x31, 0x30]

/-- The capacities of R178, in its order. -/
def capacities : List Nat := [64, 128, 4096, 4, 4, 128, 4, 28, 8]

/-- IDENTIFY (R178). -/
def takeIdentify (p : Payload) (s : State) : Answer :=
  ofLength 0 p s fun _ s => report s fun _ =>
    partName ++ [byte Config.revision] ++ capacities.flatMap (leBytes 2)

/-- What READ_STATUS reports (R178). An absent value is 0xFF, the held field of an IDLE threading unit
among them (DEDUCED, log entry 26). -/
def statusBytes (s : State) : List Byte :=
  [byte s.mode.code, boolByte s.modes.parkPending, byte s.job.state.code] ++ slotOpt s.job.current ++
  slotOpt s.job.lastChanged ++ [boolByte s.job.resume.isSome, byte (threadCode (s.thread.map (·.step)))] ++
  optBytes 1 (s.thread.map fun t => if t.held then 1 else 0) ++ [byte s.holder.state.code] ++
  slotOpt s.holder.owner ++ optBytes 1 s.journal.active ++ optBytes 1 s.journal.erasing ++
  [byte s.journal.queue.length, byte s.store.corrected] ++ leBytes 2 s.link.errors ++
  [byte (s.lineBits (·.active))]

/-- READ_STATUS (R178). -/
def takeReadStatus (p : Payload) (s : State) : Answer :=
  ofLength 0 p s fun _ s => report s statusBytes

/-- The three reset-cause flags (R176; DEDUCED, log entry 29). -/
def causeBytes (l : Link) : List Byte :=
  [boolByte l.causePowerOn, boolByte l.causeLine, boolByte l.causeRequest]

/-- QUERY_RESET_CAUSE: the flags as they stood, which are then cleared (R176). -/
def takeQueryResetCause (p : Payload) (s : State) : Answer :=
  ofLength 0 p s fun _ s =>
    report (s.onLink fun l => { l with causePowerOn := false, causeLine := false, causeRequest := false })
      fun _ => causeBytes s.link

/-- RESET: its reply is sent like any other, and no further request is taken (R177). -/
def takeReset (p : Payload) (s : State) : Answer :=
  ofLength 0 p s fun _ s => done (s.onLink fun l => { l with resetTaken := true })

/-! ## The parameter set (R179) -/

/-- The width of a parameter's value in bytes, with the number of a keep-out rectangle; absent for an id
that is not in the index. -/
def paramWidth (id : Nat) : Option Nat :=
  match id with
  | 1 | 2 | 3 | 4 | 5 | 8 | 10 | 12 | 14 | 15 | 16 | 17 | 19 | 20 | 21 => some 4
  | 6 => some 2
  | 7 | 9 | 11 | 13 | 18 | 22 | 25 => some 1
  | 23 => some 16
  | 24 => some 18
  | _ => none

/-- The value of a parameter with id 1 to 22. -/
def Params.get (q : Params) (id : Nat) : Nat :=
  match id with
  | 1 => q.retraceDepth
  | 2 => q.stuckSamples
  | 3 => q.openLimit
  | 4 => q.dryStep
  | 5 => q.rapidStep
  | 6 => q.override
  | 7 => q.tackSetting
  | 8 => q.lowWater
  | 9 => q.progressEvery
  | 10 => q.checkpointEvery
  | 11 => q.threadAttempts
  | 12 => q.searchRadius
  | 13 => q.inGapAttempts
  | 14 => q.tipTime
  | 15 => q.feedTimeout
  | 16 => q.retractTime
  | 17 => q.pullTimeout
  | 18 => q.breakLimit
  | 19 => q.dropWait
  | 20 => q.holderTimeout
  | 21 => q.wakeSettle
  | _ => if q.latchDisabled then 1 else 0

/-- A parameter with id 1 to 22 takes a value. -/
def Params.put (q : Params) (id v : Nat) : Params :=
  match id with
  | 1 => { q with retraceDepth := v }
  | 2 => { q with stuckSamples := v }
  | 3 => { q with openLimit := v }
  | 4 => { q with dryStep := v }
  | 5 => { q with rapidStep := v }
  | 6 => { q with override := v }
  | 7 => { q with tackSetting := v }
  | 8 => { q with lowWater := v }
  | 9 => { q with progressEvery := v }
  | 10 => { q with checkpointEvery := v }
  | 11 => { q with threadAttempts := v }
  | 12 => { q with searchRadius := v }
  | 13 => { q with inGapAttempts := v }
  | 14 => { q with tipTime := v }
  | 15 => { q with feedTimeout := v }
  | 16 => { q with retractTime := v }
  | 17 => { q with pullTimeout := v }
  | 18 => { q with breakLimit := v }
  | 19 => { q with dropWait := v }
  | 20 => { q with holderTimeout := v }
  | 21 => { q with wakeSettle := v }
  | _ => { q with latchDisabled := decide (v = 1) }

/-- The range of a parameter with id 1 to 22, and whether it is a tuning value (R66 to R68, R107, R111,
R136, R147, R156). CheckpointEvery's range is that of a value other than 0. -/
def paramRange (id : Nat) : Bool × Nat × Nat :=
  match id with
  | 1 => (true, 0, 50000)
  | 2 => (true, 1, 65535)
  | 3 => (true, 1, 65535)
  | 4 => (true, 1, 5000)
  | 5 => (true, 1, 50000)
  | 6 => (true, 10, 150)
  | 7 => (false, 0, 31)
  | 8 => (true, 0, 1000000)
  | 9 => (true, 0, 255)
  | 10 => (true, 1000, 1000000)
  | 11 => (false, 1, 9)
  | 12 => (true, 0, 20000)
  | 13 => (false, 0, 3)
  | 14 => (true, 100, 2000)
  | 15 => (true, 500, 20000)
  | 16 => (true, 100, 5000)
  | 17 => (true, 500, 20000)
  | 18 => (false, 0, 15)
  | 19 => (true, 0, 10000)
  | 20 => (true, 100, 10000)
  | 21 => (true, 500, 30000)
  | _ => (false, 0, 1)

/-- The value that a sent value is taken as, absent where it is refused (R179). -/
def paramTaken (id v : Nat) : Option Nat :=
  let (tuning, lo, hi) := paramRange id
  if id = 10 ∧ v = 0 then some 0
  else if tuning then some (clamp lo hi v)
  else if lo ≤ v ∧ v ≤ hi then some v
  else none

/-- A break count stands above a BreakLimit that is to be written (R111). -/
def breakCountAbove (s : State) (v : Nat) : Bool :=
  s.contours.toList.any fun c =>
    match c with
    | some c => decide (c.state ≠ .faulted) && decide (v < c.breakCount)
    | none => false

/-- The write restrictions: RetraceDepth and BreakLimit while a contour is current, and BreakLimit below
a break count (R68, R90, R111). -/
def paramBarred (s : State) (id v : Nat) : Bool :=
  (decide (id = 1 ∨ id = 18) && s.job.current.isSome) || (decide (id = 18) && breakCountAbove s v)

/-- A parameter is written with its checks; the reply is OK, or CLAMPED with the value taken. A change of
LowWater (8) is reflected in CHAIN_LOW at once (R53). -/
def writeParam (id width v : Nat) (s : State) : Answer :=
  match paramTaken id v with
  | some w =>
    if paramBarred s id w then refuse s .wrongState
    else
      let u := s.onParams fun q => q.put id w
      let t := if id = 8 then u.refreshLevels else u
      if w = v then done t else ⟨t, .clamped, fun _ => leBytes width w⟩
  | none => refuse s .badValue

/-- SET_PARAM of the travel window (R39). -/
def takeTravelWindow (p : Payload) (s : State) : Answer :=
  let q : Rect := ⟨i32 p 1, i32 p 5, i32 p 9, i32 p 13⟩
  if !(coordOk q.xMin && coordOk q.xMax && coordOk q.yMin && coordOk q.yMax) || decide (q.xMax < q.xMin) ||
      decide (q.yMax < q.yMin) then refuse s .badValue
  else if !s.allFree then refuse s .wrongState
  else if !q.holds s.path.commanded then refuse s .window
  else done (s.onStore fun t => { t with window := q })

/-- A keep-out rectangle is replaced. -/
def Store.putKeepOut (t : Store) (n : Nat) (k : KeepOut) : Store :=
  if h : n < 4 then { t with keepOuts := t.keepOuts.set n k } else t

/-- SET_PARAM of a keep-out rectangle (R40). -/
def takeKeepOut (p : Payload) (s : State) : Answer :=
  let q : Rect := ⟨i32 p 3, i32 p 11, i32 p 7, i32 p 15⟩
  if decide (3 < u8 p 1) || decide (1 < u8 p 2) || !(coordOk q.xMin && coordOk q.xMax && coordOk q.yMin &&
      coordOk q.yMax) || decide (q.xMax < q.xMin) || decide (q.yMax < q.yMin) then refuse s .badValue
  else if !s.allFree then refuse s .wrongState
  else done (s.onStore fun t => t.putKeepOut (u8 p 1) ⟨decide (u8 p 2 = 1), q⟩)

/-- SET_PARAM of the corrected-error count: 0 only (R44). -/
def takeCorrectedCount (p : Payload) (s : State) : Answer :=
  if u8 p 1 = 0 then done (s.onStore fun t => { t with corrected := 0 }) else refuse s .badValue

/-- SET_PARAM: id, length, then the parameter's own checks (R179). -/
def takeSetParam (p : Payload) (s : State) : Answer :=
  match p with
  | [] => refuse s .badLength
  | b :: _ =>
    match paramWidth b.toNat with
    | some w =>
      if p.length = 1 + w then
        if b.toNat = 23 then takeTravelWindow p s
        else if b.toNat = 24 then takeKeepOut p s
        else if b.toNat = 25 then takeCorrectedCount p s
        else writeParam b.toNat w (uN w p 1) s
      else refuse s .badLength
    | none => refuse s .badValue

/-- A keep-out rectangle as it is reported: number, enable, X min, Y min, X max, Y max
(DEDUCED, log entry 25). -/
def keepOutBytes (s : State) (n : Nat) : List Byte :=
  match s.store.keepOuts[n]? with
  | some k => [byte n, boolByte k.enabled] ++ intBytes k.rect.xMin ++ intBytes k.rect.yMin ++
      intBytes k.rect.xMax ++ intBytes k.rect.yMax
  | none => []

/-- The travel window as it is reported: X min, X max, Y min, Y max. -/
def windowBytes (q : Rect) : List Byte :=
  intBytes q.xMin ++ intBytes q.xMax ++ intBytes q.yMin ++ intBytes q.yMax

/-- GET_PARAM (R179). -/
def takeGetParam (p : Payload) (s : State) : Answer :=
  match p with
  | [] => refuse s .badLength
  | b :: _ =>
    match paramWidth b.toNat with
    | some w =>
      if p.length = (if b.toNat = 24 then 2 else 1) then
        if b.toNat = 23 then report s fun t => windowBytes t.store.window
        else if b.toNat = 24 then
          (if 3 < u8 p 1 then refuse s .badValue else report s fun t => keepOutBytes t (u8 p 1))
        else if b.toNat = 25 then report s fun t => [byte t.store.corrected]
        else report s fun t => leBytes w (t.params.get b.toNat)
      else refuse s .badLength
    | none => refuse s .badValue

/-- SET_OVERRIDE: the value of Override in two bytes (R179). -/
def takeSetOverride (p : Payload) (s : State) : Answer :=
  ofLength 2 p s fun p s => writeParam 6 2 (uN 2 p 0) s

end Sys2Proof.Machine
end

