-- ==== Sys2Proof/Machine/ProgramRequests.lean ====
section
/-! DEFINITION. The requests of the plate program: DEFINE_CONTOUR, DELETE_CONTOUR and QUERY_CONTOUR (R14 to
R19). -/

namespace Sys2Proof.Machine

/-! ## DEFINE_CONTOUR: the checks of R14 -/

/-- A tack span lies in its ranges (R8). -/
def spanOk (t : Span) : Bool :=
  decide (1 ≤ t.length ∧ t.length ≤ 20000 ∧ t.start + t.length ≤ Config.maxLength)

/-- Step 3 of R14: each structural and geometric value lies in its range. -/
def RawContour.rangesOk (q : RawContour) : Bool :=
  decide (300 ≤ q.diameter ∧ q.diameter ≤ 50000) && decide (q.inGap ≤ 1) && (methodOf q.method).isSome &&
  decide (q.presence < 8) &&
  (match q.bridge with
    | some (h, a) => decide (1 ≤ h ∧ h ≤ 100000) && (attendanceOf a).isSome
    | none => true) &&
  (match q.engage with
    | some e => decide (e ≤ 50000)
    | none => true) &&
  (match q.tacks with
    | some ts => decide (ts.length ≤ 4) && ts.all spanOk
    | none => true) &&
  decide (1 ≤ q.passes.length ∧ q.passes.length ≤ 8) && q.passes.all (fun p => (passOf p).isSome)

/-- A span takes its place in a list in ascending order of start. -/
def insertSpan (t : Span) : List Span → List Span
  | [] => [t]
  | u :: us => if u.start < t.start then u :: insertSpan t us else t :: u :: us

/-- Spans in ascending order of start (R8). -/
def sortSpans (ts : List Span) : List Span := ts.foldr insertSpan []

/-- No position lies in two spans (R8). -/
def apart (ts : List Span) : Bool :=
  ts.all fun a => decide ((ts.filter fun b =>
    decide (b.start < a.start + a.length ∧ a.start < b.start + b.length)).length ≤ 1)

/-- The definition that a payload gives, its tuning fields clamped; absent where a structural field has
no value. -/
def RawContour.defn (q : RawContour) : Option ContourDef :=
  match methodOf q.method, allSome (q.passes.map passOf) with
  | some m, some ps =>
    some {
      centre := q.centre, diameter := q.diameter, inGap := decide (q.inGap = 1), method := m,
      bridge := q.bridge.bind fun b => (attendanceOf b.2).map fun a => ⟨b.1, a⟩,
      engage := q.engage, tacks := q.tacks.map sortSpans, passes := ps }
  | _, _ => none

/-- Step 4 of R14: the fields the hold method requires and forbids, and spans that do not overlap (R5,
R8). -/
def ContourDef.fieldsOk (d : ContourDef) : Bool :=
  (match d.method with
    | .drop => d.engage.isNone && d.tacks.isNone
    | .holder => d.engage.isSome && d.tacks.isNone
    | .tack => d.engage.isNone && d.tacks.isSome && d.bridge.isNone) &&
  (match d.tacks with
    | some ts => apart ts
    | none => true)

/-- Step 5 of R14: the pass plan has an accepted shape (R9). -/
def ContourDef.planOk (d : ContourDef) : Bool :=
  let roles := d.passes.map (·.role)
  let middle := (roles.drop 1).take (roles.length - 1 - (if d.bridge.isSome then 1 else 0))
  decide (1 ≤ roles.length ∧ roles.length ≤ 8) && decide (roles.head? = some .rough) &&
  middle.all (fun r => decide (r = .skim)) && decide (middle.length ≤ 6) &&
  (if d.bridge.isSome then decide (2 ≤ roles.length) && decide (roles.getLast? = some .sever) else true) &&
  (if d.method = .tack then decide (roles.length = 1) && d.bridge.isNone else true) &&
  decide ((d.passes.map (·.chain)).Nodup)

/-! ## DEFINE_CONTOUR: the checks of R15 -/

/-- Step 8: the chain of a pass is OPEN or CLOSED, and unbound. -/
def chainFault (s : State) (p : PassRec) : Option Status :=
  match s.chain p.chain with
  | none => some .notFound
  | some k =>
    if k.state = .corrupt then some .notFound
    else if k.binding.isSome then some .inUse
    else none

/-- Step 9: the pass-0 chain and the SEVER chain start within 2 ticks of the start hole. -/
def startFault (s : State) (d : ContourDef) (n : Nat) (p : PassRec) : Option Status :=
  match s.chain p.chain with
  | some k =>
    if (n = 0 ∨ p.role = .sever) ∧ within 2 k.start d.centre = false then some .geometry else none
  | none => none

/-- Step 10: a CLOSED chain is longer than the reserve of its pass. -/
def lengthFault (s : State) (d : ContourDef) (n : Nat) (p : PassRec) : Option Status :=
  match s.chain p.chain with
  | some k => if k.state = .closed ∧ k.loaded ≤ d.reserve n then some .badValue else none
  | none => none

/-- The first pass, in ascending index, that fails a check. -/
def firstFault (f : Nat → PassRec → Option Status) : Nat → List PassRec → Option (Status × Nat)
  | _, [] => none
  | n, p :: ps =>
    match f n p with
    | some st => some (st, n)
    | none => firstFault f (n + 1) ps

/-- Steps 8 to 10 of R15, each over every pass. -/
def passFault (s : State) (d : ContourDef) : Option (Status × Nat) :=
  (firstFault (fun _ p => chainFault s p) 0 d.passes).or
    ((firstFault (startFault s d) 0 d.passes).or (firstFault (lengthFault s d) 0 d.passes))

/-! ## DEFINE_CONTOUR: its effect (R16) -/

/-- A contour at its definition (R3). -/
def newContour (d : ContourDef) : Contour :=
  ⟨d, .queued, 0, 0, none, 0, 0, .attached, none, false⟩

/-- The chains of a plan are bound to its passes (R13). -/
def bindFrom (i : Slot) : Nat → List PassRec → State → State
  | _, [], s => s
  | n, p :: ps, s => bindFrom i (n + 1) ps (s.onChain p.chain fun k => { k with binding := some (i, n) })

/-- The contour is defined; in SEVER_WAIT the choice is made (R16, R72). -/
def State.define (s : State) (i : Slot) (d : ContourDef) : State :=
  let t := (bindFrom i 0 d.passes (s.setContour i (some (newContour d)))).contourChanged i
  if t.job.state = .severWait then t.choose else t

/-- A tuning field of a pass was clamped. -/
def clampedPass (q : Payload) : Bool :=
  decide ((passOf q).map passBytes ≠ some q)

/-- The reply of a definition that is taken (DEDUCED, log entry 44). -/
def defined (s : State) (i : Slot) (d : ContourDef) (clamped : Bool) : Answer :=
  if clamped then ⟨s, .clamped, fun _ => byte i.val :: passesBytes d.passes⟩
  else report s fun _ => [byte i.val]

def takeDefineContour (p : Payload) (s : State) : Answer :=
  match rawContour p with
  | none => refuse s .badLength
  | some q => withSlot p s fun i s =>
    if (s.contour i).isSome then refuse s .wrongState
    else if !q.rangesOk then refuse s .badValue
    else
      match q.defn with
      | none => refuse s .badValue
      | some d =>
        if !d.fieldsOk || !d.planOk then refuse s .badValue
        else if !s.store.window.holds d.centre then refuse s .window
        else if s.store.pointKeptOut d.centre then refuse s .keepOut
        else
          match passFault s d with
          | some (st, n) => refuseAt s st n
          | none => defined (s.define i d) i d (q.passes.any clampedPass)

/-! ## DELETE_CONTOUR (R18) -/

/-- The chains still bound to a contour's passes are freed, in ascending pass index. -/
def freeFrom (i : Slot) (c : Contour) : Nat → Nat → State → State
  | 0, _, s => s
  | k + 1, n, s => freeFrom i c k (n + 1) (s.freePass i c n)

/-- The slot becomes EMPTY; deleting a BRIDGED contour in SEVER_WAIT makes the choice (R72). -/
def State.delete (s : State) (i : Slot) (c : Contour) : State :=
  let t := ((freeFrom i c c.passCount 0 s).setContour i none).contourChanged i
  if t.job.state = .severWait ∧ c.state = .bridged then t.choose else t

/-- The three further refusals of R18: current, the holder's owner, the claimant of an engage. -/
def State.undeletable (s : State) (i : Slot) : Bool :=
  decide (s.job.current = some i) || decide (s.holder.owner = some i) || decide (s.holder.claimant = some i)

def takeDeleteContour (p : Payload) (s : State) : Answer :=
  ofLength 1 p s fun p s => withSlot p s fun i s =>
    match s.contour i with
    | none => refuse s .notFound
    | some c =>
      if c.state.isActive || s.undeletable i then refuse s .wrongState else done (s.delete i c)

/-! ## QUERY_CONTOUR (R19, R181) -/

/-- For each pass, whether its chain is still bound to it. -/
def boundBytes (s : State) (i : Slot) (c : Contour) : List Byte :=
  (List.range c.passCount).map fun n =>
    boolByte (match c.defn.passes[n]? with
      | some p => decide ((s.chain p.chain).bind (·.binding) = some (i, n))
      | none => false)

/-- The break point as pass index and s, or absent. -/
def breakBytes (b : Option (Nat × Nat)) : List Byte :=
  match b with
  | some (n, pos) => byte n :: leBytes 4 pos
  | none => absentBytes 5

/-- The working fields of R3, in the order of its table. -/
def workingBytes (c : Contour) : List Byte :=
  [byte c.state.code, byte c.passIndex] ++ leBytes 4 c.front ++ breakBytes c.breakPoint ++
    [byte c.breakCount, byte c.attemptsUsed, byte c.retention.code] ++
    optBytes 1 (c.fault.map (·.code)) ++ [boolByte c.severReleased]

/-- The record of a slot as QUERY_CONTOUR reports it (DEDUCED, log entry 28). -/
def contourBytes (s : State) (i : Slot) : List Byte :=
  match s.contour i with
  | none => [byte ContourState.empty.code]
  | some c =>
    let current := decide (s.job.current = some i)
    [byte c.state.code] ++ defnBytes i c.defn ++ boundBytes s i c ++ workingBytes c ++
      [boolByte current] ++ posOpt (if current then s.path.pass.map (·.s) else none)

def takeQueryContour (p : Payload) (s : State) : Answer :=
  ofLength 1 p s fun p s => withSlot p s fun i s => report s fun t => contourBytes t i

end Sys2Proof.Machine
end

