-- ==== Sys2Proof/Machine/StoreRequests.lean ====
section
/-! DEFINITION. The requests of the segment store: OPEN_CHAIN, LOAD_SEGMENTS with its segment checks,
CLOSE_CHAIN, DROP_CHAIN and QUERY_CHAIN (R26 to R38). -/

namespace Sys2Proof.Machine

/-! ## OPEN_CHAIN (R26) -/

/-- An empty chain at a start point. -/
def newChain (start : Point) : Chain := ⟨.opened, start, [], 0, start, none⟩

def takeOpenChain (p : Payload) (s : State) : Answer :=
  ofLength 9 p s fun p s => withChain p s fun c s =>
    let start := pointAt p 1
    if !start.inRange then refuse s .badValue
    else if (s.chain c).isSome then refuse s .wrongState
    else if !s.store.window.holds start then refuse s .window
    else if s.store.pointKeptOut start then refuse s .keepOut
    else done (s.setChain c (some (newChain start)))

/-! ## LOAD_SEGMENTS (R27 to R33) -/

/-- The distance check of an arc: the two rounded distances differ by at most 2, and the radius is at
least 50 (R29). -/
def arcDistances (start endPt centre : Point) : Bool :=
  let a := distance start centre
  let b := distance endPt centre
  decide (a ≤ b + 2 ∧ b ≤ a + 2 ∧ 50 ≤ a)

/-- An arc whose end differs from its start but lies in the same direction from the centre sweeps no
angle (R49). -/
def noSweep (start endPt centre : Point) : Bool :=
  let u := centre.to start
  let v := centre.to endPt
  decide (start ≠ endPt) && decide (cross u v = 0) && decide (0 < dot u v)

/-- The length of an arc as the store computes it (R49). -/
def arcLen (kind : SegKind) (start endPt centre : Point) : Nat :=
  arcLength (distance start centre)
    (sweep kind (centre.to start) (centre.to endPt) (decide (start = endPt)))

/-- The segment of a LINE message, with its checks 2 to 5 of R28. -/
def checkLine (t : Store) (start : Point) (total : Nat) (mode : SegMode) (e : Point) :
    Except Status Segment :=
  let len := distance start e
  if start = e then .error .geometry
  else if !(t.window.holds start && t.window.holds e) then .error .window
  else if t.lineKeptOut start e then .error .keepOut
  else if Config.maxLength < total + len then .error .badValue
  else .ok ⟨.line, mode, e, none, len, none, total, .unchanged⟩

/-- The segment of an arc message, with its checks 2 to 5 of R28. -/
def checkArc (t : Store) (start : Point) (total : Nat) (kind : SegKind) (mode : SegMode) (e c : Point) :
    Except Status Segment :=
  let r := distance start c
  let len := arcLen kind start e c
  let box := arcBox kind start e c r
  if !arcDistances start e c || noSweep start e c || decide (len = 0) then .error .geometry
  else if !box.inside t.window then .error .window
  else if t.boxKeptOut box then .error .keepOut
  else if Config.maxLength < total + len then .error .badValue
  else .ok ⟨kind, mode, e, some c, len, some r, total, .unchanged⟩

/-- One segment of a load is checked (R28). -/
def checkSegment (t : Store) (start : Point) (total : Nat) (q : Payload) : Except Status Segment :=
  let mode := segModeOf (q.getD 0 0)
  let e := pointAt q 1
  match segKindOf (q.getD 0 0) with
  | none => .error .badValue
  | some .line => if !e.inRange then .error .badValue else checkLine t start total mode e
  | some kind =>
    let c := pointAt q 9
    if !(e.inRange && c.inRange) then .error .badValue else checkArc t start total kind mode e c

/-- The segments of a message, each checked as though those before it had been appended; the first
failure gives its status and index (R28). -/
def checkSegments (t : Store) : Point → Nat → Nat → List Payload → Except (Status × Nat) (List Segment)
  | _, _, _, [] => .ok []
  | start, total, i, q :: qs =>
    match checkSegment t start total q with
    | .error st => .error (st, i)
    | .ok g =>
      match checkSegments t g.endPt (total + g.length) (i + 1) qs with
      | .error e => .error e
      | .ok gs => .ok (g :: gs)

/-- Segments are appended to a chain (R33). -/
def Chain.append (k : Chain) (gs : List Segment) : Chain :=
  { k with
    segs := k.segs ++ gs
    loaded := k.loaded + (gs.map (·.length)).sum
    endPt := (gs.getLast?.map (·.endPt)).getD k.endPt }

/-- The running chain has been loaded or closed: while a pass runs the stop point is computed anew, and
while it is re-entered only the segment index and CHAIN_LOW follow (R48, R51, R53, R118; DEDUCED, log
entry 39). -/
def State.chainChanged (s : State) (c : ChainId) : State :=
  if s.path.pass.map (·.chain) = some c then
    if s.cutting then s.recompute else s.settlePosition.refreshLevels
  else s

/-- LOAD_SEGMENTS of checked segments is taken (R33). -/
def State.load (s : State) (c : ChainId) (k : Chain) (gs : List Segment) : State :=
  ((s.setChain c (some (k.append gs))).onStore fun t =>
    { t with freeSlots := t.freeSlots - gs.length }).chainChanged c

/-- The contents of the reply to a load: the new segment count and the new total loaded length. -/
def loadedBytes (k : Chain) : List Byte := leBytes 2 k.segs.length ++ leBytes 4 k.loaded

def takeLoadSegments (p : Payload) (s : State) : Answer :=
  if p.length < 2 then refuse s .badLength
  else
    match splitSegs (u8 p 1) (p.drop 2) with
    | none => refuse s .badLength
    | some qs => withChain p s fun c s =>
      if qs.length = 0 ∨ 12 < qs.length then refuse s .badValue
      else
        match s.chain c with
        | none => refuse s .notFound
        | some k =>
          if k.state = .corrupt then refuse s .notFound
          else if k.state = .closed then refuse s .wrongState
          else if s.store.freeSlots < qs.length then refuse s .storeFull
          else
            match checkSegments s.store k.endPt k.loaded 0 qs with
            | .error (st, i) => refuseAt s st i
            | .ok gs => report (s.load c k gs) fun _ => loadedBytes (k.append gs)

/-! ## CLOSE_CHAIN (R34) -/

/-- The reserve of the pass that a chain is bound to (R10). -/
def State.boundReserve (s : State) (k : Chain) : Option Nat :=
  k.binding.bind fun b => (s.contour b.1).map fun c => c.defn.reserve b.2

def takeCloseChain (p : Payload) (s : State) : Answer :=
  ofLength 1 p s fun p s => withChain p s fun c s =>
    match s.chain c with
    | none => refuse s .notFound
    | some k =>
      if k.state = .corrupt then refuse s .notFound
      else if k.state = .closed then refuse s .wrongState
      else if k.segs.length = 0 then refuse s .badValue
      else
        let barred := match s.boundReserve k with
          | some r => decide (k.loaded ≤ r)
          | none => false
        if barred then refuse s .badValue
        else report ((s.setChain c (some { k with state := .closed })).chainChanged c) fun _ =>
          leBytes 4 k.loaded

/-! ## DROP_CHAIN (R37) -/

/-- A chain may be dropped: unbound, or bound to a finished contour. -/
def State.droppable (s : State) (k : Chain) : Bool :=
  match k.binding with
  | some (i, _) => (s.slotState i).isFinished
  | none => true

def takeDropChain (p : Payload) (s : State) : Answer :=
  ofLength 1 p s fun p s => withChain p s fun c s =>
    match s.chain c with
    | none => refuse s .notFound
    | some k => if s.droppable k then done (s.freeChain c) else refuse s .inUse

/-! ## QUERY_CHAIN (R38) -/

/-- A binding as two bytes. -/
def bindingBytes (b : Option (Slot × Nat)) : List Byte :=
  match b with
  | some (i, n) => [byte i.val, byte n]
  | none => [0xFF, 0xFF]

/-- The indexes of a requested range that lie within the list. -/
def rangeIn (segs : List Segment) (first count : Nat) : List Nat :=
  (List.range (min count (segs.length - first))).map (· + first)

/-- The segments of a range, in the reply's layout. -/
def rangeBytes (k : Chain) (first count : Nat) : List Byte :=
  ((k.segs.drop first).take count).flatMap segBytes

/-- The record of a chain as QUERY_CHAIN reports it. -/
def chainBytes (k : Option Chain) (first count : Nat) : List Byte :=
  match k with
  | none => [byte (chainStateCode none)]
  | some k =>
    [byte (chainStateCode (some k.state))] ++ pointBytes k.start ++ leBytes 2 k.segs.length ++
      leBytes 4 k.loaded ++ pointBytes k.endPt ++ bindingBytes k.binding ++
      (if k.state = .corrupt then [] else rangeBytes k first count)

/-- The slots that a query reads: those of the reported segments of a chain that is OPEN or CLOSED. -/
def queryReads (k : Option Chain) (first count : Nat) : List Nat :=
  match k with
  | some k => if k.state = .corrupt then [] else rangeIn k.segs first count
  | none => []

def takeQueryChain (p : Payload) (s : State) : Answer :=
  ofLength 4 p s fun p s => withChain p s fun c s =>
    let first := uN 2 p 1
    let count := u8 p 3
    if 4095 < first ∨ 6 < count then refuse s .badValue
    else report (State.readSlots c (queryReads (s.chain c) first count) s).1 fun t =>
      chainBytes (t.chain c) first count

end Sys2Proof.Machine
end

