-- ==== Sys2Proof/Machine/Link.lean ====
section
/-! DEFINITION. The link port: contents of the unsolicited records, the transmit arbiter, the taking of
requests, and the receiver (R172 to R175, R180 to R182); and how every command begins and ends. -/

namespace Sys2Proof.Machine

/-! ## Unsolicited records (R157, R175, R176, R182) -/

/-- The contents of a NOTICE. -/
def noticeBytes (s : State) : List Byte :=
  leBytes 4 (s.condBits (·.pending)) ++ leBytes 4 (s.condBits (·.latch)) ++ leBytes 4 (s.condBits (·.live)) ++
    [byte (s.lineBits (·.active)), byte s.mode.code, byte s.job.state.code]

/-- The reported contour: the current contour, else the last-changed one (R91). -/
def State.reported (s : State) : Option Slot :=
  match s.job.current with
  | some i => some i
  | none => s.job.lastChanged

/-- Bytes 2 to 6 of a PROGRESS: state, pass index, chain id, break count and retention of the reported
contour. -/
def reportedBytes (s : State) : List Byte :=
  match s.reported with
  | none => absentBytes 5
  | some i =>
    match s.contour i with
    | none => byte ContourState.empty.code :: absentBytes 4
    | some c =>
      [byte c.state.code, byte c.passIndex] ++ optBytes 1 (c.pass.map (·.chain.val)) ++
        [byte c.breakCount, byte c.retention.code]

/-- The front of the reported contour, or absent. -/
def State.reportedFront (s : State) : Option Nat := (s.reported.bind s.contour).map (·.front)

/-- The fault reason of the last-changed contour, or absent. -/
def State.reportedFault (s : State) : Option FaultReason :=
  (s.job.lastChanged.bind s.contour).bind (·.fault)

/-- The contents of a PROGRESS. -/
def progressBytes (s : State) : List Byte :=
  [byte ((if s.active .slugPresent then 1 else 0) + (if s.journal.erasingAll then 2 else 0))] ++
  slotOpt s.reported ++ reportedBytes s ++ optBytes 1 (s.reportedFault.map (·.code)) ++
  [byte s.job.state.code, byte s.holder.state.code] ++ slotOpt s.holder.owner ++
  posOpt (s.path.pass.map (·.s)) ++ posOpt s.reportedFront

/-- The contents of a STARTUP. -/
def startupBytes (s : State) : List Byte :=
  [byte ((if s.link.causePowerOn then 1 else 0) + (if s.link.causeLine then 2 else 0) +
      (if s.link.causeRequest then 4 else 0)), byte Config.revision, byte s.mode.code] ++
    leBytes 2 s.store.freeSlots

namespace State

/-! ## The transmit arbiter (R174) -/

/-- The transmitter takes a frame. -/
def send (s : State) (sort : TxKind) (f : Frame) : State :=
  s.onLink fun l => { l with sending := some ⟨sort, f⟩ }

/-- The SLUG_CHANGE reference becomes the value of SLUG_PRESENT that a record carries (R156). -/
def reference (s : State) : State := s.onSensors fun n => { n with slugReference := s.active .slugPresent }

/-- The transmitter takes a NOTICE (R157). -/
def takeNotice (s : State) : State :=
  ((s.send .notice ⟨0x7D, 0, noticeBytes s⟩).reference).mapConds fun _ r =>
    if r.pending then { r with noticed := true, pending := false } else r

/-- The transmitter takes a PROGRESS (R66, R175). -/
def takeProgress (s : State) : State :=
  (((s.send .progress ⟨0x7E, 0, progressBytes s⟩).reference).onPass fun r =>
    { r with segsCompleted := 0 }).onLink fun l => { l with progressPending := false }

/-- The transmitter takes the STARTUP (R176). -/
def takeStartup (s : State) : State :=
  (s.send .startup ⟨0x7F, 0, startupBytes s⟩).onLink fun l => { l with startupDue := false }

/-- A transmitter that is free takes the oldest reply, else a NOTICE, a PROGRESS or the STARTUP. -/
def arbitrate (s : State) : State :=
  if s.link.sending.isSome then s
  else
    match s.link.replies with
    | f :: rest => (s.send .reply f).onLink fun l => { l with replies := rest }
    | [] =>
      if s.noticePending then s.takeNotice
      else if s.link.progressPending then s.takeProgress
      else if s.link.startupDue then s.takeStartup
      else s

/-! ## Taking requests (R173) -/

end State

/-- The request of a KIND, as the block that owns it answers it; absent for a KIND that no request has
(section 11.5). -/
def requestOf (kind : Byte) : Option (Payload → State → Answer) :=
  match kind.toNat with
  | 0x01 => some takeIdentify
  | 0x02 => some takeReadStatus
  | 0x03 => some takeQueryResetCause
  | 0x04 => some takeReset
  | 0x05 => some takeSetParam
  | 0x06 => some takeGetParam
  | 0x10 => some takeOpenChain
  | 0x11 => some takeLoadSegments
  | 0x12 => some takeCloseChain
  | 0x13 => some takeDropChain
  | 0x14 => some takeQueryChain
  | 0x20 => some takeDefineContour
  | 0x21 => some takeDeleteContour
  | 0x22 => some takeQueryContour
  | 0x30 => some takeStartJob
  | 0x31 => some takeAbortJob
  | 0x32 => some takeHold
  | 0x33 => some takeResume
  | 0x34 => some takePark
  | 0x35 => some takeWake
  | 0x36 => some takeSkipContour
  | 0x37 => some takeReleaseSever
  | 0x38 => some takeReleaseHolder
  | 0x39 => some takeConfirmSlug
  | 0x3A => some takeRethreadDone
  | 0x3B => some takeSetOverride
  | 0x40 => some takeConfigLine
  | 0x41 => some takeEnableConditions
  | 0x42 => some takeClearConditions
  | 0x43 => some takeQueryConditions
  | 0x50 => some takeJournalSummary
  | 0x51 => some takeJournalRead
  | 0x52 => some takeJournalErase
  | _ => none

/-- The answer to a request: UNKNOWN_KIND for a KIND that no request has. -/
def answerTo (kind : Byte) (p : Payload) (s : State) : Answer :=
  match requestOf kind with
  | some f => f p s
  | none => refuse s .unknownKind

/-- The reply of an answer, formed when the request has had its effect: KIND with its highest bit set,
the TAG echoed, the status, the free-slot count and the contents. -/
def replyFrame (kind tag : Byte) (a : Answer) (t : State) : Frame :=
  ⟨kind ||| 0x80, tag, byte a.status.code :: (leBytes 2 t.store.freeSlots ++ a.extra t)⟩

namespace State

/-- A request is taken: it has its effect, and its reply is formed. -/
def serve (s : State) (f : Frame) : State :=
  let a := answerTo f.kind f.payload s
  let t := a.state.settle
  t.onLink fun l => { l with replies := l.replies ++ [replyFrame f.kind f.tag a t] }

/-- A reply or the STARTUP is in transmission. -/
def replying (s : State) : Bool :=
  match s.link.sending with
  | some t => decide (t.sort = .reply ∨ t.sort = .startup)
  | none => false

/-- The next request may be taken: the reply before it has been sent, no STARTUP is awaited, and no RESET
has been taken (R173, R177; DEDUCED, log entry 42). -/
def ready (s : State) : Bool :=
  s.link.replies.isEmpty && !s.replying && !s.link.startupDue && !s.link.resetTaken

/-- The request at the head of the receive queue is taken, where one may be. -/
def takeNext (s : State) : State :=
  if s.ready then
    match s.link.queue with
    | f :: rest => (s.onLink fun l => { l with queue := rest }).serve f
    | [] => s
  else s

/-! ## The receiver (R172) -/

/-- A frame is discarded: LINK_ERROR is raised and the link error count rises, saturating. -/
def discardFrame (s : State) : State :=
  (s.onLink fun l => { l with errors := min 65535 (l.errors + 1) }).raise .linkError

/-- A good frame joins the receive queue, and is discarded where four frames wait. -/
def goodFrame (s : State) (f : Frame) : State :=
  if s.link.queue.length < Config.receiveQueue then
    (s.onLink fun l => { l with queue := l.queue ++ [f] }).takeNext
  else s.discardFrame

/-- The bytes collected so far. -/
def collect (s : State) (bs : List Byte) : State := s.onLink fun l => { l with collecting := bs }

end State

/-- What the receiver finds at the SYNC byte that begins its buffer. -/
inductive Found where
  /-- The frame is not all there yet. -/
  | more
  /-- The frame is discarded: LEN above 250, or a CRC that does not agree. -/
  | bad
  /-- A good frame, and the bytes after its CRC. -/
  | good (f : Frame) (after : List Byte)
deriving DecidableEq, Repr

/-- The bytes after a SYNC, read as a frame. -/
def readFrame : List Byte → Found
  | [] => .more
  | len :: body =>
    if 250 < len.toNat then .bad
    else if body.length < len.toNat + 4 then .more
    else
      let f : Frame := ⟨body.getD 0 0, body.getD 1 0, (body.drop 2).take len.toNat⟩
      if (body.drop (len.toNat + 2)).take 2 = leBytes 2 (crc (len :: body.take (len.toNat + 2))) then
        .good f (body.drop (len.toNat + 4))
      else .bad

namespace State

/-- Bytes are received one after another; the first argument bounds their number (DEDUCED, log entry 41). A
transmitter that is free takes what waits at the end of each frame (R174). -/
def scanBytes : Nat → List Byte → State → State
  | 0, bs, s => s.collect bs
  | _ + 1, [], s => s.collect []
  | n + 1, b :: bs, s =>
    if b = sync then
      match readFrame bs with
      | .more => s.collect (b :: bs)
      | .bad => scanBytes n bs s.discardFrame.arbitrate
      | .good f rest => scanBytes n rest (s.goodFrame f).arbitrate
    else scanBytes n bs s

/-- Bytes arrive, after those of a frame being collected. -/
def receive (s : State) (bs : List Byte) : State :=
  scanBytes (s.link.collecting ++ bs).length (s.link.collecting ++ bs) s

/-! ## How a command begins and ends -/

/-- Before a command: an earlier step's slot write is complete, and any reports it left are worked off
(DESIGN CHOICE, log entries 4, 10). -/
def begin (s : State) : State := s.settleWrite.settle

/-- After a command: the reports it made are worked off, and a free transmitter takes what waits. -/
def finish (s : State) : State := s.settle.arbitrate

/-- An event at the part. -/
def event (s : State) (f : State → State) : State := (f s.begin).finish

/-- A request: the cell computer sends its frame (R172; DESIGN CHOICE, log entry 15). -/
def request (s : State) (kind tag : Byte) (p : Payload) : State :=
  s.event fun t => t.receive (frameBytes ⟨kind, tag, p⟩)

end State

end Sys2Proof.Machine
end

