-- ==== Sys2Proof/Machine/Requests.lean ====
section
/-! DEFINITION. The meanings of the request rows: the frame of the row's KIND arrives at the receive input,
is taken when its turn comes and has the effect of its rule (R172, R173, section 11.5). The rows that share a
KIND differ in their payload: START_JOB by its length, SET_PARAM by its parameter id. -/

namespace Sys2Proof.Machine

/-- What a command answers. -/
abbrev Outcome := Host.Outcome State Fault Refusal

/-- IDENTIFY (R178): `takeIdentify`. -/
def execIdentify (tag : Byte) (p : Payload) (s : State) : Outcome := .next (s.request 0x01 tag p)

/-- READ_STATUS (R178): `takeReadStatus`. -/
def execReadStatus (tag : Byte) (p : Payload) (s : State) : Outcome := .next (s.request 0x02 tag p)

/-- QUERY_RESET_CAUSE (R176): `takeQueryResetCause`. -/
def execQueryResetCause (tag : Byte) (p : Payload) (s : State) : Outcome := .next (s.request 0x03 tag p)

/-- RESET (R177): `takeReset`. -/
def execReset (tag : Byte) (p : Payload) (s : State) : Outcome := .next (s.request 0x04 tag p)

/-- SET_PARAM of the parameters 1 to 22 (R179): `takeSetParam`, `writeParam`. -/
def execSetParam (tag : Byte) (p : Payload) (s : State) : Outcome := .next (s.request 0x05 tag p)

/-- SET_PARAM of the travel window (R39): `takeTravelWindow`. -/
def execSetParamTravelWindow (tag : Byte) (p : Payload) (s : State) : Outcome := .next (s.request 0x05 tag p)

/-- SET_PARAM of a keep-out rectangle (R40): `takeKeepOut`. -/
def execSetParamKeepOut (tag : Byte) (p : Payload) (s : State) : Outcome := .next (s.request 0x05 tag p)

/-- SET_PARAM of the corrected-error count (R44): `takeCorrectedCount`. -/
def execSetParamCorrectedCount (tag : Byte) (p : Payload) (s : State) : Outcome := .next (s.request 0x05 tag p)

/-- GET_PARAM (R179): `takeGetParam`. -/
def execGetParam (tag : Byte) (p : Payload) (s : State) : Outcome := .next (s.request 0x06 tag p)

/-- SET_OVERRIDE (R179): `takeSetOverride`. -/
def execSetOverride (tag : Byte) (p : Payload) (s : State) : Outcome := .next (s.request 0x3B tag p)

/-- OPEN_CHAIN (R26): `takeOpenChain`. -/
def execOpenChain (tag : Byte) (p : Payload) (s : State) : Outcome := .next (s.request 0x10 tag p)

/-- LOAD_SEGMENTS (R27): `takeLoadSegments`. -/
def execLoadSegments (tag : Byte) (p : Payload) (s : State) : Outcome := .next (s.request 0x11 tag p)

/-- CLOSE_CHAIN (R34): `takeCloseChain`. -/
def execCloseChain (tag : Byte) (p : Payload) (s : State) : Outcome := .next (s.request 0x12 tag p)

/-- DROP_CHAIN (R37): `takeDropChain`. -/
def execDropChain (tag : Byte) (p : Payload) (s : State) : Outcome := .next (s.request 0x13 tag p)

/-- QUERY_CHAIN (R38): `takeQueryChain`. -/
def execQueryChain (tag : Byte) (p : Payload) (s : State) : Outcome := .next (s.request 0x14 tag p)

/-- DEFINE_CONTOUR (R14): `takeDefineContour`. -/
def execDefineContour (tag : Byte) (p : Payload) (s : State) : Outcome := .next (s.request 0x20 tag p)

/-- DELETE_CONTOUR (R18): `takeDeleteContour`. -/
def execDeleteContour (tag : Byte) (p : Payload) (s : State) : Outcome := .next (s.request 0x21 tag p)

/-- QUERY_CONTOUR (R19): `takeQueryContour`. -/
def execQueryContour (tag : Byte) (p : Payload) (s : State) : Outcome := .next (s.request 0x22 tag p)

/-- START_JOB without a resume point (R76): `takeStart`. -/
def execStartJob (tag : Byte) (p : Payload) (s : State) : Outcome := .next (s.request 0x30 tag p)

/-- START_JOB with a resume point (R120): `takeStartResumed`. -/
def execStartJobResumed (tag : Byte) (p : Payload) (s : State) : Outcome := .next (s.request 0x30 tag p)

/-- ABORT_JOB (R86): `takeAbortJob`. -/
def execAbortJob (tag : Byte) (p : Payload) (s : State) : Outcome := .next (s.request 0x31 tag p)

/-- HOLD (R141): `takeHold`. -/
def execHold (tag : Byte) (p : Payload) (s : State) : Outcome := .next (s.request 0x32 tag p)

/-- RESUME (R143): `takeResume`. -/
def execResume (tag : Byte) (p : Payload) (s : State) : Outcome := .next (s.request 0x33 tag p)

/-- PARK (R144): `takePark`. -/
def execPark (tag : Byte) (p : Payload) (s : State) : Outcome := .next (s.request 0x34 tag p)

/-- WAKE (R146): `takeWake`. -/
def execWake (tag : Byte) (p : Payload) (s : State) : Outcome := .next (s.request 0x35 tag p)

/-- SKIP_CONTOUR (R85): `takeSkipContour`. -/
def execSkipContour (tag : Byte) (p : Payload) (s : State) : Outcome := .next (s.request 0x36 tag p)

/-- RELEASE_SEVER (R83): `takeReleaseSever`. -/
def execReleaseSever (tag : Byte) (p : Payload) (s : State) : Outcome := .next (s.request 0x37 tag p)

/-- RELEASE_HOLDER (R132): `takeReleaseHolder`. -/
def execReleaseHolder (tag : Byte) (p : Payload) (s : State) : Outcome := .next (s.request 0x38 tag p)

/-- CONFIRM_SLUG (R128): `takeConfirmSlug`. -/
def execConfirmSlug (tag : Byte) (p : Payload) (s : State) : Outcome := .next (s.request 0x39 tag p)

/-- RETHREAD_DONE (R119): `takeRethreadDone`. -/
def execRethreadDone (tag : Byte) (p : Payload) (s : State) : Outcome := .next (s.request 0x3A tag p)

/-- CONFIG_LINE (R152): `takeConfigLine`. -/
def execConfigLine (tag : Byte) (p : Payload) (s : State) : Outcome := .next (s.request 0x40 tag p)

/-- ENABLE_CONDITIONS (R159): `takeEnableConditions`. -/
def execEnableConditions (tag : Byte) (p : Payload) (s : State) : Outcome := .next (s.request 0x41 tag p)

/-- CLEAR_CONDITIONS (R160): `takeClearConditions`. -/
def execClearConditions (tag : Byte) (p : Payload) (s : State) : Outcome := .next (s.request 0x42 tag p)

/-- QUERY_CONDITIONS (R161): `takeQueryConditions`. -/
def execQueryConditions (tag : Byte) (p : Payload) (s : State) : Outcome := .next (s.request 0x43 tag p)

/-- JOURNAL_SUMMARY (R169): `takeJournalSummary`. -/
def execJournalSummary (tag : Byte) (p : Payload) (s : State) : Outcome := .next (s.request 0x50 tag p)

/-- JOURNAL_READ (R170): `takeJournalRead`. -/
def execJournalRead (tag : Byte) (p : Payload) (s : State) : Outcome := .next (s.request 0x51 tag p)

/-- JOURNAL_ERASE (R171): `takeJournalErase`. -/
def execJournalErase (tag : Byte) (p : Payload) (s : State) : Outcome := .next (s.request 0x52 tag p)

/-- UNKNOWN_KIND_REQUEST (R173). -/
def execUnknownKindRequest (kind tag : Byte) (p : Payload) (s : State) : Outcome := .next (s.request kind tag p)

end Sys2Proof.Machine
end

