-- ==== Sys2Proof/Machine/Reset.lean ====
section
/-! DEFINITION. The three kinds of reset: power-on, the reset line and the RESET request (R22, R45, R69, R108,
R123, R137, R138, R148, R149, R162, R168, R172, R176). -/

namespace Sys2Proof.Machine

/-- The kinds of reset (R176). -/
inductive ResetKind where
  | powerOn
  | line
  | request
deriving DecidableEq, Repr

/-- The lines, fault inputs and reference after every reset: each level taken from its input (R149,
R156, R162). -/
def Sensors.afterReset (n : Sensors) : Sensors where
  lines := n.lines.map fun r => LineRec.reset r.input
  axisFault := n.axisFault
  genFault := n.genFault
  slugReference := (n.lines[lineNum .slugPresent]).input

/-- The path unit after a reset: the commanded position is kept but at power-on (R69). -/
def PathUnit.afterReset (p : PathUnit) (k : ResetKind) : PathUnit :=
  match k with
  | .powerOn => PathUnit.reset
  | .line | .request => { PathUnit.reset with commanded := p.commanded, supplied := p.supplied }

/-- The holder after a reset: FREE at power-on; after the other two HOLDER_ENGAGED is read, and active
it is HOLDING with no owner and the output as it stood (R137). -/
def Holder.afterReset (h : Holder) (k : ResetKind) (engaged : Bool) : Holder :=
  match k with
  | .powerOn => Holder.reset
  | .line | .request =>
    if engaged then { Holder.reset with state := .holding, output := h.output } else Holder.reset

/-- The link port after a reset, with the flags of R176: STARTUP is due. -/
def Link.afterReset (l : Link) (k : ResetKind) : Link :=
  let base := { Link.reset with
    causePowerOn := l.causePowerOn, causeLine := l.causeLine, causeRequest := l.causeRequest }
  match k with
  | .powerOn => { base with causePowerOn := true, causeLine := false, causeRequest := false }
  | .line => { base with causeLine := true }
  | .request => { base with causeRequest := true }

namespace State

/-- The part as a reset leaves it, before the live values are computed. -/
def cleared (s : State) (k : ResetKind) : State :=
  { State.reset with
    path := s.path.afterReset k
    holder := s.holder.afterReset k (s.lineRec .holderEngaged).input
    sensors := s.sensors.afterReset
    journal := Journal.scan (s.journal.memAfterReset s.free)
    link := s.link.afterReset k
    free := s.free + 1
    pending := s.pending }

/-- A reset: the records take their reset values, and the level conditions found true rise (R162). -/
def resetBy (s : State) (k : ResetKind) : State := (s.cleared k).refreshLevels

end State

end Sys2Proof.Machine
end

