-- ==== Sys2Proof/Machine/Events.lean ====
section
/-! DEFINITION. The meanings of the event rows: resets, the ends of received and sent frames, the lines and
fault inputs, the gap sample with the servo, the drive update with the three kinds of motion, and the
expiries of the timers (R54 to R65, R99 to R104, R127, R131, R133, R147, R150, R166, R176). -/

namespace Sys2Proof.Machine

/-- The case of a taken sample (R55). -/
inductive SampleCase where
  | short
  | opened
  | proportional
deriving DecidableEq, Repr

namespace State

/-! ## Resets and the link -/

/-- A reset, after which the transmitter takes the record that is due. -/
def resetStep (s : State) (k : ResetKind) : State := (s.resetBy k).finish

/-- The frame in transmission is the reply to a RESET that has been taken: the reset takes place at its end
(R177). -/
def resetDue (s : State) : Bool :=
  s.link.resetTaken && (match s.link.sending with
    | some t => decide (t.sort = .reply)
    | none => false)

/-- The frame in transmission has been sent: the arbiter chooses, and then the next request is taken
(R174). -/
def transmitEnd (s : State) : State :=
  match s.link.sending with
  | some _ => ((s.onLink fun l => { l with sending := none }).arbitrate).takeNext
  | none => s

/-! ## The gap servo (R54 to R59) -/

/-- A sample is a short, an open or a proportional one, in that order. -/
def sampleCase (q : PassRec) (pulses shorts opens : Nat) : SampleCase :=
  if q.shortLimit ≤ shorts then .short else if opens = pulses then .opened else .proportional

/-- The raw value of the open and proportional cases. -/
def rawStep (q : PassRec) (c : SampleCase) (voltage : Nat) : Int :=
  match c with
  | .short => 0
  | .opened => q.feedMax
  | .proportional => (((voltage : Int) - q.vset) * q.gain).tdiv 64

/-- The signed step of a taken sample (R55). -/
def sampleStep (q : PassRec) (override : Nat) (c : SampleCase) (voltage : Nat) : Int :=
  match c with
  | .short => -(q.retractStep : Int)
  | _ =>
    let raw := rawStep q c voltage
    let adjusted := if 0 < raw then (raw * override).tdiv 100 else raw
    max (-(q.retractStep : Int)) (min (q.feedMax : Int) adjusted)

/-- The servo takes samples: RUN, CUTTING or SEVERING, MOVING, s on a CUT segment, generator on
(R54). -/
def servoReady (s : State) (r : RunPass) (k : Chain) : Bool :=
  s.running && s.cutting && decide (r.sub = .moving) && decide (k.modeAt r.s = some .cut) && s.path.genOn

/-- The consecutive-open count after a taken sample (R56). -/
def openAfter (r : RunPass) (c : SampleCase) : Nat :=
  if c = .opened then min 65535 (r.openCount + 1) else 0

/-- The consecutive-stuck count after a taken sample: a short sample taken at the floor raises it
(R59). -/
def stuckAfter (r : RunPass) (c : SampleCase) (floor : Nat) : Nat :=
  if c = .short ∧ r.s = floor then min 65535 (r.stuckCount + 1) else 0

/-- The new s of a target: the stop point, the floor, or the target (R57). -/
def newPosition (stop floor : Nat) (target : Int) : Nat :=
  if (stop : Int) ≤ target then stop else if target < floor then floor else target.toNat

/-- The counts of a taken sample, with SHORT_RETRACT and GAP_OPEN (R55, R56, R59). -/
def countSample (s : State) (r : RunPass) (c : SampleCase) (floor : Nat) : State :=
  let t := s.onPass fun q => { q with openCount := openAfter r c, stuckCount := stuckAfter r c floor }
  (if c = .short then t.raise .shortRetract else t).decideGapOpen

/-- The floor-clamp report of a taken sample (R58). -/
def reportClamp (s : State) (r : RunPass) (floor pos : Nat) (clamped : Bool) : State :=
  if clamped && !r.floorReported then
    (s.raise .retraceExhausted).onPass fun q => { q with floorReported := true }
  else if floor < pos then s.onPass fun q => { q with floorReported := false }
  else s

/-- A step from one position back to another leaves a tack boundary behind it. -/
def backOver (spans : List Span) (a b : Nat) : Bool :=
  spans.any fun t => decide (b < t.start ∧ t.start ≤ a) || decide (b < t.start + t.length ∧ t.start + t.length ≤ a)

/-- A retract from a position has carried s back over a tack boundary: the setting index is chosen for where s
now lies, and the boundary, which lies beyond s again, becomes the stop point (R51, R60; DEDUCED, log entry
31). -/
def retracted (s : State) (from' pos : Nat) : State :=
  if backOver s.tackSpans from' pos then
    (if s.path.genOn then s.chooseSetting else s).recomputeQuietly
  else s

/-- The step of a taken sample is applied (R57 to R59). -/
def applySample (s : State) (r : RunPass) (k : Chain) (floor : Nat) (step : Int) : State :=
  let target := (r.s : Int) + step
  let pos := newPosition r.stopPoint floor target
  let atStop := decide ((r.stopPoint : Int) ≤ target)
  let (t, ok) := readSlots r.chain (stepReads k r.s pos) s
  if ok then
    let u := (t.reportClamp r floor pos (!atStop && decide (target < floor))).movePass k pos
    if (u.path.pass.map (·.stuckCount)).getD 0 < s.params.stuckSamples then
      (if atStop then u.arrive else u.retracted r.s pos)
    else u.genOff.report .stuck
  else t

/-- A gap sample arrives; one that is not taken makes no step and changes nothing (R54). -/
def gapStep (s : State) (voltage pulses shorts opens : Nat) : State :=
  match s.runChain, s.curContour.bind Contour.pass with
  | some (r, k), some q =>
    if s.servoReady r k = true ∧ pulses ≠ 0 ∧ shorts + opens ≤ pulses then
      let c := sampleCase q pulses shorts opens
      let floor := s.floorOf r
      (s.countSample r c floor).applySample r k floor (sampleStep q s.params.override c voltage)
    else s
  | _, _ => s

/-! ## The drive update (R62 to R65) -/

/-- A dry step (R63). -/
def dryStep (s : State) (r : RunPass) (k : Chain) : State :=
  let pos := r.s + min s.params.dryStep (r.stopPoint - r.s)
  let (t, ok) := readSlots r.chain (stepReads k r.s pos) s
  if ok then
    let u := t.movePass k pos
    if pos = r.stopPoint then u.arrive else u
  else t

/-- An approach step (R64). -/
def approachStep (s : State) (r : RunPass) (k : Chain) (a : Nat) : State :=
  let b := a + min s.params.dryStep (r.s - a)
  let (t, ok) := readSlots r.chain (stepReads k a b) s
  if ok then
    let u := t.onPath fun p => { p with commanded := k.point b }
    if b = r.s then (u.onPass fun q => { q with approach := none }).report .approachDone
    else u.onPass fun q => { q with approach := some b }
  else t

/-- The approach position of a dry re-approach in progress. -/
def approaching (s : State) : Option Nat :=
  if s.job.work = some .approach then s.path.pass.bind (·.approach) else none

/-- The motion step due at a drive update: rapid, approach or dry, at most one (R62). -/
def motionStep (s : State) : State :=
  if s.running then
    match s.path.rapid, s.approaching, s.runChain with
    | some m, _, _ => s.rapidStep m
    | none, some a, some (r, k) => s.approachStep r k a
    | none, none, some (r, k) =>
      if s.cutting && decide (r.sub = .moving) && decide (k.modeAt r.s = some .dry) then s.dryStep r k else s
    | none, _, none => s
  else s

/-- The commanded position is supplied to the drives (DEDUCED, log entry 32). -/
def supply (s : State) : State := s.onPath fun p => { p with supplied := p.commanded }

/-! ## Timers and the journal -/

/-- The settle timer expires: WAKING ends in HOLD (R147). -/
def settleExpiry (s : State) : State :=
  if s.mode = .waking ∧ s.modes.settle.isSome = true then
    s.onModes fun m => { m with mode := .hold, settle := none }
  else s

/-- The drop wait's timer expires (R127). -/
def dropExpiry (s : State) : State :=
  if s.slug.drop = .waiting ∧ s.slug.dropTimer.isSome = true then s.dropExpired else s

/-- A page erase completes; at the end of JOURNAL_ERASE a PROGRESS becomes pending (R166, R171). -/
def eraseComplete (s : State) : State :=
  match s.journal.erasing with
  | some p =>
    let t := s.onJournal fun j => j.eraseDone p
    let u := t.setLive .journalBlocked t.journal.blocked
    if s.journal.erasingAll && !t.journal.erasingAll then u.progress else u
  | none => s

end State

/-! ## The rows -/

/-- POWER_ON (R176). -/
def execPowerOn (s : State) : Outcome := .next (s.resetStep .powerOn)

/-- RESET_LINE (R176). -/
def execResetLine (s : State) : Outcome := .next (s.resetStep .line)

/-- RECEIVE_FRAME: bytes arrive at the receive input (R172). -/
def execReceiveFrame (bytes : List Byte) (s : State) : Outcome := .next (s.event fun t => t.receive bytes)

/-- TRANSMIT_END: at the end of RESET's reply the reset takes place (R174, R177). -/
def execTransmitEnd (s : State) : Outcome :=
  .next (if s.resetDue then s.resetStep .request else s.event State.transmitEnd)

/-- JOURNAL_ERASE_COMPLETE (R166). -/
def execJournalEraseComplete (s : State) : Outcome := .next (s.event State.eraseComplete)

/-- LINE_INPUT_CHANGE (R150). -/
def execLineInputChange (l : Line) (high : Bool) (s : State) : Outcome :=
  .next (s.event fun t => t.inputChange l high)

/-- LINE_FILTER_EXPIRY (R150). -/
def execLineFilterExpiry (l : Line) (s : State) : Outcome := .next (s.event fun t => t.filterExpiry l)

/-- AXIS_FAULT_INPUT (R153). -/
def execAxisFaultInput (fault : Bool) (s : State) : Outcome :=
  .next (s.event fun t => (t.onSensors fun n => { n with axisFault := fault }).refreshLevels)

/-- GEN_FAULT_INPUT (R153). -/
def execGenFaultInput (fault : Bool) (s : State) : Outcome :=
  .next (s.event fun t => (t.onSensors fun n => { n with genFault := fault }).refreshLevels)

/-- WAKE_SETTLE_EXPIRY (R147). -/
def execWakeSettleExpiry (s : State) : Outcome := .next (s.event State.settleExpiry)

/-- GAP_SAMPLE (R54). -/
def execGapSample (voltage pulses shorts opens : Nat) (s : State) : Outcome :=
  .next (s.event fun t => t.gapStep voltage pulses shorts opens)

/-- DRIVE_UPDATE: the motion step due is made with what follows from it, and the commanded position is
supplied (R62). -/
def execDriveUpdate (s : State) : Outcome := .next (s.event fun t => t.motionStep.settle.supply)

/-- TIP_CUT_EXPIRY (R99). -/
def execTipCutExpiry (s : State) : Outcome := .next (s.event State.tipCutDone)

/-- FEED_TIMEOUT_EXPIRY (R100). -/
def execFeedTimeoutExpiry (s : State) : Outcome := .next (s.event State.feedTimedOut)

/-- RETRACT_EXPIRY (R101). -/
def execRetractExpiry (s : State) : Outcome := .next (s.event State.retractDone)

/-- UNTHREAD_CUT_EXPIRY (R104). -/
def execUnthreadCutExpiry (s : State) : Outcome := .next (s.event State.unthreadCutDone)

/-- PULL_TIMEOUT_EXPIRY (R104). -/
def execPullTimeoutExpiry (s : State) : Outcome := .next (s.event State.pullTimedOut)

/-- DROP_WAIT_EXPIRY (R127). -/
def execDropWaitExpiry (s : State) : Outcome := .next (s.event State.dropExpiry)

/-- HOLDER_ENGAGE_TIMEOUT (R131). -/
def execHolderEngageTimeout (s : State) : Outcome := .next (s.event State.engageTimedOut)

/-- HOLDER_RELEASE_TIMEOUT (R133). -/
def execHolderReleaseTimeout (s : State) : Outcome := .next (s.event State.releaseTimedOut)

end Sys2Proof.Machine
end

