-- ==== Sys2Proof/Machine/Dispatch.lean ====
section
/-! DEFINITION. The meaning of every command: one arm per row of spec/opcode_table.json. -/

namespace Sys2Proof.Machine

def exec (i : Instr) (s : State) : Host.Outcome State Fault Refusal :=
  match i with
  | .powerOn => Sys2Proof.Machine.execPowerOn s
  | .resetLine => Sys2Proof.Machine.execResetLine s
  | .receiveFrame bytes => Sys2Proof.Machine.execReceiveFrame bytes s
  | .unknownKindRequest kind tag payload => Sys2Proof.Machine.execUnknownKindRequest kind tag payload s
  | .transmitEnd => Sys2Proof.Machine.execTransmitEnd s
  | .identify tag payload => Sys2Proof.Machine.execIdentify tag payload s
  | .readStatus tag payload => Sys2Proof.Machine.execReadStatus tag payload s
  | .queryResetCause tag payload => Sys2Proof.Machine.execQueryResetCause tag payload s
  | .reset tag payload => Sys2Proof.Machine.execReset tag payload s
  | .setParam tag payload => Sys2Proof.Machine.execSetParam tag payload s
  | .setParamTravelWindow tag payload => Sys2Proof.Machine.execSetParamTravelWindow tag payload s
  | .setParamKeepOut tag payload => Sys2Proof.Machine.execSetParamKeepOut tag payload s
  | .setParamCorrectedCount tag payload => Sys2Proof.Machine.execSetParamCorrectedCount tag payload s
  | .getParam tag payload => Sys2Proof.Machine.execGetParam tag payload s
  | .setOverride tag payload => Sys2Proof.Machine.execSetOverride tag payload s
  | .openChain tag payload => Sys2Proof.Machine.execOpenChain tag payload s
  | .loadSegments tag payload => Sys2Proof.Machine.execLoadSegments tag payload s
  | .closeChain tag payload => Sys2Proof.Machine.execCloseChain tag payload s
  | .dropChain tag payload => Sys2Proof.Machine.execDropChain tag payload s
  | .queryChain tag payload => Sys2Proof.Machine.execQueryChain tag payload s
  | .defineContour tag payload => Sys2Proof.Machine.execDefineContour tag payload s
  | .deleteContour tag payload => Sys2Proof.Machine.execDeleteContour tag payload s
  | .queryContour tag payload => Sys2Proof.Machine.execQueryContour tag payload s
  | .startJob tag payload => Sys2Proof.Machine.execStartJob tag payload s
  | .startJobResumed tag payload => Sys2Proof.Machine.execStartJobResumed tag payload s
  | .abortJob tag payload => Sys2Proof.Machine.execAbortJob tag payload s
  | .hold tag payload => Sys2Proof.Machine.execHold tag payload s
  | .resume tag payload => Sys2Proof.Machine.execResume tag payload s
  | .park tag payload => Sys2Proof.Machine.execPark tag payload s
  | .wake tag payload => Sys2Proof.Machine.execWake tag payload s
  | .skipContour tag payload => Sys2Proof.Machine.execSkipContour tag payload s
  | .releaseSever tag payload => Sys2Proof.Machine.execReleaseSever tag payload s
  | .releaseHolder tag payload => Sys2Proof.Machine.execReleaseHolder tag payload s
  | .confirmSlug tag payload => Sys2Proof.Machine.execConfirmSlug tag payload s
  | .rethreadDone tag payload => Sys2Proof.Machine.execRethreadDone tag payload s
  | .configLine tag payload => Sys2Proof.Machine.execConfigLine tag payload s
  | .enableConditions tag payload => Sys2Proof.Machine.execEnableConditions tag payload s
  | .clearConditions tag payload => Sys2Proof.Machine.execClearConditions tag payload s
  | .queryConditions tag payload => Sys2Proof.Machine.execQueryConditions tag payload s
  | .journalSummary tag payload => Sys2Proof.Machine.execJournalSummary tag payload s
  | .journalRead tag payload => Sys2Proof.Machine.execJournalRead tag payload s
  | .journalErase tag payload => Sys2Proof.Machine.execJournalErase tag payload s
  | .journalEraseComplete => Sys2Proof.Machine.execJournalEraseComplete s
  | .lineInputChange line high => Sys2Proof.Machine.execLineInputChange line high s
  | .lineFilterExpiry line => Sys2Proof.Machine.execLineFilterExpiry line s
  | .axisFaultInput fault => Sys2Proof.Machine.execAxisFaultInput fault s
  | .genFaultInput fault => Sys2Proof.Machine.execGenFaultInput fault s
  | .wakeSettleExpiry => Sys2Proof.Machine.execWakeSettleExpiry s
  | .gapSample voltage pulses shorts opens => Sys2Proof.Machine.execGapSample voltage pulses shorts opens s
  | .driveUpdate => Sys2Proof.Machine.execDriveUpdate s
  | .tipCutExpiry => Sys2Proof.Machine.execTipCutExpiry s
  | .feedTimeoutExpiry => Sys2Proof.Machine.execFeedTimeoutExpiry s
  | .retractExpiry => Sys2Proof.Machine.execRetractExpiry s
  | .unthreadCutExpiry => Sys2Proof.Machine.execUnthreadCutExpiry s
  | .pullTimeoutExpiry => Sys2Proof.Machine.execPullTimeoutExpiry s
  | .dropWaitExpiry => Sys2Proof.Machine.execDropWaitExpiry s
  | .holderEngageTimeout => Sys2Proof.Machine.execHolderEngageTimeout s
  | .holderReleaseTimeout => Sys2Proof.Machine.execHolderReleaseTimeout s

end Sys2Proof.Machine
end

