-- ==== Sys2Proof/Machine/Idle.lean ====
section
/-! DEFINITION. What may come about while no command waits: an error in a segment slot (section 2.8). -/

namespace Sys2Proof.Machine

/-- An error arises in a slot: what its check information will find. -/
def upset (correctable : Bool) (g : Segment) : Segment :=
  { g with check := if correctable then .correctable else .uncorrectable }

namespace State

/-- An error arises in the slot of a segment of a chain; where there is no such segment, none does. -/
def upsetSlot (s : State) (chain index : Nat) (correctable : Bool) : State :=
  match chainOf chain with
  | some c => s.onChain c fun k => { k with segs := k.segs.modify index (upset correctable) }
  | none => s

/-- The part idles: nothing of its own happens, but an error may have arisen in a segment slot (DESIGN CHOICE, log entry
7). -/
def idle (s : State) : State :=
  match Config.slotUpset s.free with
  | some (c, i, ok) => s.nextFree.upsetSlot c i ok
  | none => s.nextFree

end State

end Sys2Proof.Machine
end

