-- ==== Sys2Proof/Safety.lean ====
section
/-! DEFINITION. What holds of every state a run reaches, as the manual promises it, and what a safe step
is; with them the terms that the statements use: a quiet link, and the reply to a request. -/

namespace Sys2Proof.Machine

/-- The erases of a page that are under way or listed. -/
def Journal.erasesDue (j : Journal) (p : Nat) : Nat :=
  j.eraseList.count p + if j.erasing = some p then 1 else 0

/-- Two erases of a page may be due while JOURNAL_ERASE runs, and for the page after the active one or one
that a roll waits for; else one (R166, R171). -/
def Journal.eraseLimit (j : Journal) (p : Nat) : Nat :=
  if j.erasingAll = true ∨ j.active.map nextPage = some p ∨ j.waitRoll = some p then 2 else 1

/-- The form of the journal: its storage in canonical form, its pages and slots within their ranges, no page
due more erases than its limit, a listed page only behind one that is erasing, the active page never erasing
or listed, a wait only where no page is active, and nothing active while JOURNAL_ERASE runs (R163, R165, R166, R171). -/
structure Journal.Form (j : Journal) : Prop where
  mem : memWf j.mem = true
  active : ∀ p, j.active = some p → p < 4
  slot : 1 ≤ j.nextSlot ∧ j.nextSlot ≤ 128
  erasing : ∀ p, j.erasing = some p → p < 4
  list : ∀ p ∈ j.eraseList, p < 4
  once : ∀ p < 4, j.erasesDue p ≤ j.eraseLimit p
  busy : j.erasing = none → j.eraseList = []
  idle : ∀ p, j.active = some p → j.waitRoll = none ∧ j.waitFirst = false
  first : j.waitFirst = true → j.waitRoll = none
  roll : ∀ p, j.waitRoll = some p → p < 4
  writing : ∀ p k, j.writing = some (p, k) → p < 4 ∧ k < 128
  kept : ∀ p, j.active = some p → j.awaitsErase p = false
  all : j.erasingAll = true → j.active = none ∧ j.waitRoll = none ∧ j.waitFirst = false

namespace State

/-- The slots that the chains hold. -/
def slotsHeld (s : State) : Nat :=
  (s.store.chains.toList.map fun c =>
    match c with
    | some k => k.segs.length
    | none => 0).sum

/-- The free-slot count and the segment counts of the chains add up to the slots of the store (R23). -/
def Credits (s : State) : Prop := s.store.freeSlots + s.slotsHeld = Config.segmentSlots

/-- The pump is on in every mode but PARK (R138). -/
def PumpFollowsMode (s : State) : Prop := s.modes.pump = decide (s.modes.mode ≠ .park)

/-- The settle timer runs only while the mode is WAKING, and park pending is yes only while it is HOLD
(R138). -/
def ModeTimers (s : State) : Prop :=
  (s.modes.settle.isSome = true → s.modes.mode = .waking) ∧
    (s.modes.parkPending = true → s.modes.mode = .hold)

/-- No report between the blocks is left over, and no slot write could still be cut short (DESIGN CHOICE, log entries 4,
10). -/
def Steady (s : State) : Prop := s.agenda = [] ∧ s.journal.writing = none

/-- Nothing is under way on the link: the receiver hunts, nothing waits or is sent, no STARTUP is awaited and
no RESET has been taken. A request that arrives is then taken at once (R172 to R174, R177). -/
def Quiet (s : State) : Prop :=
  s.Steady ∧ s.link.collecting = [] ∧ s.link.queue = [] ∧ s.link.replies = [] ∧ s.link.sending = none ∧
    s.link.startupDue = false ∧ s.link.resetTaken = false

/-- The state with a request's reply in transmission: KIND with its highest bit set, the TAG echoed, the
status, the free-slot count and the contents (R173). -/
def replied (t : State) (kind tag : Byte) (st : Status) (extra : List Byte) : State :=
  t.onLink fun l => { l with sending := some ⟨.reply, ⟨kind ||| 0x80, tag,
    byte st.code :: (leBytes 2 t.store.freeSlots ++ extra)⟩⟩ }

/-- The form of the journal's record. -/
def JournalForm (s : State) : Prop := s.journal.Form

/-- A contour is current in STAGE_A and STAGE_B, and in no other job state (R70). -/
def StageHasCurrent (s : State) : Prop :=
  s.job.current.isSome = decide (s.job.state = .stageA ∨ s.job.state = .stageB)

/-- The journal writes the next two records offered without a roll (R165). -/
def JournalRoom (s : State) : Prop :=
  s.journal.active.isSome = true ∧ s.journal.queue = [] ∧ s.journal.blocked = false ∧
    s.journal.nextSlot < 126 ∧ ∃ n, s.journal.nextSeq = some n ∧ n + 1 < Config.maxSequence

/-- No cause of a forced hold stands: door closed, tank full, no drive or generator fault, journal not
blocked, and none of these conditions live (R142, R143, R153). -/
def NoHoldCause (s : State) : Prop :=
  s.mayRun = true ∧ s.active .doorClosed = true ∧ s.active .tankFull = true ∧
    s.sensors.axisFault = false ∧ s.sensors.genFault = false ∧ s.journal.blocked = false

/-- Nothing is under way at the plate: no current contour, order, pass, move, threading operation, drop wait
or engage request. -/
def NothingUnderWay (s : State) : Prop :=
  s.job.current = none ∧ s.job.due = false ∧ s.path.pass = none ∧ s.path.rapid = none ∧ s.thread = none ∧
    s.slug.drop = .idle ∧ s.holder.request = none

end State

/-- The loaded length of a chain is the sum of its segments' lengths, and each cumulative start the sum of the lengths
before it (R24, R25, R33). -/
structure Chain.Formed (k : Chain) : Prop where
  loaded : k.loaded = (k.segs.map (·.length)).sum
  starts : ∀ (n : Nat) (g : Segment), k.segs[n]? = some g → g.cumStart = ((k.segs.take n).map (·.length)).sum

/-- Every chain of the store is formed. -/
def State.ChainsFormed (s : State) : Prop := ∀ (ch : ChainId) (k : Chain), s.chain ch = some k → k.Formed

/-- A transmitter that is free has nothing waiting: every step ends with the arbiter (R174). -/
def State.LinkSettled (s : State) : Prop :=
  s.link.sending = none → s.link.replies = [] ∧ s.noticePending = false ∧ s.link.progressPending = false

/-- Every slot of a chain reads unchanged (R41). -/
def Chain.Sound (k : Chain) : Prop := ∀ g ∈ k.segs, g.check = .unchanged

/-- A chain whose slots read unchanged and hold CUT segments only. -/
def Chain.SoundCut (k : Chain) : Prop := ∀ g ∈ k.segs, g.check = .unchanged ∧ g.mode = .cut

/-- A step that neither faults nor is refused: the manual gives every command an effect. -/
def StepSafe (s : State) : Prop := ∃ t, step s = .next t

end Sys2Proof.Machine
end

