-- ==== Sys2Proof/WellFormed.lean ====
section
/-! DEFINITION. Which commands are well formed: operands within what the link and the ports can carry, and a
payload that belongs to its row. The meanings are total: on other operands they do what the bytes say. -/

namespace Sys2Proof

/-- A payload of at most 250 bytes (R172). -/
def Payload.fits (p : Payload) : Bool := decide (p.length ≤ 250)

/-- The KIND codes that section 11.5 assigns to requests. -/
def assignedKinds : List Nat :=
  [0x01, 0x02, 0x03, 0x04, 0x05, 0x06, 0x10, 0x11, 0x12, 0x13, 0x14, 0x20, 0x21, 0x22, 0x30, 0x31, 0x32,
    0x33, 0x34, 0x35, 0x36, 0x37, 0x38, 0x39, 0x3A, 0x3B, 0x40, 0x41, 0x42, 0x43, 0x50, 0x51, 0x52]

/-- The first byte of a payload has a value. -/
def Payload.startsWith (p : Payload) (id : Nat) : Bool := decide (p.head? = some (byte id))

/-- The values of a gap sample: a voltage in a byte and a pulse count of at most 63 (R54). -/
def sampleFits (voltage pulses : Nat) : Bool := decide (voltage ≤ 255 ∧ pulses ≤ 63)

/-- A command is well formed. -/
def Instr.wf (i : Instr) : Bool :=
  match i with
  | .unknownKindRequest kind _ p => p.fits && !assignedKinds.contains kind.toNat
  | .setParam _ p => p.fits && !(p.startsWith 23 || p.startsWith 24 || p.startsWith 25)
  | .setParamTravelWindow _ p => p.fits && p.startsWith 23
  | .setParamKeepOut _ p => p.fits && p.startsWith 24
  | .setParamCorrectedCount _ p => p.fits && p.startsWith 25
  | .startJob _ p => p.fits && decide (p.length ≠ 10)
  | .startJobResumed _ p => p.fits && decide (p.length = 10)
  | .identify _ p | .readStatus _ p | .queryResetCause _ p | .reset _ p | .getParam _ p | .setOverride _ p
  | .openChain _ p | .loadSegments _ p | .closeChain _ p | .dropChain _ p | .queryChain _ p
  | .defineContour _ p | .deleteContour _ p | .queryContour _ p | .abortJob _ p | .hold _ p | .resume _ p
  | .park _ p | .wake _ p | .skipContour _ p | .releaseSever _ p | .releaseHolder _ p | .confirmSlug _ p
  | .rethreadDone _ p | .configLine _ p | .enableConditions _ p | .clearConditions _ p
  | .queryConditions _ p | .journalSummary _ p | .journalRead _ p | .journalErase _ p => p.fits
  | .gapSample voltage pulses _ _ => sampleFits voltage pulses
  | .powerOn | .resetLine | .receiveFrame _ | .transmitEnd | .journalEraseComplete | .lineInputChange _ _
  | .lineFilterExpiry _ | .axisFaultInput _ | .genFaultInput _ | .wakeSettleExpiry | .driveUpdate
  | .tipCutExpiry | .feedTimeoutExpiry | .retractExpiry | .unthreadCutExpiry | .pullTimeoutExpiry
  | .dropWaitExpiry | .holderEngageTimeout | .holderReleaseTimeout => true

end Sys2Proof
end

