-- ==== Sys2Proof/Certificates/Slice0/Obligations.lean ====
section
/-! DEFINITION. The statements about the model, from the numbered rules of the manual. A request's statement is
about a quiet link, on which the request is taken at once; an event's statement ends with the transmitter, which
takes what waits if it is free (`State.arbitrate`, the subject of `TransmitterChoosesInOrder`). -/

open Sys2Proof Sys2Proof.Machine

namespace Sys2Proof.Machine

/-- The latch of a condition once its event has been raised while its group is valid (R156). -/
def State.raisedLatch (s : State) (c : Cond) : Bool :=
  (s.cond c).latch || (s.cond c).enable || s.params.latchDisabled

/-- A line's hold is running, and its end makes the active value `v`, which it is not yet (R149, R150). -/
def State.Turns (s : State) (l : Line) (v : Bool) : Prop :=
  (s.lineRec l).holding = true ∧ (s.lineRec l).active = !v ∧
    (decide ((s.lineRec l).polarity = .activeHigh) == (s.lineRec l).input) = v

/-- The line's record as the end of its hold leaves it. -/
def State.turned (s : State) (l : Line) (v : Bool) : State :=
  s.setLine l { s.lineRec l with level := (s.lineRec l).input, holding := false, active := v }

/-- What a forced hold makes of the mode unit: HOLD from RUN with the generator off, and no change in any other
mode (R142). In PARK the clause is about a cell whose door and fault conditions show what their inputs say. -/
def HoldForced (s t : State) : Prop :=
  (s.modes.mode = .run → t.modes = { s.modes with mode := .hold } ∧ t.path.genOn = false) ∧
  (s.modes.mode = .hold ∨ s.modes.mode = .waking → t.modes = s.modes) ∧
  (s.modes.mode = .park → (∀ c ∈ [Cond.doorOpen, .axisFault, .genFault], (s.cond c).live = s.source c) →
    t.modes = s.modes)

/-- The current contour, with the pass at its pass index, the running-pass record and the running chain, whose
slots read without error. -/
def State.OnPass (s : State) (i : Slot) (c : Contour) (q : PassRec) (r : RunPass) (k : Chain) : Prop :=
  s.job.current = some i ∧ s.contour i = some c ∧ c.pass = some q ∧ s.path.pass = some r ∧
    s.chain r.chain = some k ∧ k.Sound

/-- No contour but the current one has work: none is QUEUED or BRIDGED, so that the choice of R71 comes to
COMPLETE. -/
def State.NoneWaiting (s : State) : Prop :=
  ∀ j k, s.contour j = some k → k.state ≠ .queued ∧ k.state ≠ .bridged

end Sys2Proof.Machine

/-! ## The step -/

/-- A step takes the command at the front of the queue and carries it out on the rest (DESIGN CHOICE, log entry 1). -/
def Obligations.FrontCommandIsExecuted : Prop :=
  ∀ (c : Instr) (rest : List Instr) (s : State),
    step (s.withPending (c :: rest)) = exec c (s.withPending rest)

/-- A step with an empty queue changes nothing but the check information of slots, and the counter of free values
(section 2.8; DESIGN CHOICE, log entries 1, 7). -/
def Obligations.IdlePartChangesOnlySlotChecks : Prop :=
  ∀ s : State, s.pending = [] → ∃ t : State, step s = .next t ∧
    t = { s with free := s.free + 1, store := { s.store with chains := t.store.chains } } ∧
    ∀ c, (t.chain c).map (fun k : Chain => { k with segs := k.segs.map fun g : Segment => { g with check := .unchanged } }) =
      (s.chain c).map fun k : Chain => { k with segs := k.segs.map fun g : Segment => { g with check := .unchanged } }

/-- Every step answers a next state: no command of the table faults or is refused by the model.
DEDUCED from the table, which gives every row an effect (log entry 16). -/
def Obligations.EveryStepAnswers : Prop := ∀ s : State, StepSafe s

/-! ## Link group -/

/-- R178: IDENTIFY and READ_STATUS report what the rule lists and change nothing.
The layout of the READ_STATUS reply is the model's reading (DEDUCED, log entry 26). -/
def Obligations.IdentifyAndReadStatusReport : Prop :=
  ∀ (tag : Byte) (s : State), s.Quiet →
    exec (.identify tag []) s = .next (s.replied 0x01 tag .ok
      [0x45, 0x57, 0x2D, 0x34, 0x31, 0x30, 1, 64, 0, 128, 0, 0, 16, 4, 0, 4, 0, 128, 0, 4, 0, 28, 0, 8, 0]) ∧
    exec (.readStatus tag []) s = .next (s.replied 0x02 tag .ok
      ([byte s.modes.mode.code, boolByte s.modes.parkPending, byte s.job.state.code] ++
        optBytes 1 (s.job.current.map (·.val)) ++ optBytes 1 (s.job.lastChanged.map (·.val)) ++
        [boolByte s.job.resume.isSome, byte (threadCode (s.thread.map (·.step)))] ++
        optBytes 1 (s.thread.map fun t => if t.held then 1 else 0) ++ [byte s.holder.state.code] ++
        optBytes 1 (s.holder.owner.map (·.val)) ++ optBytes 1 s.journal.active ++
        optBytes 1 s.journal.erasing ++ [byte s.journal.queue.length, byte s.store.corrected] ++
        leBytes 2 s.link.errors ++ [byte (s.lineBits (·.active))]))

/-- R176, third part: QUERY_RESET_CAUSE carries the three flags as they stood, and then they are cleared.
One byte a flag is the model's reading (DEDUCED, log entry 29). -/
def Obligations.QueryResetCauseReportsThenClears : Prop :=
  ∀ (tag : Byte) (s : State), s.Quiet →
    exec (.queryResetCause tag []) s = .next
      ((s.onLink fun l => { l with causePowerOn := false, causeLine := false, causeRequest := false }).replied
        0x03 tag .ok [boolByte s.link.causePowerOn, boolByte s.link.causeLine, boolByte s.link.causeRequest])

namespace Sys2Proof.Machine

/-- A valid record of a storage: a slot of the pages 0 to 3, the header slots apart, whose check byte agrees
(R163). -/
def RecordIn (m : List Host.Cell) (bs : List Byte) : Prop :=
  ∃ p < 4, ∃ n < 128, 1 ≤ n ∧ bs = slotBytes m p n ∧ recordValid bs = true

/-- What the start-up scan makes of a storage (R168): the page of the highest valid header is active from the slot
after its last written one, with the page after it, if not blank, and every page that is neither blank nor validly
headed due for erase; page 0 is active where no header is valid and it is blank; and the next sequence follows the
highest of the valid records. -/
def Scanned (m : List Host.Cell) (j : Journal) : Prop :=
  (j.queue = [] ∧ j.blocked = false ∧ j.erasingAll = false) ∧
  (∀ p < 4, headerValid (slotBytes m p 0) = true →
    (∀ n < 4, n ≠ p → headerValid (slotBytes m n 0) = true →
      slotSeq (slotBytes m n 0) < slotSeq (slotBytes m p 0)) →
    ∀ last < 127, slotBlank m p last = false → (∀ n < 128, last < n → slotBlank m p n = true) →
      j.mem = m ∧ j.active = some p ∧ j.nextSlot = last + 1 ∧
      (slotSeq (slotBytes m p 0) < 4294967295 → j.nextPageSeq = slotSeq (slotBytes m p 0) + 1) ∧
      ∀ n < 4, (j.erasing = some n ∨ n ∈ j.eraseList) ↔ n ≠ p ∧ pageBlank m n = false ∧
        (n = (p + 1) % 4 ∨ headerValid (slotBytes m n 0) = false)) ∧
  ((∀ p < 4, headerValid (slotBytes m p 0) = false) → pageBlank m 0 = true →
    j.mem = slotWrite m 0 0 (headerBytes 1) ∧ j.active = some 0 ∧ j.nextSlot = 1 ∧ j.nextPageSeq = 2) ∧
  ((∀ bs, ¬ RecordIn m bs) → j.nextSeq = some 1) ∧
  (∀ bs, RecordIn m bs → (∀ cs, RecordIn m cs → slotSeq cs ≤ slotSeq bs) →
    j.nextSeq = if slotSeq bs = 4294967295 then none else some (slotSeq bs + 1))

/-- What every reset leaves, from the state before it (R22, R45, R69, R108, R123, R138, R149, R156, R162, R168,
R172): a Cell condition found true has risen, its NOTICE has been taken by the free transmitter, and one with the
wake attribute has woken the cell; the journal stands as the start-up scan sets it. -/
def ResetLeft (s t : State) : Prop :=
  t.params = Params.default ∧ (∀ i, t.contour i = none) ∧
  (t.job.state = .idle ∧ t.job.current = none ∧ t.job.resume = none ∧ t.job.lastChanged = none) ∧
  (∀ c, t.chain c = none) ∧
  (t.store.freeSlots = 4096 ∧ t.store.corrected = 0 ∧
    t.store.window = ⟨-4000000, 4000000, -4000000, 4000000⟩ ∧
    ∀ n : Fin 4, t.store.keepOuts[n] = ⟨false, ⟨0, 0, 0, 0⟩⟩) ∧
  (t.path.pass = none ∧ t.path.rapid = none ∧ t.path.genOn = false ∧ t.path.genSetting = 0) ∧
  t.thread = none ∧ t.slug = ⟨none, .idle, none, none⟩ ∧
  (t.holder.owner = none ∧ t.holder.claimant = none ∧ t.holder.timer = none ∧ t.holder.request = none) ∧
  t.modes = (if (s.lineRec .doorClosed).input = true ∧ s.sensors.axisFault = false ∧
      s.sensors.genFault = false then ⟨.park, false, none, false⟩ else ⟨.waking, false, some 5000, true⟩) ∧
  (∀ l, t.lineRec l = ⟨.activeHigh, 2, false, (s.lineRec l).input, false, (s.lineRec l).input,
    (s.lineRec l).input⟩) ∧
  (∀ c, (t.cond c).enable = decide (c ≠ .storeCorrected ∧ c ≠ .linkError)) ∧
  (∀ c ∈ [Cond.doorOpen, .tankLow, .axisFault, .genFault, .aux],
    (t.cond c).latch = t.source c ∧ (t.cond c).live = t.source c) ∧
  (∀ c ∉ [Cond.doorOpen, .tankLow, .axisFault, .genFault, .aux],
    (t.cond c).latch = false ∧ (t.cond c).live = false) ∧
  (∀ c, (t.cond c).pending = false ∧ (t.cond c).noticed = (t.cond c).latch) ∧
  t.sensors.slugReference = t.active .slugPresent ∧
  (t.journal.queue = [] ∧ t.journal.blocked = false) ∧
  (s.journal.writing = none → s.journal.erasing = none → Scanned s.journal.mem t.journal) ∧
  (t.link.collecting = [] ∧ t.link.queue = [] ∧ t.link.replies = [] ∧ t.link.errors = 0 ∧
    t.link.resetTaken = false ∧ t.link.progressPending = false) ∧
  (t.link.startupDue = true ∨ ∃ f, t.link.sending = some ⟨.startup, f⟩) ∧ t.pending = s.pending

/-- What the reset line and the RESET request keep: the commanded position (R69) and, while HOLDER_ENGAGED
reads active, the holder's output (R137). -/
def ResetKept (s t : State) : Prop :=
  t.path.commanded = s.path.commanded ∧
  (if (s.lineRec .holderEngaged).input = true then
    t.holder.state = .holding ∧ t.holder.output = s.holder.output
   else t.holder.state = .free ∧ t.holder.output = false)

end Sys2Proof.Machine

/-- Power-on leaves every block in its reset state, the commanded position at (0, 0), the holder FREE and the
cause POWER_ON alone (R22, R45, R69, R137, R176). -/
def Obligations.PowerOnLeavesResetState : Prop :=
  ∀ s : State, ∃ t : State, exec .powerOn s = .next t ∧ ResetLeft s t ∧ t.path.commanded = ⟨0, 0⟩ ∧
    t.holder.state = .free ∧ t.holder.output = false ∧
    t.link.causePowerOn = true ∧ t.link.causeLine = false ∧ t.link.causeRequest = false

/-- The reset line leaves every block in its reset state but keeps the commanded position and the holder's
output, and sets the cause LINE (R69, R137, R176). -/
def Obligations.ResetLineKeepsPositionAndHolder : Prop :=
  ∀ s : State, ∃ t : State, exec .resetLine s = .next t ∧ ResetLeft s t ∧ ResetKept s t ∧
    t.link.causePowerOn = s.link.causePowerOn ∧ t.link.causeLine = true ∧
    t.link.causeRequest = s.link.causeRequest

/-- R177: RESET is answered with OK; from then on a frame that arrives only joins the queue; and the end of the
reply brings the reset of the RESET request kind. -/
def Obligations.ResetRequestActsAtTheEndOfItsReply : Prop :=
  ∀ (tag : Byte) (s : State),
    (s.Quiet → exec (.reset tag []) s = .next
      ((s.onLink fun l => { l with resetTaken := true }).replied 0x04 tag .ok [])) ∧
    (∀ f : Frame, s.Steady → s.link.collecting = [] → s.link.resetTaken = true → s.link.sending.isSome = true →
      s.link.queue.length < 4 → f.payload.length ≤ 250 →
      exec (.receiveFrame (frameBytes f)) s =
        .next (s.onLink fun l => { l with queue := l.queue ++ [f] })) ∧
    (∀ f : Frame, s.link.resetTaken = true → s.link.sending = some ⟨.reply, f⟩ →
      ∃ t : State, exec .transmitEnd s = .next t ∧ ResetLeft s t ∧ ResetKept s t ∧
        t.link.causePowerOn = s.link.causePowerOn ∧ t.link.causeLine = s.link.causeLine ∧
        t.link.causeRequest = true)

/-- R173, steps 1 and 2: a KIND that section 11.5 does not assign is refused with UNKNOWN_KIND, and a payload
of another length than a fixed-length request's with BAD_LENGTH; neither has an effect.
That the BAD_LENGTH reply of HOLD, RESUME, PARK and WAKE carries no mode is the model's reading (DEDUCED, log entry
29). -/
def Obligations.UnknownKindsAndLengthsAreRefused : Prop :=
  ∀ (tag : Byte) (p : Payload) (s : State), s.Quiet → p.length ≤ 250 →
    (∀ kind : Byte, assignedKinds.contains kind.toNat = false →
      exec (.unknownKindRequest kind tag p) s = .next (s.replied kind tag .unknownKind [])) ∧
    (∀ row ∈ ([(Instr.identify, 0x01, 0), (.readStatus, 0x02, 0), (.queryResetCause, 0x03, 0),
        (.reset, 0x04, 0), (.setOverride, 0x3B, 2), (.openChain, 0x10, 9), (.closeChain, 0x12, 1),
        (.dropChain, 0x13, 1), (.queryChain, 0x14, 4), (.deleteContour, 0x21, 1), (.queryContour, 0x22, 1),
        (.abortJob, 0x31, 0), (.hold, 0x32, 0), (.resume, 0x33, 0), (.park, 0x34, 0), (.wake, 0x35, 0),
        (.skipContour, 0x36, 1), (.releaseSever, 0x37, 1), (.releaseHolder, 0x38, 0), (.confirmSlug, 0x39, 1),
        (.rethreadDone, 0x3A, 1), (.configLine, 0x40, 4), (.enableConditions, 0x41, 4),
        (.clearConditions, 0x42, 4), (.queryConditions, 0x43, 0), (.journalSummary, 0x50, 2),
        (.journalRead, 0x51, 3), (.journalErase, 0x52, 0)] :
          List ((Byte → Payload → Instr) × Byte × Nat)),
      p.length ≠ row.2.2 → exec (row.1 tag p) s = .next (s.replied row.2.1 tag .badLength [])) ∧
    (p.length ≠ 0 ∧ p.length ≠ 10 →
      exec (.startJob tag p) s = .next (s.replied 0x30 tag .badLength []) ∧
      exec (.startJobResumed tag p) s = .next (s.replied 0x30 tag .badLength []))

/-- R172: a LEN above 250, a CRC that does not agree and a good frame that meets four queued frames each raise
LINK_ERROR and the saturating link error count, with no reply.
A frame arrives in one command (DEDUCED, log entry 41). -/
def Obligations.DiscardedFramesAreCounted : Prop :=
  ∀ s : State, s.Steady → s.link.collecting = [] →
    let discarded := ((s.onLink fun l => { l with errors := min 65535 (l.errors + 1) }).latch
      .linkError).arbitrate
    (∀ len : Byte, 250 < len.toNat → exec (.receiveFrame [0xA5, len]) s = .next discarded) ∧
    (∀ (f : Frame) (lo hi : Byte), f.payload.length ≤ 250 → [lo, hi] ≠ leBytes 2 (crc (frameBody f)) →
      (∀ b ∈ frameBody f ++ [lo, hi], b ≠ 0xA5) →
      exec (.receiveFrame (0xA5 :: (frameBody f ++ [lo, hi]))) s = .next discarded) ∧
    (∀ f : Frame, f.payload.length ≤ 250 → 4 ≤ s.link.queue.length →
      exec (.receiveFrame (frameBytes f)) s = .next discarded)

/-- R172, R173: a good frame that may not be taken yet joins the end of a queue of fewer than four; bytes
before its SYNC are passed over; and a frame that is not all there waits without effect.
How bytes are grouped is the model's (DEDUCED, log entry 41). -/
def Obligations.GoodFramesJoinTheQueue : Prop :=
  ∀ (s : State) (f : Frame), s.Steady → s.link.collecting = [] → f.payload.length ≤ 250 →
    (∀ noise : List Byte, (∀ b ∈ noise, b ≠ 0xA5) → s.link.queue.length < 4 →
      (s.link.replies ≠ [] ∨ s.replying = true ∨ s.link.startupDue = true ∨ s.link.resetTaken = true) →
      exec (.receiveFrame (noise ++ frameBytes f)) s =
        .next (s.onLink fun l => { l with queue := l.queue ++ [f] }).arbitrate) ∧
    (∀ n, 0 < n → n < (frameBytes f).length →
      exec (.receiveFrame ((frameBytes f).take n)) s =
        .next (s.onLink fun l => { l with collecting := (frameBytes f).take n }).arbitrate)

namespace Sys2Proof.Machine

/-- The contents of a PROGRESS (R91, R175, R182): SLUG_PRESENT and JOURNAL_ERASE; the reported contour, which is the
current one or else the last-changed, with its state, pass index, chain, break count and retention; the fault reason
of the last-changed contour; job and holder; s of the running pass and the front. -/
def progressRecord (s : State) : List Byte :=
  let reported := if s.job.current.isSome then s.job.current else s.job.lastChanged
  [byte ((if s.active .slugPresent then 1 else 0) + (if s.journal.erasingAll then 2 else 0))] ++
  optBytes 1 (reported.map (·.val)) ++
  (match reported with
    | none => [0xFF, 0xFF, 0xFF, 0xFF, 0xFF]
    | some i => match s.contour i with
      | none => [0, 0xFF, 0xFF, 0xFF, 0xFF]
      | some c => [byte c.state.code, byte c.passIndex] ++ optBytes 1 (c.pass.map (·.chain.val)) ++
          [byte c.breakCount, byte c.retention.code]) ++
  optBytes 1 (((s.job.lastChanged.bind s.contour).bind (·.fault)).map (·.code)) ++
  [byte s.job.state.code, byte s.holder.state.code] ++ optBytes 1 (s.holder.owner.map (·.val)) ++
  optBytes 4 (s.path.pass.map (·.s)) ++ optBytes 4 ((reported.bind s.contour).map (·.front))

end Sys2Proof.Machine

/-- R174, R157, R175, R176: at the end of a frame the oldest reply goes first, then the NOTICE, the PROGRESS
and the STARTUP; a NOTICE marks its conditions noticed and empties the pending set, a PROGRESS clears the
segments completed, and both set the SLUG_CHANGE reference. Where no reply waits, the next queued request is then
taken, its reply behind the record that the transmitter has begun. Every step keeps that a transmitter that is free has
nothing waiting. -/
def Obligations.TransmitterChoosesInOrder : Prop :=
  (∀ s t : State, s.LinkSettled → step s = .next t → t.LinkSettled) ∧
  ∀ (s : State) (f : TxFrame), s.Steady → s.link.sending = some f → s.link.resetTaken = false →
    (∀ r rs, s.link.replies = r :: rs →
      exec .transmitEnd s =
        .next (s.onLink fun l => { l with sending := some ⟨.reply, r⟩, replies := rs })) ∧
    (s.link.replies = [] → s.link.queue = [] →
      (s.noticePending = true → ∃ t : State, exec .transmitEnd s = .next t ∧
        t.link = { s.link with sending := some ⟨.notice, ⟨0x7D, 0,
          leBytes 4 (s.condBits (·.pending)) ++ leBytes 4 (s.condBits (·.latch)) ++
            leBytes 4 (s.condBits (·.live)) ++
            [byte (s.lineBits (·.active)), byte s.modes.mode.code, byte s.job.state.code]⟩⟩ } ∧
        (∀ c, t.cond c = if (s.cond c).pending then
          { s.cond c with noticed := true, pending := false } else s.cond c) ∧
        t = { s with link := t.link, conds := t.conds,
                     sensors := { s.sensors with slugReference := s.active .slugPresent } }) ∧
      (s.noticePending = false → s.link.progressPending = true →
        exec .transmitEnd s = .next { s with
          link := { s.link with sending := some ⟨.progress, ⟨0x7E, 0, progressRecord s⟩⟩, progressPending := false }
          sensors := { s.sensors with slugReference := s.active .slugPresent }
          path := { s.path with pass := s.path.pass.map fun r => { r with segsCompleted := 0 } } }) ∧
      (s.noticePending = false → s.link.progressPending = false →
        exec .transmitEnd s = .next (s.onLink fun l =>
          if s.link.startupDue = true then
            { l with startupDue := false, sending := some ⟨.startup, ⟨0x7F, 0,
              [byte ((if s.link.causePowerOn then 1 else 0) + (if s.link.causeLine then 2 else 0) +
                (if s.link.causeRequest then 4 else 0)), 1, byte s.modes.mode.code] ++
                leBytes 2 s.store.freeSlots⟩⟩ }
          else { l with sending := none }))) ∧
    (∀ q qs, s.link.replies = [] → s.link.queue = q :: qs → s.link.startupDue = false →
      let served (u : State) : State := (u.onLink fun l => { l with queue := qs }).serve q
      (s.noticePending = false → s.link.progressPending = false → exec .transmitEnd s =
        .next (served (s.onLink fun l => { l with sending := none })).finish) ∧
      (s.noticePending = false → s.link.progressPending = true → exec .transmitEnd s =
        .next (served { s with
          link := { s.link with sending := some ⟨.progress, ⟨0x7E, 0, progressRecord s⟩⟩, progressPending := false }
          sensors := { s.sensors with slugReference := s.active .slugPresent }
          path := { s.path with pass := s.path.pass.map fun r => { r with segsCompleted := 0 } } }).finish))

/-! ## Parameters -/

namespace Sys2Proof.Machine

/-- The parameters 1 to 22 by id, width, kind (true for a tuning value), minimum and maximum (R66 to R68, R107,
R111, R136, R147, R156; for CheckpointEvery, 10, the range of a value other than 0). -/
def parameterRows : List (Nat × Nat × Bool × Nat × Nat) :=
  [(1, 4, true, 0, 50000), (2, 4, true, 1, 65535), (3, 4, true, 1, 65535), (4, 4, true, 1, 5000),
   (5, 4, true, 1, 50000), (6, 2, true, 10, 150), (7, 1, false, 0, 31), (8, 4, true, 0, 1000000),
   (9, 1, true, 0, 255), (10, 4, true, 1000, 1000000), (11, 1, false, 1, 9), (12, 4, true, 0, 20000),
   (13, 1, false, 0, 3), (14, 4, true, 100, 2000), (15, 4, true, 500, 20000), (16, 4, true, 100, 5000),
   (17, 4, true, 500, 20000), (18, 1, false, 0, 15), (19, 4, true, 0, 10000), (20, 4, true, 100, 10000),
   (21, 4, true, 500, 30000), (22, 1, false, 0, 1)]

/-- The value that a sent value is taken as: a tuning value clamped, a structural value out of range refused,
and 0 taken as it stands for CheckpointEvery (R67, R179). -/
def valueTaken (id : Nat) (tuning : Bool) (lo hi v : Nat) : Option Nat :=
  if id = 10 ∧ v = 0 then some 0
  else if tuning = true then some (max lo (min hi v))
  else if lo ≤ v ∧ v ≤ hi then some v else none

/-- No write restriction stands against a value of RetraceDepth (1) or BreakLimit (18) (R68, R111). -/
def writeAllowed (s : State) (id v : Nat) : Prop :=
  (id = 1 ∨ id = 18 → s.job.current = none) ∧
  (id = 18 → ∀ i c, s.contour i = some c → c.state ≠ .faulted → c.breakCount ≤ v)

end Sys2Proof.Machine

/-- R179: SET_PARAM of the parameters 1 to 22 refuses a structural value out of range, clamps a tuning value,
and writes that parameter alone; SET_OVERRIDE does the same for Override. Where the value becomes LowWater (8),
the level conditions take their values at once (R53). -/
def Obligations.ParametersTakeValuesInRange : Prop :=
  ∀ (tag : Byte) (s : State), s.Quiet → ∀ row ∈ parameterRows, ∀ v, v < 256 ^ row.2.1 →
    let id := row.1
    let width := row.2.1
    let answers (kind : Byte) (c : Instr) : Prop :=
      match valueTaken id row.2.2.1 row.2.2.2.1 row.2.2.2.2 v with
      | none => exec c s = .next (s.replied kind tag .badValue [])
      | some w => writeAllowed s id w →
        ∃ q : Params, q.get id = w ∧ (∀ other ∈ parameterRows, other.1 ≠ id → q.get other.1 = s.params.get other.1) ∧
          exec c s = .next ((if id = 8 then (s.withParams q).refreshLevels else s.withParams q).replied kind tag
            (if w = v then .ok else .clamped) (if w = v then [] else leBytes width w))
    answers 0x05 (.setParam tag (byte id :: leBytes width v)) ∧
      (id = 6 → answers 0x3B (.setOverride tag (leBytes 2 v)))

/-- R68, R90, R111: RetraceDepth and BreakLimit are refused with WRONG_STATE while a contour is current, and
BreakLimit also while its new value lies below the break count of a contour that is not FAULTED. -/
def Obligations.RestrictedParametersAreRefused : Prop :=
  ∀ (tag : Byte) (s : State), s.Quiet →
    (s.job.current.isSome = true →
      (∀ v, v < 2 ^ 32 → exec (.setParam tag (1 :: leBytes 4 v)) s =
        .next (s.replied 0x05 tag .wrongState [])) ∧
      ∀ v ≤ 15, exec (.setParam tag [18, byte v]) s = .next (s.replied 0x05 tag .wrongState [])) ∧
    (∀ v ≤ 15, ∀ i c, s.contour i = some c → c.state ≠ .faulted → v < c.breakCount →
      exec (.setParam tag [18, byte v]) s = .next (s.replied 0x05 tag .wrongState []))

/-- R179: GET_PARAM reports the present value of every parameter of the index in its width, and changes
nothing; a rectangle number above 3 is refused with BAD_VALUE.
The reply for a rectangle is the model's reading (DEDUCED, log entry 25). -/
def Obligations.GetParamReportsPresentValues : Prop :=
  ∀ (tag : Byte) (s : State), s.Quiet →
    (∀ row ∈ ([(1, 4, (·.retraceDepth)), (2, 4, (·.stuckSamples)), (3, 4, (·.openLimit)), (4, 4, (·.dryStep)),
        (5, 4, (·.rapidStep)), (6, 2, (·.override)), (7, 1, (·.tackSetting)), (8, 4, (·.lowWater)),
        (9, 1, (·.progressEvery)), (10, 4, (·.checkpointEvery)), (11, 1, (·.threadAttempts)),
        (12, 4, (·.searchRadius)), (13, 1, (·.inGapAttempts)), (14, 4, (·.tipTime)), (15, 4, (·.feedTimeout)),
        (16, 4, (·.retractTime)), (17, 4, (·.pullTimeout)), (18, 1, (·.breakLimit)), (19, 4, (·.dropWait)),
        (20, 4, (·.holderTimeout)), (21, 4, (·.wakeSettle)), (22, 1, fun q => if q.latchDisabled then 1 else 0)] :
          List (Byte × Nat × (Params → Nat))),
      exec (.getParam tag [row.1]) s = .next (s.replied 0x06 tag .ok (leBytes row.2.1 (row.2.2 s.params)))) ∧
    exec (.getParam tag [23]) s = .next (s.replied 0x06 tag .ok
      (intBytes s.store.window.xMin ++ intBytes s.store.window.xMax ++ intBytes s.store.window.yMin ++
        intBytes s.store.window.yMax)) ∧
    (∀ n : Fin 4, exec (.getParam tag [24, byte n.val]) s = .next (s.replied 0x06 tag .ok
      ([byte n.val, boolByte s.store.keepOuts[n].enabled] ++ intBytes s.store.keepOuts[n].rect.xMin ++
        intBytes s.store.keepOuts[n].rect.yMin ++ intBytes s.store.keepOuts[n].rect.xMax ++
        intBytes s.store.keepOuts[n].rect.yMax))) ∧
    (∀ b : Byte, 3 < b.toNat → exec (.getParam tag [24, b]) s = .next (s.replied 0x06 tag .badValue [])) ∧
    exec (.getParam tag [25]) s = .next (s.replied 0x06 tag .ok [byte s.store.corrected])

namespace Sys2Proof.Machine

/-- A number that four bytes carry in two's complement. -/
def fourBytes (v : Int) : Prop := -2147483648 ≤ v ∧ v ≤ 2147483647

/-- Every corner lies in −4,000,000…+4,000,000 and no minimum lies above its maximum (R39, R40). -/
def Rect.Proper (q : Rect) : Prop :=
  (∀ v ∈ [q.xMin, q.xMax, q.yMin, q.yMax], -4000000 ≤ v ∧ v ≤ 4000000) ∧ q.xMin ≤ q.xMax ∧ q.yMin ≤ q.yMax

/-- Every corner is a number that four bytes carry. -/
def Rect.Sendable (q : Rect) : Prop := ∀ v ∈ [q.xMin, q.xMax, q.yMin, q.yMax], fourBytes v

end Sys2Proof.Machine

/-- R39: SET_PARAM of the travel window makes its three checks in their order and takes the window. -/
def Obligations.TravelWindowIsCheckedInOrder : Prop :=
  ∀ (tag : Byte) (s : State) (q : Rect), s.Quiet → q.Sendable →
    let c := Instr.setParamTravelWindow tag
      (23 :: (intBytes q.xMin ++ intBytes q.xMax ++ intBytes q.yMin ++ intBytes q.yMax))
    (¬ q.Proper → exec c s = .next (s.replied 0x05 tag .badValue [])) ∧
    (q.Proper → (∃ ch, s.chain ch ≠ none) → exec c s = .next (s.replied 0x05 tag .wrongState [])) ∧
    (q.Proper → (∀ ch, s.chain ch = none) →
      ¬ (q.xMin ≤ s.path.commanded.x ∧ s.path.commanded.x ≤ q.xMax ∧
        q.yMin ≤ s.path.commanded.y ∧ s.path.commanded.y ≤ q.yMax) →
      exec c s = .next (s.replied 0x05 tag .window [])) ∧
    (q.Proper → (∀ ch, s.chain ch = none) →
      (q.xMin ≤ s.path.commanded.x ∧ s.path.commanded.x ≤ q.xMax ∧
        q.yMin ≤ s.path.commanded.y ∧ s.path.commanded.y ≤ q.yMax) →
      exec c s = .next ((s.onStore fun t => { t with window := q }).replied 0x05 tag .ok []))

/-- R40, R44: SET_PARAM of a keep-out rectangle writes that rectangle while every chain is FREE, and the
corrected-error count takes 0 alone. -/
def Obligations.KeepOutsAndCorrectedCountAreWritten : Prop :=
  ∀ (tag : Byte) (s : State), s.Quiet →
    (∀ (number enable : Byte) (q : Rect), q.Sendable →
      let c := Instr.setParamKeepOut tag
        (24 :: number :: enable :: (intBytes q.xMin ++ intBytes q.yMin ++ intBytes q.xMax ++ intBytes q.yMax))
      (3 < number.toNat ∨ 1 < enable.toNat ∨ ¬ q.Proper → exec c s = .next (s.replied 0x05 tag .badValue [])) ∧
      (∀ n : Fin 4, number = byte n.val → enable.toNat ≤ 1 → q.Proper →
        ((∃ ch, s.chain ch ≠ none) → exec c s = .next (s.replied 0x05 tag .wrongState [])) ∧
        ((∀ ch, s.chain ch = none) → exec c s = .next ((s.onStore fun t =>
          { t with keepOuts := t.keepOuts.set n ⟨decide (enable = 1), q⟩ }).replied 0x05 tag .ok [])))) ∧
    exec (.setParamCorrectedCount tag [25, 0]) s =
      .next ((s.onStore fun t => { t with corrected := 0 }).replied 0x05 tag .ok []) ∧
    (∀ v : Byte, v ≠ 0 → exec (.setParamCorrectedCount tag [25, v]) s =
      .next (s.replied 0x05 tag .badValue []))

/-! ## Segment store -/

/-- R26: OPEN_CHAIN makes its five checks in their order, and creates the empty chain. -/
def Obligations.OpenChainChecksInOrder : Prop :=
  ∀ (tag id : Byte) (start : Point) (s : State), s.Quiet → fourBytes start.x → fourBytes start.y →
    let c := Instr.openChain tag (id :: pointBytes start)
    let inRange := (-4000000 ≤ start.x ∧ start.x ≤ 4000000) ∧ -4000000 ≤ start.y ∧ start.y ≤ 4000000
    let inWindow := s.store.window.xMin ≤ start.x ∧ start.x ≤ s.store.window.xMax ∧
      s.store.window.yMin ≤ start.y ∧ start.y ≤ s.store.window.yMax
    let keptOut := ∃ n : Fin 4, s.store.keepOuts[n].enabled = true ∧ s.store.keepOuts[n].rect.holds start = true
    (127 < id.toNat ∨ ¬ inRange → exec c s = .next (s.replied 0x10 tag .badValue [])) ∧
    (∀ ch : ChainId, id = byte ch.val → inRange →
      (s.chain ch ≠ none → exec c s = .next (s.replied 0x10 tag .wrongState [])) ∧
      (s.chain ch = none → ¬ inWindow → exec c s = .next (s.replied 0x10 tag .window [])) ∧
      (s.chain ch = none → inWindow → keptOut → exec c s = .next (s.replied 0x10 tag .keepOut [])) ∧
      (s.chain ch = none → inWindow → ¬ keptOut → exec c s = .next
        ((s.setChain ch (some ⟨.opened, start, [], 0, start, none⟩)).replied 0x10 tag .ok [])))

/-- R27, R28, R33: a load for a chain that no pass runs is taken whole, its segments appended and their slots
taken from the free-slot count, or is refused and leaves everything as it was. -/
def Obligations.LoadIsTakenWholeOrNotAtAll : Prop :=
  ∀ (tag : Byte) (p : Payload) (s : State), s.Quiet → p.length ≤ 250 →
    (∀ r, s.path.pass = some r → u8 p 0 ≠ r.chain.val) →
    (∃ st extra, st ≠ .ok ∧ exec (.loadSegments tag p) s = .next (s.replied 0x11 tag st extra)) ∨
    (∃ (ch : ChainId) (k : Chain) (gs : List Segment) (last : Segment),
      u8 p 0 = ch.val ∧ u8 p 1 = gs.length ∧ s.chain ch = some k ∧ k.state = .opened ∧
      gs.length ≤ 12 ∧ gs.getLast? = some last ∧ gs.length ≤ s.store.freeSlots ∧
      exec (.loadSegments tag p) s = .next
        (((s.setChain ch (some { k with
            segs := k.segs ++ gs
            loaded := k.loaded + (gs.map (·.length)).sum
            endPt := last.endPt })).onStore fun t =>
              { t with freeSlots := t.freeSlots - gs.length }).replied 0x11 tag .ok
          (leBytes 2 (k.segs.length + gs.length) ++ leBytes 4 (k.loaded + (gs.map (·.length)).sum))))

namespace Sys2Proof.Machine

/-- The checks of R27, in their order, on a message of `n` segments of 9 bytes each. -/
def LoadChecks (tag id : Byte) (segs : List Payload) (s : State) : Prop :=
  let c := Instr.loadSegments tag (id :: byte segs.length :: segs.flatten)
  (127 < id.toNat ∨ segs = [] ∨ 12 < segs.length → exec c s = .next (s.replied 0x11 tag .badValue [])) ∧
  (∀ ch : ChainId, id = byte ch.val → segs ≠ [] → segs.length ≤ 12 →
    (s.chain ch = none ∨ (∃ k, s.chain ch = some k ∧ k.state = .corrupt) →
      exec c s = .next (s.replied 0x11 tag .notFound [])) ∧
    (∀ k, s.chain ch = some k →
      (k.state = .closed → exec c s = .next (s.replied 0x11 tag .wrongState [])) ∧
      (k.state = .opened → s.store.freeSlots < segs.length →
        exec c s = .next (s.replied 0x11 tag .storeFull []))))

/-- An arc for an OPEN chain that no pass runs (R28 to R33, R49): its checks in their order, and the segment
appended with its radius, length and cumulative start. -/
def ArcIsCheckedAndAppended (tag : Byte) (ch : ChainId) (k : Chain) (dry ccw : Bool) (e o : Point) (s : State) :
    Prop :=
  let c := Instr.loadSegments tag (byte ch.val :: 1 :: ((if dry then 0x80 else 0) ||| (if ccw then 2 else 1)) ::
    (pointBytes e ++ pointBytes o))
  let kind : SegKind := if ccw then .arcCcw else .arcCw
  let radius := distance k.endPt o
  let theta := sweep kind (o.to k.endPt) (o.to e) (decide (k.endPt = e))
  let length := arcLength radius theta
  let box := arcBox kind k.endPt e o radius
  let inRange := ∀ v ∈ [e.x, e.y, o.x, o.y], -4000000 ≤ v ∧ v ≤ 4000000
  let shaped := radius ≤ distance e o + 2 ∧ distance e o ≤ radius + 2 ∧ 50 ≤ radius ∧
    ¬ (k.endPt ≠ e ∧ cross (o.to k.endPt) (o.to e) = 0 ∧ 0 < dot (o.to k.endPt) (o.to e)) ∧ length ≠ 0
  let inWindow := s.store.window.xMin ≤ box.xMin ∧ box.xMax ≤ s.store.window.xMax ∧
    s.store.window.yMin ≤ box.yMin ∧ box.yMax ≤ s.store.window.yMax
  let keptOut := ∃ n : Fin 4, s.store.keepOuts[n].enabled = true ∧ box.meets s.store.keepOuts[n].rect = true
  (¬ inRange → exec c s = .next (s.replied 0x11 tag .badValue [0])) ∧
  (inRange → ¬ shaped → exec c s = .next (s.replied 0x11 tag .geometry [0])) ∧
  (inRange → shaped → ¬ inWindow → exec c s = .next (s.replied 0x11 tag .window [0])) ∧
  (inRange → shaped → inWindow → keptOut → exec c s = .next (s.replied 0x11 tag .keepOut [0])) ∧
  (inRange → shaped → inWindow → ¬ keptOut →
    (2147483647 < k.loaded + length → exec c s = .next (s.replied 0x11 tag .badValue [0])) ∧
    (k.loaded + length ≤ 2147483647 → exec c s = .next
      (((s.setChain ch (some { k with
          segs := k.segs ++ [⟨kind, if dry then .dry else .cut, e, some o, length, some radius, k.loaded,
            .unchanged⟩]
          loaded := k.loaded + length
          endPt := e })).onStore fun t => { t with freeSlots := t.freeSlots - 1 }).replied 0x11 tag .ok
        (leBytes 2 (k.segs.length + 1) ++ leBytes 4 (k.loaded + length)))))

/-- A CUT LINE loaded into the OPEN chain that the current contour runs, in HOLD (R33, R51, R53): the stop point
becomes the new open-chain limit, and a pass that was STARVED short of it becomes PAUSED. -/
def RunningChainIsLoaded (tag : Byte) (i : Slot) (c : Contour) (q : PassRec) (r : RunPass) (k : Chain) (e : Point)
    (s : State) : Prop :=
  let total := k.loaded + distance k.endPt e
  s.OnPass i c q r k → (c.state = .cutting ∨ c.state = .severing) → s.modes.mode = .hold → c.defn.method = .drop →
    k.state = .opened → k.SoundCut → k.segs ≠ [] → (r.sub = .starved ∨ r.sub = .paused) → 1 ≤ s.store.freeSlots →
    ((-4000000 ≤ e.x ∧ e.x ≤ 4000000) ∧ -4000000 ≤ e.y ∧ e.y ≤ 4000000) → k.endPt ≠ e →
    s.store.window.holds k.endPt = true → s.store.window.holds e = true →
    s.store.lineKeptOut k.endPt e = false → total ≤ 2147483647 → r.s < total - c.defn.reserve c.passIndex →
    ∃ u : State, exec (.loadSegments tag (byte r.chain.val :: 1 :: 0 :: pointBytes e)) s =
        .next (u.replied 0x11 tag .ok (leBytes 2 (k.segs.length + 1) ++ leBytes 4 total)) ∧
      (u.chain r.chain).map (·.loaded) = some total ∧
      (∃ v, u.path.pass = some v ∧ v.s = r.s ∧ v.sub = .paused ∧
        v.stopPoint = total - c.defn.reserve c.passIndex) ∧
      u.path.genOn = false ∧ u.path.commanded = s.path.commanded ∧ u.contours = s.contours ∧ u.job = s.job ∧
      u.modes = s.modes

end Sys2Proof.Machine

/-- R27 to R33, R49, R51, R53: the checks of a load as a whole are made in the order of R27; a LINE or an arc for an
OPEN chain that no pass runs is checked in the order of R28 and, if it passes, appended with its length and
cumulative start; and a LINE loaded into the running chain moves its open-chain limit. -/
def Obligations.LineIsCheckedAndAppended : Prop :=
  (∀ (tag id : Byte) (segs : List Payload) (s : State), s.Quiet → segs.length ≤ 27 →
    (∀ b ∈ segs, b.length = 9 ∧ (b.getD 0 0 = 0 ∨ b.getD 0 0 = 0x80)) → LoadChecks tag id segs s) ∧
  (∀ (tag : Byte) (i : Slot) (c : Contour) (q : PassRec) (r : RunPass) (k : Chain) (e : Point) (s : State), s.Quiet →
    RunningChainIsLoaded tag i c q r k e s) ∧
  ∀ (tag : Byte) (ch : ChainId) (k : Chain) (dry : Bool) (e : Point) (s : State), s.Quiet →
    s.chain ch = some k → k.state = .opened → 1 ≤ s.store.freeSlots →
    (∀ r, s.path.pass = some r → r.chain ≠ ch) → fourBytes e.x → fourBytes e.y →
    let c := Instr.loadSegments tag (byte ch.val :: 1 :: (if dry then 0x80 else 0) :: pointBytes e)
    let inRange := (-4000000 ≤ e.x ∧ e.x ≤ 4000000) ∧ -4000000 ≤ e.y ∧ e.y ≤ 4000000
    let total := k.loaded + distance k.endPt e
    (¬ inRange → exec c s = .next (s.replied 0x11 tag .badValue [0])) ∧
    (inRange → k.endPt = e → exec c s = .next (s.replied 0x11 tag .geometry [0])) ∧
    (inRange → k.endPt ≠ e →
      (¬ (s.store.window.holds k.endPt = true ∧ s.store.window.holds e = true) →
        exec c s = .next (s.replied 0x11 tag .window [0])) ∧
      (s.store.window.holds k.endPt = true → s.store.window.holds e = true →
        ((∃ n : Fin 4, s.store.keepOuts[n].enabled = true ∧ lineMeets k.endPt e s.store.keepOuts[n].rect = true) →
          exec c s = .next (s.replied 0x11 tag .keepOut [0])) ∧
        ((∀ n : Fin 4, s.store.keepOuts[n].enabled = true →
            lineMeets k.endPt e s.store.keepOuts[n].rect = false) →
          (2147483647 < total → exec c s = .next (s.replied 0x11 tag .badValue [0])) ∧
          (total ≤ 2147483647 → exec c s = .next
            (((s.setChain ch (some { k with
                segs := k.segs ++ [⟨.line, if dry then .dry else .cut, e, none, distance k.endPt e, none,
                  k.loaded, .unchanged⟩]
                loaded := total
                endPt := e })).onStore fun t => { t with freeSlots := t.freeSlots - 1 }).replied 0x11 tag .ok
              (leBytes 2 (k.segs.length + 1) ++ leBytes 4 total)))))) ∧
    (∀ ccw o, fourBytes o.x → fourBytes o.y → ArcIsCheckedAndAppended tag ch k dry ccw e o s)

namespace Sys2Proof.Machine

/-- CLOSE_CHAIN of the chain that the current contour runs, in HOLD (R34, R51 to R53): the pass end is fixed, CHAIN_LOW
and CHAIN_STARVED cease, and a pass short of it is PAUSED towards it; one that stands at it takes the pass-end event, so
that a pass that is not the closing one and has no further pass in the stage leads to the stage's UNTHREAD (R79). -/
def RunningChainIsClosed (tag : Byte) (i : Slot) (c : Contour) (q : PassRec) (r : RunPass) (k : Chain) (s : State) :
    Prop :=
  let passEnd := c.defn.passEnd c.passIndex k.loaded
  let next := (c.defn.passes[c.passIndex + 1]?).map (·.role)
  s.OnPass i c q r k → (c.state = .cutting ∨ c.state = .severing) → s.modes.mode = .hold → c.defn.method = .drop →
    k.state = .opened → k.SoundCut → k.segs ≠ [] → k.binding = some (i, c.passIndex) →
    c.defn.reserve c.passIndex < k.loaded → (r.sub = .starved ∨ r.sub = .paused) →
    (r.s < passEnd → ∃ u : State,
      exec (.closeChain tag [byte r.chain.val]) s = .next (u.replied 0x12 tag .ok (leBytes 4 k.loaded)) ∧
      u.chain r.chain = some { k with state := .closed } ∧ (∀ d, d ≠ r.chain → u.chain d = s.chain d) ∧
      (∃ v, u.path.pass = some v ∧ v.s = r.s ∧ v.sub = .paused ∧ v.stopPoint = passEnd) ∧
      u.path.genOn = false ∧ u.path.commanded = s.path.commanded ∧ (u.cond .chainLow).live = false ∧
      (u.cond .chainStarved).live = false ∧ u.contours = s.contours ∧ u.job = s.job ∧ u.modes = s.modes) ∧
    (r.s = passEnd → c.passIndex ≠ c.defn.closingPass → next = none ∨ next = some .sever → ∃ u : State,
      exec (.closeChain tag [byte r.chain.val]) s = .next (u.replied 0x12 tag .ok (leBytes 4 k.loaded)) ∧
      u.chain r.chain = some { k with state := .closed } ∧ u.contour i = some { c with state := .unthreading } ∧
      (∀ j, j ≠ i → u.contour j = s.contour j) ∧ u.path.pass = none ∧ u.path.genOn = false ∧
      u.path.commanded = s.path.commanded ∧ u.job.current = some i ∧ u.job.work = some .stageUnthread ∧
      u.job.due = true ∧ u.modes = s.modes)

end Sys2Proof.Machine

/-- R34: CLOSE_CHAIN makes its checks in their order; a chain that no pass runs becomes CLOSED, and the running one is
closed with its pass end fixed. -/
def Obligations.CloseChainFixesTheLength : Prop :=
  (∀ (tag id : Byte) (s : State), s.Quiet → 127 < id.toNat →
    exec (.closeChain tag [id]) s = .next (s.replied 0x12 tag .badValue [])) ∧
  (∀ (tag : Byte) (i : Slot) (c : Contour) (q : PassRec) (r : RunPass) (k : Chain) (s : State), s.Quiet →
    RunningChainIsClosed tag i c q r k s) ∧
  ∀ (tag : Byte) (ch : ChainId) (s : State), s.Quiet → (∀ r, s.path.pass = some r → r.chain ≠ ch) →
    let c := Instr.closeChain tag [byte ch.val]
    (s.chain ch = none → exec c s = .next (s.replied 0x12 tag .notFound [])) ∧
    (∀ k, s.chain ch = some k →
      (k.state = .corrupt → exec c s = .next (s.replied 0x12 tag .notFound [])) ∧
      (k.state = .closed → exec c s = .next (s.replied 0x12 tag .wrongState [])) ∧
      (k.state = .opened → k.segs = [] → exec c s = .next (s.replied 0x12 tag .badValue [])) ∧
      (k.state = .opened → k.segs ≠ [] →
        (∀ i n d, k.binding = some (i, n) → s.contour i = some d → k.loaded ≤ d.defn.reserve n →
          exec c s = .next (s.replied 0x12 tag .badValue [])) ∧
        ((∀ i n d, k.binding = some (i, n) → s.contour i = some d → d.defn.reserve n < k.loaded) →
          exec c s = .next ((s.setChain ch (some { k with state := .closed })).replied 0x12 tag .ok
            (leBytes 4 k.loaded)))))

/-- R36, R37: DROP_CHAIN frees a chain that is unbound or bound to a finished contour, and its slots count as
free in the reply. -/
def Obligations.DropChainReturnsItsSlots : Prop :=
  ∀ (tag id : Byte) (s : State), s.Quiet →
    (127 < id.toNat → exec (.dropChain tag [id]) s = .next (s.replied 0x13 tag .badValue [])) ∧
    (∀ ch : ChainId, id = byte ch.val →
      (s.chain ch = none → exec (.dropChain tag [id]) s = .next (s.replied 0x13 tag .notFound [])) ∧
      (∀ k, s.chain ch = some k →
        let free := ∀ i n, k.binding = some (i, n) →
          s.slotState i = .done ∨ s.slotState i = .skipped ∨ s.slotState i = .faulted
        (¬ free → exec (.dropChain tag [id]) s = .next (s.replied 0x13 tag .inUse [])) ∧
        (free → exec (.dropChain tag [id]) s = .next
          (((s.setChain ch none).onStore fun t =>
            { t with freeSlots := t.freeSlots + k.segs.length }).replied 0x13 tag .ok []))))

/-- R38: QUERY_CHAIN refuses ranges beyond its limits; it reports a FREE chain by its state, a CORRUPT one by
its header, and an OPEN or CLOSED one whose reported slots read unchanged by its header and those segments,
changing nothing.
The layout of a segment is the model's reading (DEDUCED, log entry 27). -/
def Obligations.QueryChainReportsTheRecord : Prop :=
  ∀ (tag : Byte) (ch : ChainId) (first : Nat) (count : Byte) (s : State), s.Quiet → first < 65536 →
    let c := Instr.queryChain tag (byte ch.val :: (leBytes 2 first ++ [count]))
    (4095 < first ∨ 6 < count.toNat → exec c s = .next (s.replied 0x14 tag .badValue [])) ∧
    (first ≤ 4095 → count.toNat ≤ 6 →
      (s.chain ch = none → exec c s = .next (s.replied 0x14 tag .ok [0])) ∧
      (∀ k, s.chain ch = some k →
        let header (st : Byte) := st :: (pointBytes k.start ++ leBytes 2 k.segs.length ++ leBytes 4 k.loaded ++
          pointBytes k.endPt ++ (match k.binding with
            | some (i, n) => [byte i.val, byte n]
            | none => [0xFF, 0xFF]))
        let range := (k.segs.drop first).take count.toNat
        (k.state = .corrupt → exec c s = .next (s.replied 0x14 tag .ok (header 3))) ∧
        (k.state ≠ .corrupt → (∀ g ∈ range, g.check = .unchanged) →
          exec c s = .next (s.replied 0x14 tag .ok
            (header (if k.state = .opened then 1 else 2) ++ range.flatMap segBytes)))))

namespace Sys2Proof.Machine

/-- QUERY_CHAIN finds a slot that cannot be corrected in a chain bound to the current contour (R42, R88, R89): the contour
becomes FAULTED with CORRUPT, STORE_CORRUPT and CONTOUR_FAULT are raised, the generator goes off and the running pass is
discarded; with no other contour waiting the job has no current contour. -/
def CorruptSlotFaultsCurrent (tag : Byte) (ch : ChainId) (k : Chain) (n : Nat) (g : Segment) (s : State) : Prop :=
  ∀ (i : Slot) (m : Nat) (c : Contour), g.check = .uncorrectable → k.binding = some (i, m) → s.job.current = some i →
    s.contour i = some c → s.NoneWaiting → ∃ (u : State) (extra : List Byte),
      exec (.queryChain tag (byte ch.val :: (leBytes 2 n ++ [1]))) s = .next (u.replied 0x14 tag .ok extra) ∧
      u.contour i = some { c with state := .faulted, fault := some .corrupt } ∧
      (∀ j, j ≠ i → u.contour j = s.contour j) ∧ u.chain ch = some { k with state := .corrupt } ∧
      (∀ d, d ≠ ch → u.chain d = s.chain d) ∧ (u.cond .storeCorrupt).latch = s.raisedLatch .storeCorrupt ∧
      (u.cond .contourFault).latch = s.raisedLatch .contourFault ∧ u.path.pass = none ∧ u.path.genOn = false ∧
      u.path.rapid = none ∧ u.path.commanded = s.path.commanded ∧ u.thread = none ∧ u.job.current = none

end Sys2Proof.Machine

/-- R41, R42, R44: one slot read by QUERY_CHAIN. A correctable error is restored and counted, and
STORE_CORRECTED latches; an uncorrectable one makes the chain CORRUPT, and STORE_CORRUPT latches; where the
chain is not bound to the current contour no contour changes, and where it is that contour is FAULTED with CORRUPT. -/
def Obligations.SlotErrorsAreCorrectedOrCorrupt : Prop :=
  ∀ (tag : Byte) (ch : ChainId) (k : Chain) (n : Nat) (g : Segment) (s : State), s.Quiet →
    s.chain ch = some k → k.state ≠ .corrupt → n ≤ 4095 → k.segs[n]? = some g →
    let c := Instr.queryChain tag (byte ch.val :: (leBytes 2 n ++ [1]))
    CorruptSlotFaultsCurrent tag ch k n g s ∧
    (g.check = .correctable → ∃ extra, exec c s = .next
      ((((s.setChain ch (some { k with segs := k.segs.set n { g with check := .unchanged } })).onStore fun t =>
        { t with corrected := min 255 (t.corrected + 1) }).latch .storeCorrected).replied 0x14 tag .ok extra)) ∧
    (g.check = .uncorrectable → (∀ i m, k.binding = some (i, m) → s.job.current ≠ some i) →
      ∃ extra, exec c s = .next
        (((s.setChain ch (some { k with state := .corrupt })).latch .storeCorrupt).replied 0x14 tag .ok extra))

/-- The credit law of R23: every step keeps the free-slot count and the segment counts adding up to 4,096. Every step
keeps, too, each chain's loaded length and cumulative starts the sums of its segments' lengths (R24, R25, R33). -/
def Obligations.StoreCreditsAreKept : Prop :=
  (∀ s t : State, s.Credits → step s = .next t → t.Credits) ∧
  ∀ s t : State, s.ChainsFormed → step s = .next t → t.ChainsFormed

/-! ## Plate program -/

namespace Sys2Proof.Machine

/-- The values of a definition that step 3 of R14 asks for, its tuning fields as wide as they travel. -/
def ContourDef.InRange (d : ContourDef) : Prop :=
  ((-4000000 ≤ d.centre.x ∧ d.centre.x ≤ 4000000) ∧ -4000000 ≤ d.centre.y ∧ d.centre.y ≤ 4000000) ∧
  (300 ≤ d.diameter ∧ d.diameter ≤ 50000) ∧
  (∀ b, d.bridge = some b → 1 ≤ b.holdBack ∧ b.holdBack ≤ 100000) ∧
  (∀ e, d.engage = some e → e ≤ 50000) ∧
  (∀ ts, d.tacks = some ts → ts.length ≤ 4 ∧ ts.Pairwise (fun a b => a.start ≤ b.start) ∧
    ∀ t ∈ ts, 1 ≤ t.length ∧ t.length ≤ 20000 ∧ t.start + t.length ≤ 2147483647) ∧
  ∀ q ∈ d.passes, q.setting ≤ 31 ∧ q.vset ≤ 255 ∧ q.gain ≤ 255 ∧ q.feedMax ≤ 65535 ∧
    q.retractStep ≤ 65535 ∧ q.shortLimit ≤ 255

/-- A definition as it is taken: FeedMax, RetractStep and ShortLimit of each pass clamped (R4). -/
def ContourDef.taken (d : ContourDef) : ContourDef :=
  { d with passes := d.passes.map fun q => { q with
      feedMax := max 1 (min 2000 q.feedMax), retractStep := min 2000 q.retractStep,
      shortLimit := max 1 (min 63 q.shortLimit) } }

/-- The steps 6 to 10 of R15 pass for a definition. -/
def StoreAccepts (s : State) (d : ContourDef) : Prop :=
  s.store.window.holds d.centre = true ∧
  (∀ n : Fin 4, s.store.keepOuts[n].enabled = true → s.store.keepOuts[n].rect.holds d.centre = false) ∧
  ∀ n q, d.passes[n]? = some q → ∃ k, s.chain q.chain = some k ∧ k.state ≠ .corrupt ∧ k.binding = none ∧
    (n = 0 ∨ q.role = .sever → within 2 k.start d.centre = true) ∧
    (k.state = .closed → d.reserve n < k.loaded)

end Sys2Proof.Machine

namespace Sys2Proof.Machine

/-- The refusals of DEFINE_CONTOUR for an EMPTY slot (R14, R15): a number out of its range, fields or spans that the
hold method does not allow or a plan of no accepted shape, the start hole against the window and the keep-out
rectangles, and then each check of the passes in ascending index, with the index of the pass that fails it. -/
def DefinitionRefused (tag : Byte) (i : Slot) (d : ContourDef) (s : State) : Prop :=
  let c := Instr.defineContour tag (defnBytes i d)
  let available (q : PassRec) := ∃ k, s.chain q.chain = some k ∧ k.state ≠ .corrupt ∧ k.binding = none
  let starts (n : Nat) (q : PassRec) := n = 0 ∨ q.role = .sever →
    ∀ k, s.chain q.chain = some k → within 2 k.start d.centre = true
  let long (n : Nat) (q : PassRec) := ∀ k, s.chain q.chain = some k → k.state = .closed → d.reserve n < k.loaded
  (∀ x < 65536, x < 300 ∨ 50000 < x → exec (.defineContour tag (defnBytes i { d with diameter := x })) s =
    .next (s.replied 0x20 tag .badValue [])) ∧
  (d.fieldsOk = false ∨ d.planOk = false → exec c s = .next (s.replied 0x20 tag .badValue [])) ∧
  (d.fieldsOk = true → d.planOk = true →
    let inWindow := s.store.window.holds d.centre = true
    let keptOut := ∃ n : Fin 4, s.store.keepOuts[n].enabled = true ∧ s.store.keepOuts[n].rect.holds d.centre = true
    (¬ inWindow → exec c s = .next (s.replied 0x20 tag .window [])) ∧
    (inWindow → keptOut → exec c s = .next (s.replied 0x20 tag .keepOut [])) ∧
    (inWindow → ¬ keptOut → ∀ (n : Nat) (q : PassRec), d.passes[n]? = some q →
      ((∀ m < n, ∀ p : PassRec, d.passes[m]? = some p → available p) →
        (s.chain q.chain = none ∨ (∃ k, s.chain q.chain = some k ∧ k.state = .corrupt) →
          exec c s = .next (s.replied 0x20 tag .notFound [byte n])) ∧
        (∀ k, s.chain q.chain = some k → k.state ≠ .corrupt → k.binding ≠ none →
          exec c s = .next (s.replied 0x20 tag .inUse [byte n]))) ∧
      ((∀ (m : Nat) (p : PassRec), d.passes[m]? = some p → available p) →
        ((∀ m < n, ∀ p : PassRec, d.passes[m]? = some p → starts m p) → ¬ starts n q →
          exec c s = .next (s.replied 0x20 tag .geometry [byte n])) ∧
        ((∀ (m : Nat) (p : PassRec), d.passes[m]? = some p → starts m p) →
          (∀ m < n, ∀ p : PassRec, d.passes[m]? = some p → long m p) →
          ¬ long n q → exec c s = .next (s.replied 0x20 tag .badValue [byte n])))))

end Sys2Proof.Machine

/-- R3, R13, R14, R16: for every definition whose payload fits a frame (R172: at most 250 bytes; every plan of at
most 8 passes does), one that passes the checks of R14 and R15 makes the contour QUEUED with the
working fields of R3, binds each pass's chain, and reports the passes as taken where one was clamped; an occupied
slot is refused with WRONG_STATE, and one that fails a later check with that check's status and pass index. Outside
SEVER_WAIT the job is not touched.
The OK reply carries the slot (DEDUCED, log entry 44). -/
def Obligations.DefineContourWritesTheRecord : Prop :=
  ∀ (tag : Byte) (i : Slot) (d : ContourDef) (s : State), s.Quiet → d.InRange →
    let c := Instr.defineContour tag (defnBytes i d)
    c.wf = true →
    (d.fieldsOk = true → d.planOk = true → s.contour i ≠ none →
      exec c s = .next (s.replied 0x20 tag .wrongState [])) ∧
    (s.contour i = none → DefinitionRefused tag i d s) ∧
    (d.fieldsOk = true → d.planOk = true → s.contour i = none → StoreAccepts s d →
      s.job.state ≠ .severWait → ∃ u : State,
        exec c s = .next (u.replied 0x20 tag (if d.taken = d then .ok else .clamped)
          (byte i.val :: if d.taken = d then [] else passesBytes d.taken.passes)) ∧
        u.contour i = some ⟨d.taken, .queued, 0, 0, none, 0, 0, .attached, none, false⟩ ∧
        (∀ j, j ≠ i → u.contour j = s.contour j) ∧
        (∀ n q, d.passes[n]? = some q →
          u.chain q.chain = (s.chain q.chain).map fun k => { k with binding := some (i, n) }) ∧
        (∀ ch, (∀ q ∈ d.passes, q.chain ≠ ch) → u.chain ch = s.chain ch) ∧
        u = { s with
          contours := u.contours, store := { s.store with chains := u.store.chains }
          job := { s.job with lastChanged := some i }, journal := u.journal, conds := u.conds,
          modes := u.modes, path := u.path, link := { s.link with progressPending := true } })

/-- R12, R18: DELETE_CONTOUR refuses an EMPTY slot, an active contour, the current one, the holder's owner and
an engage's claimant; otherwise the slot becomes EMPTY and every chain bound to it is freed. In SEVER_WAIT the
statement leaves out a BRIDGED contour, whose deletion makes the choice (R72). -/
def Obligations.DeleteContourEmptiesTheSlot : Prop :=
  ∀ (tag : Byte) (i : Slot) (s : State), s.Quiet →
    let c := Instr.deleteContour tag [byte i.val]
    (s.contour i = none → exec c s = .next (s.replied 0x21 tag .notFound [])) ∧
    (∀ k, s.contour i = some k →
      (k.state.isActive = true ∨ s.job.current = some i ∨ s.holder.owner = some i ∨ s.holder.claimant = some i →
        exec c s = .next (s.replied 0x21 tag .wrongState [])) ∧
      (k.state.isActive = false → s.job.current ≠ some i → s.holder.owner ≠ some i →
        s.holder.claimant ≠ some i → ¬ (s.job.state = .severWait ∧ k.state = .bridged) → ∃ u : State,
          exec c s = .next (u.replied 0x21 tag .ok []) ∧
          u.contour i = none ∧ (∀ j, j ≠ i → u.contour j = s.contour j) ∧
          (∀ n q, k.defn.passes[n]? = some q → ∀ h, s.chain q.chain = some h → h.binding = some (i, n) →
            u.chain q.chain = none) ∧
          (∀ ch, (∀ n q h, k.defn.passes[n]? = some q → q.chain = ch → s.chain ch = some h →
            h.binding ≠ some (i, n)) → u.chain ch = s.chain ch) ∧
          u.store.freeSlots + u.slotsHeld = s.store.freeSlots + s.slotsHeld ∧
          u = { s with
            contours := u.contours
            store := { s.store with chains := u.store.chains, freeSlots := u.store.freeSlots }
            job := { s.job with lastChanged := some i }, journal := u.journal, conds := u.conds,
            modes := u.modes, path := u.path, link := { s.link with progressPending := true } }))

/-- R19, R181: QUERY_CONTOUR reports EMPTY alone for an empty slot, and otherwise the definition, the bound
bytes, the working fields, whether the contour is current and s of its running pass; it changes nothing.
The layout is the model's reading of R181 (DEDUCED, log entry 28). -/
def Obligations.QueryContourReportsTheRecord : Prop :=
  ∀ (tag : Byte) (i : Slot) (s : State), s.Quiet →
    let c := Instr.queryContour tag [byte i.val]
    (s.contour i = none → exec c s = .next (s.replied 0x22 tag .ok [0])) ∧
    (∀ k, s.contour i = some k → exec c s = .next (s.replied 0x22 tag .ok
      ([byte k.state.code] ++ defnBytes i k.defn ++
        ((List.range k.defn.passes.length).map fun n => boolByte (decide (∃ q, k.defn.passes[n]? = some q ∧
          (s.chain q.chain).bind (·.binding) = some (i, n)))) ++
        [byte k.state.code, byte k.passIndex] ++ leBytes 4 k.front ++
        (match k.breakPoint with
          | some (n, pos) => byte n :: leBytes 4 pos
          | none => [0xFF, 0xFF, 0xFF, 0xFF, 0xFF]) ++
        [byte k.breakCount, byte k.attemptsUsed, byte k.retention.code] ++ optBytes 1 (k.fault.map (·.code)) ++
        [boolByte k.severReleased, boolByte (decide (s.job.current = some i))] ++
        optBytes 4 (if s.job.current = some i then s.path.pass.map (·.s) else none))))

/-! ## Running the plate -/

/-- R76: START_JOB without a resume point is refused, with no effect, outside HOLD, while a job is under way,
while any contour is STOPPED and while a hold-forcing level condition is live. -/
def Obligations.StartJobRefusals : Prop :=
  ∀ (tag : Byte) (s : State), s.Quiet →
    (s.modes.mode ≠ .hold ∨ (s.job.state = .stageA ∨ s.job.state = .stageB ∨ s.job.state = .severWait) ∨
      (∃ i c, s.contour i = some c ∧ c.state = .stopped) ∨
      (∃ c ∈ [Cond.doorOpen, .tankLow, .axisFault, .genFault, .journalBlocked], (s.cond c).live = true)) →
    exec (.startJob tag []) s = .next (s.replied 0x30 tag .wrongState [])

/-- R71, R74, R76: START_JOB with nothing under way takes the lowest QUEUED contour: the job is in STAGE_A, the
mode RUN, the latches of the Job and Path groups clear, the contour current and THREADING, two records are in
the journal, and the first order is the rapid move to the start hole. -/
def Obligations.StartJobTakesTheLowestQueuedContour : Prop :=
  ∀ (tag : Byte) (i : Slot) (c : Contour) (s : State), s.Quiet → s.modes.mode = .hold →
    (s.job.state = .idle ∨ s.job.state = .complete ∨ s.job.state = .aborted) →
    (∀ j k, s.contour j = some k → k.state ≠ .stopped) → s.NoHoldCause → s.NothingUnderWay → s.JournalRoom →
    s.contour i = some c → c.state = .queued → (∀ j k, j < i → s.contour j = some k → k.state ≠ .queued) →
    s.active .lowerDetect = false → s.path.commanded ≠ c.defn.centre →
    s.store.lineKeptOut s.path.commanded c.defn.centre = false →
    ∃ u : State, exec (.startJob tag []) s = .next (u.replied 0x30 tag .ok []) ∧
      u.job.state = .stageA ∧ u.job.current = some i ∧ u.job.lastChanged = some i ∧
      u.contour i = some { c with state := .threading } ∧ (∀ j, j ≠ i → u.contour j = s.contour j) ∧
      u.modes = { s.modes with mode := .run, parkPending := false } ∧
      (∀ k ∈ [Cond.chainLow, .chainStarved, .wireBreak, .breakLimit, .discontinuous, .jobComplete, .contourFault],
        (u.cond k).latch = false) ∧
      u.journal.nextSlot = s.journal.nextSlot + 2 ∧ u.link.progressPending = true ∧
      u.path.rapid = some ⟨s.path.commanded, c.defn.centre, distance s.path.commanded c.defn.centre, 0,
        .contourTable⟩ ∧
      u.path.pass = none ∧ u.path.commanded = s.path.commanded ∧ u.path.genOn = false ∧
      u.store = s.store ∧ u.thread = none ∧ u.holder = s.holder ∧ u.slug = s.slug ∧ u.params = s.params ∧
      u.sensors = s.sensors

/-- R120 to R122: START_JOB with a resume point is refused outside HOLD and for another chain length; taken with
the wire through the plate away from the resume position, it makes the contour REENTRY at that pass and
position, without the choice of R71, with the running-pass record and its stop point made (DEDUCED, log entry 46),
and orders an UNTHREAD, whose record holds 0 in the attempt fields (DESIGN CHOICE, log entry 55). -/
def Obligations.ResumedStartTakesTheNamedContour : Prop :=
  ∀ (tag : Byte) (i : Slot) (n : Fin 8) (pos len : Nat) (s : State), s.Quiet →
    pos < 2 ^ 32 → len < 2 ^ 32 →
    let request := Instr.startJobResumed tag (byte i.val :: byte n.val :: (leBytes 4 pos ++ leBytes 4 len))
    (s.modes.mode ≠ .hold → exec request s = .next (s.replied 0x30 tag .wrongState [])) ∧
    (∀ (c : Contour) (q : PassRec) (k : Chain), s.modes.mode = .hold →
      (s.job.state = .idle ∨ s.job.state = .complete ∨ s.job.state = .aborted) → s.mayRun = true →
      s.contour i = some c → (c.state = .queued ∨ c.state = .stopped) → c.defn.passes[n.val]? = some q →
      s.chain q.chain = some k → k.binding = some (i, n.val) → k.state = .closed →
      (len ≠ k.loaded → exec request s = .next (s.replied 0x30 tag .mismatch [])) ∧
      (len = k.loaded → pos < c.defn.passEnd n.val k.loaded → c.state = .queued → k.Sound → s.NoHoldCause →
        s.NothingUnderWay → s.JournalRoom → s.active .lowerDetect = true →
        within 2 s.path.commanded (k.point pos) = false →
        ∃ u : State, exec request s = .next (u.replied 0x30 tag .ok []) ∧
          u.job.state = (if q.role = .sever then .stageB else .stageA) ∧ u.job.current = some i ∧
          u.job.resume = some ⟨i, n.val, pos⟩ ∧
          u.contour i = some { c with
            state := .reentry, passIndex := n.val, front := pos
            breakPoint := if n.val = c.passIndex then c.breakPoint else none
            severReleased := c.severReleased || (decide (q.role = .sever) && c.defn.attended) } ∧
          (∀ j, j ≠ i → u.contour j = s.contour j) ∧ u.modes.mode = .run ∧
          (∃ r, u.path.pass = some r ∧ r.chain = q.chain ∧ r.s = pos ∧ r.lastCheckpoint = pos ∧
            r.sub = .moving ∧
            (k.SoundCut → k.segs ≠ [] → c.defn.method = .drop →
              r.stopPoint = c.defn.passEnd n.val k.loaded)) ∧
          u.path.commanded = s.path.commanded ∧ u.path.genOn = false ∧ u.store = s.store ∧
          u.thread = some ⟨.unthread, i, .unthreadCut, false, 0, 0, none, none, none, some s.params.tipTime,
            false⟩))

/-- R86: ABORT_JOB is refused outside RUN and HOLD and while no job is under way; otherwise the current contour
becomes STOPPED with its fields kept, the work on it ends, the job is ABORTED and the mode HOLD. -/
def Obligations.AbortStopsTheCurrentContour : Prop :=
  ∀ (tag : Byte) (s : State), s.Quiet →
    ((s.modes.mode = .park ∨ s.modes.mode = .waking) ∨
        (s.job.state = .idle ∨ s.job.state = .complete ∨ s.job.state = .aborted) →
      exec (.abortJob tag []) s = .next (s.replied 0x31 tag .wrongState [])) ∧
    ((s.modes.mode = .run ∨ s.modes.mode = .hold) → s.modes.parkPending = false →
      (s.job.state = .stageA ∨ s.job.state = .stageB ∨ s.job.state = .severWait) →
      (∀ i c, s.job.current = some i → s.contour i = some c → ∃ u : State,
        exec (.abortJob tag []) s = .next (u.replied 0x31 tag .ok []) ∧
        u.job.state = .aborted ∧ u.job.current = none ∧ u.job.resume = none ∧ u.job.lastChanged = some i ∧
        u.contour i = some { c with state := .stopped } ∧ (∀ j, j ≠ i → u.contour j = s.contour j) ∧
        u.path.pass = none ∧ u.path.rapid = none ∧ u.path.genOn = false ∧
        u.path.commanded = s.path.commanded ∧ u.thread = none ∧ u.slug.watch = none ∧
        u.modes = { s.modes with mode := .hold } ∧
        u.holder = { s.holder with request := u.holder.request } ∧ u.store = s.store ∧ u.params = s.params ∧
        u.sensors = s.sensors ∧ u.link.progressPending = true) ∧
      (s.job.current = none → ∃ u : State, exec (.abortJob tag []) s = .next (u.replied 0x31 tag .ok []) ∧
        u.job = { s.job with state := .aborted } ∧ u.contours = s.contours ∧
        u.modes = { s.modes with mode := .hold } ∧ u.path.genOn = false ∧ u.store = s.store))

namespace Sys2Proof.Machine

/-- SKIP_CONTOUR of the current contour (R85), taken in REENTRY_WAIT in every mode and in the other active states
outside RUN: the contour becomes SKIPPED with no fault reason, the work on it ends with the commanded position where
it stands, and, no other contour waiting, the job is COMPLETE. The holder keeps its state and owner. -/
def CurrentIsSkipped (tag : Byte) (i : Slot) (c : Contour) (s : State) : Prop :=
  s.job.current = some i → s.contour i = some c →
    (c.state = .reentryWait ∨ (s.modes.mode ≠ .run ∧ (c.state = .threading ∨ c.state = .cutting ∨
      c.state = .reentry ∨ c.state = .unthreading ∨ c.state = .severing))) → s.NoneWaiting →
    ∃ u : State, exec (.skipContour tag [byte i.val]) s = .next (u.replied 0x36 tag .ok []) ∧
      u.contour i = some { c with state := .skipped, fault := none } ∧ (∀ j, j ≠ i → u.contour j = s.contour j) ∧
      u.job.state = .complete ∧ u.job.current = none ∧ u.job.resume = none ∧ u.job.lastChanged = some i ∧
      u.path.pass = none ∧ u.path.rapid = none ∧ u.path.genOn = false ∧ u.path.commanded = s.path.commanded ∧
      u.thread = none ∧ u.slug.watch = none ∧ (s.slug.dropContour = some i → u.slug.drop = .idle) ∧
      u.holder = { s.holder with request := u.holder.request } ∧ (∀ w, u.holder.request ≠ some (w, i)) ∧
      (s.modes.mode = .hold → s.modes.parkPending = false → u.modes = s.modes) ∧ u.store = s.store ∧
      u.params = s.params ∧ u.sensors = s.sensors

end Sys2Proof.Machine

/-- R84, R12: SKIP_CONTOUR of a contour that is not current makes a QUEUED, BRIDGED or STOPPED contour SKIPPED
with its other fields kept, and is refused for the other states; of an active contour it is refused in RUN, and
otherwise, as in REENTRY_WAIT, ends the work on the current one (R85). In SEVER_WAIT the statement leaves out a BRIDGED contour, whose skip makes the choice (R72). -/
def Obligations.SkipOfAWaitingContour : Prop :=
  ∀ (tag : Byte) (i : Slot) (s : State), s.Quiet →
    let c := Instr.skipContour tag [byte i.val]
    (s.contour i = none → exec c s = .next (s.replied 0x36 tag .wrongState [])) ∧
    (∀ k, s.contour i = some k →
      (k.state = .done ∨ k.state = .skipped ∨ k.state = .faulted →
        exec c s = .next (s.replied 0x36 tag .wrongState [])) ∧
      ((k.state = .threading ∨ k.state = .cutting ∨ k.state = .reentry ∨ k.state = .unthreading ∨
          k.state = .severing) → s.modes.mode = .run → exec c s = .next (s.replied 0x36 tag .wrongState [])) ∧
      ((k.state = .queued ∨ k.state = .bridged ∨ k.state = .stopped) →
        ¬ (s.job.state = .severWait ∧ k.state = .bridged) → ∃ u : State,
          exec c s = .next (u.replied 0x36 tag .ok []) ∧ u.contour i = some { k with state := .skipped } ∧
          (∀ j, j ≠ i → u.contour j = s.contour j) ∧
          u = { s with
            contours := u.contours, job := { s.job with lastChanged := some i }, journal := u.journal,
            conds := u.conds, modes := u.modes, path := u.path,
            link := { s.link with progressPending := true } }) ∧
      CurrentIsSkipped tag i k s)

/-- R6, R12, R83: RELEASE_SEVER sets the sever released field of the named contour, or in its all form of every
contour, whose bridge is ATTENDED and whose state accepts it; outside SEVER_WAIT nothing else changes. -/
def Obligations.ReleaseSeverSetsTheField : Prop :=
  ∀ (tag : Byte) (s : State), s.Quiet →
    let accepts (c : Contour) : Bool := c.defn.attended &&
      !decide (c.state = .empty ∨ c.state = .done ∨ c.state = .skipped ∨ c.state = .faulted)
    (∀ i : Slot, (∀ c, s.contour i = some c → accepts c = false) →
      exec (.releaseSever tag [byte i.val]) s = .next (s.replied 0x37 tag .wrongState [])) ∧
    (s.job.state ≠ .severWait →
      (∀ i c, s.contour i = some c → accepts c = true → exec (.releaseSever tag [byte i.val]) s = .next
        ((s.setContour i (some { c with severReleased := true })).replied 0x37 tag .ok [])) ∧
      ∃ u : State, exec (.releaseSever tag [0xFF]) s = .next (u.replied 0x37 tag .ok []) ∧
        (∀ i, u.contour i = (s.contour i).map fun c =>
          if accepts c = true then { c with severReleased := true } else c) ∧
        u = { s with contours := u.contours })

/-- R82, R83, R71: in SEVER_WAIT the release of a BRIDGED contour makes the choice, and the job takes the lowest
eligible BRIDGED contour into STAGE_B with its pass index advanced. -/
def Obligations.ReleaseInSeverWaitTakesAContour : Prop :=
  ∀ (tag : Byte) (i : Slot) (c : Contour) (s : State), s.Quiet → s.job.state = .severWait →
    s.contour i = some c → c.state = .bridged → c.defn.attended = true → c.severReleased = false →
    s.modes.mode = .hold →
    (∀ j k, s.contour j = some k → k.state ≠ .queued ∧ (k.state = .bridged → k.defn.attended = true ∧
      k.severReleased = false)) →
    ∃ u : State, exec (.releaseSever tag [byte i.val]) s = .next (u.replied 0x37 tag .ok []) ∧
      u.job.state = .stageB ∧ u.job.current = some i ∧
      u.contour i = some { c with
        severReleased := true, state := .threading, passIndex := c.passIndex + 1, breakPoint := none } ∧
      (∀ j, j ≠ i → u.contour j = s.contour j) ∧ u.job.due = true

namespace Sys2Proof.Machine

/-- The end of the hold of WIRE_INTACT parts the wire of a contour that cuts, the threading unit IDLE (R109, R110). -/
def State.Breaks (s : State) (i : Slot) (c : Contour) (q : PassRec) (r : RunPass) (k : Chain) : Prop :=
  s.Turns .wireIntact false ∧ s.thread = none ∧ s.path.rapid = none ∧ s.OnPass i c q r k ∧
    (c.state = .cutting ∨ c.state = .severing)

/-- What every break does (R110): the break point is recorded, WIRE_BREAK is raised and the generator goes off; the
running pass keeps s, its stop point and its sub-state, its counts at 0. -/
def BreakTaken (s t : State) (c d : Contour) (r : RunPass) : Prop :=
  d.breakPoint = some (c.passIndex, r.s) ∧ d.front = c.front ∧ d.passIndex = c.passIndex ∧
  (t.cond .wireBreak).latch = s.raisedLatch .wireBreak ∧ t.path.genOn = false ∧
  t.path.commanded = s.path.commanded ∧ t.holder = s.holder ∧ t.slug = s.slug ∧ t.store = s.store

/-- A break at BreakLimit (R111): BREAK_LIMIT is raised and the contour becomes FAULTED, its break count kept. A break
count above the limit, which no run reaches, counts as one at it (DEDUCED, log entry 36). -/
def BreakFaultsAtLimit (i : Slot) (c : Contour) (q : PassRec) (r : RunPass) (k : Chain) (s : State) : Prop :=
  s.Breaks i c q r k → s.params.breakLimit ≤ c.breakCount → s.NoneWaiting →
    ∃ t : State, exec (.lineFilterExpiry .wireIntact) s = .next t ∧
      t.contour i = some { c with
        breakPoint := some (c.passIndex, r.s), state := .faulted, fault := some .breakLimit } ∧
      (∀ j, j ≠ i → t.contour j = s.contour j) ∧ (t.cond .wireBreak).latch = s.raisedLatch .wireBreak ∧
      (t.cond .breakLimit).latch = s.raisedLatch .breakLimit ∧
      (t.cond .contourFault).latch = (s.cond .contourFault).latch ∧ t.path.pass = none ∧ t.path.genOn = false ∧
      t.path.commanded = s.path.commanded ∧ t.thread = none ∧ t.job.current = none ∧ t.store = s.store

/-- A break below BreakLimit in HOLD (R110, R113, R114): the contour enters REENTRY with its break count raised, and
the re-entry choice is made at once, its order waiting for RUN: THREAD_IN_GAP where it is permitted and the wire
stands at point(s) on a CUT segment, and else on pass 0 the hole route. -/
def BreakInHoldChoosesRoute (i : Slot) (c : Contour) (q : PassRec) (r : RunPass) (k : Chain) (s : State) : Prop :=
  let inGap := c.defn.inGap = true ∧ s.path.commanded = k.point r.s ∧ k.modeAt r.s = some .cut
  s.Breaks i c q r k → c.breakCount < s.params.breakLimit → s.modes.mode = .hold → (c.passIndex = 0 ∨ inGap) →
    let d := { c with breakPoint := some (c.passIndex, r.s), breakCount := c.breakCount + 1, state := .reentry }
    ∃ t : State, exec (.lineFilterExpiry .wireIntact) s = .next t ∧
      t.contour i = some d ∧ BreakTaken s t c d r ∧ (∀ j, j ≠ i → t.contour j = s.contour j) ∧
      (∃ v, t.path.pass = some v ∧ v.chain = r.chain ∧ v.s = r.s ∧ v.stopPoint = r.stopPoint ∧ v.sub = r.sub ∧
        v.openCount = 0 ∧ v.stuckCount = 0) ∧ t.thread = none ∧
      (inGap → t.job.work = some .gapThread) ∧ (¬ inGap → t.job.work = some .holeRapid) ∧
      t.job.due = true ∧ t.job.current = some i ∧ t.modes = s.modes

/-- A break on a pass other than pass 0 that cannot be threaded in the gap (R114, R118): the contour becomes
REENTRY_WAIT, and HOLD is forced. -/
def BreakOnLaterPassWaits (i : Slot) (c : Contour) (q : PassRec) (r : RunPass) (k : Chain) (s : State) : Prop :=
  s.Breaks i c q r k → c.breakCount < s.params.breakLimit → c.passIndex ≠ 0 → s.path.commanded = k.point r.s →
    (c.defn.inGap = false ∨ k.modeAt r.s ≠ some .cut) →
    let d := { c with
      breakPoint := some (c.passIndex, r.s), breakCount := c.breakCount + 1, state := .reentryWait }
    ∃ t : State, exec (.lineFilterExpiry .wireIntact) s = .next t ∧
      t.contour i = some d ∧ BreakTaken s t c d r ∧ (∀ j, j ≠ i → t.contour j = s.contour j) ∧
      (t.path.pass.map (·.s) = some r.s) ∧ t.thread = none ∧ t.job.work = none ∧ t.job.due = false ∧
      t.job.current = some i ∧ t.modes.mode ≠ .run

/-- A break on pass 0 in RUN (R113): with in-gap threading permitted on a CUT segment the threading unit begins an
attempt where the wire stands; else the rapid move to the start hole begins. -/
def BreakInRunGivesOrder (i : Slot) (c : Contour) (q : PassRec) (r : RunPass) (k : Chain) (s : State) : Prop :=
  let inGap := c.defn.inGap = true ∧ s.path.commanded = k.point r.s ∧ k.modeAt r.s = some .cut
  s.Breaks i c q r k → c.breakCount < s.params.breakLimit → c.passIndex = 0 → s.modes.mode = .run →
    s.NoHoldCause → s.JournalRoom →
    (inGap → s.params.inGapAttempts ≠ 0 → ∃ t : State, exec (.lineFilterExpiry .wireIntact) s = .next t ∧
      t.thread = some ⟨.inGap, i, .tipCut, false, s.params.inGapAttempts, 1, none, none, none,
        some s.params.tipTime, false⟩ ∧
      t.contour i = some { c with
        breakPoint := some (0, r.s), breakCount := c.breakCount + 1, state := .reentry
        attemptsUsed := min 255 (c.attemptsUsed + 1) } ∧ t.path.rapid = none ∧ t.modes = s.modes) ∧
    (¬ inGap → s.path.commanded ≠ c.defn.centre →
      s.store.lineKeptOut s.path.commanded c.defn.centre = false →
      ∃ t : State, exec (.lineFilterExpiry .wireIntact) s = .next t ∧
        t.path.rapid = some ⟨s.path.commanded, c.defn.centre, distance s.path.commanded c.defn.centre, 0,
          .contourTable⟩ ∧
        t.contour i = some { c with
          breakPoint := some (0, r.s), breakCount := c.breakCount + 1, state := .reentry } ∧
        t.thread = none ∧ t.modes = s.modes)

end Sys2Proof.Machine

/-- R109 to R111, R113, R114, R118: a break of a contour that cuts, as the end of WIRE_INTACT's hold brings it: at
BreakLimit the contour is FAULTED, below it the re-entry choice is made (a break count above it: DEDUCED, log entry
36).
R119, R117: RETHREAD_DONE is refused unless the contour is in REENTRY_WAIT, both wire lines are active and
the wire stands at point(s); in HOLD it takes up cutting at s on a chain of CUT segments that is read without
error, the pass PAUSED and the generator off. -/
def Obligations.RethreadDoneTakesUpCutting : Prop :=
  (∀ (i : Slot) (c : Contour) (q : PassRec) (r : RunPass) (k : Chain) (s : State), s.Steady →
    BreakFaultsAtLimit i c q r k s ∧ BreakInHoldChoosesRoute i c q r k s ∧ BreakOnLaterPassWaits i c q r k s ∧
      BreakInRunGivesOrder i c q r k s) ∧
  ∀ (tag : Byte) (i : Slot) (s : State), s.Quiet →
    let request := Instr.rethreadDone tag [byte i.val]
    (s.slotState i ≠ .reentryWait ∨ s.active .lowerDetect = false ∨ s.active .wireIntact = false →
      exec request s = .next (s.replied 0x3A tag .wrongState [])) ∧
    (∀ (c : Contour) (q : PassRec) (r : RunPass) (k : Chain), s.contour i = some c → c.state = .reentryWait →
      s.job.current = some i → s.path.pass = some r → s.chain r.chain = some k → c.pass = some q →
      s.active .lowerDetect = true → s.active .wireIntact = true →
      (s.path.commanded ≠ k.point r.s → exec request s = .next (s.replied 0x3A tag .wrongState [])) ∧
      (s.path.commanded = k.point r.s → s.modes.mode = .hold → s.job.resume = none → c.defn.method = .drop →
        k.state = .closed → k.SoundCut → k.segs ≠ [] → r.s < c.defn.passEnd c.passIndex k.loaded →
        (r.sub = .moving ∨ r.sub = .paused ∨ r.sub = .starved) → ∃ u : State,
          exec request s = .next (u.replied 0x3A tag .ok []) ∧
          u.contour i = some { c with state := if q.role = .sever then .severing else .cutting } ∧
          (∀ j, j ≠ i → u.contour j = s.contour j) ∧
          (∃ v, u.path.pass = some v ∧ v.s = r.s ∧ v.sub = .paused ∧ v.floorReported = false ∧
            v.stopPoint = c.defn.passEnd c.passIndex k.loaded) ∧
          u.path.genOn = false ∧ u.path.commanded = s.path.commanded ∧ u.modes = s.modes ∧
          u.job.current = some i ∧ u.store = s.store ∧ u.thread = s.thread))

/-- R70: a contour is current in STAGE_A and STAGE_B and in no other job state, and every step keeps that. -/
def Obligations.StageAndCurrentContourAgree : Prop :=
  ∀ s t : State, s.StageHasCurrent → step s = .next t → t.StageHasCurrent

/-! ## Cell modes -/

/-- R140, R141: HOLD in RUN commands the generator off with its counts, pauses a MOVING pass and makes the mode
HOLD; in HOLD it withdraws a deferred PARK; in PARK and WAKING it is refused. The reply carries the mode. -/
def Obligations.HoldRequestFollowsTheMode : Prop :=
  ∀ (tag : Byte) (s : State), s.Quiet →
    (s.modes.mode = .run → ∃ u : State, exec (.hold tag []) s = .next (u.replied 0x32 tag .ok [1]) ∧
      u = { s with
        modes := { s.modes with mode := .hold }
        path := { s.path with
          genOn := false
          pass := s.path.pass.map fun r => { r with
            openCount := 0, stuckCount := 0, sub := if r.sub = .moving then .paused else r.sub } }
        conds := u.conds } ∧
      ∀ c, u.cond c = if c = .gapOpen then { s.cond c with live := false } else s.cond c) ∧
    (s.modes.mode = .hold → exec (.hold tag []) s =
      .next ((s.onModes fun m => { m with parkPending := false }).replied 0x32 tag .ok [1])) ∧
    (s.modes.mode = .park → exec (.hold tag []) s = .next (s.replied 0x32 tag .wrongState [2])) ∧
    (s.modes.mode = .waking → exec (.hold tag []) s = .next (s.replied 0x32 tag .wrongState [3]))

/-- R143: RESUME is refused outside HOLD and while a hold-forcing level condition is live. With no threading
step, order, drop wait or timed-out engage to take up, it makes the mode RUN, a PAUSED pass MOVING, and the
generator on where R60 allows.
The mode in the refused reply is R138's. -/
def Obligations.ResumeRequestReturnsToRun : Prop :=
  ∀ (tag : Byte) (s : State), s.Quiet →
    (s.modes.mode ≠ .hold ∨
        (∃ c ∈ [Cond.doorOpen, .tankLow, .axisFault, .genFault, .journalBlocked], (s.cond c).live = true) →
      exec (.resume tag []) s = .next (s.replied 0x33 tag .wrongState [byte s.modes.mode.code])) ∧
    (s.modes.mode = .hold →
      (∀ c ∈ [Cond.doorOpen, .tankLow, .axisFault, .genFault, .journalBlocked], (s.cond c).live = false) →
      s.thread = none → s.job.due = false → s.slug.drop = .idle →
      (∀ i, s.holder.request ≠ some (.timedOut, i)) → ∃ u : State,
        exec (.resume tag []) s = .next (u.replied 0x33 tag .ok [0]) ∧
        u.modes = { s.modes with mode := .run, parkPending := false } ∧
        u.path.pass.map (·.sub) = (s.path.pass.map (·.sub)).map (fun b => if b = .paused then .moving else b) ∧
        u.path.genOn = u.genAllowed ∧ u.path.commanded = s.path.commanded ∧ u.path.rapid = s.path.rapid ∧
        u = { s with modes := u.modes, path := u.path, conds := u.conds })

/-- R144, R145: what PARK comes to in each mode. From RUN and HOLD it is deferred while a threading step runs,
and otherwise entered, unless an enabled latch turns the entry into HOLD; in WAKING it is entered at once; in
PARK it changes nothing. The reply carries the mode after it. -/
def Obligations.ParkRequestFollowsTheMode : Prop :=
  ∀ (tag : Byte) (s : State), s.Quiet →
    let latched := ∃ c, (s.cond c).latch = true ∧ (s.cond c).enable = true
    let running := ∃ t, s.thread = some t ∧ t.held = false ∧ t.step ≠ .searchMove ∧ t.step ≠ .centreMove
    ((s.modes.mode = .run ∨ s.modes.mode = .hold) → ∃ u : State,
      u = { s with modes := u.modes, path := u.path, conds := u.conds } ∧
      (s.modes.mode = .hold → u.path = s.path ∧ u.conds = s.conds) ∧ u.path.commanded = s.path.commanded ∧
      (s.modes.mode = .run → u.path.genOn = false ∧
        u.path.pass.map (·.sub) = (s.path.pass.map (·.sub)).map fun b => if b = .moving then .paused else b) ∧
      (running → exec (.park tag []) s = .next (u.replied 0x34 tag .ok [1]) ∧
        u.modes = { s.modes with mode := .hold, parkPending := true }) ∧
      (¬ running → latched → exec (.park tag []) s = .next (u.replied 0x34 tag .ok [1]) ∧
        u.modes = ⟨.hold, false, none, true⟩) ∧
      (¬ running → ¬ latched → exec (.park tag []) s = .next (u.replied 0x34 tag .ok [2]) ∧
        u.modes = ⟨.park, false, none, false⟩)) ∧
    (s.modes.mode = .park → exec (.park tag []) s = .next (s.replied 0x34 tag .ok [2])) ∧
    (s.modes.mode = .waking →
      (latched → exec (.park tag []) s =
        .next ((s.withModes ⟨.hold, false, none, true⟩).replied 0x34 tag .ok [1])) ∧
      (¬ latched → exec (.park tag []) s =
        .next ((s.withModes ⟨.park, false, none, false⟩).replied 0x34 tag .ok [2])))

/-- R146, R147: WAKE makes a parked cell WAKING with the pump on and the settle timer started, changes nothing
in WAKING and is refused in RUN and HOLD; the settle timer's expiry makes WAKING HOLD, with the pump left on.
That an expiry in another mode changes nothing is the model's reading (DEDUCED, log entry 16). -/
def Obligations.WakeAndSettleLeadToHold : Prop :=
  ∀ (tag : Byte) (s : State),
    (s.Quiet →
      (s.modes.mode = .park → exec (.wake tag []) s = .next ((s.onModes fun m =>
        { m with mode := .waking, pump := true, settle := some s.params.wakeSettle }).replied 0x35 tag .ok [3])) ∧
      (s.modes.mode = .waking → exec (.wake tag []) s = .next (s.replied 0x35 tag .ok [3])) ∧
      (s.modes.mode = .run → exec (.wake tag []) s = .next (s.replied 0x35 tag .wrongState [0])) ∧
      (s.modes.mode = .hold → exec (.wake tag []) s = .next (s.replied 0x35 tag .wrongState [1]))) ∧
    (s.Steady →
      (s.modes.mode = .waking → s.modes.settle.isSome = true → exec .wakeSettleExpiry s =
        .next (s.onModes fun m => { m with mode := .hold, settle := none }).arbitrate) ∧
      (s.modes.mode ≠ .waking → exec .wakeSettleExpiry s = .next s.arbitrate))

/-- R138: the pump is on in every mode but PARK, the settle timer runs only in WAKING, park pending is yes only
in HOLD; and every step keeps all three. -/
def Obligations.ModeRecordStaysConsistent : Prop :=
  ∀ s t : State, s.PumpFollowsMode → s.ModeTimers → step s = .next t → t.PumpFollowsMode ∧ t.ModeTimers

/-! ## Slug retention -/

namespace Sys2Proof.Machine

/-- HOLDER_ENGAGED becomes active while ENGAGING (R131): the holder is HOLDING with the claimant as owner. A claimant
in re-entry has the report kept; one that waits at its engage point on a chain of CUT segments may move again, PAUSED
in HOLD; for a claimant that is not current nothing else changes. -/
def EngageConfirmed (i : Slot) (s : State) : Prop :=
  let holds (u : State) : State := (u.turned .holderEngaged true).onHolder fun h =>
    { h with state := .holding, owner := some i, claimant := none, timer := none }
  s.Turns .holderEngaged true → s.holder.state = .engaging → s.holder.claimant = some i →
    (s.job.current ≠ some i → exec (.lineFilterExpiry .holderEngaged) s = .next (holds s).arbitrate) ∧
    (∀ c, s.job.current = some i → s.contour i = some c → (c.state = .reentry ∨ c.state = .reentryWait) →
      exec (.lineFilterExpiry .holderEngaged) s =
        .next ((holds s).onJob fun j => { j with keptHolding := true }).arbitrate) ∧
    (∀ c q r k, s.OnPass i c q r k → (c.state = .cutting ∨ c.state = .severing) → c.defn.method = .holder →
      r.sub = .waitHolder → k.state = .closed → k.SoundCut → k.segs ≠ [] →
      r.s < c.defn.passEnd c.passIndex k.loaded → s.modes.mode = .hold → ∃ t : State,
        exec (.lineFilterExpiry .holderEngaged) s = .next t ∧ t.holder = (holds s).holder ∧
        (∃ v, t.path.pass = some v ∧ v.s = r.s ∧ v.sub = .paused ∧
          v.stopPoint = c.defn.passEnd c.passIndex k.loaded) ∧
        t.contours = s.contours ∧ t.job = s.job ∧ t.store = s.store ∧ t.modes = s.modes)

/-- HOLDER_ENGAGED becomes inactive while RELEASING (R133, R130): the holder is FREE, its owner's retention RELEASED,
and a WAITING engage request is taken up. -/
def ReleaseCompleted (s : State) : Prop :=
  s.Turns .holderEngaged false → s.holder.state = .releasing →
    let freed (u : State) : State := (u.turned .holderEngaged false).onHolder fun h =>
      { h with state := .free, owner := none, timer := none }
    ((∀ j, s.holder.request ≠ some (.waiting, j)) →
      (s.holder.owner = none → exec (.lineFilterExpiry .holderEngaged) s = .next (freed s).arbitrate) ∧
      (∀ i c, s.holder.owner = some i → s.contour i = some c → exec (.lineFilterExpiry .holderEngaged) s =
        .next ((freed s).setContour i (some { c with retention := .released })).arbitrate)) ∧
    (∀ j, s.holder.request = some (.waiting, j) → ∃ t : State,
      exec (.lineFilterExpiry .holderEngaged) s = .next t ∧
      t.holder = { s.holder with
        state := .engaging, owner := none, claimant := some j, output := true
        timer := some s.params.holderTimeout, request := none } ∧
      (∀ i, s.holder.owner = some i → (t.contour i).map (·.retention) = (s.contour i).map fun _ => .released) ∧
      t.job = s.job ∧ t.store = s.store ∧ t.thread = s.thread)

/-- HOLDER_ENGAGED becomes inactive while HOLDING (R134): the owner's retention is LOST, HOLDER_LOST is raised, the
holder is FREE with its output off, and HOLD is forced or the parked cell woken. On its owner's closing pass the
engage point, where it lies beyond s, is the stop point again. -/
def SlugLost (s : State) : Prop :=
  s.Turns .holderEngaged false → s.holder.state = .holding → (∀ j, s.holder.request ≠ some (.waiting, j)) →
    ((s.holder.owner = none ∨ s.holder.owner ≠ s.job.current) → ∃ t : State,
      exec (.lineFilterExpiry .holderEngaged) s = .next t ∧
      t.holder = { s.holder with state := .free, owner := none, output := false, timer := none } ∧
      (∀ i, s.holder.owner ≠ some i → t.contour i = s.contour i) ∧
      (∀ i c, s.holder.owner = some i → s.contour i = some c →
        t.contour i = some { c with retention := .lost }) ∧
      (t.cond .holderLost).latch = s.raisedLatch .holderLost ∧
      (s.modes.mode = .run → t.modes = { s.modes with mode := .hold } ∧ t.path.genOn = false) ∧
      (s.modes.mode = .hold ∨ s.modes.mode = .waking → t.modes = s.modes) ∧
      (s.modes.mode = .park → (s.cond .holderLost).latch = false → (s.cond .holderLost).enable = true →
        t.modes = { s.modes with mode := .waking, pump := true, settle := some s.params.wakeSettle }) ∧
      t.job = s.job ∧ t.store = s.store ∧ t.slug = s.slug ∧ t.thread = s.thread) ∧
    (∀ i c q r k, s.OnPass i c q r k → s.holder.owner = some i → (c.state = .cutting ∨ c.state = .severing) →
      c.defn.method = .holder → c.passIndex = c.defn.closingPass → k.state = .closed → k.SoundCut → k.segs ≠ [] →
      r.s < k.loaded - c.defn.engage.getD 0 → k.loaded - c.defn.engage.getD 0 ≤ c.defn.passEnd c.passIndex k.loaded →
      s.modes.mode = .hold → ∃ t : State,
        exec (.lineFilterExpiry .holderEngaged) s = .next t ∧
        t.contour i = some { c with retention := .lost } ∧
        t.path.pass.map (·.s) = some r.s ∧
        t.path.pass.map (·.stopPoint) = some (k.loaded - c.defn.engage.getD 0))

end Sys2Proof.Machine

/-- R132: RELEASE_HOLDER is taken while the holder is HOLDING with no owner or an owner whose retention is HELD,
and opens the holder with its owner kept; in any other case it is refused. An owner that is HELD counts as such on
its closing pass too, as a resumed start may bring about (DEDUCED, log entry 48).
R130, R131, R133, R134: a change of HOLDER_ENGAGED, as the end of its hold brings it, confirms an engage, ends a
release and tells of a lost slug. -/
def Obligations.ReleaseHolderOpensAHeldSlug : Prop :=
  (∀ s : State, s.Steady → (∀ i, EngageConfirmed i s) ∧ ReleaseCompleted s ∧ SlugLost s) ∧
  ∀ (tag : Byte) (s : State), s.Quiet →
    let taken := s.holder.state = .holding ∧
      ∀ i, s.holder.owner = some i → ∃ c, s.contour i = some c ∧ c.retention = .held
    (taken → exec (.releaseHolder tag []) s = .next ((s.onHolder fun h =>
      { h with output := false, state := .releasing, timer := some s.params.holderTimeout }).replied
        0x38 tag .ok [])) ∧
    (¬ taken → exec (.releaseHolder tag []) s = .next (s.replied 0x38 tag .wrongState []))

namespace Sys2Proof.Machine

/-- What a holder timeout leaves beside the holder's own record: HOLDER_TIMEOUT raised, HOLD forced, and the contour
table, the store, the slug records and the threading unit as they were. -/
def HolderTimedOut (s t : State) : Prop :=
  (t.cond .holderTimeout).latch = s.raisedLatch .holderTimeout ∧ HoldForced s t ∧ t.contours = s.contours ∧
    t.job = s.job ∧ t.store = s.store ∧ t.slug = s.slug ∧ t.thread = s.thread

end Sys2Proof.Machine

/-- R131, R133: the engage timer's expiry raises HOLDER_TIMEOUT, opens the holder and forces HOLD, other modes
unchanged: a claimant that is the current contour leaves its request TIMED_OUT (one that was stopped and is current
again by a resumed start too: DEDUCED, log entry 47), one that is not leaves none, and a WAITING request is then taken
up (R130). The release timer's expiry leaves the holder RELEASING with its owner and
forces HOLD. -/
def Obligations.HolderTimersForceHold : Prop :=
  ∀ s : State, s.Steady → s.holder.timer.isSome = true →
    (∀ i, s.holder.state = .engaging → s.holder.claimant = some i →
      (s.job.current = some i → ∃ t : State, exec .holderEngageTimeout s = .next t ∧ HolderTimedOut s t ∧
        t.holder = { s.holder with
          state := .free, output := false, claimant := none, timer := none, request := some (.timedOut, i) }) ∧
      (s.job.current ≠ some i → (∀ j, s.holder.request ≠ some (.waiting, j)) → ∃ t : State,
        exec .holderEngageTimeout s = .next t ∧ HolderTimedOut s t ∧
        t.holder = { s.holder with state := .free, output := false, claimant := none, timer := none }) ∧
      (∀ j, s.job.current ≠ some i → s.holder.request = some (.waiting, j) → s.active .holderEngaged = false →
        ∃ t : State, exec .holderEngageTimeout s = .next t ∧ HolderTimedOut s t ∧
        t.holder = { s.holder with
          state := .engaging, output := true, claimant := some j, timer := some s.params.holderTimeout
          request := none })) ∧
    (s.holder.state = .releasing → ∃ t : State, exec .holderReleaseTimeout s = .next t ∧
      t.holder = { s.holder with timer := none } ∧
      (s.modes.mode = .run → t.modes = { s.modes with mode := .hold }) ∧
      (s.modes.mode ≠ .run → t.modes = s.modes) ∧ (t.cond .holderTimeout).latch =
        ((s.cond .holderTimeout).latch || (s.cond .holderTimeout).enable || s.params.latchDisabled) ∧
      t.contours = s.contours ∧ t.job = s.job ∧ t.store = s.store ∧ t.slug = s.slug ∧ t.thread = s.thread)

namespace Sys2Proof.Machine

/-- SLUG_PRESENT becomes inactive with the watch armed and no drop wait (R125, R156): the watch is disarmed, the
contour's retention DROPPED_EARLY, SLUG_EARLY raised, the generator off and HOLD forced; SLUG_CHANGE is raised where
the reference was active. -/
def EarlyDropTaken (i : Slot) (c : Contour) (s : State) : Prop :=
  s.Turns .slugPresent false → s.slug.drop = .idle → s.slug.watch = some i → s.contour i = some c →
    ∃ t : State, exec (.lineFilterExpiry .slugPresent) s = .next t ∧
      t.slug = { s.slug with watch := none } ∧ t.contour i = some { c with retention := .droppedEarly } ∧
      (∀ j, j ≠ i → t.contour j = s.contour j) ∧ (t.cond .slugEarly).latch = s.raisedLatch .slugEarly ∧
      (t.cond .slugChange).latch = (if s.sensors.slugReference = true then s.raisedLatch .slugChange
        else (s.cond .slugChange).latch) ∧
      (s.modes.mode = .run → t.modes = { s.modes with mode := .hold }) ∧
      (s.modes.mode = .hold ∨ s.modes.mode = .waking → t.modes = s.modes) ∧ t.path.genOn = false ∧
      t.path.pass.map (·.s) = s.path.pass.map (·.s) ∧ t.job = s.job ∧ t.store = s.store ∧
      t.holder = s.holder ∧ t.thread = s.thread

/-- SLUG_PRESENT becomes inactive during a drop wait (R127, R112): the wait ends with retention DROPPED; in re-entry
the outcome is kept, and in HOLD on a last pass the stage ends, the unthread waiting for RUN. -/
def DropWaitEndsByLine (i : Slot) (c : Contour) (r : RunPass) (s : State) : Prop :=
  s.Turns .slugPresent false → s.slug.drop ≠ .idle → s.slug.dropContour = some i → s.job.current = some i →
    s.contour i = some c → s.path.pass = some r → ∃ t : State,
      exec (.lineFilterExpiry .slugPresent) s = .next t ∧
      ((c.state = .reentry ∨ c.state = .reentryWait) →
        t.contour i = some { c with retention := .dropped } ∧ t.job = { s.job with keptProceed := true } ∧
        t.slug = { s.slug with drop := .idle, dropContour := none, dropTimer := none } ∧ t.store = s.store) ∧
      ((c.state = .cutting ∨ c.state = .severing) → s.modes.mode = .hold →
        c.defn.passes.length = c.passIndex + 1 →
        t.contour i = some { c with retention := .dropped, state := .unthreading } ∧
        t.job = { s.job with lastChanged := some i, work := some .stageUnthread, due := true } ∧
        t.slug = { s.slug with drop := .idle, dropContour := none, dropTimer := none } ∧
        t.path.pass = none ∧ t.store = s.store)

end Sys2Proof.Machine

/-- R127, R128, R112: the drop wait's expiry raises SLUG_STUCK and forces HOLD with the contour left as it is;
CONFIRM_SLUG is refused unless the slot is current in SLUG_WAIT, ends the wait with retention RELEASED during
re-entry and keeps its outcome there, and in HOLD on a last pass ends the stage, the unthread waiting for RUN.
R125, R127: SLUG_PRESENT becoming inactive, as the end of its hold brings it, is an early drop while the watch is
armed and ends a drop wait. -/
def Obligations.DropWaitEndsByTimerOrConfirm : Prop :=
  (∀ (i : Slot) (c : Contour) (r : RunPass) (s : State), s.Steady →
    EarlyDropTaken i c s ∧ DropWaitEndsByLine i c r s) ∧
  ∀ (tag : Byte) (i : Slot) (s : State),
    (s.Steady → s.slug.drop = .waiting → s.slug.dropTimer.isSome = true → ∃ t : State,
      exec .dropWaitExpiry s = .next t ∧ t.slug = { s.slug with drop := .expired, dropTimer := none } ∧
      (s.modes.mode = .run → t.modes = { s.modes with mode := .hold }) ∧
      (s.modes.mode ≠ .run → t.modes = s.modes) ∧ (t.cond .slugStuck).latch =
        ((s.cond .slugStuck).latch || (s.cond .slugStuck).enable || s.params.latchDisabled) ∧
      t.contours = s.contours ∧ t.job = s.job ∧ t.store = s.store ∧ t.holder = s.holder ∧
      t.thread = s.thread) ∧
    (s.Quiet →
      (s.job.current ≠ some i ∨ (∀ r, s.path.pass = some r → r.sub ≠ .slugWait) →
        exec (.confirmSlug tag [byte i.val]) s = .next (s.replied 0x39 tag .wrongState [])) ∧
      (∀ (c : Contour) (r : RunPass), s.job.current = some i → s.contour i = some c → s.path.pass = some r →
        r.sub = .slugWait → s.slug.drop ≠ .idle → s.slug.dropContour = some i →
        (c.state = .reentry ∨ c.state = .reentryWait → exec (.confirmSlug tag [byte i.val]) s =
          .next ((((s.setContour i (some { c with retention := .released })).onSlug fun g =>
            { g with drop := .idle, dropContour := none, dropTimer := none }).onJob fun j =>
              { j with keptProceed := true }).replied 0x39 tag .ok [])) ∧
        (c.state = .cutting ∨ c.state = .severing → s.modes.mode = .hold →
          c.defn.passes.length = c.passIndex + 1 → ∃ u : State,
            exec (.confirmSlug tag [byte i.val]) s = .next (u.replied 0x39 tag .ok []) ∧
            u.contour i = some { c with retention := .released, state := .unthreading } ∧
            (∀ j, j ≠ i → u.contour j = s.contour j) ∧
            u.slug = { s.slug with drop := .idle, dropContour := none, dropTimer := none } ∧
            u.path.pass = none ∧ u.path.genOn = false ∧ u.path.commanded = s.path.commanded ∧
            u.job = { s.job with lastChanged := some i, work := some .stageUnthread, due := true } ∧
            u.modes = s.modes ∧ u.store = s.store)))

/-! ## Lines and conditions -/

/-- R150 to R152: CONFIG_LINE refuses a line, polarity or mask out of range; with mask yes it leaves the line
masked at its frozen value with polarity and filter time written; with mask no on an unmasked line of the same
polarity and no hold it writes the filter time; and a change of polarity of an unmasked DOOR_CLOSED, TANK_FULL
or AUX line flips its active value at once. A filter time above 15 is taken as 15.
The widths of its fields are the model's reading (DEDUCED, log entry 29). -/
def Obligations.ConfigLineWritesTheRecord : Prop :=
  ∀ (tag : Byte) (l : Line) (f : Byte) (s : State), s.Quiet →
    let number : Byte := byte (lineNum l).val
    let r := s.lineRec l
    let time := min 15 f.toNat
    let status : Status := if f.toNat ≤ 15 then .ok else .clamped
    let extra : List Byte := if f.toNat ≤ 15 then [] else [15]
    (∀ n pol m : Byte, 7 < n.toNat ∨ 1 < pol.toNat ∨ 1 < m.toNat →
      exec (.configLine tag [n, pol, f, m]) s = .next (s.replied 0x40 tag .badValue [])) ∧
    (∀ p : Polarity, exec (.configLine tag [number, byte p.code, f, 1]) s =
      .next ((s.setLine l { r with
        polarity := p, filter := time, mask := true
        holding := if r.mask then r.holding else false }).replied 0x40 tag status extra)) ∧
    (r.mask = false → r.holding = false → r.active = (decide (r.polarity = .activeHigh) == r.level) →
      exec (.configLine tag [number, byte r.polarity.code, f, 0]) s =
        .next ((s.setLine l { r with filter := time }).replied 0x40 tag status extra)) ∧
    (r.mask = false → r.holding = false → l ∈ [Line.doorClosed, .tankFull, .aux0, .aux1] →
      ∀ p : Polarity, r.active ≠ (decide (p = .activeHigh) == r.level) → ∃ u : State,
        exec (.configLine tag [number, byte p.code, f, 0]) s = .next (u.replied 0x40 tag status extra) ∧
        u.lineRec l = { r with polarity := p, filter := time, active := !r.active } ∧
        (∀ m, m ≠ l → u.lineRec m = s.lineRec m) ∧
        (∀ c ∈ [Cond.doorOpen, .tankLow, .axisFault, .genFault, .aux], (u.cond c).live = u.source c) ∧
        u.contours = s.contours ∧ u.job = s.job ∧ u.store = s.store ∧ u.holder = s.holder)

/-- R150, R151: a masked line only shows a new input level; an unmasked one with a filter time starts its hold,
or stops it when the input returns; the expiry of a hold makes the filtered level and the active value those of
the input, for whichever line. With a filter time of 0 the new level is taken at once.
That an expiry with no hold running changes nothing is the model's reading (DEDUCED, log entry 16). What the blocks
that read a line make of its change is stated of the blocks: WIRE_INTACT in RethreadDoneTakesUpCutting,
HOLDER_ENGAGED in ReleaseHolderOpensAHeldSlug, SLUG_PRESENT in DropWaitEndsByTimerOrConfirm, LOWER_DETECT in
ThreadTimersEndTheirSteps and PullTimeoutFaultsTheContour, and the others in FaultInputsRaiseTheirConditions. -/
def Obligations.LineFilterFollowsTheInput : Prop :=
  ∀ (l : Line) (high : Bool) (s : State), s.Steady →
    ((s.lineRec l).mask = true → exec (.lineInputChange l high) s =
      .next (s.setLine l { s.lineRec l with input := high }).arbitrate) ∧
    ((s.lineRec l).mask = false → (s.lineRec l).filter ≠ 0 → exec (.lineInputChange l high) s =
      .next (s.setLine l { s.lineRec l with
        input := high, holding := decide (high ≠ (s.lineRec l).level) }).arbitrate) ∧
    ((s.lineRec l).mask = false → (s.lineRec l).filter = 0 →
      (high = (s.lineRec l).level → exec (.lineInputChange l high) s =
        .next (s.setLine l { s.lineRec l with input := high, holding := false }).arbitrate) ∧
      (high ≠ (s.lineRec l).level → ∃ t : State, exec (.lineInputChange l high) s = .next t ∧
        t.lineRec l = { s.lineRec l with
          input := high, level := high, holding := false
          active := (decide ((s.lineRec l).polarity = .activeHigh) == high) } ∧
        ∀ m, m ≠ l → t.lineRec m = s.lineRec m)) ∧
    ((s.lineRec l).holding = true → ∃ t : State, exec (.lineFilterExpiry l) s = .next t ∧
      t.lineRec l = { s.lineRec l with
        level := (s.lineRec l).input, holding := false
        active := (decide ((s.lineRec l).polarity = .activeHigh) == (s.lineRec l).input) } ∧
      ∀ m, m ≠ l → t.lineRec m = s.lineRec m) ∧
    ((s.lineRec l).holding = false → exec (.lineFilterExpiry l) s = .next s.arbitrate)

namespace Sys2Proof.Machine

/-- The latch of a level condition that takes a live value: a rise latches it where it is enabled, or where
LatchDisabled is on; a fall latches nothing (R155, R156). -/
def State.levelLatch (s : State) (c : Cond) (live : Bool) : Bool :=
  (s.cond c).latch || (live && !(s.cond c).live && ((s.cond c).enable || s.params.latchDisabled))

/-- A change of DOOR_CLOSED or TANK_FULL (R142, R146, R153, R158): the condition is live while the line is inactive;
its rise forces HOLD from RUN, and a rise of DOOR_OPEN that latches while enabled wakes a parked cell. -/
def DoorAndTankFollowTheirLines (l : Line) (c : Cond) (v : Bool) (s : State) : Prop :=
  s.Turns l v → ∃ t : State, exec (.lineFilterExpiry l) s = .next t ∧ (t.cond c).live = !v ∧
    (t.cond c).latch = s.levelLatch c (!v) ∧
    (v = false → (s.cond c).live = false → s.modes.mode = .run →
      t.modes = { s.modes with mode := .hold } ∧ t.path.genOn = false) ∧
    (v = false → c = .doorOpen → (s.cond c).live = false → s.modes.mode = .park → (s.cond c).latch = false →
      (s.cond c).enable = true → t.modes.mode = .waking ∧ t.modes.pump = true) ∧
    t.contours = s.contours ∧ t.job = s.job ∧ t.store = s.store ∧ t.holder = s.holder ∧ t.slug = s.slug

/-- A change of an AUX line (R153): AUX is live while either line is active, and forces no hold. The clause on the
mode is about a cell whose hold-forcing conditions show what their sources say. -/
def AuxFollowsItsLines (l : Line) (v : Bool) (s : State) : Prop :=
  s.Turns l v → l = .aux0 ∨ l = .aux1 → ∃ t : State, exec (.lineFilterExpiry l) s = .next t ∧
    (t.cond .aux).live = (v || s.active (if l = .aux0 then .aux1 else .aux0)) ∧
    (t.cond .aux).latch = s.levelLatch .aux (t.cond .aux).live ∧
    ((∀ c ∈ [Cond.doorOpen, .tankLow, .axisFault, .genFault, .journalBlocked], (s.cond c).live = s.source c) →
      t.modes = s.modes) ∧
    t.contours = s.contours ∧ t.job = s.job ∧ t.store = s.store ∧ t.holder = s.holder ∧ t.slug = s.slug

end Sys2Proof.Machine

/-- R142, R146, R153, R155, R158: a fault input that becomes true makes its condition live; the rise forces HOLD
from RUN, and wakes a parked cell where it latches while enabled. One that becomes false ends the live value and
keeps the latch. DOOR_OPEN and TANK_LOW do the same as their lines become inactive and active, and AUX as its two lines
do, without a hold. -/
def Obligations.FaultInputsRaiseTheirConditions : Prop :=
  (∀ (v : Bool) (s : State), s.Steady →
    DoorAndTankFollowTheirLines .doorClosed .doorOpen v s ∧ DoorAndTankFollowTheirLines .tankFull .tankLow v s ∧
      ∀ l, AuxFollowsItsLines l v s) ∧
  ∀ (fault : Bool) (s : State), s.Steady →
    ∀ row ∈ [(Instr.axisFaultInput, Cond.axisFault), (Instr.genFaultInput, Cond.genFault)], ∃ t : State,
      exec (row.1 fault) s = .next t ∧ (t.cond row.2).live = fault ∧
      t.sensors.axisFault = (if row.2 = .axisFault then fault else s.sensors.axisFault) ∧
      t.sensors.genFault = (if row.2 = .genFault then fault else s.sensors.genFault) ∧
      t.sensors.lines = s.sensors.lines ∧
      (t.cond row.2).latch = ((s.cond row.2).latch || (fault && !(s.cond row.2).live &&
        ((s.cond row.2).enable || s.params.latchDisabled))) ∧
      (fault = true → (s.cond row.2).live = false → s.modes.mode = .run →
        t.modes = { s.modes with mode := .hold } ∧ t.path.genOn = false) ∧
      (fault = true → (s.cond row.2).live = false → s.modes.mode = .park → (s.cond row.2).latch = false →
        (s.cond row.2).enable = true → t.modes.mode = .waking ∧ t.modes.pump = true) ∧
      t.contours = s.contours ∧ t.job = s.job ∧ t.store = s.store ∧ t.holder = s.holder ∧ t.slug = s.slug

namespace Sys2Proof.Machine

/-- The group of a condition is not valid (R154): Gap while the generator is off, Path while no contour is current,
Thread while the threading unit is IDLE. -/
def State.OutOfForce (s : State) (c : Cond) : Prop :=
  (c ∈ [Cond.shortRetract, .retraceExhausted, .gapOpen] ∧ s.path.genOn = false) ∨
  (c ∈ [Cond.chainLow, .chainStarved, .wireBreak, .breakLimit, .discontinuous] ∧ s.job.current = none) ∨
  (c ∈ [Cond.threadRetry, .threadFailed, .ingapFailed] ∧ s.thread = none)

end Sys2Proof.Machine

/-- R156, R157, R146: a latching sets a clear latch where the condition is enabled, with its place in the pending
set, or where LatchDisabled is on, without one; a set latch absorbs it; an enabled one with the wake attribute
wakes a parked cell; and no other condition changes.
R154: an event of a group that is not valid has no effect and any other latches; the level conditions of the Path
group are not live while it is not valid, nor GAP_OPEN once the generator goes off, and their latches are kept. -/
def Obligations.LatchingFollowsItsTable : Prop :=
  ∀ (c : Cond) (s : State),
    let r := s.cond c
    (s.OutOfForce c → s.raise c = s) ∧ (¬ s.OutOfForce c → s.raise c = s.latch c) ∧
    (s.job.current = none → (c = .chainLow ∨ c = .chainStarved) →
      (s.refreshLevels.cond c).live = false ∧ (s.refreshLevels.cond c).latch = r.latch) ∧
    ((s.genOff.cond .gapOpen).live = false ∧ (s.genOff.cond c).latch = r.latch) ∧
    ((s.latch c).cond c = if r.latch = true then r
      else if r.enable = true then { r with latch := true, pending := true }
      else if s.params.latchDisabled = true then { r with latch := true } else r) ∧
    (∀ d, d ≠ c → (s.latch c).cond d = s.cond d) ∧
    ((s.latch c).modes = if r.latch = false ∧ r.enable = true ∧ s.modes.mode = .park ∧
        c ∈ [Cond.slugChange, .holderLost, .doorOpen, .genFault, .axisFault] then
      { s.modes with mode := .waking, pump := true, settle := some s.params.wakeSettle } else s.modes) ∧
    s.latch c = { s with conds := (s.latch c).conds, modes := (s.latch c).modes }

/-- R159 to R161, R180, R181: ENABLE_CONDITIONS writes the enable set whole, CLEAR_CONDITIONS clears the latches
named, each refusing a bit at 28 or above; QUERY_CONDITIONS reports the unit and changes nothing. -/
def Obligations.ConditionSetsAreWrittenAndReported : Prop :=
  ∀ (tag : Byte) (set : Nat) (s : State), s.Quiet → set < 2 ^ 32 →
    (2 ^ 28 ≤ set →
      exec (.enableConditions tag (leBytes 4 set)) s = .next (s.replied 0x41 tag .badValue []) ∧
      exec (.clearConditions tag (leBytes 4 set)) s = .next (s.replied 0x42 tag .badValue [])) ∧
    (set < 2 ^ 28 →
      (∃ u : State, exec (.enableConditions tag (leBytes 4 set)) s = .next (u.replied 0x41 tag .ok []) ∧
        u = { s with conds := u.conds } ∧ ∀ c,
          let r := s.cond c
          u.cond c = if set.testBit c.num.val = r.enable then r
            else if set.testBit c.num.val = true then
              { r with enable := true, pending := r.pending || (r.latch && !r.noticed) }
            else { r with enable := false, pending := false }) ∧
      (∃ u : State, exec (.clearConditions tag (leBytes 4 set)) s = .next (u.replied 0x42 tag .ok []) ∧
        u = { s with conds := u.conds } ∧ ∀ c,
          u.cond c = if set.testBit c.num.val = true then
            { s.cond c with latch := false, noticed := false, pending := false } else s.cond c)) ∧
    exec (.queryConditions tag []) s = .next (s.replied 0x43 tag .ok
      (leBytes 4 (s.condBits (·.live)) ++ leBytes 4 (s.condBits (·.latch)) ++ leBytes 4 (s.condBits (·.enable)) ++
        leBytes 4 (s.condBits (·.noticed)) ++ leBytes 4 (s.condBits (·.pending)) ++
        [boolByte s.params.latchDisabled] ++
        s.sensors.lines.toList.flatMap (fun r => [byte r.polarity.code, byte r.filter, boolByte r.mask]) ++
        [byte (s.lineBits (·.active)), byte (s.lineBits (·.input))]))

/-! ## Journal -/

namespace Sys2Proof.Machine

/-- An offer that fills slot 127 of the active page rolls the journal (R166): a next page that is blank, with no erase
of it due, becomes active under the next page sequence and the page after it goes to the end of the erase list; else
the roll waits for it. -/
def OfferRolls (r : JRecord) (p n : Nat) (s : State) : Prop :=
  let j := (s.offer r).journal
  let next := (p + 1) % 4
  let list := s.journal.eraseList ++ [(next + 1) % 4]
  s.JournalForm → s.journal.active = some p → s.journal.nextSeq = some n → n < 4294967295 →
    s.journal.nextSlot = 127 → s.journal.queue = [] →
    slotBytes j.mem p 127 = recordBytes n r ∧ j.nextSeq = some (n + 1) ∧ j.queue = [] ∧ j.blocked = false ∧
    ((pageBlank s.journal.mem next = true ∧ s.journal.erasing ≠ some next ∧ next ∉ s.journal.eraseList) →
      j.active = some next ∧ j.nextSlot = 1 ∧ slotBytes j.mem next 0 = headerBytes s.journal.nextPageSeq ∧
      (s.journal.nextPageSeq < 4294967295 → j.nextPageSeq = s.journal.nextPageSeq + 1) ∧
      (s.journal.erasing = none → j.erasing = list.head? ∧ j.eraseList = list.tail) ∧
      (s.journal.erasing ≠ none → j.erasing = s.journal.erasing ∧ j.eraseList = list)) ∧
    (¬ (pageBlank s.journal.mem next = true ∧ s.journal.erasing ≠ some next ∧ next ∉ s.journal.eraseList) →
      j.active = none ∧ j.waitRoll = some next ∧ j.erasing = s.journal.erasing ∧
      j.eraseList = s.journal.eraseList)

/-- An offer that cannot be written (R167): it takes the place of the newest queued POSITION record of its contour and
pass, joins a queue of fewer than eight, or is discarded, JOURNAL_BLOCKED then being live and HOLD forced from RUN. -/
def OfferWaits (r : JRecord) (s : State) : Prop :=
  let t := s.offer r
  let same (q : JRecord) : Prop := r.kind = .position ∧ q.kind = .position ∧ q.slot = r.slot ∧ q.pass = r.pass
  (s.journal.active = none ∨ 127 < s.journal.nextSlot ∨ s.journal.nextSeq = none ∨ s.journal.queue ≠ []) →
    (∀ before q after, s.journal.queue = before ++ q :: after → same q → (∀ x ∈ after, ¬ same x) →
      t.journal = { s.journal with queue := before ++ after ++ [r] }) ∧
    ((∀ q ∈ s.journal.queue, ¬ same q) → s.journal.queue.length < 8 →
      t.journal = { s.journal with queue := s.journal.queue ++ [r] }) ∧
    ((∀ q ∈ s.journal.queue, ¬ same q) → 8 ≤ s.journal.queue.length →
      t.journal = { s.journal with blocked := true } ∧ (t.cond .journalBlocked).live = true ∧
      ((s.cond .journalBlocked).live = false → s.modes.mode = .run →
        t.modes = { s.modes with mode := .hold } ∧ t.path.genOn = false)) ∧
    t.contours = s.contours ∧ t.job = s.job ∧ t.store = s.store

end Sys2Proof.Machine

/-- R165: an offer that can be written goes into the next slot of the active page with the next sequence, as the
twenty bytes of R182; every other byte of the storage, and the rest of the append state, stay. The offer that fills the
page rolls the journal (R166; a next page that is blank but still due for erase is waited for: DEDUCED, log entry 22),
and one that cannot be written waits in the pending queue or is discarded (R167). -/
def Obligations.OfferIsWrittenInTheNextSlot : Prop :=
  (∀ (r : JRecord) (p n : Nat) (s : State), OfferRolls r p n s) ∧ (∀ (r : JRecord) (s : State), OfferWaits r s) ∧
  ∀ (s : State) (r : JRecord) (p n : Nat), s.JournalForm → s.journal.active = some p →
    s.journal.nextSeq = some n → n < 4294967295 → s.journal.nextSlot < 127 → s.journal.queue = [] →
    s.journal.blocked = false →
    let j := (s.offer r).journal
    j.nextSlot = s.journal.nextSlot + 1 ∧ j.nextSeq = some (n + 1) ∧ j.active = some p ∧ j.queue = [] ∧
    slotBytes j.mem p s.journal.nextSlot = recordBytes n r ∧
    (∀ a, (a < slotAddr p s.journal.nextSlot ∨ slotAddr p s.journal.nextSlot + 20 ≤ a) →
      memRead j.mem a = memRead s.journal.mem a) ∧
    j.erasing = s.journal.erasing ∧ j.eraseList = s.journal.eraseList ∧ j.nextPageSeq = s.journal.nextPageSeq

namespace Sys2Proof.Machine

/-- A record that the summary is drawn from: a valid one of a page neither erasing nor on the erase list (R169). -/
def State.Kept (s : State) (bs : List Byte) : Prop :=
  ∃ p < 4, s.journal.erasing ≠ some p ∧ p ∉ s.journal.eraseList ∧
    ∃ n < 128, 1 ≤ n ∧ bs = slotBytes s.journal.mem p n ∧ recordValid bs = true

/-- The newest record with a property, the one of the highest sequence, or an absent one where there is none. -/
def State.NewestIs (s : State) (f : List Byte → Prop) (bs : List Byte) : Prop :=
  (s.Kept bs ∧ f bs ∧ ∀ cs, s.Kept cs → f cs → slotSeq cs ≤ slotSeq bs) ∨
  (bs = List.replicate 20 0xFF ∧ ∀ cs, s.Kept cs → ¬ f cs)

/-- The lowest and the highest sequence of the records, or absent where there is none. -/
def State.SpanIs (s : State) (span : List Byte) : Prop :=
  (∃ lo hi, span = leBytes 4 lo ++ leBytes 4 hi ∧ (∃ bs, s.Kept bs ∧ slotSeq bs = lo) ∧
    (∃ bs, s.Kept bs ∧ slotSeq bs = hi) ∧ ∀ bs, s.Kept bs → lo ≤ slotSeq bs ∧ slotSeq bs ≤ hi) ∨
  (span = List.replicate 8 0xFF ∧ ∀ bs, ¬ s.Kept bs)

end Sys2Proof.Machine

/-- R169, R170, R182: JOURNAL_READ refuses ranges beyond its limits and a page that is erasing, and otherwise
reports each slot's type and its bytes as stored; JOURNAL_SUMMARY refuses ranges beyond its limits and otherwise
reports the newest record of each kind, the newest STATE record of each slot of the range, the sequence span, the
queue and the erases; neither changes anything.
An absent record is twenty bytes of all ones, an absent span eight (DEDUCED, log entry 30). -/
def Obligations.JournalRequestsReadAndChangeNothing : Prop :=
  ∀ (tag page first count : Byte) (s : State), s.Quiet →
    let read := Instr.journalRead tag [page, first, count]
    let summary := Instr.journalSummary tag [first, count]
    let beyond := 3 < page.toNat ∨ 127 < first.toNat ∨ count = 0 ∨ 8 < count.toNat ∨
      128 < first.toNat + count.toNat
    (beyond → exec read s = .next (s.replied 0x51 tag .badValue [])) ∧
    (¬ beyond → s.journal.erasing = some page.toNat → exec read s = .next (s.replied 0x51 tag .wrongState [])) ∧
    (¬ beyond → s.journal.erasing ≠ some page.toNat → exec read s = .next (s.replied 0x51 tag .ok
      ((List.range count.toNat).flatMap fun n =>
        let bytes := slotBytes s.journal.mem page.toNat (first.toNat + n)
        (if slotBlank s.journal.mem page.toNat (first.toNat + n) = true then 0
          else if first.toNat + n = 0 then (if headerValid bytes = true then 1 else 3)
          else if recordValid bytes = true then 2 else 3) :: bytes))) ∧
    (63 < first.toNat ∨ 6 < count.toNat ∨ 64 < first.toNat + count.toNat →
      exec summary s = .next (s.replied 0x50 tag .badValue [])) ∧
    (first.toNat ≤ 63 → count.toNat ≤ 6 → first.toNat + count.toNat ≤ 64 →
      ∃ (state position job span : List Byte) (slots : List (List Byte)),
        exec summary s = .next (s.replied 0x50 tag .ok (state ++ position ++ job ++ slots.flatten ++ span ++
          [byte s.journal.queue.length, boolByte s.journal.erasing.isSome, byte s.journal.eraseList.length])) ∧
        s.NewestIs (fun bs => u8 bs 4 = 0) state ∧ s.NewestIs (fun bs => u8 bs 4 = 1) position ∧
        s.NewestIs (fun bs => u8 bs 4 = 2) job ∧ slots.length = count.toNat ∧
        (∀ n bs, slots[n]? = some bs →
          s.NewestIs (fun cs => u8 cs 4 = 0 ∧ u8 cs 5 = first.toNat + n) bs) ∧ s.SpanIs span)

namespace Sys2Proof.Machine

/-- The end of an erase of page `p`, whatever waits: the page is blank, no other page's bytes change, and contours and
job stay. -/
def PageErased (p : Nat) (s t : State) : Prop :=
  (∀ a, (a < slotAddr p 0 ∨ slotAddr p 0 + 2560 ≤ a) → memRead t.journal.mem a = memRead s.journal.mem a) ∧
  pageBlank t.journal.mem p = true ∧ t.contours = s.contours ∧ t.job = s.job

/-- The end of an erase while JOURNAL_ERASE still has pages listed (R171): the next listed page begins to be erased,
and no page is active. -/
def EraseGoesOn (p : Nat) (s : State) : Prop :=
  s.journal.erasingAll = true → s.journal.eraseList ≠ [] → ∃ t : State,
    exec .journalEraseComplete s = .next t ∧ PageErased p s t ∧
    t.journal.erasing = s.journal.eraseList.head? ∧ t.journal.eraseList = s.journal.eraseList.tail ∧
    t.journal.erasingAll = true ∧ t.journal.active = none ∧ t.journal.queue = s.journal.queue ∧
    t.journal.nextSeq = s.journal.nextSeq

/-- The end of the erase that a roll waited for (R166): the page becomes active with the next page sequence, and the
page after it goes to the end of the erase list; a page that is listed once more is waited for again. -/
def EraseMakesTheRoll (p : Nat) (s : State) : Prop :=
  let list := s.journal.eraseList ++ [(p + 1) % 4]
  s.journal.erasingAll = false → s.journal.waitRoll = some p →
    (p ∉ s.journal.eraseList → s.journal.queue = [] → ∃ t : State,
      exec .journalEraseComplete s = .next t ∧ t.journal.active = some p ∧ t.journal.nextSlot = 1 ∧
      t.journal.waitRoll = none ∧ slotBytes t.journal.mem p 0 = headerBytes s.journal.nextPageSeq ∧
      (∀ n < 128, 1 ≤ n → slotBlank t.journal.mem p n = true) ∧
      (s.journal.nextPageSeq < 4294967295 → t.journal.nextPageSeq = s.journal.nextPageSeq + 1) ∧
      t.journal.erasing = list.head? ∧ t.journal.eraseList = list.tail ∧ t.contours = s.contours ∧ t.job = s.job) ∧
    (p ∈ s.journal.eraseList → ∃ t : State,
      exec .journalEraseComplete s = .next t ∧ PageErased p s t ∧ t.journal.active = none ∧
      t.journal.waitRoll = some p ∧ t.journal.erasing = s.journal.eraseList.head? ∧
      t.journal.eraseList = s.journal.eraseList.tail)

end Sys2Proof.Machine

/-- R166, R171: JOURNAL_ERASE is refused while a job is under way or another is in progress, and otherwise
answers ACCEPTED with no active page and the four pages listed; the end of an erase leaves its page blank and
every other page as it was where no roll waits, and makes a roll that waited, once no further erase of its page is
listed (DEDUCED, log entry 22); while JOURNAL_ERASE has pages listed the next one follows, and the end of the last one
makes page 0 active with page sequence 1 and the next sequence 1, and makes PROGRESS pending. -/
def Obligations.JournalEraseRunsToPageZero : Prop :=
  ∀ (tag : Byte) (s : State) (p : Nat),
    (s.Quiet →
      ((s.job.state = .stageA ∨ s.job.state = .stageB ∨ s.job.state = .severWait) ∨ s.journal.erasingAll = true →
        exec (.journalErase tag []) s = .next (s.replied 0x52 tag .wrongState [])) ∧
      ((s.job.state = .idle ∨ s.job.state = .complete ∨ s.job.state = .aborted) → s.journal.erasingAll = false →
        exec (.journalErase tag []) s = .next ((s.onJournal fun j => { j with
          active := none, waitRoll := none, waitFirst := false, erasingAll := true
          erasing := if j.erasing = none then some 0 else j.erasing
          eraseList := if j.erasing = none then [1, 2, 3] else [0, 1, 2, 3] }).replied 0x52 tag .accepted []))) ∧
    (s.Steady → s.JournalForm → s.journal.erasing = some p → EraseGoesOn p s ∧ EraseMakesTheRoll p s ∧
      (s.journal.erasingAll = false → s.journal.waitRoll = none → s.journal.waitFirst = false → ∃ t : State,
        exec .journalEraseComplete s = .next t ∧ pageBlank t.journal.mem p = true ∧
        (∀ a, (a < slotAddr p 0 ∨ slotAddr p 0 + 2560 ≤ a) →
          memRead t.journal.mem a = memRead s.journal.mem a) ∧
        t.journal.erasing = s.journal.eraseList.head? ∧ t.journal.eraseList = s.journal.eraseList.tail ∧
        t.journal.active = s.journal.active ∧ t.contours = s.contours ∧ t.job = s.job) ∧
      (s.journal.erasingAll = true → s.journal.eraseList = [] → s.journal.queue = [] → ∃ t : State,
        exec .journalEraseComplete s = .next t ∧ t.journal.active = some 0 ∧ t.journal.nextSlot = 1 ∧
        t.journal.nextSeq = some 1 ∧ t.journal.nextPageSeq = 2 ∧ t.journal.erasing = none ∧
        t.journal.erasingAll = false ∧ slotBytes t.journal.mem 0 0 = headerBytes 1 ∧
        (t.link.progressPending = true ∨ ∃ f, t.link.sending = some ⟨.progress, f⟩) ∧
        t.contours = s.contours ∧ t.job = s.job))

/-- R163, R165, R166: the journal's storage stays in its one canonical form within its pages, pages and slots
stay within their ranges, the active page is never one that is erasing or listed, and no page is due more than one
erase, or two for the page after the active one, one that a roll waits for and while JOURNAL_ERASE runs (log entry 22);
every step keeps that. -/
def Obligations.JournalFormIsKept : Prop :=
  ∀ s t : State, s.JournalForm → step s = .next t → t.JournalForm

/-! ## Motion -/

/-- R54: a gap sample is ignored, and changes nothing, unless the mode is RUN, the current contour CUTTING or
SEVERING, its pass MOVING with s on a CUT segment, the generator on, N above 0 and S + O not above N. -/
def Obligations.IgnoredSamplesChangeNothing : Prop :=
  ∀ (voltage pulses shorts opens : Nat) (s : State), s.Steady →
    (s.modes.mode ≠ .run ∨ s.path.genOn = false ∨ s.path.pass = none ∨
      (∀ r, s.path.pass = some r → r.sub ≠ .moving) ∨
      (∀ r k, s.path.pass = some r → s.chain r.chain = some k → k.modeAt r.s ≠ some .cut) ∨
      (∀ i c, s.job.current = some i → s.contour i = some c → c.state ≠ .cutting ∧ c.state ≠ .severing) ∨
      pulses = 0 ∨ pulses < shorts + opens) →
    exec (.gapSample voltage pulses shorts opens) s = .next s.arbitrate

namespace Sys2Proof.Machine

/-- The signed step of a sample (R55): minus RetractStep for a short one; FeedMax for an open one and e × Gain / 64 for
any other, scaled by Override when above 0, clamped into −RetractStep…FeedMax. -/
def stepOf (q : PassRec) (override voltage pulses shorts opens : Nat) : Int :=
  let raw : Int := if opens = pulses then q.feedMax else (((voltage : Int) - q.vset) * q.gain).tdiv 64
  let adjusted : Int := if 0 < raw then (raw * override).tdiv 100 else raw
  if q.shortLimit ≤ shorts then -(q.retractStep : Int)
  else max (-(q.retractStep : Int)) (min (q.feedMax : Int) adjusted)

/-- The floor of a taken sample (R57). -/
def State.floorNow (s : State) (c : Contour) (r : RunPass) : Nat :=
  max (c.front - s.params.retraceDepth) (r.cutRunStart.getD 0)

/-- The servo takes samples (R54): RUN, CUTTING or SEVERING, MOVING on a CUT segment, the generator on. -/
def State.Servo (s : State) (i : Slot) (c : Contour) (q : PassRec) (r : RunPass) (k : Chain) : Prop :=
  s.OnPass i c q r k ∧ s.modes.mode = .run ∧ s.path.genOn = true ∧ (c.state = .cutting ∨ c.state = .severing) ∧
    r.sub = .moving ∧ k.modeAt r.s = some .cut

/-- A taken sample carries s to the stop point, short of the STUCK fault (R57). -/
def State.Arrives (s : State) (i : Slot) (c : Contour) (q : PassRec) (r : RunPass) (k : Chain)
    (voltage pulses shorts opens : Nat) : Prop :=
  s.Servo i c q r k ∧ 0 < pulses ∧ shorts + opens ≤ pulses ∧ r.stuckCount + 1 < s.params.stuckSamples ∧
    r.s < r.stopPoint ∧ (r.stopPoint : Int) ≤ r.s + stepOf q s.params.override voltage pulses shorts opens

/-- s stands at the stop point of the pass, the front raised to it and the commanded position its point (R57). -/
def StandsAtStop (i : Slot) (c : Contour) (r : RunPass) (k : Chain) (t : State) : Prop :=
  t.path.pass.map (·.s) = some r.stopPoint ∧ t.contour i = some { c with front := max c.front r.stopPoint } ∧
    t.path.commanded = k.point r.stopPoint

/-- A sample that arrives at the open-chain limit starves the pass (R52, R53). -/
def ArrivalStarves (i : Slot) (c : Contour) (q : PassRec) (r : RunPass) (k : Chain)
    (voltage pulses shorts opens : Nat) (s : State) : Prop :=
  s.Arrives i c q r k voltage pulses shorts opens → k.Formed → k.state = .opened →
    k.loaded - c.defn.reserve c.passIndex ≤ r.stopPoint → ∃ t : State,
      exec (.gapSample voltage pulses shorts opens) s = .next t ∧ StandsAtStop i c r k t ∧
      t.path.pass.map (·.sub) = some .starved ∧ t.path.genOn = false ∧ (t.cond .chainStarved).live = true ∧
      t.store = s.store ∧ t.holder = s.holder

/-- A sample that arrives at the engage point waits for the holder, and a holder that is FREE begins to engage (R52,
R130, R131). -/
def ArrivalEngages (i : Slot) (c : Contour) (q : PassRec) (r : RunPass) (k : Chain)
    (voltage pulses shorts opens : Nat) (s : State) : Prop :=
  s.Arrives i c q r k voltage pulses shorts opens → k.Formed → k.state = .closed → c.defn.method = .holder →
    c.passIndex = c.defn.closingPass → r.stopPoint = k.loaded - c.defn.engage.getD 0 → s.holder.state = .free →
    s.active .holderEngaged = false → ∃ t : State,
      exec (.gapSample voltage pulses shorts opens) s = .next t ∧ StandsAtStop i c r k t ∧
      t.path.pass.map (·.sub) = some .waitHolder ∧ t.path.genOn = false ∧
      t.holder = { s.holder with
        state := .engaging, claimant := some i, output := true, timer := some s.params.holderTimeout
        request := none } ∧
      t.store = s.store

/-- A sample that arrives at the boundary to a DRY segment hands the pass over to dry motion (R52). -/
def ArrivalGoesDry (i : Slot) (c : Contour) (q : PassRec) (r : RunPass) (k : Chain)
    (voltage pulses shorts opens : Nat) (s : State) : Prop :=
  s.Arrives i c q r k voltage pulses shorts opens → k.state = .closed → c.defn.method = .drop →
    r.stopPoint < c.defn.passEnd c.passIndex k.loaded → k.modeAt r.stopPoint = some .dry → ∃ t : State,
      exec (.gapSample voltage pulses shorts opens) s = .next t ∧ StandsAtStop i c r k t ∧
      t.path.pass.map (·.cutRunStart) = some none ∧ t.path.genOn = false ∧ t.store = s.store ∧ t.holder = s.holder

/-- A sample that arrives at a tack boundary changes the setting while the generator stays on (R52, R60). -/
def ArrivalTakesTackBoundary (i : Slot) (c : Contour) (q : PassRec) (r : RunPass) (k : Chain)
    (voltage pulses shorts opens : Nat) (s : State) : Prop :=
  let inTack := ∃ b ∈ c.defn.tacks.getD [], b.start ≤ r.stopPoint ∧ r.stopPoint < b.start + b.length
  s.Arrives i c q r k voltage pulses shorts opens → k.state = .closed → c.defn.method = .tack → c.passIndex = 0 →
    (∃ b ∈ c.defn.tacks.getD [], b.start = r.stopPoint ∨ b.start + b.length = r.stopPoint) →
    r.stopPoint < c.defn.passEnd c.passIndex k.loaded → k.SoundCut → s.NoHoldCause → s.JournalRoom →
    s.active .wireIntact = true → r.cutRunStart.isSome = true → ∃ t : State,
      exec (.gapSample voltage pulses shorts opens) s = .next t ∧ StandsAtStop i c r k t ∧
      t.path.pass.map (·.sub) = some .moving ∧ t.path.genOn = true ∧
      (inTack → t.path.genSetting = s.params.tackSetting) ∧ (¬ inTack → t.path.genSetting = q.setting)

/-- A short sample taken at the floor that brings the stuck count to StuckSamples (R59, R88): the contour becomes
FAULTED with STUCK, CONTOUR_FAULT is raised and HOLD forced, and the commanded position stays at point(s). -/
def SampleSticks (i : Slot) (c : Contour) (q : PassRec) (r : RunPass) (k : Chain)
    (voltage pulses shorts opens : Nat) (s : State) : Prop :=
  s.Servo i c q r k → 0 < pulses → shorts + opens ≤ pulses → q.shortLimit ≤ shorts →
    r.s = s.floorNow c r → r.s < r.stopPoint → s.params.stuckSamples ≤ min 65535 (r.stuckCount + 1) →
    s.NoneWaiting → s.NoHoldCause → s.JournalRoom → ∃ t : State,
      exec (.gapSample voltage pulses shorts opens) s = .next t ∧
      t.contour i = some { c with front := max c.front r.s, state := .faulted, fault := some .stuck } ∧
      (∀ j, j ≠ i → t.contour j = s.contour j) ∧ t.path.pass = none ∧ t.path.genOn = false ∧
      t.path.commanded = k.point r.s ∧ (t.cond .contourFault).latch = s.raisedLatch .contourFault ∧
      t.modes.mode = .hold ∧ t.job.current = none ∧ t.store = s.store

end Sys2Proof.Machine

/-- R55, R57: a taken sample moves s by its step, held at the floor, where that stays short of the stop point
and of the STUCK fault; the front becomes the larger of the front and s, and the commanded position point(s). A clamp
at the floor raises RETRACE_EXHAUSTED once an episode (R58), and a short sample SHORT_RETRACT. A sample that arrives at
the stop point has the events of R52, and one that completes StuckSamples short ones at the floor the fault of R59.
The chain is as its loads have formed it (Chain.Formed), which StoreCreditsAreKept says of every step. -/
def Obligations.TakenSampleMovesWithinFloorAndStop : Prop :=
  ∀ (voltage pulses shorts opens : Nat) (i : Slot) (c : Contour) (q : PassRec) (r : RunPass) (k : Chain)
    (s : State), s.Steady →
    (ArrivalStarves i c q r k voltage pulses shorts opens s ∧ ArrivalEngages i c q r k voltage pulses shorts opens s ∧
      ArrivalGoesDry i c q r k voltage pulses shorts opens s ∧
      ArrivalTakesTackBoundary i c q r k voltage pulses shorts opens s ∧
      SampleSticks i c q r k voltage pulses shorts opens s) ∧
    (s.Servo i c q r k → 0 < pulses → shorts + opens ≤ pulses → r.stuckCount + 1 < s.params.stuckSamples →
      let forward : Int := stepOf q s.params.override voltage pulses shorts opens
      let floor : Nat := s.floorNow c r
      (r.s : Int) + forward < r.stopPoint →
      let pos : Nat := if (r.s : Int) + forward < floor then floor else ((r.s : Int) + forward).toNat
      let clamped : Bool := decide ((r.s : Int) + forward < floor)
      ∃ t : State, exec (.gapSample voltage pulses shorts opens) s = .next t ∧
        t.path.pass.map (·.s) = some pos ∧ t.contour i = some { c with front := max c.front pos } ∧
        t.path.pass.map (·.floorReported) = some (clamped || (r.floorReported && decide (pos ≤ floor))) ∧
        (t.cond .retraceExhausted).latch = (if clamped && !r.floorReported then s.raisedLatch .retraceExhausted
          else (s.cond .retraceExhausted).latch) ∧
        (t.cond .shortRetract).latch = (if q.shortLimit ≤ shorts then s.raisedLatch .shortRetract
          else (s.cond .shortRetract).latch) ∧
        (∀ j, j ≠ i → t.contour j = s.contour j) ∧ t.path.commanded = k.point pos ∧
        t.job = s.job ∧ t.store = s.store ∧ t.thread = s.thread ∧ t.holder = s.holder ∧ t.slug = s.slug ∧
        t.params = s.params)

namespace Sys2Proof.Machine

/-- Dry motion is due at a drive update (R62, R63). -/
def State.Dry (s : State) (i : Slot) (c : Contour) (q : PassRec) (r : RunPass) (k : Chain) : Prop :=
  s.OnPass i c q r k ∧ s.modes.mode = .run ∧ s.path.rapid = none ∧ s.job.work ≠ some .approach ∧
    (c.state = .cutting ∨ c.state = .severing) ∧ r.sub = .moving ∧ k.modeAt r.s = some .dry

/-- A dry step short of the stop point advances s by DryStep (R63). -/
def DryStepAdvances (i : Slot) (c : Contour) (q : PassRec) (r : RunPass) (k : Chain) (s : State) : Prop :=
  let pos := r.s + s.params.dryStep
  s.Dry i c q r k → pos < r.stopPoint → ∃ t : State, exec .driveUpdate s = .next t ∧
    t.path.pass.map (·.s) = some pos ∧ t.contour i = some { c with front := max c.front pos } ∧
    (∀ j, j ≠ i → t.contour j = s.contour j) ∧ t.path.commanded = k.point pos ∧ t.path.supplied = k.point pos ∧
    t.job = s.job ∧ t.store = s.store ∧ t.thread = s.thread ∧ t.holder = s.holder ∧ t.slug = s.slug ∧
    t.params = s.params

/-- A dry step that reaches the boundary to a CUT segment hands the pass back to the gap servo, with the cut run start
set to it and the generator on while WIRE_INTACT reads active (R52, R60, R63). -/
def DryStepReachesCut (i : Slot) (c : Contour) (q : PassRec) (r : RunPass) (k : Chain) (s : State) : Prop :=
  s.Dry i c q r k → k.Formed → r.s < r.stopPoint → r.stopPoint ≤ r.s + s.params.dryStep → r.cutRunStart = none →
    k.state = .closed → c.defn.method = .drop → r.stopPoint < c.defn.passEnd c.passIndex k.loaded →
    k.modeAt r.stopPoint = some .cut → s.NoHoldCause → s.JournalRoom → ∃ t : State,
      exec .driveUpdate s = .next t ∧ StandsAtStop i c r k t ∧ t.path.supplied = k.point r.stopPoint ∧
      t.path.pass.map (·.cutRunStart) = some (some r.stopPoint) ∧ t.path.pass.map (·.sub) = some .moving ∧
      t.path.genOn = s.active .wireIntact

/-- A dry re-approach is in progress (R64). -/
def State.Approaches (s : State) (i : Slot) (c : Contour) (q : PassRec) (r : RunPass) (k : Chain) (a : Nat) : Prop :=
  s.OnPass i c q r k ∧ s.modes.mode = .run ∧ s.path.rapid = none ∧ s.job.work = some .approach ∧
    r.approach = some a

/-- An approach step short of s advances the approach position and nothing else (R64). -/
def ApproachStepAdvances (i : Slot) (c : Contour) (q : PassRec) (r : RunPass) (k : Chain) (a : Nat) (s : State) :
    Prop :=
  let b := a + s.params.dryStep
  s.Approaches i c q r k a → b < r.s → exec .driveUpdate s = .next (s.onPath fun p => { p with
    pass := some { r with approach := some b }, commanded := k.point b, supplied := k.point b }).arbitrate

/-- Cutting is taken up at s in RUN (R117): the contour is CUTTING, or SEVERING on the SEVER pass, the pass MOVING towards
its end, and the generator on while WIRE_INTACT reads active. -/
def CutTakenUp (i : Slot) (c : Contour) (q : PassRec) (r : RunPass) (k : Chain) (s t : State) : Prop :=
  t.contour i = some { c with state := if q.role = .sever then .severing else .cutting } ∧
  (∃ v, t.path.pass = some v ∧ v.s = r.s ∧ v.approach = none ∧ v.sub = .moving ∧ v.floorReported = false ∧
    v.stopPoint = c.defn.passEnd c.passIndex k.loaded) ∧
  t.path.commanded = k.point r.s ∧ t.path.genOn = s.active .wireIntact ∧ t.job.work = none ∧ t.store = s.store

/-- The approach step that reaches s takes up cutting there (R64, R116, R117). -/
def ApproachEndsInCutting (i : Slot) (c : Contour) (q : PassRec) (r : RunPass) (k : Chain) (a : Nat) (s : State) :
    Prop :=
  s.Approaches i c q r k a → a ≤ r.s → r.s ≤ a + s.params.dryStep → c.state = .reentry → s.job.resume = none →
    c.defn.method = .drop → k.state = .closed → k.SoundCut → k.segs ≠ [] →
    r.s < c.defn.passEnd c.passIndex k.loaded → (r.sub = .moving ∨ r.sub = .paused ∨ r.sub = .starved) →
    s.NoHoldCause → s.JournalRoom → ∃ t : State, exec .driveUpdate s = .next t ∧
      CutTakenUp i c q r k s t ∧ t.path.supplied = k.point r.s

/-- The last step of a rapid move reaches its target exactly, and the unit that ordered it goes on (R65): the threading
unit's search move leads to TIP_CUT with its timer (R98). -/
def RapidMoveEnds (m : Rapid) (t : Threading) (s : State) : Prop :=
  s.modes.mode = .run → s.path.rapid = some m → m.done ≤ m.length → m.length ≤ m.done + s.params.rapidStep →
    m.owner = .search → s.thread = some t → exec .driveUpdate s =
      .next ((s.onPath fun p => { p with rapid := none, commanded := m.target, supplied := m.target }).withThread
        (some { t with step := .tipCut, timer := some s.params.tipTime, held := false })).arbitrate

end Sys2Proof.Machine

/-- R62, R65: outside RUN a drive update supplies the commanded position unchanged; in RUN a rapid move that is
not at its last step advances by RapidStep along its line, and the position it reaches is supplied. Its last step
reaches the target; a dry step (R63) and an approach step (R64) move s and the approach position in the same way.
What is supplied is read after the step (DEDUCED, log entry 32). -/
def Obligations.DriveUpdateSuppliesThePosition : Prop :=
  (∀ (i : Slot) (c : Contour) (q : PassRec) (r : RunPass) (k : Chain) (s : State), s.Steady →
    DryStepAdvances i c q r k s ∧ DryStepReachesCut i c q r k s ∧
      ∀ a, ApproachStepAdvances i c q r k a s ∧ ApproachEndsInCutting i c q r k a s) ∧
  (∀ (m : Rapid) (t : Threading) (s : State), s.Steady → RapidMoveEnds m t s) ∧
  ∀ s : State, s.Steady →
    (s.modes.mode ≠ .run → exec .driveUpdate s =
      .next (s.onPath fun p => { p with supplied := p.commanded }).arbitrate) ∧
    (∀ m, s.modes.mode = .run → s.path.rapid = some m → m.done + s.params.rapidStep < m.length →
      exec .driveUpdate s = .next (s.onPath fun p => { p with
        rapid := some { m with done := m.done + s.params.rapidStep }
        commanded := linePoint m.origin m.target m.length (m.done + s.params.rapidStep)
        supplied := linePoint m.origin m.target m.length (m.done + s.params.rapidStep) }).arbitrate) ∧
    (∀ r, s.modes.mode = .run → s.path.rapid = none → s.job.work ≠ some .approach → s.path.pass = some r →
      r.sub ≠ .moving → exec .driveUpdate s =
        .next (s.onPath fun p => { p with supplied := p.commanded }).arbitrate)

/-! ## Threading -/

namespace Sys2Proof.Machine

/-- The expiry rows of the threading unit, each with the step whose timer it ends (R99 to R101, R104). -/
def threadTimers : List (Instr × ThreadStep) :=
  [(.tipCutExpiry, .tipCut), (.feedTimeoutExpiry, .feed), (.retractExpiry, .retract),
    (.unthreadCutExpiry, .unthreadCut), (.pullTimeoutExpiry, .unthreadPull)]

/-- A step runs in RUN for a contour, with its timer (R95). -/
def State.Timed (s : State) (t : Threading) (st : ThreadStep) (c : Contour) : Prop :=
  s.thread = some t ∧ t.held = false ∧ t.timer.isSome = true ∧ t.step = st ∧ s.contour t.contour = some c ∧
    s.modes.mode = .run

/-- Another attempt follows a failed one (R101): attempts are left and, at the hole, a search offset after the present
one lies within the travel window (R97). -/
def State.AttemptsLeft (s : State) (t : Threading) : Prop :=
  t.made < t.limit ∧ (t.op = .atHole → ∃ n : Fin 9, t.search.getD 0 < n.val ∧
    t.centre.any (fun p => s.store.window.holds (State.searchOffset p (t.ring.getD 0) n.val)) = true)

/-- An attempt has failed (R101): RETRACT with its timer and the decision whether another follows, which raises
THREAD_RETRY; nothing else changes. -/
def AttemptFailed (s u : State) (t : Threading) : Prop :=
  (∃ again : Bool, (again = true ↔ s.AttemptsLeft t) ∧
    u.thread = some { t with step := .retract, timer := some s.params.retractTime, again := again }) ∧
  (s.AttemptsLeft t → (u.cond .threadRetry).latch = s.raisedLatch .threadRetry) ∧
  (¬ s.AttemptsLeft t → (u.cond .threadRetry).latch = (s.cond .threadRetry).latch) ∧
  u.modes = s.modes ∧ u.contours = s.contours ∧ u.job = s.job ∧ u.path = s.path ∧ u.store = s.store

/-- TIP_CUT ends (R99, R100): in RUN FEED begins with its timer, or with the wire parted the attempt fails; in HOLD the
FEED is entered held, without a timer (R95). -/
def TipCutEnds (t : Threading) (c : Contour) (s : State) : Prop :=
  (s.Timed t .tipCut c → s.active .lowerDetect = false →
    (s.active .wireIntact = true → exec .tipCutExpiry s = .next (s.withThread (some { t with
      step := .feed, timer := some s.params.feedTimeout })).arbitrate) ∧
    (s.active .wireIntact = false → ∃ u : State, exec .tipCutExpiry s = .next u ∧ AttemptFailed s u t)) ∧
  (s.thread = some t → t.held = false → t.timer.isSome = true → t.step = .tipCut → s.modes.mode = .hold →
    s.modes.parkPending = false → exec .tipCutExpiry s = .next (s.withThread (some { t with
      step := .feed, timer := none, held := true })).arbitrate)

/-- FEED times out (R100): the attempt fails. -/
def FeedTimesOut (t : Threading) (c : Contour) (s : State) : Prop :=
  s.Timed t .feed c → ∃ u : State, exec .feedTimeoutExpiry s = .next u ∧ AttemptFailed s u t

/-- RETRACT ends with another attempt to follow (R98, R101, R103): in the gap its TIP_CUT begins; at the hole the search
move to the next offset within the travel window. The attempt is counted (DEDUCED, log entry 20). -/
def RetractBeginsAttempt (t : Threading) (c : Contour) (s : State) : Prop :=
  s.Timed t .retract c → t.again = true →
    (t.op = .inGap → ∃ u : State, exec .retractExpiry s = .next u ∧
      u.thread = some { t with step := .tipCut, made := t.made + 1, timer := some s.params.tipTime } ∧
      u.contour t.contour = some { c with attemptsUsed := min 255 (c.attemptsUsed + 1) } ∧
      (∀ j, j ≠ t.contour → u.contour j = s.contour j) ∧ u.modes = s.modes ∧ u.job = s.job ∧ u.path = s.path) ∧
    (∀ (p : Point) (n : Fin 9), t.op = .atHole → t.centre = some p → t.search.getD 0 < n.val →
      (∀ m : Fin 9, t.search.getD 0 < m.val → m < n →
        s.store.window.holds (State.searchOffset p (t.ring.getD 0) m.val) = false) →
      let target := State.searchOffset p (t.ring.getD 0) n.val
      s.store.window.holds target = true → s.path.commanded ≠ target →
      s.store.lineKeptOut s.path.commanded target = false → ∃ u : State, exec .retractExpiry s = .next u ∧
        u.thread = some { t with step := .searchMove, made := t.made + 1, search := some n.val, timer := none } ∧
        u.contour t.contour = some { c with attemptsUsed := min 255 (c.attemptsUsed + 1) } ∧
        (∀ j, j ≠ t.contour → u.contour j = s.contour j) ∧ u.modes = s.modes ∧ u.job = s.job ∧
        u.path = { s.path with
          rapid := some ⟨s.path.commanded, target, distance s.path.commanded target, 0, .search⟩ })

/-- RETRACT ends with no attempt to follow at the hole (R75, R101, R115): THREAD_FAILED is raised; a contour that was
THREADING becomes SKIPPED with THREAD_EXHAUSTED, one in REENTRY FAULTED with REENTRY_FAILED and CONTOUR_FAULT. -/
def RetractExhaustsHole (t : Threading) (c : Contour) (s : State) : Prop :=
  s.Timed t .retract c → t.again = false → t.op = .atHole → s.job.current = some t.contour → s.NoneWaiting →
    (c.state = .threading ∨ c.state = .reentry) → ∃ u : State, exec .retractExpiry s = .next u ∧
      u.thread = none ∧ (u.cond .threadFailed).latch = s.raisedLatch .threadFailed ∧
      (c.state = .threading →
        u.contour t.contour = some { c with state := .skipped, fault := some .threadExhausted } ∧
        (u.cond .contourFault).latch = (s.cond .contourFault).latch) ∧
      (c.state = .reentry →
        u.contour t.contour = some { c with state := .faulted, fault := some .reentryFailed } ∧
        (u.cond .contourFault).latch = s.raisedLatch .contourFault) ∧
      (∀ j, j ≠ t.contour → u.contour j = s.contour j) ∧ u.job.current = none ∧ u.path.pass = none ∧
      u.path.commanded = s.path.commanded ∧ u.store = s.store

/-- RETRACT ends with no attempt to follow in the gap (R101, R103, R113, R114): INGAP_FAILED is raised, and on pass 0 the
hole route follows with its rapid move to the start hole, one whose line meets a keep-out rectangle making the contour
FAULTED with KEEP_OUT (R65, R115); on any other pass REENTRY_WAIT with HOLD. -/
def RetractFailsInGap (t : Threading) (c : Contour) (s : State) : Prop :=
  s.Timed t .retract c → t.again = false → t.op = .inGap → s.job.current = some t.contour → c.state = .reentry →
    s.path.pass.isSome = true →
    (c.passIndex = 0 → s.path.commanded ≠ c.defn.centre →
      s.store.lineKeptOut s.path.commanded c.defn.centre = false → ∃ u : State, exec .retractExpiry s = .next u ∧
        u.thread = none ∧ (u.cond .ingapFailed).latch = s.raisedLatch .ingapFailed ∧
        u.contours = s.contours ∧ u.modes = s.modes ∧ u.job = { s.job with work := some .holeRapid, due := false } ∧
        u.path = { s.path with rapid := some ⟨s.path.commanded, c.defn.centre,
          distance s.path.commanded c.defn.centre, 0, .contourTable⟩ } ∧ u.store = s.store) ∧
    (c.passIndex = 0 → s.path.commanded ≠ c.defn.centre →
      s.store.lineKeptOut s.path.commanded c.defn.centre = true → s.NoneWaiting → ∃ u : State,
        exec .retractExpiry s = .next u ∧
        u.contour t.contour = some { c with state := .faulted, fault := some .keepOut } ∧
        (∀ j, j ≠ t.contour → u.contour j = s.contour j) ∧
        (u.cond .ingapFailed).latch = s.raisedLatch .ingapFailed ∧
        (u.cond .contourFault).latch = s.raisedLatch .contourFault ∧ u.thread = none ∧ u.path.pass = none ∧
        u.path.rapid = none ∧ u.path.commanded = s.path.commanded ∧ u.job.current = none ∧ u.store = s.store) ∧
    (c.passIndex ≠ 0 → ∃ u : State, exec .retractExpiry s = .next u ∧
      u.thread = none ∧ (u.cond .ingapFailed).latch = s.raisedLatch .ingapFailed ∧
      u.contour t.contour = some { c with state := .reentryWait } ∧
      (∀ j, j ≠ t.contour → u.contour j = s.contour j) ∧ u.modes = { s.modes with mode := .hold } ∧
      u.job = { s.job with lastChanged := some t.contour, work := none, due := false } ∧ u.store = s.store)

/-- UNTHREAD_CUT ends (R104): the pull begins with its timer while LOWER_DETECT reads active. -/
def UnthreadCutEnds (t : Threading) (c : Contour) (s : State) : Prop :=
  s.Timed t .unthreadCut c → s.active .lowerDetect = true →
    exec .unthreadCutExpiry s = .next (s.withThread (some { t with
      step := .unthreadPull, timer := some s.params.pullTimeout })).arbitrate

/-- LOWER_DETECT becomes active in a running FEED (R100, R102, R103): at the hole the centre move begins; in the gap the
operation has succeeded, and on pass 0 the dry re-approach begins at the wire position where that lies before s, on any
other pass cutting is taken up (R113, R114). -/
def FeedSucceeds (t : Threading) (c : Contour) (s : State) : Prop :=
  s.Timed t .feed c → s.Turns .lowerDetect true →
    (∀ p, t.op = .atHole → t.centre = some p → s.path.commanded ≠ p →
      s.store.lineKeptOut s.path.commanded p = false → ∃ u : State,
        exec (.lineFilterExpiry .lowerDetect) s = .next u ∧
        u.thread = some { t with step := .centreMove, timer := none } ∧
        u.path.rapid = some ⟨s.path.commanded, p, distance s.path.commanded p, 0, .centre⟩ ∧
        u.path.commanded = s.path.commanded ∧ u.contours = s.contours ∧ u.modes = s.modes ∧ u.job = s.job ∧
        u.store = s.store) ∧
    (∀ (q : PassRec) (r : RunPass) (k : Chain), t.op = .inGap → s.OnPass t.contour c q r k → c.state = .reentry →
      (∀ w, c.passIndex = 0 → s.job.wire = some w → w < r.s → ∃ u : State,
        exec (.lineFilterExpiry .lowerDetect) s = .next u ∧ u.thread = none ∧
        u.path.pass.map (·.approach) = some (some w) ∧ u.path.pass.map (·.s) = some r.s ∧
        u.job = { s.job with work := some .approach, due := false } ∧ u.path.commanded = s.path.commanded ∧
        u.contours = s.contours ∧ u.modes = s.modes ∧ u.store = s.store) ∧
      (c.passIndex ≠ 0 → s.job.resume = none → c.defn.method = .drop → k.state = .closed → k.SoundCut →
        k.segs ≠ [] → r.s < c.defn.passEnd c.passIndex k.loaded →
        (r.sub = .moving ∨ r.sub = .paused ∨ r.sub = .starved) → s.NoHoldCause → s.JournalRoom → ∃ u : State,
          exec (.lineFilterExpiry .lowerDetect) s = .next u ∧ u.thread = none ∧ CutTakenUp t.contour c q r k s u))

/-- The last step of a centre move is made (R65, R102): with either wire line inactive the attempt has failed; with both
active the operation has succeeded. A contour that was THREADING then has its slug watch armed, becomes CUTTING or
SEVERING and starts its pass (R75, R78, R124), or is FAULTED where the chain begins elsewhere; one in REENTRY is
re-approached from position 0 (R115, R116). -/
def CentreMoveEnds (m : Rapid) (t : Threading) (c : Contour) (s : State) : Prop :=
  let moved := s.onPath fun p => { p with rapid := none, commanded := m.target, supplied := m.target }
  s.modes.mode = .run → s.path.rapid = some m → m.done ≤ m.length → m.length ≤ m.done + s.params.rapidStep →
    m.owner = .centre → s.thread = some t → t.held = false → s.contour t.contour = some c →
    (s.active .lowerDetect = false ∨ s.active .wireIntact = false → ∃ u : State,
      exec .driveUpdate s = .next u ∧ AttemptFailed moved u t) ∧
    (s.active .lowerDetect = true → s.active .wireIntact = true → s.job.current = some t.contour →
      (∀ (q : PassRec) (k : Chain), c.state = .threading → c.pass = some q → s.chain q.chain = some k →
        k.state = .closed → k.SoundCut → k.segs ≠ [] → c.defn.method = .drop →
        0 < c.defn.passEnd c.passIndex k.loaded →
        s.active .slugPresent = true ∨ (s.lineRec .slugPresent).mask = true → s.NoHoldCause → s.JournalRoom →
        (within 2 k.start m.target = true → s.path.genOn = false → ∃ u : State, exec .driveUpdate s = .next u ∧
          u.thread = none ∧
          u.contour t.contour = some { c with
            state := if q.role = .sever then .severing else .cutting, front := 0 } ∧
          (∀ j, j ≠ t.contour → u.contour j = s.contour j) ∧ u.slug.watch = some t.contour ∧
          (∃ v, u.path.pass = some v ∧ v.chain = q.chain ∧ v.s = 0 ∧ v.sub = .moving ∧ v.lastCheckpoint = 0 ∧
            v.stopPoint = c.defn.passEnd c.passIndex k.loaded) ∧
          u.path.commanded = k.start ∧ u.path.supplied = k.start ∧ u.path.genOn = true ∧
          u.path.genSetting = q.setting ∧ u.job.work = none ∧ u.job.current = some t.contour ∧
          u.modes = s.modes ∧ u.store = s.store) ∧
        (within 2 k.start m.target = false → (∀ j d, j ≠ t.contour → s.contour j = some d →
            d.state ≠ .queued ∧ d.state ≠ .bridged) → ∃ u : State, exec .driveUpdate s = .next u ∧
          u.thread = none ∧ u.contour t.contour = some { c with state := .faulted, fault := some .discontinuous } ∧
          (∀ j, j ≠ t.contour → u.contour j = s.contour j) ∧
          (u.cond .discontinuous).latch = s.raisedLatch .discontinuous ∧
          (u.cond .contourFault).latch = s.raisedLatch .contourFault ∧ u.path.pass = none ∧
          u.path.commanded = m.target ∧ u.job.current = none ∧ u.store = s.store)) ∧
      (∀ (q : PassRec) (r : RunPass) (k : Chain), c.state = .reentry → s.OnPass t.contour c q r k → 0 < r.s →
        ∃ u : State, exec .driveUpdate s = .next u ∧ u.thread = none ∧
          u.path.pass.map (·.approach) = some (some 0) ∧ u.path.pass.map (·.s) = some r.s ∧
          u.job = { s.job with work := some .approach, due := false } ∧ u.path.commanded = m.target ∧
          u.contours = s.contours ∧ u.modes = s.modes ∧ u.store = s.store))

end Sys2Proof.Machine

/-- R95, R99 to R101, R103, R104: the expiry of a step's timer ends that step: TIP_CUT leads to FEED with its timer, a
FEED timeout to RETRACT with the decision of R101, RETRACT with another attempt to its TIP_CUT in the gap and to the
next search move at the hole, the last RETRACT to INGAP_FAILED or THREAD_FAILED, and UNTHREAD_CUT to the pull. The pull's
own timeout is the subject of PullTimeoutFaultsTheContour. An expiry ends no other step: in another step, in a held one
and in IDLE it changes nothing, which is the model's reading (DEDUCED, log entry 16). An attempt is counted when it is
entered (DEDUCED, log entry 20). An attempt fails by WIRE_INTACT also where the line was masked while inactive (DESIGN
CHOICE, log entry 54).
LOWER_DETECT becoming active ends a running FEED with success, and the end of the centre move ends THREAD_AT_HOLE (R75,
R78, R102, R124). A transmitter that is free has nothing waiting (State.LinkSettled), which TransmitterChoosesInOrder
says of every step: a PROGRESS that waited would be taken in the same step (R66). -/
def Obligations.ThreadTimersEndTheirSteps : Prop :=
  ∀ s : State, s.Steady →
    (∀ row ∈ threadTimers, (∀ t, s.thread = some t → t.step ≠ row.2 ∨ t.held = true ∨ t.timer = none) →
      exec row.1 s = .next s.arbitrate) ∧
    (s.LinkSettled → ∀ (t : Threading) (c : Contour),
      (TipCutEnds t c s ∧ FeedTimesOut t c s ∧ RetractBeginsAttempt t c s ∧ RetractExhaustsHole t c s ∧
        RetractFailsInGap t c s ∧ UnthreadCutEnds t c s) ∧
      FeedSucceeds t c s ∧ ∀ m, CentreMoveEnds m t c s)

namespace Sys2Proof.Machine

/-- The chains of the passes from an index to the contour's present one that are still bound to them are FREE, and no
other chain changes; the slots held are free again (R36). -/
def StageFreed (i : Slot) (c : Contour) (s t : State) : Prop :=
  (∀ n ≤ c.passIndex, s.job.stageFrom ≤ n → ∀ q, c.defn.passes[n]? = some q →
    (s.chain q.chain).bind (·.binding) = some (i, n) → t.chain q.chain = none) ∧
  (∀ ch, (∀ n ≤ c.passIndex, s.job.stageFrom ≤ n → ∀ q, c.defn.passes[n]? = some q → q.chain = ch →
    (s.chain ch).bind (·.binding) ≠ some (i, n)) → t.chain ch = s.chain ch) ∧
  t.store.freeSlots + t.slotsHeld = s.store.freeSlots + s.slotsHeld

/-- LOWER_DETECT becomes inactive in the pull that ends a stage (R81, R104, R36): the contour becomes BRIDGED with
retention BRIDGED where its SEVER pass is still to come, and DONE otherwise; the chains of the stage are freed; and the
job, no other contour waiting, goes to SEVER_WAIT or COMPLETE. A bridge that could be severed at once is left out. -/
def UnthreadEndsTheStage (i : Slot) (c : Contour) (h : Threading) (s : State) : Prop :=
  let toSever := c.defn.bridge.isSome = true ∧ c.pass.map (·.role) ≠ some .sever
  s.thread = some h → h.held = false → h.step = .unthreadPull → h.timer.isSome = true →
    s.job.current = some i → s.contour i = some c → c.state = .unthreading →
    s.job.work = some .stageUnthread → s.Turns .lowerDetect false → s.NoneWaiting →
    (toSever → c.defn.attended = true ∧ c.severReleased = false → ∃ t : State,
      exec (.lineFilterExpiry .lowerDetect) s = .next t ∧
      t.contour i = some { c with state := .bridged, retention := .bridged } ∧ t.job.state = .severWait ∧
      t.slug.watch = none ∧ StageFreed i c s t ∧ (∀ j, j ≠ i → t.contour j = s.contour j) ∧
      t.job.current = none ∧ t.thread = none) ∧
    (¬ toSever → ∃ t : State, exec (.lineFilterExpiry .lowerDetect) s = .next t ∧
      t.contour i = some { c with state := .done } ∧ t.job.state = .complete ∧ StageFreed i c s t ∧
      (∀ j, j ≠ i → t.contour j = s.contour j) ∧ t.job.current = none ∧ t.thread = none)

/-- A sample arrives at the end of a pass that is not the closing one (R52, R79, R81): with no further pass of the stage
the contour becomes UNTHREADING, its UNTHREAD given in RUN; a further one starts at its own position 0, or, where its
chain begins elsewhere, makes the contour FAULTED with DISCONTINUOUS (R78, R88). -/
def PassEndLeadsOn (i : Slot) (c : Contour) (q : PassRec) (r : RunPass) (k : Chain)
    (voltage pulses shorts opens : Nat) (s : State) : Prop :=
  let next := c.defn.passes[c.passIndex + 1]?
  s.Arrives i c q r k voltage pulses shorts opens → k.Formed → k.state = .closed →
    r.stopPoint = c.defn.passEnd c.passIndex k.loaded → c.passIndex ≠ c.defn.closingPass →
    (next.map (·.role) = none ∨ next.map (·.role) = some .sever → ∃ t : State,
      exec (.gapSample voltage pulses shorts opens) s = .next t ∧
      t.contour i = some { c with front := max c.front r.stopPoint, state := .unthreading } ∧
      (∀ j, j ≠ i → t.contour j = s.contour j) ∧ t.path.pass = none ∧ t.path.genOn = false ∧
      t.path.commanded = k.point r.stopPoint ∧ t.job.current = some i ∧ t.job.work = some .stageUnthread ∧
      t.store = s.store ∧
      (s.NoHoldCause → s.JournalRoom → t.modes = s.modes ∧ t.thread = some
        ⟨.unthread, i, .unthreadCut, false, 0, 0, none, none, none, some s.params.tipTime, false⟩)) ∧
    (∀ p kk, next = some p → (p.role = .rough ∨ p.role = .skim) → s.chain p.chain = some kk → p.chain ≠ r.chain →
      kk.state = .closed → kk.SoundCut → kk.segs ≠ [] → within 2 kk.start (k.point r.stopPoint) = true →
      c.defn.bridge.isSome = true → c.passIndex + 1 < c.defn.closingPass →
      0 < c.defn.passEnd (c.passIndex + 1) kk.loaded → ∃ t : State,
        exec (.gapSample voltage pulses shorts opens) s = .next t ∧
        t.contour i = some { c with passIndex := c.passIndex + 1, breakPoint := none, front := 0 } ∧
        (∀ j, j ≠ i → t.contour j = s.contour j) ∧
        (∃ v, t.path.pass = some v ∧ v.chain = p.chain ∧ v.s = 0 ∧ v.lastCheckpoint = 0 ∧
          v.stopPoint = c.defn.passEnd (c.passIndex + 1) kk.loaded) ∧
        t.path.commanded = kk.start ∧ t.job.current = some i ∧ t.store = s.store) ∧
    (∀ p kk, next = some p → (p.role = .rough ∨ p.role = .skim) → s.chain p.chain = some kk → kk.state ≠ .corrupt →
      within 2 kk.start (k.point r.stopPoint) = false → s.NoneWaiting → ∃ t : State,
        exec (.gapSample voltage pulses shorts opens) s = .next t ∧
        t.contour i = some { c with
          front := max c.front r.stopPoint, passIndex := c.passIndex + 1, breakPoint := none
          state := .faulted, fault := some .discontinuous } ∧
        (∀ j, j ≠ i → t.contour j = s.contour j) ∧
        (t.cond .discontinuous).latch = s.raisedLatch .discontinuous ∧
        (t.cond .contourFault).latch = s.raisedLatch .contourFault ∧ t.path.pass = none ∧ t.path.genOn = false ∧
        t.path.commanded = k.point r.stopPoint ∧ t.job.current = none ∧ t.store = s.store)

/-- The retention that the slug-free event leaves, where the contour proceeds at once (R126, R127). -/
def slugFreeRetention (s : State) (i : Slot) (c : Contour) : Retention :=
  match c.defn.method with
  | .drop => if c.retention = .droppedEarly then .droppedEarly else .dropped
  | .holder => if s.holder.state = .holding ∧ s.holder.owner = some i then .held else c.retention
  | .tack => if c.retention = .droppedEarly then .droppedEarly else .tacked

/-- A sample arrives at the end of the closing pass of a contour whose stage ends with it (R80, R126, R127): the watch is
disarmed; a DROP contour with the slug still present waits in SLUG_WAIT with DropWait, and in every other case the
retention is set by the hold method and the stage ends at once, with the setting index as it was, as a span that
begins or ends there has no effect (R8, R52) and none is chosen while the generator is off (DEDUCED, log entry 13). An
engage distance of 0 is left out, and a pass of a plan
that R9 does not accept, closing yet with a hold-back. -/
def SlugFreeEvent (i : Slot) (c : Contour) (q : PassRec) (r : RunPass) (k : Chain)
    (voltage pulses shorts opens : Nat) (s : State) : Prop :=
  let front := max c.front r.stopPoint
  s.Arrives i c q r k voltage pulses shorts opens → k.Formed → k.state = .closed →
    r.stopPoint = c.defn.passEnd c.passIndex k.loaded → c.passIndex = c.defn.closingPass →
    c.defn.passes.length = c.passIndex + 1 → (c.defn.method = .holder → 0 < c.defn.engage.getD 0) →
    c.defn.holdBack c.passIndex = 0 →
    (c.defn.method = .drop → c.retention ≠ .droppedEarly → s.active .slugPresent = true → 0 < s.params.dropWait →
      ∃ t : State, exec (.gapSample voltage pulses shorts opens) s = .next t ∧
        t.contour i = some { c with front := front } ∧ t.path.pass.map (·.sub) = some .slugWait ∧
        t.slug = ⟨none, .waiting, some i, some s.params.dropWait⟩ ∧ t.path.genOn = false ∧
        t.path.commanded = k.point r.stopPoint ∧ t.job = s.job ∧ t.store = s.store) ∧
    ((c.defn.method = .drop → c.retention = .droppedEarly ∨ s.active .slugPresent = false) →
      s.slug.drop = .idle → ∃ t : State, exec (.gapSample voltage pulses shorts opens) s = .next t ∧
        t.contour i = some { c with
          front := front, retention := slugFreeRetention s i c, state := .unthreading } ∧
        t.path.pass = none ∧ t.slug.watch = none ∧ t.slug.drop = .idle ∧ t.path.genOn = false ∧
        t.path.genSetting = s.path.genSetting ∧ t.job.work = some .stageUnthread ∧ t.store = s.store)

end Sys2Proof.Machine

/-- R81, R88, R104: the timeout of the pull at a stage's end makes the current contour FAULTED with
UNTHREAD_FAILED, its chains still bound, raises CONTOUR_FAULT and forces HOLD.
R36, R79 to R81, R126: the completion of that pull, LOWER_DETECT becoming inactive, ends the stage and frees its chains;
and the pass end that leads to it is the slug-free event on the closing pass (its setting index: DEDUCED, log entry 13).
The record of the UNTHREAD that a pass end orders holds 0 in the attempt fields (DESIGN CHOICE, log entry 55). The
running chain is as its loads have formed it (Chain.Formed). -/
def Obligations.PullTimeoutFaultsTheContour : Prop :=
  (∀ (i : Slot) (c : Contour) (h : Threading) (s : State), s.Steady → UnthreadEndsTheStage i c h s) ∧
  (∀ (i : Slot) (c : Contour) (q : PassRec) (r : RunPass) (k : Chain) (voltage pulses shorts opens : Nat)
    (s : State), s.Steady → PassEndLeadsOn i c q r k voltage pulses shorts opens s ∧
      SlugFreeEvent i c q r k voltage pulses shorts opens s) ∧
  ∀ (t : Threading) (i : Slot) (c : Contour) (s : State), s.Steady → s.thread = some t → t.held = false →
    t.step = .unthreadPull → t.timer.isSome = true → s.modes.mode = .run → s.job.current = some i →
    s.contour i = some c → c.state = .unthreading → (s.cond .contourFault).enable = true →
    (∀ j k, s.contour j = some k → k.state ≠ .queued ∧ k.state ≠ .bridged) →
    ∃ u : State, exec .pullTimeoutExpiry s = .next u ∧
      u.contour i = some { c with state := .faulted, fault := some .unthreadFailed } ∧
      (∀ j, j ≠ i → u.contour j = s.contour j) ∧ u.modes.mode = .hold ∧ u.thread = none ∧
      (u.cond .contourFault).latch = true ∧ u.job.state = .complete ∧ u.job.current = none ∧
      u.store = s.store ∧ u.path.commanded = s.path.commanded

/-! ## Reset and the invariants -/

/-- State.reset meets the invariants that every step keeps. -/
def Obligations.ResetMeetsTheInvariants : Prop :=
  State.reset.Credits ∧ State.reset.ChainsFormed ∧ State.reset.LinkSettled ∧ State.reset.StageHasCurrent ∧
    State.reset.PumpFollowsMode ∧ State.reset.ModeTimers ∧ State.reset.JournalForm
end

