-- ==== Sys2Proof/Laws/Bytes.lean ====
section
/-! SUPPORT. Numbers and positions survive their travel as bytes (R180). -/

namespace Sys2Proof.Machine

@[simp] theorem absentBytes_length (n : Nat) : (absentBytes n).length = n := List.length_replicate

theorem byte_toNat (v : Nat) : (byte v).toNat = v % 256 := by simp [byte, BitVec.toNat_ofNat]

theorem byte_toNat_of_lt {v : Nat} (h : v < 256) : (byte v).toNat = v := by
  rw [byte_toNat, Nat.mod_eq_of_lt h]

/-- A number below 256 ^ n is the number of its n bytes. -/
theorem leNat_leBytes (n v : Nat) (h : v < 256 ^ n) : leNat (leBytes n v) = v := by
  induction n generalizing v with
  | zero => simp at h; subst h; rfl
  | succ n ih =>
    have hd : v / 256 < 256 ^ n := by
      rw [Nat.div_lt_iff_lt_mul (by decide)]
      simpa [Nat.pow_succ] using h
    rw [leBytes, leNat, ih _ hd, byte_toNat]
    omega

theorem leBytes_length (n v : Nat) : (leBytes n v).length = n := by
  induction n generalizing v with
  | zero => rfl
  | succ n ih => simp [leBytes, ih]

/-- The number at an offset, where its bytes stand there. -/
theorem uN_at (n v : Nat) (h : v < 256 ^ n) (a rest : Payload) :
    uN n (a ++ (leBytes n v ++ rest)) a.length = v := by
  rw [uN, List.drop_left, List.take_append_of_le_length (by rw [leBytes_length]),
    List.take_of_length_le (by rw [leBytes_length]), leNat_leBytes n v h]

theorem intBytes_len (v : Int) : (intBytes v).length = 4 := leBytes_length _ _

/-- A number that four bytes carry in two's complement, at an offset. -/
theorem i32_at (v : Int) (h1 : -2147483648 ≤ v) (h2 : v ≤ 2147483647) (a rest : Payload) :
    i32 (a ++ (intBytes v ++ rest)) a.length = v := by
  rw [i32, intBytes, uN_at 4 _ (by have := (BitVec.ofInt 32 v).isLt; simpa using this),
    BitVec.ofNat_toNat, BitVec.setWidth_eq, BitVec.toInt_ofInt]
  rw [Int.bmod_eq_of_le] <;> simp <;> omega

theorem pointBytes_len (p : Point) : (pointBytes p).length = 8 := by
  rw [pointBytes, List.length_append, intBytes_len, intBytes_len]

/-- A position at an offset, where its bytes stand there. -/
theorem pointAt_at (p : Point) (hx1 : -2147483648 ≤ p.x) (hx2 : p.x ≤ 2147483647) (hy1 : -2147483648 ≤ p.y)
    (hy2 : p.y ≤ 2147483647) (a rest : Payload) : pointAt (a ++ (pointBytes p ++ rest)) a.length = p := by
  have hx := i32_at p.x hx1 hx2 a (intBytes p.y ++ rest)
  have hy := i32_at p.y hy1 hy2 (a ++ intBytes p.x) rest
  rw [List.length_append, intBytes_len] at hy
  have e : a ++ (pointBytes p ++ rest) = a ++ (intBytes p.x ++ (intBytes p.y ++ rest)) := by
    rw [pointBytes, List.append_assoc]
  have e' : a ++ (pointBytes p ++ rest) = a ++ intBytes p.x ++ (intBytes p.y ++ rest) := by
    rw [e, List.append_assoc]
  rw [pointAt, e, hx, ← e, e', hy]

end Sys2Proof.Machine
end

