-- ==== Sys2Proof/Laws/Memory.lean ====
section
/-! SUPPORT. The journal's storage: every operation on it keeps its canonical form, and what a read finds after
a write or an erase. -/

namespace Sys2Proof.Machine

/-! ## The canonical form -/

theorem memSorted_iff (m : List Host.Cell) :
    memSorted m = true ↔ m.Pairwise (fun c d => c.1 < d.1) ∧ ∀ c ∈ m, c.2 ≠ erasedByte := by
  induction m with
  | nil => simp [memSorted]
  | cons c m ih =>
    cases m with
    | nil => simp [memSorted]
    | cons d m =>
      simp only [memSorted, Bool.and_eq_true, decide_eq_true_eq, ih, List.pairwise_cons, List.mem_cons]
      constructor
      · rintro ⟨⟨hc, hcd⟩, ⟨hd, hm⟩, hv⟩
        refine ⟨⟨?_, hd, hm⟩, ?_⟩
        · rintro e (rfl | he)
          · exact hcd
          · exact hcd.trans (hd e he)
        · rintro e (rfl | he)
          · exact hc
          · exact hv e he
      · rintro ⟨⟨hc, hd, hm⟩, hv⟩
        exact ⟨⟨hv c (.inl rfl), hc d (.inl rfl)⟩, ⟨hd, hm⟩, fun e he => hv e (.inr he)⟩

theorem memWf_iff (m : List Host.Cell) :
    memWf m = true ↔ m.Pairwise (fun c d => c.1 < d.1) ∧ (∀ c ∈ m, c.2 ≠ erasedByte) ∧
      ∀ c ∈ m, c.1 < storageBytes := by
  simp [memWf, memSorted_iff, and_assoc]

/-- A write lists no address that was not listed, other than its own. -/
theorem mem_memWrite {m : List Host.Cell} {a : Nat} {b : Byte} {c : Host.Cell} (h : c ∈ memWrite m a b) :
    c ∈ m ∨ (c = (a, b) ∧ b ≠ erasedByte) := by
  induction m with
  | nil =>
    simp only [memWrite] at h
    split at h <;> simp_all
  | cons d m ih =>
    obtain ⟨k, v⟩ := d
    simp only [memWrite] at h
    repeat' split at h
    all_goals simp only [List.mem_cons] at h ⊢
    all_goals tauto

theorem memWrite_sorted {m : List Host.Cell} (h : memSorted m = true) (a : Nat) (b : Byte) :
    memSorted (memWrite m a b) = true := by
  rw [memSorted_iff] at h ⊢
  refine ⟨?_, fun c hc => ?_⟩
  · obtain ⟨hp, -⟩ := h
    induction m with
    | nil => simp only [memWrite]; split <;> simp
    | cons d m ih =>
      obtain ⟨k, v⟩ := d
      rw [List.pairwise_cons] at hp
      simp only [memWrite]
      repeat' split
      · exact List.pairwise_cons.mpr hp
      · refine List.pairwise_cons.mpr ⟨?_, List.pairwise_cons.mpr hp⟩
        intro e he
        rcases List.mem_cons.mp he with rfl | he
        · assumption
        · have := hp.1 e he; omega
      · exact hp.2
      · refine List.pairwise_cons.mpr ⟨fun e he => ?_, hp.2⟩
        have := hp.1 e he; omega
      · refine List.pairwise_cons.mpr ⟨fun e he => ?_, ih hp.2⟩
        rcases mem_memWrite he with he | ⟨rfl, -⟩
        · exact hp.1 e he
        · show k < a
          omega
  · rcases mem_memWrite hc with hc | ⟨rfl, hb⟩
    · exact h.2 c hc
    · exact hb

theorem memWrite_wf {m : List Host.Cell} (h : memWf m = true) {a : Nat} (ha : a < storageBytes) (b : Byte) :
    memWf (memWrite m a b) = true := by
  simp only [memWf, Bool.and_eq_true, List.all_eq_true, decide_eq_true_eq] at h ⊢
  refine ⟨memWrite_sorted h.1 a b, fun c hc => ?_⟩
  rcases mem_memWrite hc with hc | ⟨rfl, -⟩
  · exact h.2 c hc
  · exact ha

theorem memWriteAll_wf {m : List Host.Cell} (h : memWf m = true) {a : Nat} {bs : List Byte}
    (ha : a + bs.length ≤ storageBytes) : memWf (memWriteAll m a bs) = true := by
  induction bs generalizing m a with
  | nil => exact h
  | cons b bs ih =>
    rw [List.length_cons] at ha
    exact ih (memWrite_wf h (by omega) b) (by omega)

theorem memErase_wf {m : List Host.Cell} (h : memWf m = true) (a n : Nat) : memWf (memErase m a n) = true := by
  rw [memWf_iff] at h ⊢
  obtain ⟨hp, hv, hs⟩ := h
  exact ⟨hp.sublist List.filter_sublist, fun c hc => hv c (List.mem_filter.mp hc).1,
    fun c hc => hs c (List.mem_filter.mp hc).1⟩

theorem slotWrite_wf {m : List Host.Cell} (h : memWf m = true) {p k : Nat} (hp : p < 4) (hk : k < 128)
    (bs : List Byte) : memWf (slotWrite m p k bs) = true := by
  refine memWriteAll_wf h ?_
  rw [List.length_take]
  simp only [slotAddr, storageBytes]
  omega

theorem slotErase_wf {m : List Host.Cell} (h : memWf m = true) (p k : Nat) : memWf (slotErase m p k) = true :=
  memErase_wf h _ _

theorem pageErase_wf {m : List Host.Cell} (h : memWf m = true) (p : Nat) : memWf (pageErase m p) = true :=
  memErase_wf h _ _

theorem cutErase_wf {m : List Host.Cell} (h : memWf m = true) (p n : Nat) :
    memWf (Journal.cutErase m p n) = true := by
  unfold Journal.cutErase
  generalize List.range 128 = l
  induction l generalizing m with
  | nil => exact h
  | cons k l ih =>
    refine ih (m := if Config.eraseCutKeeps n k = true then m else slotErase m p k) ?_
    split
    · exact h
    · exact slotErase_wf h _ _

theorem cutWrite_wf {m : List Host.Cell} (h : memWf m = true) {p k : Nat} (hp : p < 4) (hk : k < 128) (n : Nat) :
    memWf (Journal.cutWrite m p k n) = true := by
  simp only [Journal.cutWrite]
  repeat' split
  all_goals first
    | with_reducible exact h
    | exact slotWrite_wf (slotErase_wf h _ _) hp hk _

theorem reset_mem_wf : memWf State.reset.journal.mem = true := by decide

/-! ## Reads after writes and erases -/

/-- An address below every listed one is not listed. -/
theorem memRead_below {m : List Host.Cell} {a : Nat} (h : ∀ c ∈ m, a < c.1) : memRead m a = erasedByte := by
  induction m with
  | nil => rfl
  | cons d m ih =>
    have := h d (.head _)
    have hne : ¬ d.1 = a := by omega
    simp only [memRead, if_neg hne]
    exact ih fun c hc => h c (.tail _ hc)

theorem memRead_memWrite {m : List Host.Cell} (h : memSorted m = true) (a : Nat) (b : Byte) (x : Nat) :
    memRead (memWrite m a b) x = if x = a then b else memRead m x := by
  rw [memSorted_iff] at h
  replace h := h.1
  induction m with
  | nil =>
    simp only [memWrite]
    split
    · simp_all [memRead]
    · simp only [memRead]
      split <;> split <;> first | rfl | omega
  | cons d m ih =>
    obtain ⟨k, v⟩ := d
    rw [List.pairwise_cons] at h
    have hb := ih h.2
    have hlow : ∀ y, y ≤ k → y ≠ k → memRead m y = erasedByte := fun y hy _ =>
      memRead_below fun c hc => lt_of_le_of_lt hy (h.1 c hc)
    have hk : memRead m k = erasedByte := memRead_below fun c hc => h.1 c hc
    simp only [memWrite]
    repeat' split
    all_goals try simp only [memRead]
    all_goals repeat' split
    all_goals first
      | rfl
      | omega
      | (subst_vars; simp_all; done)
      | (subst_vars; exact hlow _ (by omega) (by omega))

theorem memRead_memErase {m : List Host.Cell} (a n x : Nat) :
    memRead (memErase m a n) x = if a ≤ x ∧ x < a + n then erasedByte else memRead m x := by
  induction m with
  | nil => simp [memErase, memRead]
  | cons d m ih =>
    obtain ⟨k, v⟩ := d
    unfold memErase at ih ⊢
    by_cases hk : a ≤ k ∧ k < a + n
    · have : (!(decide (a ≤ k) && decide (k < a + n))) = false := by simp [hk]
      rw [List.filter_cons_of_neg (by simp only [this]; decide), ih]
      simp only [memRead]
      repeat' split
      all_goals first | rfl | omega
    · have : (!(decide (a ≤ k) && decide (k < a + n))) = true := by simp; omega
      rw [List.filter_cons_of_pos (by exact this)]
      simp only [memRead, ih]
      repeat' split
      all_goals first | rfl | omega

theorem memRead_memWriteAll {m : List Host.Cell} (h : memSorted m = true) (a : Nat) (bs : List Byte) (x : Nat) :
    memRead (memWriteAll m a bs) x =
      if a ≤ x ∧ x < a + bs.length then bs.getD (x - a) 0 else memRead m x := by
  induction bs generalizing m a with
  | nil => simp [memWriteAll]
  | cons b bs ih =>
    simp only [memWriteAll, ih (memWrite_sorted h a b), memRead_memWrite h, List.length_cons]
    by_cases hx : x = a
    · subst hx; simp
    · by_cases hr : a + 1 ≤ x ∧ x < a + 1 + bs.length
      · rw [if_pos hr, if_pos (by omega)]
        have : x - a = (x - (a + 1)) + 1 := by omega
        rw [this, List.getD_cons_succ]
      · rw [if_neg hr, if_neg hx, if_neg (by omega)]

theorem memBytes_length (m : List Host.Cell) (a n : Nat) : (memBytes m a n).length = n := by
  induction n generalizing a with
  | zero => rfl
  | succ n ih => simp [memBytes, ih]

theorem memBytes_getD (m : List Host.Cell) (a n i : Nat) (h : i < n) (d : Byte) :
    (memBytes m a n).getD i d = memRead m (a + i) := by
  induction n generalizing a i with
  | zero => omega
  | succ n ih =>
    cases i with
    | zero => simp [memBytes]
    | succ i =>
      rw [memBytes, List.getD_cons_succ, ih (a + 1) i (by omega)]
      congr 1
      omega

theorem memBytes_eq_of {m : List Host.Cell} {a : Nat} {bs : List Byte}
    (h : ∀ i, i < bs.length → memRead m (a + i) = bs.getD i 0) : memBytes m a bs.length = bs := by
  induction bs generalizing a with
  | nil => rfl
  | cons b bs ih =>
    rw [List.length_cons, memBytes, ih]
    · rw [show memRead m a = b from by simpa using h 0 (by simp)]
    · intro i hi
      have := h (i + 1) (by simpa using hi)
      rw [List.getD_cons_succ] at this
      rw [← this]
      congr 1
      omega

/-- The bytes written are the bytes read back. -/
theorem slotBytes_slotWrite {m : List Host.Cell} (h : memSorted m = true) (p k : Nat) {bs : List Byte}
    (hb : bs.length = 20) : slotBytes (slotWrite m p k bs) p k = bs := by
  have ht : bs.take 20 = bs := List.take_of_length_le (by omega)
  rw [slotBytes, slotWrite, ht, ← hb]
  refine memBytes_eq_of fun i hi => ?_
  rw [memRead_memWriteAll h, if_pos ⟨by omega, by omega⟩]
  congr 1
  omega

end Sys2Proof.Machine
end

