-- ==== Sys2Proof/Laws/Journal.lean ====
section
/-! SUPPORT. The journal's operations, each with what it does to the form of the journal. -/

set_option Elab.async false

namespace Sys2Proof.Machine

theorem nextPage_lt (p : Nat) : nextPage p < 4 := Nat.mod_lt _ (by decide)

theorem nextPage_ne (p : Nat) : nextPage p ≠ p := by
  unfold nextPage
  omega

namespace Journal

theorem awaitsErase_false {j : Journal} {p : Nat} :
    j.awaitsErase p = false ↔ j.erasing ≠ some p ∧ p ∉ j.eraseList := by
  simp [awaitsErase]

theorem startErase_awaits {j : Journal} (p : Nat) : j.startErase.awaitsErase p = j.awaitsErase p := by
  unfold startErase
  split
  · rename_i q rest he hl
    simp only [awaitsErase, he, hl]
    by_cases h : q = p <;> simp [h, eq_comm]
  · rfl

/-- Where no erase begins, none was listed. -/
theorem startErase_none {j : Journal} (h : j.startErase.erasing = none) : j.startErase.eraseList = [] := by
  unfold startErase at h ⊢
  split
  · simp_all
  · rename_i hn
    split at h
    · simp_all
    · cases hl : j.eraseList with
      | nil => rfl
      | cons q rest => exact absurd hl (hn q rest h)

theorem awaitsErase_due {j : Journal} {p : Nat} : j.awaitsErase p = false ↔ j.erasesDue p = 0 := by
  rw [awaitsErase_false]
  unfold erasesDue
  split <;> simp [*, List.count_eq_zero]

theorem startErase_due (j : Journal) (p : Nat) : j.startErase.erasesDue p = j.erasesDue p := by
  unfold startErase
  split
  · rename_i q rest he hl
    simp only [erasesDue, he, hl, List.count_cons, Option.some.injEq, reduceCtorEq, if_false, beq_iff_eq]
    omega
  · rfl

theorem startErase_limit (j : Journal) (p : Nat) : j.startErase.eraseLimit p = j.eraseLimit p := by
  unfold startErase; split <;> rfl

/-- The first listed page begins to be erased: what else the form asks is kept, and a listed page stands
behind one that is erasing. -/
theorem startErase_form {j : Journal} (mem : memWf j.mem = true) (active : ∀ p, j.active = some p → p < 4)
    (slot : 1 ≤ j.nextSlot ∧ j.nextSlot ≤ 128) (erasing : ∀ p, j.erasing = some p → p < 4)
    (list : ∀ p ∈ j.eraseList, p < 4) (once : ∀ p < 4, j.erasesDue p ≤ j.eraseLimit p)
    (roll : ∀ p, j.waitRoll = some p → p < 4) (writing : ∀ p k, j.writing = some (p, k) → p < 4 ∧ k < 128)
    (kept : ∀ p, j.active = some p → j.awaitsErase p = false)
    (idle : ∀ p, j.active = some p → j.waitRoll = none ∧ j.waitFirst = false)
    (first : j.waitFirst = true → j.waitRoll = none)
    (all : j.erasingAll = true → j.active = none ∧ j.waitRoll = none ∧ j.waitFirst = false) :
    j.startErase.Form := by
  have hk := fun p hp => (startErase_awaits (j := j) p).trans (kept p hp)
  have ho := fun p hp => (startErase_due j p).trans_le ((once p hp).trans_eq (startErase_limit j p).symm)
  have hb := startErase_none (j := j)
  unfold Journal.startErase at hk ho hb ⊢
  split
  · rename_i q rest he hl
    rw [he, hl] at hk ho hb
    rw [hl] at list
    exact { mem, active, slot, roll, writing, all, idle, first, kept := hk, once := ho, busy := hb
            erasing := fun p hp => by cases hp; exact list _ (.head _)
            list := fun p hp => list _ (.tail _ hp) }
  · rename_i hn
    exact { mem, active, slot, roll, writing, all, idle, first, kept, once, erasing, list
            busy := fun he => by
              cases hl : j.eraseList with
              | nil => rfl
              | cons q rest => exact absurd hl (hn q rest he) }

/-- The limit of a page, where the three things that it rests on are as they were. -/
theorem eraseLimit_congr {j k : Journal} (h1 : k.erasingAll = j.erasingAll) (h2 : k.active = j.active)
    (h3 : k.waitRoll = j.waitRoll) (p : Nat) : k.eraseLimit p = j.eraseLimit p := by
  simp only [eraseLimit, h1, h2, h3]

/-- A page that a roll may come to is due at most one erase, but for the page that becomes active. -/
theorem due_le_one {j : Journal} (h : j.Form) {p : Nat} (hw : j.awaitsErase p = false)
    (hall : j.erasingAll = false) (hn : ∀ a, j.active = some a → nextPage a = p)
    (hr : ∀ a, j.waitRoll = some a → a = p) (q : Nat) (hq : q < 4) : j.erasesDue q ≤ 1 := by
  by_cases e : q = p
  · rw [e, awaitsErase_due.mp hw]; omega
  · refine (h.once q hq).trans ?_
    unfold eraseLimit
    rw [if_neg]
    rintro (ha | ha | ha)
    · rw [hall] at ha; cases ha
    · rw [Option.map_eq_some_iff] at ha
      obtain ⟨a, ha, rfl⟩ := ha
      exact e (hn a ha)
    · exact e (hr q ha)

theorem firstSlot_range : 1 ≤ 1 ∧ 1 ≤ 128 := by decide

/-- A page that awaits no erase becomes active, and the page after it goes to the end of the erase list. -/
theorem activate_form {j : Journal} (h : j.Form) {p : Nat} (hp : p < 4) (hw : j.awaitsErase p = false)
    (hall : j.erasingAll = false) (hn : ∀ a, j.active = some a → nextPage a = p)
    (hr : ∀ a, j.waitRoll = some a → a = p) (hf : j.waitFirst = false) : (j.activate p).Form := by
  have hd := due_le_one h hw hall hn hr
  have hw' := awaitsErase_false.mp hw
  have hm := slotWrite_wf h.mem hp (by decide : 0 < 128) (headerBytes j.nextPageSeq)
  unfold Journal.activate listErase
  generalize slotWrite j.mem p 0 (headerBytes j.nextPageSeq) = m at hm
  refine startErase_form hm ?_ firstSlot_range h.erasing ?_ ?_ ?_ ?_ ?_ ?_ ?_ ?_
  · rintro q ⟨⟩; exact hp
  · intro q hq
    rcases List.mem_append.mp hq with hq | hq
    · exact h.list q hq
    · exact List.mem_singleton.mp hq ▸ nextPage_lt p
  · intro q hq
    have := hd q hq
    simp only [erasesDue, eraseLimit, List.count_append, List.count_singleton, beq_iff_eq,
      Option.map_some, Option.some.injEq, reduceCtorEq, or_false, hall, Bool.false_eq_true, false_or] at this ⊢
    split <;> omega
  · rintro q ⟨⟩
  · rintro q k ⟨⟩; exact ⟨hp, by decide⟩
  · rintro q ⟨⟩
    rw [awaitsErase_false, List.mem_append, List.mem_singleton, not_or]
    exact ⟨hw'.1, hw'.2, fun e => nextPage_ne p e.symm⟩
  · exact fun _ _ => ⟨rfl, hf⟩
  · exact fun _ => rfl
  · intro ht
    rw [show j.erasingAll = true from ht] at hall
    cases hall

theorem roll_form {j : Journal} (h : j.Form) : j.roll.Form := by
  unfold Journal.roll
  split
  · rename_i p hp
    have hall : j.erasingAll = false := by
      cases ha : j.erasingAll with
      | false => rfl
      | true => rw [(h.all ha).1] at hp; cases hp
    have hf := (h.idle p hp).2
    simp only
    split
    · rename_i hc
      simp only [Bool.and_eq_true, Bool.not_eq_true'] at hc
      refine activate_form h (nextPage_lt p) hc.2 hall (fun a ha => ?_) (fun a ha => ?_) (h.idle p hp).2
      · rw [hp] at ha; cases ha; rfl
      · rw [(h.idle p hp).1] at ha; cases ha
    · exact { mem := h.mem, slot := h.slot, erasing := h.erasing, list := h.list, busy := h.busy,
              writing := h.writing
              active := fun q hq => by cases hq
              idle := fun q hq => by cases hq
              first := fun ht => by rw [show j.waitFirst = true from ht] at hf; cases hf
              roll := fun q hq => by cases hq; exact nextPage_lt p
              kept := fun q hq => by cases hq
              once := fun q hq => by
                have := h.once q hq
                simp only [eraseLimit, hp, hall, (h.idle p hp).1, Option.map_some, Option.map_none, Option.some.injEq,
                  reduceCtorEq, or_false, false_or, Bool.false_eq_true] at this ⊢
                exact this
              all := fun ht => by rw [show j.erasingAll = true from ht] at hall; cases hall }
  · exact h

theorem append_form {j : Journal} (h : j.Form) (hc : j.canWrite = true) (r : JRecord) : (j.append r).Form := by
  simp only [canWrite, Bool.and_eq_true, decide_eq_true_eq] at hc
  have hw : (j.writeRecord r).Form := by
    unfold writeRecord
    split
    · rename_i p n hp hn
      exact { mem := slotWrite_wf h.mem (h.active p hp) (by omega) _
              active := h.active, slot := ⟨by simp, by simp; omega⟩, erasing := h.erasing, list := h.list,
              once := h.once, busy := h.busy, idle := h.idle, first := h.first, roll := h.roll, kept := h.kept
              all := h.all
              writing := fun q k hq => by
                cases hq
                exact ⟨h.active p hp, by omega⟩ }
    · exact h
  simp only [Journal.append]
  split
  · exact roll_form hw
  · exact hw

/-- The queue and JOURNAL_BLOCKED's source are no part of the form. -/
theorem setQueue_form {j : Journal} (h : j.Form) (q : List JRecord) (b : Bool) :
    ({ j with queue := q, blocked := b } : Journal).Form :=
  { mem := h.mem, active := h.active, slot := h.slot, erasing := h.erasing, list := h.list, once := h.once,
    busy := h.busy, idle := h.idle, first := h.first, roll := h.roll, writing := h.writing, kept := h.kept,
    all := h.all }

theorem drain_form {j : Journal} (h : j.Form) : j.drain.Form := by
  have hg : ∀ n (k : Journal), k.Form → (drainGo n k).Form := by
    intro n
    induction n with
    | zero => exact fun _ hk => hk
    | succ n ih =>
      intro k hk
      simp only [drainGo]
      split
      · split
        · refine ih _ (append_form (setQueue_form hk _ _) ?_ _)
          assumption
        · exact hk
      · exact hk
  exact setQueue_form (hg _ _ h) _ _

theorem take_form {j : Journal} (h : j.Form) (r : JRecord) : (j.take r).Form := by
  unfold Journal.take
  split
  · rename_i hc
    rw [Bool.and_eq_true] at hc
    exact drain_form (append_form h hc.1 r)
  · unfold enqueue
    repeat' split
    · exact setQueue_form h _ _
    · exact setQueue_form h _ _
    · exact setQueue_form h _ _

/-- Page 0 becomes active where no erase of it is due and no page is due more than one. -/
theorem activateFirst_form {j : Journal} (h : j.Form) (hw : j.awaitsErase 0 = false)
    (hall : j.erasingAll = false) (hd : ∀ q < 4, j.erasesDue q ≤ 1) : j.activateFirst.Form := by
  have hm := slotWrite_wf h.mem (by decide : 0 < 4) (by decide : 0 < 128) (headerBytes 1)
  unfold Journal.activateFirst
  generalize slotWrite j.mem 0 0 (headerBytes 1) = m at hm
  constructor
  · exact hm
  · rintro q ⟨⟩; decide
  · exact firstSlot_range
  · exact h.erasing
  · exact h.list
  · intro q hq
    refine (hd q hq).trans ?_
    unfold eraseLimit
    split <;> decide
  · exact h.busy
  · exact fun _ _ => ⟨rfl, rfl⟩
  · exact fun _ => rfl
  · rintro q ⟨⟩
  · rintro q k ⟨⟩; exact ⟨by decide, by decide⟩
  · rintro q ⟨⟩; exact hw
  · intro ht
    rw [show j.erasingAll = true from ht] at hall
    cases hall

theorem startErase_erasingAll (j : Journal) : j.startErase.erasingAll = j.erasingAll := by
  unfold startErase; split <;> rfl

/-- An erase that has ended leaves its page blank, and the next listed one begins. -/
theorem ended_form {j : Journal} (h : j.Form) (p : Nat) :
    ({ j with mem := pageErase j.mem p, erasing := none } : Journal).startErase.Form := by
  refine startErase_form (pageErase_wf h.mem p) h.active h.slot (fun q hq => by cases hq) h.list (fun q hq => ?_)
    h.roll h.writing (fun q hq => ?_) h.idle h.first h.all
  · have := h.once q hq
    simp only [erasesDue, reduceCtorEq, if_false] at this ⊢
    exact (Nat.le_add_right _ _).trans this
  · exact awaitsErase_false.mpr ⟨by simp, (awaitsErase_false.mp (h.kept q hq)).2⟩

theorem startErase_active (j : Journal) : j.startErase.active = j.active := by
  unfold startErase; split <;> rfl

theorem startErase_waitRoll (j : Journal) : j.startErase.waitRoll = j.waitRoll := by
  unfold startErase; split <;> rfl

theorem eraseDone_form {j : Journal} (h : j.Form) (p : Nat) : (j.eraseDone p).Form := by
  have hk := ended_form h p
  simp only [Journal.eraseDone]
  generalize ({ j with mem := pageErase j.mem p, erasing := none } : Journal).startErase = k at hk ⊢
  split
  · split
    · rename_i ha he
      rw [Option.isNone_iff_eq_none] at he
      have hl := hk.busy he
      refine drain_form (activateFirst_form ?_ (by simp [awaitsErase, he, hl]) rfl (by simp [erasesDue, he, hl]))
      exact { mem := hk.mem, active := hk.active, slot := hk.slot, erasing := hk.erasing, list := hk.list,
              busy := hk.busy, idle := hk.idle, first := hk.first, roll := hk.roll, writing := hk.writing, kept := hk.kept
              once := by simp [erasesDue, he, hl]
              all := fun ht => by cases ht }
    · exact hk
  · rename_i ha
    rw [Bool.not_eq_true] at ha
    split
    · exact hk
    · rename_i hw
      rw [Bool.not_eq_true] at hw
      split
      · rename_i hc
        simp only [Bool.and_eq_true, decide_eq_true_eq] at hc
        obtain ⟨hf, rfl⟩ := hc
        refine drain_form (activateFirst_form hk hw ha fun q hq => ?_)
        refine (hk.once q hq).trans ?_
        unfold eraseLimit
        rw [if_neg]
        rintro (e | e | e)
        · rw [ha] at e; cases e
        · cases hact : k.active with
          | none => rw [hact] at e; cases e
          | some a => rw [(hk.idle a hact).2] at hf; cases hf
        · rw [hk.first hf] at e; cases e
      · split
        · rename_i hr
          refine drain_form (activate_form hk (hk.roll p hr) hw ha (fun a hact => ?_) (fun a hra => ?_) ?_)
          · rw [(hk.idle a hact).1] at hr; cases hr
          · rw [hr] at hra; cases hra; rfl
          · cases hf : k.waitFirst with
            | false => rfl
            | true => rw [hk.first hf] at hr; cases hr
        · exact hk

theorem eraseAll_form {j : Journal} (h : j.Form) : j.eraseAll.Form := by
  refine startErase_form h.mem ?_ h.slot h.erasing (by decide : ∀ p ∈ [0, 1, 2, 3], p < 4) ?_ ?_ h.writing ?_ ?_ ?_ ?_
  · rintro q ⟨⟩
  · intro q _
    simp only [erasesDue, eraseLimit, true_or, if_true]
    have := (List.nodup_iff_count_le_one.mp (by decide : [0, 1, 2, 3].Nodup)) q
    split <;> omega
  · rintro q ⟨⟩
  · rintro q ⟨⟩
  · rintro q ⟨⟩
  · exact fun _ => rfl
  · exact fun _ => ⟨rfl, rfl, rfl⟩

theorem settled_form {j : Journal} (h : j.Form) : ({ j with writing := none } : Journal).Form :=
  { mem := h.mem, active := h.active, slot := h.slot, erasing := h.erasing, list := h.list, once := h.once,
    busy := h.busy, idle := h.idle, first := h.first, roll := h.roll, kept := h.kept, all := h.all
    writing := fun q k hq => by cases hq }

/-! ## The start-up scan -/

theorem pageSeq_lt {m : List Host.Cell} {q : Nat × Nat} (h : newestPage m = some q) :
    q.1 < 4 ∧ pageSeq m q.1 = some q.2 := by
  have hg : ∀ (l : List Nat) (b : Option (Nat × Nat)), (∀ p ∈ l, p < 4) →
      (∀ q, b = some q → q.1 < 4 ∧ pageSeq m q.1 = some q.2) →
      ∀ q, l.foldl (fun best p =>
        match pageSeq m p, best with
        | some n, some (_, k) => if k < n then some (p, n) else best
        | some n, none => some (p, n)
        | none, _ => best) b = some q → q.1 < 4 ∧ pageSeq m q.1 = some q.2 := by
    intro l
    induction l with
    | nil => exact fun b _ hb q hq => hb q hq
    | cons p l ih =>
      intro b hl hb
      refine ih _ (fun q hq => hl q (.tail _ hq)) ?_
      intro q hq
      have hp := hl p (.head _)
      simp only at hq
      split at hq
      · split at hq
        · cases hq; exact ⟨hp, ‹_›⟩
        · exact hb q hq
      · cases hq; exact ⟨hp, ‹_›⟩
      · exact hb q hq
  exact hg [0, 1, 2, 3] none (by decide) (fun _ hb => by cases hb) q h

/-- A slot whose check byte of a header agrees is not blank. -/
theorem blank_not_header {m : List Host.Cell} {p : Nat} (h : slotBlank m p 0 = true) :
    headerValid (slotBytes m p 0) = false := by
  have hr : ∀ i, i < 20 → memRead m (slotAddr p 0 + i) = erasedByte := by
    intro i hi
    unfold slotBlank memBlank at h
    rw [List.all_eq_true] at h
    generalize slotAddr p 0 = a at *
    induction m with
    | nil => rfl
    | cons d m ih =>
      have hd := h d (.head _)
      simp only [Bool.not_eq_true', Bool.and_eq_false_iff, decide_eq_false_iff_not] at hd
      have hne : ¬ d.1 = a + i := by omega
      simp only [memRead, if_neg hne]
      exact ih fun c hc => h c (.tail _ hc)
  have hb : slotBytes m p 0 = List.replicate 20 erasedByte := by
    have := memBytes_eq_of (m := m) (a := slotAddr p 0) (bs := List.replicate 20 erasedByte) (by
      intro i hi
      rw [List.length_replicate] at hi
      rw [hr i hi, List.getD_eq_getElem _ _ (by rw [List.length_replicate]; exact hi), List.getElem_replicate])
    rwa [List.length_replicate] at this
  rw [hb]
  decide

theorem slotAfterLast_range {m : List Host.Cell} {p n : Nat} (h : pageSeq m p = some n) :
    1 ≤ slotAfterLast m p ∧ slotAfterLast m p ≤ 128 := by
  have hb : slotBlank m p 0 = false := by
    cases hc : slotBlank m p 0 with
    | false => rfl
    | true => simp [pageSeq, blank_not_header hc] at h
  have hg : ∀ (l : List Nat) (a : Nat), (∀ k ∈ l, k < 128) → a ≤ 128 →
      a ≤ 128 ∧ l.foldl (fun n k => if slotBlank m p k then n else k + 1) a ≤ 128 ∧
        (1 ≤ a → 1 ≤ l.foldl (fun n k => if slotBlank m p k then n else k + 1) a) := by
    intro l
    induction l with
    | nil => exact fun a _ ha => ⟨ha, ha, id⟩
    | cons k l ih =>
      intro a hl ha
      have hk := hl k (.head _)
      rw [List.foldl_cons]
      have := ih (if slotBlank m p k then a else k + 1) (fun q hq => hl q (.tail _ hq)) (by split <;> omega)
      refine ⟨ha, this.2.1, fun h1 => this.2.2 (by split <;> omega)⟩
  have hr : List.range 128 = 0 :: (List.range 127).map (· + 1) := by decide
  unfold slotAfterLast
  rw [hr, List.foldl_cons, hb]
  have := hg ((List.range 127).map (· + 1)) 1 (by simp; omega) (by decide)
  exact ⟨this.2.2 (le_refl 1), this.2.1⟩

/-- The pages listed by the scan are those after the active one, in ring order, some of them. -/
theorem scanList_sublist (m : List Host.Cell) (p : Nat) :
    ((if pageBlank m (nextPage p) then ([] : List Nat) else [nextPage p]) ++
      [nextPage (nextPage p), nextPage (nextPage (nextPage p))].filter fun k =>
        !pageBlank m k && (pageSeq m k).isNone).Sublist
      [nextPage p, nextPage (nextPage p), nextPage (nextPage (nextPage p))] := by
  refine List.Sublist.append (l₂ := [nextPage p]) ?_ List.filter_sublist
  split
  · exact List.nil_sublist _
  · exact List.Sublist.refl _

theorem ring_nodup {p : Nat} (h : p < 4) :
    [nextPage p, nextPage (nextPage p), nextPage (nextPage (nextPage p))].Nodup ∧
      ∀ q ∈ [nextPage p, nextPage (nextPage p), nextPage (nextPage (nextPage p))], q < 4 ∧ q ≠ p := by
  have : p = 0 ∨ p = 1 ∨ p = 2 ∨ p = 3 := by omega
  rcases this with rfl | rfl | rfl | rfl <;> decide

/-- What the scan makes of the storage, with the pages it lists. -/
theorem scanned_form {m : List Host.Cell} (h : memWf m = true) {j : Journal} (hm : j.mem = m)
    (hs : 1 ≤ j.nextSlot ∧ j.nextSlot ≤ 128) (he : j.erasing = none) (hn : j.eraseList.Nodup)
    (hl : ∀ q ∈ j.eraseList, q < 4) (ha : ∀ p, j.active = some p → p < 4 ∧ p ∉ j.eraseList)
    (hr : j.waitRoll = none) (hf : ∀ p, j.active = some p → j.waitFirst = false) (hw : j.writing = none)
    (hall : j.erasingAll = false) : j.startErase.Form := by
  refine startErase_form (hm ▸ h) (fun p hp => (ha p hp).1) hs ?_ hl ?_ ?_ ?_ ?_ ?_ ?_ ?_
  · rw [he]; rintro q ⟨⟩
  · intro q _
    have := (List.nodup_iff_count_le_one.mp hn) q
    simp only [erasesDue, eraseLimit, he, reduceCtorEq, if_false]
    split <;> omega
  · rw [hr]; rintro q ⟨⟩
  · rw [hw]; rintro q k ⟨⟩
  · exact fun p hp => awaitsErase_false.mpr ⟨by simp [he], (ha p hp).2⟩
  · exact fun p hp => ⟨hr, hf p hp⟩
  · exact fun _ => hr
  · rw [hall]; rintro ⟨⟩

theorem scan_form {m : List Host.Cell} (h : memWf m = true) : (scan m).Form := by
  have hall := (by decide : [0, 1, 2, 3].Nodup)
  have hlist : (([0, 1, 2, 3] : List Nat).filter fun k => !pageBlank m k).Nodup :=
    hall.sublist List.filter_sublist
  have hlt : ∀ q ∈ ([0, 1, 2, 3] : List Nat).filter fun k => !pageBlank m k, q < 4 := fun q hq =>
    (by decide : ∀ q ∈ [0, 1, 2, 3], q < 4) q (List.mem_filter.mp hq).1
  simp only [scan]
  split
  · rename_i p n hp
    obtain ⟨hp4, hs⟩ := pageSeq_lt hp
    have hsub := scanList_sublist m p
    obtain ⟨hn, hr⟩ := ring_nodup hp4
    have hg : ∀ j : Journal, j.Form → (if j.nextSlot = 128 then j.roll else j).Form := by
      intro j hj
      split
      · exact roll_form hj
      · exact hj
    refine hg _ (scanned_form h rfl (slotAfterLast_range hs) rfl (hn.sublist hsub)
      (fun q hq => (hr q (hsub.subset hq)).1) ?_ rfl (fun _ _ => rfl) rfl rfl)
    rintro q ⟨⟩
    exact ⟨hp4, fun hm => (hr _ (hsub.subset hm)).2 rfl⟩
  · split
    · rename_i hb
      have hj := scanned_form h (j := { mem := m, active := none, nextSlot := 1, nextSeq := seqAfter (highestSeq ([0, 1, 2, 3].flatMap (pageRecords m))), nextPageSeq := 1, erasing := none, eraseList := [0, 1, 2, 3].filter fun k => !pageBlank m k, queue := [], waitRoll := none, waitFirst := false, blocked := false, erasingAll := false, writing := none })
        rfl firstSlot_range rfl hlist hlt (fun q hq => by cases hq) rfl (fun _ _ => rfl) rfl rfl
      refine activateFirst_form hj ?_ (startErase_erasingAll _) ?_
      · rw [startErase_awaits, awaitsErase_false]
        refine ⟨by simp, fun hm => ?_⟩
        have := (List.mem_filter.mp hm).2
        simp [hb] at this
      · intro q _
        rw [startErase_due]
        exact (List.nodup_iff_count_le_one.mp hlist) q
    · have hj := scanned_form h (j := { mem := m, active := none, nextSlot := 1, nextSeq := seqAfter (highestSeq ([0, 1, 2, 3].flatMap (pageRecords m))), nextPageSeq := 1, erasing := none, eraseList := [0, 1, 2, 3].filter fun k => !pageBlank m k, queue := [], waitRoll := none, waitFirst := true, blocked := false, erasingAll := false, writing := none })
        rfl firstSlot_range rfl hlist hlt (fun q hq => by cases hq) rfl (fun q hq => by cases hq) rfl rfl
      convert hj using 1
      unfold startErase
      dsimp only
      split <;> rfl

theorem memAfterReset_wf {j : Journal} (h : j.Form) (n : Nat) : memWf (j.memAfterReset n) = true := by
  have hm : memWf (match j.writing with
      | some (p, k) => cutWrite j.mem p k n
      | none => j.mem) = true := by
    split
    · rename_i p k hw
      have := h.writing p k hw
      exact cutWrite_wf h.mem this.1 this.2 n
    · exact h.mem
  simp only [memAfterReset]
  split
  · exact cutErase_wf hm _ _
  · exact hm

end Journal

end Sys2Proof.Machine
end

