-- ==== Sys2Proof/Laws/State.lean ====
section
/-! SUPPORT. One lemma per field per setter of State: what a setter leaves and what it writes. -/

set_option Elab.async false

namespace Sys2Proof.Machine.State

/-! ## withParams -/

@[simp] theorem withParams_params (s : State) (v) : (s.withParams v).params = v := rfl
@[simp] theorem withParams_contours (s : State) (v) : (s.withParams v).contours = s.contours := rfl
@[simp] theorem withParams_job (s : State) (v) : (s.withParams v).job = s.job := rfl
@[simp] theorem withParams_store (s : State) (v) : (s.withParams v).store = s.store := rfl
@[simp] theorem withParams_path (s : State) (v) : (s.withParams v).path = s.path := rfl
@[simp] theorem withParams_thread (s : State) (v) : (s.withParams v).thread = s.thread := rfl
@[simp] theorem withParams_slug (s : State) (v) : (s.withParams v).slug = s.slug := rfl
@[simp] theorem withParams_holder (s : State) (v) : (s.withParams v).holder = s.holder := rfl
@[simp] theorem withParams_modes (s : State) (v) : (s.withParams v).modes = s.modes := rfl
@[simp] theorem withParams_sensors (s : State) (v) : (s.withParams v).sensors = s.sensors := rfl
@[simp] theorem withParams_conds (s : State) (v) : (s.withParams v).conds = s.conds := rfl
@[simp] theorem withParams_journal (s : State) (v) : (s.withParams v).journal = s.journal := rfl
@[simp] theorem withParams_link (s : State) (v) : (s.withParams v).link = s.link := rfl
@[simp] theorem withParams_agenda (s : State) (v) : (s.withParams v).agenda = s.agenda := rfl
@[simp] theorem withParams_free (s : State) (v) : (s.withParams v).free = s.free := rfl
@[simp] theorem withParams_pending (s : State) (v) : (s.withParams v).pending = s.pending := rfl
@[simp] theorem withParams_self (s : State) : s.withParams s.params = s := rfl

/-! ## withContours -/

@[simp] theorem withContours_params (s : State) (v) : (s.withContours v).params = s.params := rfl
@[simp] theorem withContours_contours (s : State) (v) : (s.withContours v).contours = v := rfl
@[simp] theorem withContours_job (s : State) (v) : (s.withContours v).job = s.job := rfl
@[simp] theorem withContours_store (s : State) (v) : (s.withContours v).store = s.store := rfl
@[simp] theorem withContours_path (s : State) (v) : (s.withContours v).path = s.path := rfl
@[simp] theorem withContours_thread (s : State) (v) : (s.withContours v).thread = s.thread := rfl
@[simp] theorem withContours_slug (s : State) (v) : (s.withContours v).slug = s.slug := rfl
@[simp] theorem withContours_holder (s : State) (v) : (s.withContours v).holder = s.holder := rfl
@[simp] theorem withContours_modes (s : State) (v) : (s.withContours v).modes = s.modes := rfl
@[simp] theorem withContours_sensors (s : State) (v) : (s.withContours v).sensors = s.sensors := rfl
@[simp] theorem withContours_conds (s : State) (v) : (s.withContours v).conds = s.conds := rfl
@[simp] theorem withContours_journal (s : State) (v) : (s.withContours v).journal = s.journal := rfl
@[simp] theorem withContours_link (s : State) (v) : (s.withContours v).link = s.link := rfl
@[simp] theorem withContours_agenda (s : State) (v) : (s.withContours v).agenda = s.agenda := rfl
@[simp] theorem withContours_free (s : State) (v) : (s.withContours v).free = s.free := rfl
@[simp] theorem withContours_pending (s : State) (v) : (s.withContours v).pending = s.pending := rfl
@[simp] theorem withContours_self (s : State) : s.withContours s.contours = s := rfl

/-! ## withJob -/

@[simp] theorem withJob_params (s : State) (v) : (s.withJob v).params = s.params := rfl
@[simp] theorem withJob_contours (s : State) (v) : (s.withJob v).contours = s.contours := rfl
@[simp] theorem withJob_job (s : State) (v) : (s.withJob v).job = v := rfl
@[simp] theorem withJob_store (s : State) (v) : (s.withJob v).store = s.store := rfl
@[simp] theorem withJob_path (s : State) (v) : (s.withJob v).path = s.path := rfl
@[simp] theorem withJob_thread (s : State) (v) : (s.withJob v).thread = s.thread := rfl
@[simp] theorem withJob_slug (s : State) (v) : (s.withJob v).slug = s.slug := rfl
@[simp] theorem withJob_holder (s : State) (v) : (s.withJob v).holder = s.holder := rfl
@[simp] theorem withJob_modes (s : State) (v) : (s.withJob v).modes = s.modes := rfl
@[simp] theorem withJob_sensors (s : State) (v) : (s.withJob v).sensors = s.sensors := rfl
@[simp] theorem withJob_conds (s : State) (v) : (s.withJob v).conds = s.conds := rfl
@[simp] theorem withJob_journal (s : State) (v) : (s.withJob v).journal = s.journal := rfl
@[simp] theorem withJob_link (s : State) (v) : (s.withJob v).link = s.link := rfl
@[simp] theorem withJob_agenda (s : State) (v) : (s.withJob v).agenda = s.agenda := rfl
@[simp] theorem withJob_free (s : State) (v) : (s.withJob v).free = s.free := rfl
@[simp] theorem withJob_pending (s : State) (v) : (s.withJob v).pending = s.pending := rfl
@[simp] theorem withJob_self (s : State) : s.withJob s.job = s := rfl

/-! ## withStore -/

@[simp] theorem withStore_params (s : State) (v) : (s.withStore v).params = s.params := rfl
@[simp] theorem withStore_contours (s : State) (v) : (s.withStore v).contours = s.contours := rfl
@[simp] theorem withStore_job (s : State) (v) : (s.withStore v).job = s.job := rfl
@[simp] theorem withStore_store (s : State) (v) : (s.withStore v).store = v := rfl
@[simp] theorem withStore_path (s : State) (v) : (s.withStore v).path = s.path := rfl
@[simp] theorem withStore_thread (s : State) (v) : (s.withStore v).thread = s.thread := rfl
@[simp] theorem withStore_slug (s : State) (v) : (s.withStore v).slug = s.slug := rfl
@[simp] theorem withStore_holder (s : State) (v) : (s.withStore v).holder = s.holder := rfl
@[simp] theorem withStore_modes (s : State) (v) : (s.withStore v).modes = s.modes := rfl
@[simp] theorem withStore_sensors (s : State) (v) : (s.withStore v).sensors = s.sensors := rfl
@[simp] theorem withStore_conds (s : State) (v) : (s.withStore v).conds = s.conds := rfl
@[simp] theorem withStore_journal (s : State) (v) : (s.withStore v).journal = s.journal := rfl
@[simp] theorem withStore_link (s : State) (v) : (s.withStore v).link = s.link := rfl
@[simp] theorem withStore_agenda (s : State) (v) : (s.withStore v).agenda = s.agenda := rfl
@[simp] theorem withStore_free (s : State) (v) : (s.withStore v).free = s.free := rfl
@[simp] theorem withStore_pending (s : State) (v) : (s.withStore v).pending = s.pending := rfl
@[simp] theorem withStore_self (s : State) : s.withStore s.store = s := rfl

/-! ## withPath -/

@[simp] theorem withPath_params (s : State) (v) : (s.withPath v).params = s.params := rfl
@[simp] theorem withPath_contours (s : State) (v) : (s.withPath v).contours = s.contours := rfl
@[simp] theorem withPath_job (s : State) (v) : (s.withPath v).job = s.job := rfl
@[simp] theorem withPath_store (s : State) (v) : (s.withPath v).store = s.store := rfl
@[simp] theorem withPath_path (s : State) (v) : (s.withPath v).path = v := rfl
@[simp] theorem withPath_thread (s : State) (v) : (s.withPath v).thread = s.thread := rfl
@[simp] theorem withPath_slug (s : State) (v) : (s.withPath v).slug = s.slug := rfl
@[simp] theorem withPath_holder (s : State) (v) : (s.withPath v).holder = s.holder := rfl
@[simp] theorem withPath_modes (s : State) (v) : (s.withPath v).modes = s.modes := rfl
@[simp] theorem withPath_sensors (s : State) (v) : (s.withPath v).sensors = s.sensors := rfl
@[simp] theorem withPath_conds (s : State) (v) : (s.withPath v).conds = s.conds := rfl
@[simp] theorem withPath_journal (s : State) (v) : (s.withPath v).journal = s.journal := rfl
@[simp] theorem withPath_link (s : State) (v) : (s.withPath v).link = s.link := rfl
@[simp] theorem withPath_agenda (s : State) (v) : (s.withPath v).agenda = s.agenda := rfl
@[simp] theorem withPath_free (s : State) (v) : (s.withPath v).free = s.free := rfl
@[simp] theorem withPath_pending (s : State) (v) : (s.withPath v).pending = s.pending := rfl
@[simp] theorem withPath_self (s : State) : s.withPath s.path = s := rfl

/-! ## withThread -/

@[simp] theorem withThread_params (s : State) (v) : (s.withThread v).params = s.params := rfl
@[simp] theorem withThread_contours (s : State) (v) : (s.withThread v).contours = s.contours := rfl
@[simp] theorem withThread_job (s : State) (v) : (s.withThread v).job = s.job := rfl
@[simp] theorem withThread_store (s : State) (v) : (s.withThread v).store = s.store := rfl
@[simp] theorem withThread_path (s : State) (v) : (s.withThread v).path = s.path := rfl
@[simp] theorem withThread_thread (s : State) (v) : (s.withThread v).thread = v := rfl
@[simp] theorem withThread_slug (s : State) (v) : (s.withThread v).slug = s.slug := rfl
@[simp] theorem withThread_holder (s : State) (v) : (s.withThread v).holder = s.holder := rfl
@[simp] theorem withThread_modes (s : State) (v) : (s.withThread v).modes = s.modes := rfl
@[simp] theorem withThread_sensors (s : State) (v) : (s.withThread v).sensors = s.sensors := rfl
@[simp] theorem withThread_conds (s : State) (v) : (s.withThread v).conds = s.conds := rfl
@[simp] theorem withThread_journal (s : State) (v) : (s.withThread v).journal = s.journal := rfl
@[simp] theorem withThread_link (s : State) (v) : (s.withThread v).link = s.link := rfl
@[simp] theorem withThread_agenda (s : State) (v) : (s.withThread v).agenda = s.agenda := rfl
@[simp] theorem withThread_free (s : State) (v) : (s.withThread v).free = s.free := rfl
@[simp] theorem withThread_pending (s : State) (v) : (s.withThread v).pending = s.pending := rfl
@[simp] theorem withThread_self (s : State) : s.withThread s.thread = s := rfl

/-! ## withSlug -/

@[simp] theorem withSlug_params (s : State) (v) : (s.withSlug v).params = s.params := rfl
@[simp] theorem withSlug_contours (s : State) (v) : (s.withSlug v).contours = s.contours := rfl
@[simp] theorem withSlug_job (s : State) (v) : (s.withSlug v).job = s.job := rfl
@[simp] theorem withSlug_store (s : State) (v) : (s.withSlug v).store = s.store := rfl
@[simp] theorem withSlug_path (s : State) (v) : (s.withSlug v).path = s.path := rfl
@[simp] theorem withSlug_thread (s : State) (v) : (s.withSlug v).thread = s.thread := rfl
@[simp] theorem withSlug_slug (s : State) (v) : (s.withSlug v).slug = v := rfl
@[simp] theorem withSlug_holder (s : State) (v) : (s.withSlug v).holder = s.holder := rfl
@[simp] theorem withSlug_modes (s : State) (v) : (s.withSlug v).modes = s.modes := rfl
@[simp] theorem withSlug_sensors (s : State) (v) : (s.withSlug v).sensors = s.sensors := rfl
@[simp] theorem withSlug_conds (s : State) (v) : (s.withSlug v).conds = s.conds := rfl
@[simp] theorem withSlug_journal (s : State) (v) : (s.withSlug v).journal = s.journal := rfl
@[simp] theorem withSlug_link (s : State) (v) : (s.withSlug v).link = s.link := rfl
@[simp] theorem withSlug_agenda (s : State) (v) : (s.withSlug v).agenda = s.agenda := rfl
@[simp] theorem withSlug_free (s : State) (v) : (s.withSlug v).free = s.free := rfl
@[simp] theorem withSlug_pending (s : State) (v) : (s.withSlug v).pending = s.pending := rfl
@[simp] theorem withSlug_self (s : State) : s.withSlug s.slug = s := rfl

/-! ## withHolder -/

@[simp] theorem withHolder_params (s : State) (v) : (s.withHolder v).params = s.params := rfl
@[simp] theorem withHolder_contours (s : State) (v) : (s.withHolder v).contours = s.contours := rfl
@[simp] theorem withHolder_job (s : State) (v) : (s.withHolder v).job = s.job := rfl
@[simp] theorem withHolder_store (s : State) (v) : (s.withHolder v).store = s.store := rfl
@[simp] theorem withHolder_path (s : State) (v) : (s.withHolder v).path = s.path := rfl
@[simp] theorem withHolder_thread (s : State) (v) : (s.withHolder v).thread = s.thread := rfl
@[simp] theorem withHolder_slug (s : State) (v) : (s.withHolder v).slug = s.slug := rfl
@[simp] theorem withHolder_holder (s : State) (v) : (s.withHolder v).holder = v := rfl
@[simp] theorem withHolder_modes (s : State) (v) : (s.withHolder v).modes = s.modes := rfl
@[simp] theorem withHolder_sensors (s : State) (v) : (s.withHolder v).sensors = s.sensors := rfl
@[simp] theorem withHolder_conds (s : State) (v) : (s.withHolder v).conds = s.conds := rfl
@[simp] theorem withHolder_journal (s : State) (v) : (s.withHolder v).journal = s.journal := rfl
@[simp] theorem withHolder_link (s : State) (v) : (s.withHolder v).link = s.link := rfl
@[simp] theorem withHolder_agenda (s : State) (v) : (s.withHolder v).agenda = s.agenda := rfl
@[simp] theorem withHolder_free (s : State) (v) : (s.withHolder v).free = s.free := rfl
@[simp] theorem withHolder_pending (s : State) (v) : (s.withHolder v).pending = s.pending := rfl
@[simp] theorem withHolder_self (s : State) : s.withHolder s.holder = s := rfl

/-! ## withModes -/

@[simp] theorem withModes_params (s : State) (v) : (s.withModes v).params = s.params := rfl
@[simp] theorem withModes_contours (s : State) (v) : (s.withModes v).contours = s.contours := rfl
@[simp] theorem withModes_job (s : State) (v) : (s.withModes v).job = s.job := rfl
@[simp] theorem withModes_store (s : State) (v) : (s.withModes v).store = s.store := rfl
@[simp] theorem withModes_path (s : State) (v) : (s.withModes v).path = s.path := rfl
@[simp] theorem withModes_thread (s : State) (v) : (s.withModes v).thread = s.thread := rfl
@[simp] theorem withModes_slug (s : State) (v) : (s.withModes v).slug = s.slug := rfl
@[simp] theorem withModes_holder (s : State) (v) : (s.withModes v).holder = s.holder := rfl
@[simp] theorem withModes_modes (s : State) (v) : (s.withModes v).modes = v := rfl
@[simp] theorem withModes_sensors (s : State) (v) : (s.withModes v).sensors = s.sensors := rfl
@[simp] theorem withModes_conds (s : State) (v) : (s.withModes v).conds = s.conds := rfl
@[simp] theorem withModes_journal (s : State) (v) : (s.withModes v).journal = s.journal := rfl
@[simp] theorem withModes_link (s : State) (v) : (s.withModes v).link = s.link := rfl
@[simp] theorem withModes_agenda (s : State) (v) : (s.withModes v).agenda = s.agenda := rfl
@[simp] theorem withModes_free (s : State) (v) : (s.withModes v).free = s.free := rfl
@[simp] theorem withModes_pending (s : State) (v) : (s.withModes v).pending = s.pending := rfl
@[simp] theorem withModes_self (s : State) : s.withModes s.modes = s := rfl

/-! ## withSensors -/

@[simp] theorem withSensors_params (s : State) (v) : (s.withSensors v).params = s.params := rfl
@[simp] theorem withSensors_contours (s : State) (v) : (s.withSensors v).contours = s.contours := rfl
@[simp] theorem withSensors_job (s : State) (v) : (s.withSensors v).job = s.job := rfl
@[simp] theorem withSensors_store (s : State) (v) : (s.withSensors v).store = s.store := rfl
@[simp] theorem withSensors_path (s : State) (v) : (s.withSensors v).path = s.path := rfl
@[simp] theorem withSensors_thread (s : State) (v) : (s.withSensors v).thread = s.thread := rfl
@[simp] theorem withSensors_slug (s : State) (v) : (s.withSensors v).slug = s.slug := rfl
@[simp] theorem withSensors_holder (s : State) (v) : (s.withSensors v).holder = s.holder := rfl
@[simp] theorem withSensors_modes (s : State) (v) : (s.withSensors v).modes = s.modes := rfl
@[simp] theorem withSensors_sensors (s : State) (v) : (s.withSensors v).sensors = v := rfl
@[simp] theorem withSensors_conds (s : State) (v) : (s.withSensors v).conds = s.conds := rfl
@[simp] theorem withSensors_journal (s : State) (v) : (s.withSensors v).journal = s.journal := rfl
@[simp] theorem withSensors_link (s : State) (v) : (s.withSensors v).link = s.link := rfl
@[simp] theorem withSensors_agenda (s : State) (v) : (s.withSensors v).agenda = s.agenda := rfl
@[simp] theorem withSensors_free (s : State) (v) : (s.withSensors v).free = s.free := rfl
@[simp] theorem withSensors_pending (s : State) (v) : (s.withSensors v).pending = s.pending := rfl
@[simp] theorem withSensors_self (s : State) : s.withSensors s.sensors = s := rfl

/-! ## withConds -/

@[simp] theorem withConds_params (s : State) (v) : (s.withConds v).params = s.params := rfl
@[simp] theorem withConds_contours (s : State) (v) : (s.withConds v).contours = s.contours := rfl
@[simp] theorem withConds_job (s : State) (v) : (s.withConds v).job = s.job := rfl
@[simp] theorem withConds_store (s : State) (v) : (s.withConds v).store = s.store := rfl
@[simp] theorem withConds_path (s : State) (v) : (s.withConds v).path = s.path := rfl
@[simp] theorem withConds_thread (s : State) (v) : (s.withConds v).thread = s.thread := rfl
@[simp] theorem withConds_slug (s : State) (v) : (s.withConds v).slug = s.slug := rfl
@[simp] theorem withConds_holder (s : State) (v) : (s.withConds v).holder = s.holder := rfl
@[simp] theorem withConds_modes (s : State) (v) : (s.withConds v).modes = s.modes := rfl
@[simp] theorem withConds_sensors (s : State) (v) : (s.withConds v).sensors = s.sensors := rfl
@[simp] theorem withConds_conds (s : State) (v) : (s.withConds v).conds = v := rfl
@[simp] theorem withConds_journal (s : State) (v) : (s.withConds v).journal = s.journal := rfl
@[simp] theorem withConds_link (s : State) (v) : (s.withConds v).link = s.link := rfl
@[simp] theorem withConds_agenda (s : State) (v) : (s.withConds v).agenda = s.agenda := rfl
@[simp] theorem withConds_free (s : State) (v) : (s.withConds v).free = s.free := rfl
@[simp] theorem withConds_pending (s : State) (v) : (s.withConds v).pending = s.pending := rfl
@[simp] theorem withConds_self (s : State) : s.withConds s.conds = s := rfl

/-! ## withJournal -/

@[simp] theorem withJournal_params (s : State) (v) : (s.withJournal v).params = s.params := rfl
@[simp] theorem withJournal_contours (s : State) (v) : (s.withJournal v).contours = s.contours := rfl
@[simp] theorem withJournal_job (s : State) (v) : (s.withJournal v).job = s.job := rfl
@[simp] theorem withJournal_store (s : State) (v) : (s.withJournal v).store = s.store := rfl
@[simp] theorem withJournal_path (s : State) (v) : (s.withJournal v).path = s.path := rfl
@[simp] theorem withJournal_thread (s : State) (v) : (s.withJournal v).thread = s.thread := rfl
@[simp] theorem withJournal_slug (s : State) (v) : (s.withJournal v).slug = s.slug := rfl
@[simp] theorem withJournal_holder (s : State) (v) : (s.withJournal v).holder = s.holder := rfl
@[simp] theorem withJournal_modes (s : State) (v) : (s.withJournal v).modes = s.modes := rfl
@[simp] theorem withJournal_sensors (s : State) (v) : (s.withJournal v).sensors = s.sensors := rfl
@[simp] theorem withJournal_conds (s : State) (v) : (s.withJournal v).conds = s.conds := rfl
@[simp] theorem withJournal_journal (s : State) (v) : (s.withJournal v).journal = v := rfl
@[simp] theorem withJournal_link (s : State) (v) : (s.withJournal v).link = s.link := rfl
@[simp] theorem withJournal_agenda (s : State) (v) : (s.withJournal v).agenda = s.agenda := rfl
@[simp] theorem withJournal_free (s : State) (v) : (s.withJournal v).free = s.free := rfl
@[simp] theorem withJournal_pending (s : State) (v) : (s.withJournal v).pending = s.pending := rfl
@[simp] theorem withJournal_self (s : State) : s.withJournal s.journal = s := rfl

/-! ## withLink -/

@[simp] theorem withLink_params (s : State) (v) : (s.withLink v).params = s.params := rfl
@[simp] theorem withLink_contours (s : State) (v) : (s.withLink v).contours = s.contours := rfl
@[simp] theorem withLink_job (s : State) (v) : (s.withLink v).job = s.job := rfl
@[simp] theorem withLink_store (s : State) (v) : (s.withLink v).store = s.store := rfl
@[simp] theorem withLink_path (s : State) (v) : (s.withLink v).path = s.path := rfl
@[simp] theorem withLink_thread (s : State) (v) : (s.withLink v).thread = s.thread := rfl
@[simp] theorem withLink_slug (s : State) (v) : (s.withLink v).slug = s.slug := rfl
@[simp] theorem withLink_holder (s : State) (v) : (s.withLink v).holder = s.holder := rfl
@[simp] theorem withLink_modes (s : State) (v) : (s.withLink v).modes = s.modes := rfl
@[simp] theorem withLink_sensors (s : State) (v) : (s.withLink v).sensors = s.sensors := rfl
@[simp] theorem withLink_conds (s : State) (v) : (s.withLink v).conds = s.conds := rfl
@[simp] theorem withLink_journal (s : State) (v) : (s.withLink v).journal = s.journal := rfl
@[simp] theorem withLink_link (s : State) (v) : (s.withLink v).link = v := rfl
@[simp] theorem withLink_agenda (s : State) (v) : (s.withLink v).agenda = s.agenda := rfl
@[simp] theorem withLink_free (s : State) (v) : (s.withLink v).free = s.free := rfl
@[simp] theorem withLink_pending (s : State) (v) : (s.withLink v).pending = s.pending := rfl
@[simp] theorem withLink_self (s : State) : s.withLink s.link = s := rfl

/-! ## withAgenda -/

@[simp] theorem withAgenda_params (s : State) (v) : (s.withAgenda v).params = s.params := rfl
@[simp] theorem withAgenda_contours (s : State) (v) : (s.withAgenda v).contours = s.contours := rfl
@[simp] theorem withAgenda_job (s : State) (v) : (s.withAgenda v).job = s.job := rfl
@[simp] theorem withAgenda_store (s : State) (v) : (s.withAgenda v).store = s.store := rfl
@[simp] theorem withAgenda_path (s : State) (v) : (s.withAgenda v).path = s.path := rfl
@[simp] theorem withAgenda_thread (s : State) (v) : (s.withAgenda v).thread = s.thread := rfl
@[simp] theorem withAgenda_slug (s : State) (v) : (s.withAgenda v).slug = s.slug := rfl
@[simp] theorem withAgenda_holder (s : State) (v) : (s.withAgenda v).holder = s.holder := rfl
@[simp] theorem withAgenda_modes (s : State) (v) : (s.withAgenda v).modes = s.modes := rfl
@[simp] theorem withAgenda_sensors (s : State) (v) : (s.withAgenda v).sensors = s.sensors := rfl
@[simp] theorem withAgenda_conds (s : State) (v) : (s.withAgenda v).conds = s.conds := rfl
@[simp] theorem withAgenda_journal (s : State) (v) : (s.withAgenda v).journal = s.journal := rfl
@[simp] theorem withAgenda_link (s : State) (v) : (s.withAgenda v).link = s.link := rfl
@[simp] theorem withAgenda_agenda (s : State) (v) : (s.withAgenda v).agenda = v := rfl
@[simp] theorem withAgenda_free (s : State) (v) : (s.withAgenda v).free = s.free := rfl
@[simp] theorem withAgenda_pending (s : State) (v) : (s.withAgenda v).pending = s.pending := rfl
@[simp] theorem withAgenda_self (s : State) : s.withAgenda s.agenda = s := rfl

/-! ## withFree -/

@[simp] theorem withFree_params (s : State) (v) : (s.withFree v).params = s.params := rfl
@[simp] theorem withFree_contours (s : State) (v) : (s.withFree v).contours = s.contours := rfl
@[simp] theorem withFree_job (s : State) (v) : (s.withFree v).job = s.job := rfl
@[simp] theorem withFree_store (s : State) (v) : (s.withFree v).store = s.store := rfl
@[simp] theorem withFree_path (s : State) (v) : (s.withFree v).path = s.path := rfl
@[simp] theorem withFree_thread (s : State) (v) : (s.withFree v).thread = s.thread := rfl
@[simp] theorem withFree_slug (s : State) (v) : (s.withFree v).slug = s.slug := rfl
@[simp] theorem withFree_holder (s : State) (v) : (s.withFree v).holder = s.holder := rfl
@[simp] theorem withFree_modes (s : State) (v) : (s.withFree v).modes = s.modes := rfl
@[simp] theorem withFree_sensors (s : State) (v) : (s.withFree v).sensors = s.sensors := rfl
@[simp] theorem withFree_conds (s : State) (v) : (s.withFree v).conds = s.conds := rfl
@[simp] theorem withFree_journal (s : State) (v) : (s.withFree v).journal = s.journal := rfl
@[simp] theorem withFree_link (s : State) (v) : (s.withFree v).link = s.link := rfl
@[simp] theorem withFree_agenda (s : State) (v) : (s.withFree v).agenda = s.agenda := rfl
@[simp] theorem withFree_free (s : State) (v) : (s.withFree v).free = v := rfl
@[simp] theorem withFree_pending (s : State) (v) : (s.withFree v).pending = s.pending := rfl
@[simp] theorem withFree_self (s : State) : s.withFree s.free = s := rfl

/-! ## withPending -/

@[simp] theorem withPending_params (s : State) (v) : (s.withPending v).params = s.params := rfl
@[simp] theorem withPending_contours (s : State) (v) : (s.withPending v).contours = s.contours := rfl
@[simp] theorem withPending_job (s : State) (v) : (s.withPending v).job = s.job := rfl
@[simp] theorem withPending_store (s : State) (v) : (s.withPending v).store = s.store := rfl
@[simp] theorem withPending_path (s : State) (v) : (s.withPending v).path = s.path := rfl
@[simp] theorem withPending_thread (s : State) (v) : (s.withPending v).thread = s.thread := rfl
@[simp] theorem withPending_slug (s : State) (v) : (s.withPending v).slug = s.slug := rfl
@[simp] theorem withPending_holder (s : State) (v) : (s.withPending v).holder = s.holder := rfl
@[simp] theorem withPending_modes (s : State) (v) : (s.withPending v).modes = s.modes := rfl
@[simp] theorem withPending_sensors (s : State) (v) : (s.withPending v).sensors = s.sensors := rfl
@[simp] theorem withPending_conds (s : State) (v) : (s.withPending v).conds = s.conds := rfl
@[simp] theorem withPending_journal (s : State) (v) : (s.withPending v).journal = s.journal := rfl
@[simp] theorem withPending_link (s : State) (v) : (s.withPending v).link = s.link := rfl
@[simp] theorem withPending_agenda (s : State) (v) : (s.withPending v).agenda = s.agenda := rfl
@[simp] theorem withPending_free (s : State) (v) : (s.withPending v).free = s.free := rfl
@[simp] theorem withPending_pending (s : State) (v) : (s.withPending v).pending = v := rfl
@[simp] theorem withPending_self (s : State) : s.withPending s.pending = s := rfl

end Sys2Proof.Machine.State
end

