-- ==== Sys2Proof/Laws/Keep.lean ====
section
/-! SUPPORT. What every operation can do, once per operation: it makes its changes through the setters, each
under a condition named here, so a property that those changes keep is kept by the operation. A frame (a field
that no listed change touches) and an invariant are both such properties. -/

set_option Elab.async false

namespace Sys2Proof.Machine

/-- The slots that a chain holds, none while it is FREE. -/
def slotsIn (c : Option Chain) : Nat :=
  match c with
  | some k => k.segs.length
  | none => 0

/-- Slots held plus slots free, of a store (R23). -/
def Store.credit (t : Store) : Nat := t.freeSlots + (t.chains.toList.map slotsIn).sum

/-- The cumulative starts and lengths of a chain's segments. -/
def Chain.spans (k : Chain) : List (Nat × Nat) := k.segs.map fun g => (g.cumStart, g.length)

theorem Chain.Formed.of_spans {k l : Chain} (h : k.Formed) (hs : l.spans = k.spans) (hl : l.loaded = k.loaded) :
    l.Formed := by
  have hlen : l.segs.map (·.length) = k.segs.map (·.length) := by
    have := congrArg (List.map (·.2)) hs
    simpa [Chain.spans, Function.comp_def] using this
  refine ⟨by rw [hl, h.loaded, hlen], fun n g hg => ?_⟩
  have hn : l.spans[n]? = some (g.cumStart, g.length) := by simp [Chain.spans, hg]
  rw [hs] at hn
  simp only [Chain.spans, List.getElem?_map, Option.map_eq_some_iff] at hn
  obtain ⟨g', hg', he⟩ := hn
  have h1 := h.starts n g' hg'
  rw [List.map_take] at h1 ⊢
  rw [hlen, ← h1]
  exact (congrArg Prod.fst he).symm

theorem Chain.Formed.append {k : Chain} (h : k.Formed) {gs : List Segment}
    (hs : ∀ n g, gs[n]? = some g → g.cumStart = k.loaded + ((gs.take n).map (·.length)).sum) :
    (k.append gs).Formed := by
  refine ⟨by simp [Chain.append, h.loaded], fun n g hg => ?_⟩
  simp only [Chain.append] at hg ⊢
  by_cases hn : n < k.segs.length
  · rw [List.getElem?_append_left hn] at hg
    rw [List.take_append_of_le_length (Nat.le_of_lt hn)]
    exact h.starts n g hg
  · rw [List.getElem?_append_right (Nat.not_lt.mp hn)] at hg
    rw [hs _ g hg, List.take_append, List.take_of_length_le (Nat.not_lt.mp hn), h.loaded]
    simp

/-- Every chain of a store is formed. -/
def Store.Formed (t : Store) : Prop := ∀ (c : ChainId) (k : Chain), t.chains[c] = some k → k.Formed

/-- The changes that are made to the store: they keep the credit law and the chains' form (R23, R33). -/
structure StoreMove (a b : Store) : Prop where
  credit : b.credit = a.credit
  formed : a.Formed → b.Formed

theorem StoreMove.same_chains {a b : Store} (hf : b.freeSlots = a.freeSlots) (hc : b.chains = a.chains) :
    StoreMove a b :=
  ⟨by rw [Store.credit, Store.credit, hf, hc], fun h c k hk => h c k (by rw [← hc]; exact hk)⟩

/-- One chain of a store set. -/
theorem StoreMove.set {t : Store} {c : ChainId} {v : Option Chain} {n : Nat}
    (hc : ({ t with chains := t.chains.set c v, freeSlots := n } : Store).credit = t.credit)
    (hf : t.Formed → ∀ k, v = some k → k.Formed) :
    StoreMove t { t with chains := t.chains.set c v, freeSlots := n } := by
  refine ⟨hc, fun h d k hk => ?_⟩
  by_cases hd : d = c
  · subst hd
    exact hf h k (by simpa using hk)
  · refine h d k ?_
    have hne : c.val ≠ d.val := fun e => hd (Fin.ext e.symm)
    simpa [Vector.getElem_set, hne] using hk

/-- The changes that the mode unit makes to its record (R140, R143 to R147). -/
inductive ModeMove : ModeUnit → ModeUnit → Prop where
  | hold (m : ModeUnit) (h : m.mode = .run) : ModeMove m { m with mode := .hold }
  | wake (m : ModeUnit) (ms : Nat) (h : m.mode = .park) :
      ModeMove m { m with mode := .waking, pump := true, settle := some ms }
  | run (m : ModeUnit) (h : m.mode = .hold) : ModeMove m { m with mode := .run, parkPending := false }
  | ask (m : ModeUnit) (h : m.mode = .hold) : ModeMove m { m with parkPending := true }
  | withdraw (m : ModeUnit) (h : m.mode = .hold) : ModeMove m { m with parkPending := false }
  | refused (m : ModeUnit) (h : m.mode = .hold ∨ m.mode = .waking) :
      ModeMove m { m with mode := .hold, parkPending := false, settle := none, pump := true }
  | park (m : ModeUnit) (h : m.mode = .hold ∨ m.mode = .waking) :
      ModeMove m { m with mode := .park, parkPending := false, settle := none, pump := false }
  | settled (m : ModeUnit) (h : m.mode = .waking) : ModeMove m { m with mode := .hold, settle := none }

/-- The changes that are made to the journal (R165, R166, R168, R171). -/
inductive JournalMove : Journal → Journal → Prop where
  | take (j : Journal) (r : JRecord) : JournalMove j (j.take r)
  | settled (j : Journal) : JournalMove j { j with writing := none }
  | erased (j : Journal) (p : Nat) (h : j.erasing = some p) : JournalMove j (j.eraseDone p)
  | eraseAll (j : Journal) (h : j.erasingAll = false) : JournalMove j j.eraseAll

/-- A property kept by the changes that a latching, a live value and a hold make: the running pass and the
generator, the condition records and the mode. -/
structure KeepFlags (P : State → Prop) : Prop where
  path : ∀ s v, P s → P (s.withPath v)
  conds : ∀ s v, P s → P (s.withConds v)
  modes : ∀ s m, P s → ModeMove s.modes m → P (s.withModes m)

/-- A property kept, besides, by an offer to the journal. -/
structure KeepOffer (P : State → Prop) : Prop extends KeepFlags P where
  journal : ∀ s j, P s → JournalMove s.journal j → P (s.withJournal j)

/-- A property kept, besides, by a contour's change and by its report (R11). -/
structure KeepChange (P : State → Prop) : Prop extends KeepOffer P where
  contours : ∀ s v, P s → P (s.withContours v)
  job : ∀ s v, P s → v.state = s.job.state → v.current = s.job.current → P (s.withJob v)
  link : ∀ s v, P s → P (s.withLink v)

/-- A property kept, besides, by the work of the blocks on the current contour. -/
structure KeepWork (P : State → Prop) : Prop extends KeepChange P where
  thread : ∀ s v, P s → P (s.withThread v)
  slug : ∀ s v, P s → P (s.withSlug v)
  holder : ∀ s v, P s → P (s.withHolder v)
  agenda : ∀ s v, P s → P (s.withAgenda v)
  store : ∀ s v, P s → StoreMove s.store v → P (s.withStore v)

namespace State

variable {P : State → Prop} {s : State}

/-! ## Flags -/

theorem onPath_keep (K : KeepFlags P) (h : P s) (f) : P (s.onPath f) := K.path _ _ h

theorem onPass_keep (K : KeepFlags P) (h : P s) (f) : P (s.onPass f) := K.path _ _ h

theorem setCond_keep (K : KeepFlags P) (h : P s) (c r) : P (s.setCond c r) := K.conds _ _ h

theorem genOff_keep (K : KeepFlags P) (h : P s) : P s.genOff :=
  setCond_keep K (onPass_keep K (onPath_keep K h _) _) _ _

theorem genOff_modes : s.genOff.modes = s.modes := rfl

theorem holdEntry_keep (K : KeepFlags P) (h : P s) (hm : s.mode = .run) : P s.holdEntry :=
  onPass_keep K (K.modes _ _ (genOff_keep K h) (.hold _ hm)) _

theorem forceHold_keep (K : KeepFlags P) (h : P s) : P s.forceHold := by
  unfold forceHold
  split
  · exact holdEntry_keep K h ‹_›
  · exact h

theorem wakeCell_keep (K : KeepFlags P) (h : P s) : P s.wakeCell := by
  unfold wakeCell
  split
  · exact K.modes _ _ h (.wake _ _ ‹_›)
  · exact h

theorem latch_keep (K : KeepFlags P) (h : P s) (c) : P (s.latch c) := by
  simp only [latch]
  repeat' split
  · exact h
  · exact wakeCell_keep K (setCond_keep K h _ _)
  · exact setCond_keep K h _ _
  · exact setCond_keep K h _ _
  · exact h

theorem raise_keep (K : KeepFlags P) (h : P s) (c) : P (s.raise c) := by
  unfold raise
  split
  · exact latch_keep K h c
  · exact h

theorem setLive_keep (K : KeepFlags P) (h : P s) (c v) : P (s.setLive c v) := by
  simp only [setLive]
  repeat' split
  · exact h
  · exact forceHold_keep K (latch_keep K (setCond_keep K h _ _) _)
  · exact latch_keep K (setCond_keep K h _ _) _
  · exact setCond_keep K h _ _

theorem foldl_keep {α : Type} (f : State → α → State) (hf : ∀ s a, P s → P (f s a)) (l : List α) (h : P s) :
    P (l.foldl f s) := by
  induction l generalizing s with
  | nil => exact h
  | cons a l ih => exact ih (hf _ _ h)

theorem refreshLevels_keep (K : KeepFlags P) (h : P s) : P s.refreshLevels := by
  unfold refreshLevels
  refine foldl_keep _ (fun t c ht => ?_) _ h
  exact setLive_keep K ht _ _

theorem decideGapOpen_keep (K : KeepFlags P) (h : P s) : P s.decideGapOpen := by
  unfold decideGapOpen
  split
  · exact setLive_keep K h _ _
  · exact h

theorem clearJobAndPath_keep (K : KeepFlags P) (h : P s) : P s.clearJobAndPath := by
  unfold clearJobAndPath
  refine foldl_keep _ (fun t c ht => ?_) _ h
  exact setCond_keep K ht _ _

theorem parkEntry_keep (K : KeepFlags P) (h : P s) (hm : s.mode = .hold ∨ s.mode = .waking) :
    P s.parkEntry := by
  unfold parkEntry
  split
  · exact K.modes _ _ h (.refused _ hm)
  · exact K.modes _ _ h (.park _ hm)

theorem parkIfDue_keep (K : KeepFlags P) (h : P s) : P s.parkIfDue := by
  unfold parkIfDue
  split
  · rename_i hc
    simp only [Bool.and_eq_true, decide_eq_true_eq] at hc
    exact parkEntry_keep K h (.inl hc.1.2)
  · exact h

/-! ## Journal offers and the report of a contour's change -/

theorem offer_keep (K : KeepOffer P) (h : P s) (r) : P (s.offer r) :=
  setLive_keep K.toKeepFlags (K.journal _ _ h (.take _ _)) _ _

theorem progress_keep (K : KeepChange P) (h : P s) : P s.progress := K.link _ _ h

theorem contourChanged_keep (K : KeepChange P) (h : P s) (i) : P (s.contourChanged i) :=
  progress_keep K (offer_keep K.toKeepOffer (K.job s { s.job with lastChanged := some i } h rfl rfl) _)

theorem onContour_keep (K : KeepChange P) (h : P s) (i f) : P (s.onContour i f) := K.contours _ _ h

theorem changeContour_keep (K : KeepChange P) (h : P s) (i f) : P (s.changeContour i f) :=
  contourChanged_keep K (onContour_keep K h i f) i

theorem onCur_keep (K : KeepChange P) (h : P s) (f) : P (s.onCur f) := by
  unfold onCur
  split
  · exact onContour_keep K h _ _
  · exact h

/-! ## Path unit -/

theorem report_keep (K : KeepWork P) (h : P s) (r) : P (s.report r) := K.agenda _ _ h

theorem credit_set (t : Store) (c : ChainId) (v : Option Chain) (n : Nat) :
    ({ t with chains := t.chains.set c v, freeSlots := n } : Store).credit + slotsIn t.chains[c] =
      n + (t.credit - t.freeSlots) + slotsIn v := by
  simp only [Store.credit, Vector.toList_set]
  generalize hl : t.chains.toList = l
  have hc : c.val < l.length := by rw [← hl]; simp
  have hg : t.chains[c] = l[c.val] := by subst hl; simp
  rw [hg]
  clear hg hl
  obtain ⟨c, hc128⟩ := c
  simp only at hc ⊢
  clear hc128
  have : ((l.set c v).map slotsIn).sum + slotsIn l[c] = (l.map slotsIn).sum + slotsIn v := by
    induction l generalizing c with
    | nil => simp at hc
    | cons a l ih =>
      cases c with
      | zero => simp; omega
      | succ c =>
        have := ih c (by simpa using hc)
        simp only [List.set_cons_succ, List.map_cons, List.sum_cons, List.getElem_cons_succ]
        omega
  omega

theorem credit_sameLength (t : Store) (c : ChainId) (f : Chain → Chain)
    (hf : ∀ k, (f k).segs.length = k.segs.length) :
    ({ t with chains := t.chains.set c (t.chains[c].map f) } : Store).credit = t.credit := by
  have := credit_set t c (t.chains[c].map f) t.freeSlots
  have hs : slotsIn (t.chains[c].map f) = slotsIn t.chains[c] := by
    cases t.chains[c] with
    | none => rfl
    | some k => exact hf k
  rw [hs] at this
  simp only [Store.credit] at this ⊢
  omega

theorem onChain_keep (K : KeepWork P) (h : P s) (c) (f : Chain → Chain)
    (hf : ∀ k, (f k).spans = k.spans ∧ (f k).loaded = k.loaded) : P (s.onChain c f) := by
  refine K.store _ _ h (StoreMove.set (credit_sameLength s.store c f fun k => ?_) fun hs k hk => ?_)
  · simpa [Chain.spans] using congrArg List.length (hf k).1
  · obtain ⟨k', hk', rfl⟩ := Option.map_eq_some_iff.mp hk
    exact (hs c k' hk').of_spans (hf k').1 (hf k').2

theorem onStore_keep (K : KeepWork P) (h : P s) (f) (hf : StoreMove s.store (f s.store)) :
    P (s.onStore f) := K.store _ _ h hf

theorem freeChain_keep (K : KeepWork P) (h : P s) (c) : P (s.freeChain c) := by
  unfold freeChain
  split
  · rename_i k hk
    have e := credit_set s.store c none (s.store.freeSlots + k.segs.length)
    have hk' : s.store.chains[c] = some k := hk
    rw [hk'] at e
    refine K.store s { s.store with chains := s.store.chains.set c none,
                                    freeSlots := s.store.freeSlots + k.segs.length } h
      (StoreMove.set ?_ fun _ _ hn => by cases hn)
    simp only [Store.credit, slotsIn] at e ⊢
    omega
  · exact h

-- GENERATED
theorem markCorrupt_keep (K : KeepWork P) (h : P s) (c) : P (s.markCorrupt c) := by
  have ht := raise_keep K.toKeepFlags (onChain_keep K h c (fun k => { k with state := .corrupt }) fun _ => ⟨rfl, rfl⟩)
    .storeCorrupt
  simp only [markCorrupt]
  repeat' split
  all_goals first
    | with_reducible exact report_keep K (genOff_keep K.toKeepFlags ht) _
    | with_reducible exact ht

theorem spans_modify (k : Chain) (i : Nat) (f : Segment → Segment)
    (hf : ∀ g, (f g).cumStart = g.cumStart ∧ (f g).length = g.length) :
    ({ k with segs := k.segs.modify i f } : Chain).spans = k.spans := by
  simp only [Chain.spans]
  refine List.ext_getElem? fun n => ?_
  simp only [List.getElem?_map, List.getElem?_modify]
  cases k.segs[n]? with
  | none => rfl
  | some g => by_cases h : i = n <;> simp [h, hf g]

theorem correctSlot_keep (K : KeepWork P) (h : P s) (c i) : P (s.correctSlot c i) :=
  raise_keep K.toKeepFlags (onStore_keep K (onChain_keep K h c
    (fun k => { k with segs := k.segs.modify i fun g => { g with check := .unchanged } }) fun k =>
      ⟨spans_modify k i _ fun _ => ⟨rfl, rfl⟩, rfl⟩)
    (fun t => { t with corrected := min 255 (t.corrected + 1) }) (.same_chains rfl rfl)) _

theorem readSlots_keep (K : KeepWork P) (h : P s) (c l) : P (readSlots c l s).1 := by
  induction l generalizing s with
  | nil => exact h
  | cons i l ih =>
    simp only [readSlots]
    repeat' split
    · exact ih h
    · exact ih (correctSlot_keep K h c i)
    · exact markCorrupt_keep K h c
    · exact ih h

theorem readSlots_keep_of (K : KeepWork P) (h : P s) {c l t ok} (e : readSlots c l s = (t, ok)) : P t := by
  have := readSlots_keep K h c l
  rw [e] at this
  exact this

theorem chooseSetting_keep (K : KeepWork P) (h : P s) : P (s.chooseSetting) := by
  simp only [chooseSetting]
  repeat' split
  all_goals
    repeat first
      | with_reducible assumption
      | with_reducible apply onPath_keep K.toKeepFlags

theorem refreshGen_keep (K : KeepWork P) (h : P s) : P (s.refreshGen) := by
  simp only [refreshGen]
  repeat' split
  all_goals
    repeat first
      | with_reducible assumption
      | with_reducible apply chooseSetting_keep K
      | with_reducible apply onPath_keep K.toKeepFlags
      | with_reducible apply decideGapOpen_keep K.toKeepFlags
      | with_reducible apply genOff_keep K.toKeepFlags

theorem liftSub_keep (K : KeepWork P) (h : P s) : P (s.liftSub) := by
  simp only [liftSub]
  all_goals
    repeat first
      | with_reducible assumption
      | with_reducible apply onPass_keep K.toKeepFlags

theorem settlePosition_keep (K : KeepWork P) (h : P s) : P (s.settlePosition) := by
  simp only [settlePosition]
  repeat' split
  all_goals
    repeat first
      | with_reducible assumption
      | with_reducible apply onPass_keep K.toKeepFlags

theorem takeModeBoundary_keep (K : KeepWork P) (h : P s) (k) : P (s.takeModeBoundary k) := by
  simp only [takeModeBoundary]
  repeat' split
  all_goals
    repeat first
      | with_reducible assumption
      | with_reducible apply onPass_keep K.toKeepFlags
      | with_reducible apply genOff_keep K.toKeepFlags

theorem stopAt_keep (K : KeepWork P) (h : P s) (row) : P (s.stopAt row) := by
  cases row
  all_goals
    simp only [stopAt]
    repeat first
      | with_reducible assumption
      | with_reducible apply report_keep K
      | with_reducible apply onPass_keep K.toKeepFlags
      | with_reducible apply genOff_keep K.toKeepFlags

theorem takeTackBoundary_keep (K : KeepWork P) (h : P s) (pos) : P (s.takeTackBoundary pos) := by
  simp only [takeTackBoundary]
  repeat' split
  all_goals
    repeat first
      | with_reducible assumption
      | with_reducible apply chooseSetting_keep K

theorem recompute_keep (K : KeepWork P) (h : P s) : P s.recompute := by
  simp only [recompute]
  repeat' split
  all_goals
    repeat first
      | with_reducible assumption
      | with_reducible apply refreshLevels_keep K.toKeepFlags
      | with_reducible apply stopAt_keep K
      | with_reducible apply refreshGen_keep K
      | with_reducible apply liftSub_keep K
      | with_reducible apply onPass_keep K.toKeepFlags
      | with_reducible apply settlePosition_keep K
      | with_reducible apply takeModeBoundary_keep K
      | with_reducible apply readSlots_keep K

theorem findStop_keep (K : KeepWork P) (h : P s) : P s.findStop.1 := by
  simp only [findStop]
  repeat' split
  all_goals
    repeat first
      | with_reducible assumption
      | with_reducible apply settlePosition_keep K
      | with_reducible apply onPass_keep K.toKeepFlags
      | with_reducible apply readSlots_keep K

theorem recomputeQuietly_keep (K : KeepWork P) (h : P s) : P s.recomputeQuietly := by
  simp only [recomputeQuietly]
  repeat' split
  all_goals
    repeat first
      | with_reducible assumption
      | with_reducible apply refreshLevels_keep K.toKeepFlags
      | with_reducible apply findStop_keep K

theorem takeBoundaries_keep (K : KeepWork P) (h : P s) (k pos) : P (s.takeBoundaries k pos) :=
  takeTackBoundary_keep K (refreshGen_keep K (takeModeBoundary_keep K h k)) pos

theorem arrive_keep (K : KeepWork P) (h : P s) : P s.arrive := by
  simp only [arrive]
  repeat' split
  all_goals
    repeat first
      | with_reducible assumption
      | with_reducible apply recomputeQuietly_keep K
      | with_reducible apply refreshLevels_keep K.toKeepFlags
      | with_reducible apply stopAt_keep K
      | with_reducible apply takeBoundaries_keep K
      | with_reducible apply recompute_keep K

theorem complete_keep (K : KeepWork P) (h : P s) (n) : P (s.complete n) := by
  simp only [complete]
  repeat' split
  all_goals
    repeat first
      | with_reducible assumption
      | with_reducible apply progress_keep K.toKeepChange
      | with_reducible apply onPass_keep K.toKeepFlags

theorem checkpoint_keep (K : KeepWork P) (h : P s) : P (s.checkpoint) := by
  simp only [checkpoint]
  repeat' split
  all_goals
    repeat first
      | with_reducible assumption
      | with_reducible apply offer_keep K.toKeepOffer
      | with_reducible apply onPass_keep K.toKeepFlags

theorem raiseFront_keep (K : KeepWork P) (h : P s) (k pos) : P (s.raiseFront k pos) := by
  simp only [raiseFront]
  repeat' split
  all_goals
    repeat first
      | with_reducible assumption
      | with_reducible apply checkpoint_keep K
      | with_reducible apply complete_keep K
      | with_reducible apply onCur_keep K.toKeepChange

theorem movePass_keep (K : KeepWork P) (h : P s) (k pos) : P (s.movePass k pos) := by
  simp only [movePass]
  all_goals
    repeat first
      | with_reducible assumption
      | with_reducible apply raiseFront_keep K
      | with_reducible apply settlePosition_keep K
      | with_reducible apply onPass_keep K.toKeepFlags
      | with_reducible apply onPath_keep K.toKeepFlags
      | with_reducible apply refreshLevels_keep K.toKeepFlags

theorem createPass_keep (K : KeepWork P) (h : P s) (c k pos sub) : P (s.createPass c k pos sub).1 := by
  simp only [createPass]
  repeat' split
  all_goals
    repeat first
      | with_reducible assumption
      | with_reducible apply settlePosition_keep K
      | with_reducible apply onPath_keep K.toKeepFlags
      | with_reducible apply readSlots_keep K

theorem discardPass_keep (K : KeepWork P) (h : P s) : P (s.discardPass) := by
  simp only [discardPass]
  all_goals
    repeat first
      | with_reducible assumption
      | with_reducible apply onPath_keep K.toKeepFlags
      | with_reducible apply refreshLevels_keep K.toKeepFlags
      | with_reducible apply genOff_keep K.toKeepFlags

theorem orderRapid_keep (K : KeepWork P) (h : P s) (owner target) : P (s.orderRapid owner target) := by
  simp only [orderRapid]
  repeat' split
  all_goals
    repeat first
      | with_reducible assumption
      | with_reducible apply report_keep K
      | with_reducible apply onPath_keep K.toKeepFlags

theorem rapidStep_keep (K : KeepWork P) (h : P s) (m) : P (s.rapidStep m) := by
  simp only [rapidStep]
  repeat' split
  all_goals
    repeat first
      | with_reducible assumption
      | with_reducible apply report_keep K
      | with_reducible apply onPath_keep K.toKeepFlags

theorem endRapid_keep (K : KeepWork P) (h : P s) : P (s.endRapid) := by
  simp only [endRapid]
  all_goals
    repeat first
      | with_reducible assumption
      | with_reducible apply onPath_keep K.toKeepFlags

/-! ## Threading unit -/

theorem threadIdle_keep (K : KeepWork P) (h : P s) : P (s.threadIdle) := by
  simp only [threadIdle]
  all_goals
    repeat first
      | with_reducible assumption
      | apply K.thread

theorem onThread_keep (K : KeepWork P) (h : P s) (f) : P (s.onThread f) := K.thread _ _ h

theorem startTimer_keep (K : KeepWork P) (h : P s) (ms) : P (s.startTimer ms) := by
  simp only [startTimer]
  all_goals
    repeat first
      | with_reducible assumption
      | with_reducible apply onThread_keep K

theorem enterStep_keep (K : KeepWork P) (h : P s) (st) : P (s.enterStep st) := by
  simp only [enterStep]
  all_goals
    repeat first
      | with_reducible assumption
      | with_reducible apply onThread_keep K

theorem failAttempt_keep (K : KeepWork P) (h : P s) : P (s.failAttempt) := by
  simp only [failAttempt]
  repeat' split
  all_goals
    repeat first
      | with_reducible assumption
      | with_reducible apply enterStep_keep K
      | with_reducible apply startTimer_keep K
      | with_reducible apply onThread_keep K
      | with_reducible apply raise_keep K.toKeepFlags

theorem beginCentre_keep (K : KeepWork P) (h : P s) : P (s.beginCentre) := by
  simp only [beginCentre]
  repeat' split
  all_goals
    repeat first
      | with_reducible assumption
      | with_reducible apply orderRapid_keep K

theorem feedSucceeded_keep (K : KeepWork P) (h : P s) : P (s.feedSucceeded) := by
  simp only [feedSucceeded]
  repeat' split
  all_goals
    repeat first
      | with_reducible assumption
      | with_reducible apply beginCentre_keep K
      | with_reducible apply enterStep_keep K
      | with_reducible apply threadIdle_keep K
      | with_reducible apply report_keep K

theorem beginFeed_keep (K : KeepWork P) (h : P s) : P (s.beginFeed) := by
  simp only [beginFeed]
  repeat' split
  all_goals
    repeat first
      | with_reducible assumption
      | with_reducible apply feedSucceeded_keep K
      | with_reducible apply failAttempt_keep K
      | with_reducible apply startTimer_keep K

theorem pullComplete_keep (K : KeepWork P) (h : P s) : P (s.pullComplete) := by
  simp only [pullComplete]
  all_goals
    repeat first
      | with_reducible assumption
      | with_reducible apply threadIdle_keep K
      | with_reducible apply report_keep K

theorem beginPull_keep (K : KeepWork P) (h : P s) : P (s.beginPull) := by
  simp only [beginPull]
  repeat' split
  all_goals
    repeat first
      | with_reducible assumption
      | with_reducible apply pullComplete_keep K
      | with_reducible apply startTimer_keep K

theorem beginStep_keep (K : KeepWork P) (h : P s) : P (s.beginStep) := by
  simp only [beginStep]
  repeat' split
  all_goals
    repeat first
      | with_reducible assumption
      | with_reducible apply beginPull_keep K
      | with_reducible apply beginFeed_keep K
      | with_reducible apply beginCentre_keep K
      | with_reducible apply startTimer_keep K
      | with_reducible apply orderRapid_keep K

theorem goStep_keep (K : KeepWork P) (h : P s) (st) : P (s.goStep st) := by
  simp only [goStep]
  repeat' split
  all_goals
    repeat first
      | with_reducible assumption
      | with_reducible apply beginStep_keep K
      | with_reducible apply enterStep_keep K

theorem beginHeld_keep (K : KeepWork P) (h : P s) : P (s.beginHeld) := by
  simp only [beginHeld]
  repeat' split
  all_goals
    repeat first
      | with_reducible assumption
      | with_reducible apply beginStep_keep K
      | with_reducible apply onThread_keep K

theorem countAttempt_keep (K : KeepWork P) (h : P s) (i) : P (s.countAttempt i) := by
  simp only [countAttempt]
  all_goals
    repeat first
      | with_reducible assumption
      | with_reducible apply onContour_keep K.toKeepChange

theorem beginHoleAttempt_keep (K : KeepWork P) (h : P s) (n) : P (s.beginHoleAttempt n) := by
  simp only [beginHoleAttempt]
  repeat' split
  all_goals
    repeat first
      | with_reducible assumption
      | with_reducible apply countAttempt_keep K
      | with_reducible apply goStep_keep K
      | with_reducible apply onThread_keep K

theorem beginGapAttempt_keep (K : KeepWork P) (h : P s) : P (s.beginGapAttempt) := by
  simp only [beginGapAttempt]
  repeat' split
  all_goals
    repeat first
      | with_reducible assumption
      | with_reducible apply countAttempt_keep K
      | with_reducible apply goStep_keep K
      | with_reducible apply onThread_keep K

theorem threadAtHole_keep (K : KeepWork P) (h : P s) (i d) : P (s.threadAtHole i d) := by
  simp only [threadAtHole]
  all_goals
    repeat first
      | with_reducible assumption
      | with_reducible apply beginHoleAttempt_keep K
      | apply K.thread

theorem threadInGap_keep (K : KeepWork P) (h : P s) (i) : P (s.threadInGap i) := by
  simp only [threadInGap]
  repeat' split
  all_goals
    repeat first
      | with_reducible assumption
      | with_reducible apply beginGapAttempt_keep K
      | with_reducible apply report_keep K
      | apply K.thread

theorem unthread_keep (K : KeepWork P) (h : P s) (i) : P (s.unthread i) := by
  simp only [unthread]
  all_goals
    repeat first
      | with_reducible assumption
      | with_reducible apply goStep_keep K
      | apply K.thread

theorem tipCutDone_keep (K : KeepWork P) (h : P s) : P (s.tipCutDone) := by
  simp only [tipCutDone]
  repeat' split
  all_goals
    repeat first
      | with_reducible assumption
      | with_reducible apply goStep_keep K
      | with_reducible apply parkIfDue_keep K.toKeepFlags

theorem feedTimedOut_keep (K : KeepWork P) (h : P s) : P (s.feedTimedOut) := by
  simp only [feedTimedOut]
  repeat' split
  all_goals
    repeat first
      | with_reducible assumption
      | with_reducible apply failAttempt_keep K
      | with_reducible apply parkIfDue_keep K.toKeepFlags

theorem retractDone_keep (K : KeepWork P) (h : P s) : P (s.retractDone) := by
  simp only [retractDone]
  repeat' split
  all_goals
    repeat first
      | with_reducible assumption
      | with_reducible apply beginGapAttempt_keep K
      | with_reducible apply beginHoleAttempt_keep K
      | with_reducible apply threadIdle_keep K
      | with_reducible apply report_keep K
      | with_reducible apply parkIfDue_keep K.toKeepFlags
      | with_reducible apply raise_keep K.toKeepFlags

theorem unthreadCutDone_keep (K : KeepWork P) (h : P s) : P (s.unthreadCutDone) := by
  simp only [unthreadCutDone]
  repeat' split
  all_goals
    repeat first
      | with_reducible assumption
      | with_reducible apply goStep_keep K
      | with_reducible apply parkIfDue_keep K.toKeepFlags

theorem pullTimedOut_keep (K : KeepWork P) (h : P s) : P (s.pullTimedOut) := by
  simp only [pullTimedOut]
  repeat' split
  all_goals
    repeat first
      | with_reducible assumption
      | with_reducible apply threadIdle_keep K
      | with_reducible apply report_keep K
      | with_reducible apply parkIfDue_keep K.toKeepFlags

theorem threadLowerDetect_keep (K : KeepWork P) (h : P s) : P (s.threadLowerDetect) := by
  simp only [threadLowerDetect]
  repeat' split
  all_goals
    repeat first
      | with_reducible assumption
      | with_reducible apply pullComplete_keep K
      | with_reducible apply feedSucceeded_keep K
      | with_reducible apply parkIfDue_keep K.toKeepFlags

theorem threadWireLost_keep (K : KeepWork P) (h : P s) : P (s.threadWireLost) := by
  simp only [threadWireLost]
  repeat' split
  all_goals
    repeat first
      | with_reducible assumption
      | with_reducible apply failAttempt_keep K
      | with_reducible apply parkIfDue_keep K.toKeepFlags

theorem searchMoved_keep (K : KeepWork P) (h : P s) : P (s.searchMoved) := by
  simp only [searchMoved]
  repeat' split
  all_goals
    repeat first
      | with_reducible assumption
      | with_reducible apply goStep_keep K

theorem centreMoved_keep (K : KeepWork P) (h : P s) : P (s.centreMoved) := by
  simp only [centreMoved]
  repeat' split
  all_goals
    repeat first
      | with_reducible assumption
      | with_reducible apply failAttempt_keep K
      | with_reducible apply threadIdle_keep K
      | with_reducible apply report_keep K

theorem threadMoveRefused_keep (K : KeepWork P) (h : P s) : P (s.threadMoveRefused) := by
  simp only [threadMoveRefused]
  repeat' split
  all_goals
    repeat first
      | with_reducible assumption
      | with_reducible apply threadIdle_keep K
      | with_reducible apply report_keep K

theorem endThread_keep (K : KeepWork P) (h : P s) : P (s.endThread) := by
  simp only [endThread]
  repeat' split
  all_goals
    repeat first
      | with_reducible assumption
      | with_reducible apply threadIdle_keep K
      | with_reducible apply endRapid_keep K
      | with_reducible apply parkIfDue_keep K.toKeepFlags

/-! ## Retention unit -/

theorem setRetention_keep (K : KeepWork P) (h : P s) (i r) : P (s.setRetention i r) := by
  simp only [setRetention]
  all_goals
    repeat first
      | with_reducible assumption
      | with_reducible apply onContour_keep K.toKeepChange

theorem onSlug_keep (K : KeepWork P) (h : P s) (f) : P (s.onSlug f) := K.slug _ _ h

theorem onHolder_keep (K : KeepWork P) (h : P s) (f) : P (s.onHolder f) := K.holder _ _ h

theorem onJob_keep (K : KeepWork P) (h : P s) (f : Job → Job) (h1 : (f s.job).state = s.job.state)
    (h2 : (f s.job).current = s.job.current) : P (s.onJob f) := K.job _ _ h h1 h2

theorem earlyDrop_keep (K : KeepWork P) (h : P s) (i) : P (s.earlyDrop i) := by
  simp only [earlyDrop]
  all_goals
    repeat first
      | with_reducible assumption
      | with_reducible apply onSlug_keep K
      | with_reducible apply setRetention_keep K
      | with_reducible apply raise_keep K.toKeepFlags
      | with_reducible apply forceHold_keep K.toKeepFlags
      | with_reducible apply genOff_keep K.toKeepFlags
      | apply K.slug

theorem armWatch_keep (K : KeepWork P) (h : P s) (i) : P (s.armWatch i) := by
  simp only [armWatch]
  repeat' split
  all_goals
    repeat first
      | with_reducible assumption
      | with_reducible apply earlyDrop_keep K
      | with_reducible apply onSlug_keep K
      | apply K.slug

theorem disarmWatch_keep (K : KeepWork P) (h : P s) : P (s.disarmWatch) := by
  simp only [disarmWatch]
  all_goals
    repeat first
      | with_reducible assumption
      | with_reducible apply onSlug_keep K
      | apply K.slug

theorem dropIdle_keep (K : KeepWork P) (h : P s) : P (s.dropIdle) := by
  simp only [dropIdle]
  all_goals
    repeat first
      | with_reducible assumption
      | with_reducible apply onSlug_keep K
      | apply K.slug

theorem dropExpired_keep (K : KeepWork P) (h : P s) : P (s.dropExpired) := by
  simp only [dropExpired]
  all_goals
    repeat first
      | with_reducible assumption
      | with_reducible apply onSlug_keep K
      | with_reducible apply raise_keep K.toKeepFlags
      | with_reducible apply forceHold_keep K.toKeepFlags
      | apply K.slug

theorem dropWaiting_keep (K : KeepWork P) (h : P s) : P (s.dropWaiting) := by
  simp only [dropWaiting]
  repeat' split
  all_goals
    repeat first
      | with_reducible assumption
      | with_reducible apply dropExpired_keep K
      | with_reducible apply onSlug_keep K
      | apply K.slug

theorem dropEnds_keep (K : KeepWork P) (h : P s) (r) : P (s.dropEnds r) := by
  simp only [dropEnds]
  repeat' split
  all_goals
    repeat first
      | with_reducible assumption
      | with_reducible apply dropIdle_keep K
      | with_reducible apply setRetention_keep K
      | with_reducible apply report_keep K

theorem startDrop_keep (K : KeepWork P) (h : P s) (i) : P (s.startDrop i) := by
  simp only [startDrop]
  repeat' split
  all_goals
    repeat first
      | with_reducible assumption
      | with_reducible apply dropEnds_keep K
      | with_reducible apply dropWaiting_keep K
      | with_reducible apply onSlug_keep K
      | with_reducible apply onPass_keep K.toKeepFlags
      | with_reducible apply refreshLevels_keep K.toKeepFlags
      | apply K.slug

theorem restartDrop_keep (K : KeepWork P) (h : P s) : P (s.restartDrop) := by
  simp only [restartDrop]
  repeat' split
  all_goals
    repeat first
      | with_reducible assumption
      | with_reducible apply dropWaiting_keep K

theorem slugGone_keep (K : KeepWork P) (h : P s) : P (s.slugGone) := by
  simp only [slugGone]
  repeat' split
  all_goals
    repeat first
      | with_reducible assumption
      | with_reducible apply dropEnds_keep K
      | with_reducible apply earlyDrop_keep K

theorem slugFree_keep (K : KeepWork P) (h : P s) : P (s.slugFree) := by
  simp only [slugFree]
  repeat' split
  all_goals
    repeat first
      | with_reducible assumption
      | with_reducible apply startDrop_keep K
      | with_reducible apply disarmWatch_keep K
      | with_reducible apply setRetention_keep K
      | with_reducible apply report_keep K

theorem holderConfirmed_keep (K : KeepWork P) (h : P s) : P (s.holderConfirmed) := by
  simp only [holderConfirmed]
  repeat' split
  all_goals
    repeat first
      | with_reducible assumption
      | with_reducible apply onHolder_keep K
      | with_reducible apply report_keep K
      | apply K.holder

theorem beginEngage_keep (K : KeepWork P) (h : P s) (i) : P (s.beginEngage i) := by
  simp only [beginEngage]
  repeat' split
  all_goals
    repeat first
      | with_reducible assumption
      | with_reducible apply holderConfirmed_keep K
      | with_reducible apply onHolder_keep K
      | with_reducible apply refreshLevels_keep K.toKeepFlags
      | apply K.holder

theorem engageRequest_keep (K : KeepWork P) (h : P s) (i) : P (s.engageRequest i) := by
  simp only [engageRequest]
  repeat' split
  all_goals
    repeat first
      | with_reducible assumption
      | with_reducible apply beginEngage_keep K
      | with_reducible apply onHolder_keep K
      | with_reducible apply refreshLevels_keep K.toKeepFlags
      | apply K.holder

theorem takeUpWaiting_keep (K : KeepWork P) (h : P s) : P (s.takeUpWaiting) := by
  simp only [takeUpWaiting]
  repeat' split
  all_goals
    repeat first
      | with_reducible assumption
      | with_reducible apply beginEngage_keep K

theorem takeUpTimedOut_keep (K : KeepWork P) (h : P s) : P (s.takeUpTimedOut) := by
  simp only [takeUpTimedOut]
  repeat' split
  all_goals
    repeat first
      | with_reducible assumption
      | with_reducible apply engageRequest_keep K
      | with_reducible apply onHolder_keep K
      | apply K.holder

theorem engageTimedOut_keep (K : KeepWork P) (h : P s) : P (s.engageTimedOut) := by
  simp only [engageTimedOut]
  repeat' split
  all_goals
    repeat first
      | with_reducible assumption
      | with_reducible apply takeUpWaiting_keep K
      | with_reducible apply onHolder_keep K
      | with_reducible apply refreshLevels_keep K.toKeepFlags
      | with_reducible apply raise_keep K.toKeepFlags
      | with_reducible apply forceHold_keep K.toKeepFlags
      | apply K.holder

theorem releaseTimedOut_keep (K : KeepWork P) (h : P s) : P (s.releaseTimedOut) := by
  simp only [releaseTimedOut]
  repeat' split
  all_goals
    repeat first
      | with_reducible assumption
      | with_reducible apply onHolder_keep K
      | with_reducible apply raise_keep K.toKeepFlags
      | with_reducible apply forceHold_keep K.toKeepFlags
      | apply K.holder

theorem releaseDone_keep (K : KeepWork P) (h : P s) : P (s.releaseDone) := by
  simp only [releaseDone]
  repeat' split
  all_goals
    repeat first
      | with_reducible assumption
      | with_reducible apply takeUpWaiting_keep K
      | with_reducible apply onHolder_keep K
      | with_reducible apply setRetention_keep K
      | apply K.holder

theorem lostForCurrent_keep (K : KeepWork P) (h : P s) : P (s.lostForCurrent) := by
  simp only [lostForCurrent]
  repeat' split
  all_goals
    repeat first
      | with_reducible assumption
      | with_reducible apply onJob_keep K
      | with_reducible apply recompute_keep K
      | with_reducible apply onPass_keep K.toKeepFlags
      | apply K.job
      | with_reducible rfl

theorem slugLost_keep (K : KeepWork P) (h : P s) : P (s.slugLost) := by
  simp only [slugLost]
  repeat' split
  all_goals
    repeat first
      | with_reducible assumption
      | with_reducible apply lostForCurrent_keep K
      | with_reducible apply takeUpWaiting_keep K
      | with_reducible apply onHolder_keep K
      | with_reducible apply setRetention_keep K
      | with_reducible apply raise_keep K.toKeepFlags
      | with_reducible apply forceHold_keep K.toKeepFlags
      | apply K.holder

theorem holderLine_keep (K : KeepWork P) (h : P s) : P (s.holderLine) := by
  simp only [holderLine]
  repeat' split
  all_goals
    repeat first
      | with_reducible assumption
      | with_reducible apply slugLost_keep K
      | with_reducible apply releaseDone_keep K
      | with_reducible apply holderConfirmed_keep K

theorem retentionLeft_keep (K : KeepWork P) (h : P s) (i) : P (s.retentionLeft i) := by
  simp only [retentionLeft]
  repeat' split
  all_goals
    repeat first
      | with_reducible assumption
      | with_reducible apply dropIdle_keep K
      | with_reducible apply disarmWatch_keep K
      | with_reducible apply onHolder_keep K
      | with_reducible apply refreshLevels_keep K.toKeepFlags
      | apply K.holder

end State
end Sys2Proof.Machine
end

