-- ==== Sys2Proof/Laws/KeepStep.lean ====
section
/-! SUPPORT. What a whole step can do: a property kept by every elementary change of the part, and by a
reset, is kept by every step. -/

set_option Elab.async false

namespace Sys2Proof.Machine

/-- A property kept by every elementary change of the part, and by a reset. -/
structure KeepAll (P : State → Prop) : Prop extends KeepWork P where
  jobAny : ∀ s v, P s → P (s.withJob v)
  params : ∀ s v, P s → P (s.withParams v)
  sensors : ∀ s v, P s → P (s.withSensors v)
  free : ∀ s v, P s → P (s.withFree v)
  pending : ∀ s v, P s → P (s.withPending v)
  reset : ∀ s k, P s → P (s.cleared k)

namespace State

variable {P : State → Prop} {s : State}

theorem done_same (h : P s) : P (done s).state := h
theorem refuse_same (h : P s) (st) : P (refuse s st).state := h
theorem refuseAt_same (h : P s) (st i) : P (refuseAt s st i).state := h
theorem report_same (h : P s) (f) : P (Machine.report s f).state := h

theorem onJob_keepAll (K : KeepAll P) (h : P s) (f) : P (s.onJob f) := K.jobAny _ _ h
theorem withThread_keepAll (K : KeepAll P) (h : P s) (v) : P (s.withThread v) := K.thread _ _ h
theorem onSlug_keepAll (K : KeepAll P) (h : P s) (f) : P (s.onSlug f) := K.slug _ _ h
theorem onHolder_keepAll (K : KeepAll P) (h : P s) (f) : P (s.onHolder f) := K.holder _ _ h
theorem withAgenda_keepAll (K : KeepAll P) (h : P s) (v) : P (s.withAgenda v) := K.agenda _ _ h
theorem withPath_keepAll (K : KeepAll P) (h : P s) (v) : P (s.withPath v) := K.path _ _ h
theorem onLink_keepAll (K : KeepAll P) (h : P s) (f) : P (s.onLink f) := K.link _ _ h
theorem onSensors_keepAll (K : KeepAll P) (h : P s) (f) : P (s.onSensors f) := K.sensors _ _ h
theorem onParams_keepAll (K : KeepAll P) (h : P s) (f) : P (s.onParams f) := K.params _ _ h
theorem nextFree_keepAll (K : KeepAll P) (h : P s) : P s.nextFree := K.free _ _ h
theorem withPending_keepAll (K : KeepAll P) (h : P s) (v) : P (s.withPending v) := K.pending _ _ h
theorem withConds_keepAll (K : KeepAll P) (h : P s) (v) : P (s.withConds v) := K.conds _ _ h

/-! ## Contour table -/

theorem rapidToPass_keep (K : KeepAll P) (h : P s) : P s.rapidToPass := by
  simp only [rapidToPass]
  repeat' split
  all_goals
    repeat first
      | with_reducible assumption
      | with_reducible apply orderRapid_keep K.toKeepWork
      | with_reducible apply readSlots_keep K.toKeepWork

theorem order_keep (K : KeepAll P) (h : P s) (w) : P (s.order w) := by
  simp only [order]
  repeat' split
  all_goals
    repeat first
      | with_reducible assumption
      | with_reducible apply unthread_keep K.toKeepWork
      | with_reducible apply threadInGap_keep K.toKeepWork
      | with_reducible apply threadAtHole_keep K.toKeepWork
      | with_reducible apply orderRapid_keep K.toKeepWork
      | with_reducible apply rapidToPass_keep K
      | with_reducible apply onJob_keepAll K

theorem askOrder_keep (K : KeepAll P) (h : P s) (w) : P (s.askOrder w) := by
  simp only [askOrder]
  repeat' split
  all_goals
    repeat first
      | with_reducible assumption
      | with_reducible apply order_keep K
      | with_reducible apply onJob_keepAll K

theorem enterReentryWait_keep (K : KeepAll P) (h : P s) : P (s.enterReentryWait) := by
  simp only [enterReentryWait]
  repeat' split
  all_goals
    repeat first
      | with_reducible assumption
      | with_reducible apply changeContour_keep K.toKeepChange
      | with_reducible apply forceHold_keep K.toKeepFlags
      | with_reducible apply onJob_keepAll K

theorem laterPassChoice_keep (K : KeepAll P) (h : P s) (c) : P (s.laterPassChoice c) := by
  simp only [laterPassChoice]
  repeat' split
  all_goals
    repeat first
      | with_reducible assumption
      | with_reducible apply enterReentryWait_keep K
      | with_reducible apply askOrder_keep K
      | with_reducible apply readSlots_keep K.toKeepWork

theorem keepWire_keep (K : KeepAll P) (h : P s) (k w) : P (s.keepWire k w) := by
  simp only [keepWire]
  split
  · exact h
  · exact onJob_keepAll K h _

theorem reentryChoice_keep (K : KeepAll P) (h : P s) : P (s.reentryChoice) := by
  simp only [reentryChoice]
  repeat' split
  all_goals
    repeat first
      | with_reducible assumption
      | with_reducible apply laterPassChoice_keep K
      | with_reducible apply keepWire_keep K
      | with_reducible apply askOrder_keep K
      | with_reducible apply readSlots_keep K.toKeepWork

theorem towardsHole_keep (K : KeepAll P) (h : P s) : P (s.towardsHole) := by
  simp only [towardsHole]
  repeat' split
  all_goals
    repeat first
      | with_reducible assumption
      | with_reducible apply laterPassChoice_keep K
      | with_reducible apply askOrder_keep K

theorem firstOrder_keep (K : KeepAll P) (h : P s) : P (s.firstOrder) := by
  simp only [firstOrder]
  repeat' split
  all_goals
    repeat first
      | with_reducible assumption
      | with_reducible apply towardsHole_keep K
      | with_reducible apply order_keep K

theorem giveDue_keep (K : KeepAll P) (h : P s) : P (s.giveDue) := by
  simp only [giveDue]
  repeat' split
  all_goals
    repeat first
      | with_reducible assumption
      | with_reducible apply firstOrder_keep K
      | with_reducible apply order_keep K

theorem setJobState_keep (K : KeepAll P) (h : P s) (js) : P (s.setJobState js) := by
  simp only [setJobState]
  repeat' split
  all_goals
    repeat first
      | with_reducible assumption
      | with_reducible apply progress_keep K.toKeepChange
      | with_reducible apply onJob_keepAll K

theorem takeContour_keep (K : KeepAll P) (h : P s) (i stage) : P (s.takeContour i stage) := by
  simp only [takeContour]
  repeat' split
  all_goals
    repeat first
      | with_reducible assumption
      | with_reducible apply setJobState_keep K
      | with_reducible apply giveDue_keep K
      | with_reducible apply firstOrder_keep K
      | with_reducible apply changeContour_keep K.toKeepChange
      | with_reducible apply refreshLevels_keep K.toKeepFlags
      | with_reducible apply onJob_keepAll K

theorem completeJob_keep (K : KeepAll P) (h : P s) : P (s.completeJob) := by
  simp only [completeJob]
  all_goals
    repeat first
      | with_reducible assumption
      | with_reducible apply setJobState_keep K
      | with_reducible apply complete_keep K.toKeepWork
      | with_reducible apply progress_keep K.toKeepChange
      | with_reducible apply offer_keep K.toKeepOffer
      | with_reducible apply raise_keep K.toKeepFlags

theorem applyChoice_keep (K : KeepAll P) (h : P s) (c) : P (s.applyChoice c) := by
  simp only [applyChoice]
  repeat' split
  all_goals
    repeat first
      | with_reducible assumption
      | with_reducible apply completeJob_keep K
      | with_reducible apply takeContour_keep K
      | with_reducible apply setJobState_keep K
      | with_reducible apply complete_keep K.toKeepWork

theorem choose_keep (K : KeepAll P) (h : P s) : P (s.choose) := by
  simp only [choose]
  all_goals
    repeat first
      | with_reducible assumption
      | with_reducible apply applyChoice_keep K

theorem endWork_keep (K : KeepAll P) (h : P s) (i) : P (s.endWork i) := by
  simp only [endWork]
  all_goals
    repeat first
      | with_reducible assumption
      | with_reducible apply retentionLeft_keep K.toKeepWork
      | with_reducible apply endThread_keep K.toKeepWork
      | with_reducible apply endRapid_keep K.toKeepWork
      | with_reducible apply discardPass_keep K.toKeepWork
      | with_reducible apply genOff_keep K.toKeepFlags
      | with_reducible apply withAgenda_keepAll K
      | with_reducible apply onJob_keepAll K

theorem dropCurrent_keep (K : KeepAll P) (h : P s) : P (s.dropCurrent) := by
  simp only [dropCurrent]
  all_goals
    repeat first
      | with_reducible assumption
      | with_reducible apply refreshLevels_keep K.toKeepFlags
      | with_reducible apply onJob_keepAll K

theorem faultCurrent_keep (K : KeepAll P) (h : P s) (f) : P (s.faultCurrent f) := by
  simp only [faultCurrent]
  repeat' split
  all_goals
    repeat first
      | with_reducible assumption
      | with_reducible apply dropCurrent_keep K
      | with_reducible apply endWork_keep K
      | with_reducible apply choose_keep K
      | with_reducible apply changeContour_keep K.toKeepChange
      | with_reducible apply raise_keep K.toKeepFlags
      | with_reducible apply forceHold_keep K.toKeepFlags

theorem skipCurrent_keep (K : KeepAll P) (h : P s) (i) : P (s.skipCurrent i) := by
  simp only [skipCurrent]
  all_goals
    repeat first
      | with_reducible assumption
      | with_reducible apply dropCurrent_keep K
      | with_reducible apply endWork_keep K
      | with_reducible apply choose_keep K
      | with_reducible apply changeContour_keep K.toKeepChange

theorem abort_keep (K : KeepAll P) (h : P s) : P (s.abort) := by
  simp only [abort]
  repeat' split
  all_goals
    repeat first
      | with_reducible assumption
      | with_reducible apply dropCurrent_keep K
      | with_reducible apply endWork_keep K
      | with_reducible apply setJobState_keep K
      | with_reducible apply changeContour_keep K.toKeepChange
      | with_reducible apply offer_keep K.toKeepOffer
      | with_reducible apply forceHold_keep K.toKeepFlags
      | with_reducible apply genOff_keep K.toKeepFlags

theorem startPass_keep (K : KeepAll P) (h : P s) : P (s.startPass) := by
  simp only [startPass]
  repeat' split
  all_goals
    repeat first
      | with_reducible assumption
      | with_reducible apply faultCurrent_keep K
      | with_reducible apply createPass_keep K.toKeepWork
      | with_reducible apply recompute_keep K.toKeepWork
      | with_reducible apply onCur_keep K.toKeepChange
      | with_reducible apply raise_keep K.toKeepFlags
      | with_reducible apply onPath_keep K.toKeepFlags

theorem endPass_keep (K : KeepAll P) (h : P s) : P (s.endPass) := by
  simp only [endPass]
  repeat' split
  all_goals
    repeat first
      | with_reducible assumption
      | with_reducible apply startPass_keep K
      | with_reducible apply askOrder_keep K
      | with_reducible apply discardPass_keep K.toKeepWork
      | with_reducible apply changeContour_keep K.toKeepChange
      | with_reducible apply onContour_keep K.toKeepChange

theorem passEnded_keep (K : KeepAll P) (h : P s) : P (s.passEnded) := by
  simp only [passEnded]
  repeat' split
  all_goals
    repeat first
      | with_reducible assumption
      | with_reducible apply endPass_keep K
      | with_reducible apply slugFree_keep K.toKeepWork

theorem freePass_keep (K : KeepAll P) (h : P s) (i c k) : P (s.freePass i c k) := by
  simp only [freePass]
  repeat' split
  all_goals
    repeat first
      | with_reducible assumption
      | with_reducible apply freeChain_keep K.toKeepWork

theorem stageDone_keep (K : KeepAll P) (h : P s) : P s.stageDone := by
  simp only [stageDone]
  split
  · apply choose_keep K
    apply dropCurrent_keep K
    apply onJob_keepAll K
    refine foldl_keep (P := P) (fun u k => u.freePass _ _ k) (fun u k hu => freePass_keep K hu _ _ _) _ ?_
    split
    · exact disarmWatch_keep K.toKeepWork (setRetention_keep K.toKeepWork (changeContour_keep K.toKeepChange h _ _) _ _)
    · exact changeContour_keep K.toKeepChange h _ _
  · exact h

theorem wireWithdrawn_keep (K : KeepAll P) (h : P s) : P (s.wireWithdrawn) := by
  simp only [wireWithdrawn]
  repeat' split
  all_goals
    repeat first
      | with_reducible assumption
      | with_reducible apply stageDone_keep K
      | with_reducible apply towardsHole_keep K

theorem takeBreak_keep (K : KeepAll P) (h : P s) : P (s.takeBreak) := by
  simp only [takeBreak]
  repeat' split
  all_goals
    repeat first
      | with_reducible assumption
      | with_reducible apply faultCurrent_keep K
      | with_reducible apply reentryChoice_keep K
      | with_reducible apply endRapid_keep K.toKeepWork
      | with_reducible apply changeContour_keep K.toKeepChange
      | with_reducible apply onContour_keep K.toKeepChange
      | with_reducible apply refreshLevels_keep K.toKeepFlags
      | with_reducible apply raise_keep K.toKeepFlags
      | with_reducible apply genOff_keep K.toKeepFlags
      | with_reducible apply onJob_keepAll K

theorem beginApproach_keep (K : KeepAll P) (h : P s) (a) : P (s.beginApproach a) := by
  simp only [beginApproach]
  repeat' split
  all_goals
    repeat first
      | with_reducible assumption
      | with_reducible apply report_keep K.toKeepWork
      | with_reducible apply onPass_keep K.toKeepFlags
      | with_reducible apply onJob_keepAll K

theorem takeUp_keep (K : KeepAll P) (h : P s) : P (s.takeUp) := by
  simp only [takeUp]
  repeat' split
  all_goals
    repeat first
      | with_reducible assumption
      | with_reducible apply endPass_keep K
      | with_reducible apply engageRequest_keep K.toKeepWork
      | with_reducible apply armWatch_keep K.toKeepWork
      | with_reducible apply recomputeQuietly_keep K.toKeepWork
      | with_reducible apply recompute_keep K.toKeepWork
      | with_reducible apply liftSub_keep K.toKeepWork
      | with_reducible apply readSlots_keep K.toKeepWork
      | with_reducible apply changeContour_keep K.toKeepChange
      | with_reducible apply onPass_keep K.toKeepFlags
      | with_reducible apply onPath_keep K.toKeepFlags
      | with_reducible apply onJob_keepAll K

theorem holeThreaded_keep (K : KeepAll P) (h : P s) : P (s.holeThreaded) := by
  simp only [holeThreaded]
  repeat' split
  all_goals
    repeat first
      | with_reducible assumption
      | with_reducible apply beginApproach_keep K
      | with_reducible apply startPass_keep K
      | with_reducible apply armWatch_keep K.toKeepWork
      | with_reducible apply changeContour_keep K.toKeepChange
      | with_reducible apply onJob_keepAll K

theorem holeExhausted_keep (K : KeepAll P) (h : P s) : P (s.holeExhausted) := by
  simp only [holeExhausted]
  repeat' split
  all_goals
    repeat first
      | with_reducible assumption
      | with_reducible apply faultCurrent_keep K

theorem gapThreaded_keep (K : KeepAll P) (h : P s) : P (s.gapThreaded) := by
  simp only [gapThreaded]
  repeat' split
  all_goals
    repeat first
      | with_reducible assumption
      | with_reducible apply takeUp_keep K
      | with_reducible apply beginApproach_keep K

theorem gapFailed_keep (K : KeepAll P) (h : P s) : P (s.gapFailed) := by
  simp only [gapFailed]
  repeat' split
  all_goals
    repeat first
      | with_reducible assumption
      | with_reducible apply enterReentryWait_keep K
      | with_reducible apply askOrder_keep K

theorem tableMoveDone_keep (K : KeepAll P) (h : P s) : P (s.tableMoveDone) := by
  simp only [tableMoveDone]
  repeat' split
  all_goals
    repeat first
      | with_reducible assumption
      | with_reducible apply laterPassChoice_keep K
      | with_reducible apply askOrder_keep K

theorem holderHolds_keep (K : KeepAll P) (h : P s) : P (s.holderHolds) := by
  simp only [holderHolds]
  repeat' split
  all_goals
    repeat first
      | with_reducible assumption
      | with_reducible apply recompute_keep K.toKeepWork
      | with_reducible apply liftSub_keep K.toKeepWork
      | with_reducible apply onJob_keepAll K

theorem proceed_keep (K : KeepAll P) (h : P s) : P (s.proceed) := by
  simp only [proceed]
  repeat' split
  all_goals
    repeat first
      | with_reducible assumption
      | with_reducible apply endPass_keep K
      | with_reducible apply onJob_keepAll K

theorem handle_keep (K : KeepAll P) (h : P s) (r) : P (s.handle r) := by
  cases r with
  | moveDone o =>
    cases o with
    | contourTable => exact tableMoveDone_keep K h
    | search => exact searchMoved_keep K.toKeepWork h
    | centre => exact centreMoved_keep K.toKeepWork h
  | moveRefused o =>
    cases o with
    | contourTable => exact faultCurrent_keep K h _
    | search => exact threadMoveRefused_keep K.toKeepWork h
    | centre => exact threadMoveRefused_keep K.toKeepWork h
  | engageReached =>
    simp only [handle]
    split
    · exact engageRequest_keep K.toKeepWork h _
    · exact h
  | passEnd => exact passEnded_keep K h
  | approachDone => exact takeUp_keep K h
  | stuck => exact faultCurrent_keep K h _
  | corrupt => exact faultCurrent_keep K h _
  | threaded => exact holeThreaded_keep K h
  | exhausted => exact holeExhausted_keep K h
  | threadKeepOut => exact faultCurrent_keep K h _
  | gapThreaded => exact gapThreaded_keep K h
  | gapFailed => exact gapFailed_keep K h
  | withdrawn => exact wireWithdrawn_keep K h
  | pullTimedOut => exact faultCurrent_keep K h _
  | holderHolding => exact holderHolds_keep K h
  | proceed => exact proceed_keep K h

theorem settleGo_keep (K : KeepAll P) (h : P s) (n) : P (settleGo n s) := by
  induction n generalizing s with
  | zero => exact h
  | succ n ih =>
    simp only [settleGo]
    split
    · exact h
    · exact ih (handle_keep K (K.agenda _ _ h) _)

theorem settle_keep (K : KeepAll P) (h : P s) : P (s.settle) := by
  simp only [settle]
  all_goals
    repeat first
      | with_reducible assumption
      | with_reducible apply settleGo_keep K

theorem resumePass_keep (K : KeepAll P) (h : P s) : P (s.resumePass) := by
  simp only [resumePass]
  all_goals
    repeat first
      | with_reducible assumption
      | with_reducible apply refreshGen_keep K.toKeepWork
      | with_reducible apply onPass_keep K.toKeepFlags

theorem toRun_keep (K : KeepAll P) (h : P s) (hm : s.mode = .hold) : P s.toRun :=
  takeUpTimedOut_keep K.toKeepWork <| restartDrop_keep K.toKeepWork <| giveDue_keep K <|
    beginHeld_keep K.toKeepWork <| resumePass_keep K <| K.modes _ _ h (.run _ hm)

theorem wireLine_keep (K : KeepAll P) (h : P s) : P (s.wireLine) := by
  simp only [wireLine]
  repeat' split
  all_goals
    repeat first
      | with_reducible assumption
      | with_reducible apply takeBreak_keep K
      | with_reducible apply threadWireLost_keep K.toKeepWork
      | with_reducible apply refreshGen_keep K.toKeepWork

theorem slugLine_keep (K : KeepAll P) (h : P s) : P (s.slugLine) := by
  simp only [slugLine]
  repeat' split
  all_goals
    repeat first
      | with_reducible assumption
      | with_reducible apply slugGone_keep K.toKeepWork
      | with_reducible apply raise_keep K.toKeepFlags

theorem lineChanged_keep (K : KeepAll P) (h : P s) (l) : P (s.lineChanged l) := by
  cases l with
  | wireIntact => exact wireLine_keep K h
  | lowerDetect => exact threadLowerDetect_keep K.toKeepWork h
  | slugPresent => exact slugLine_keep K h
  | holderEngaged => exact holderLine_keep K.toKeepWork h
  | doorClosed => exact refreshLevels_keep K.toKeepFlags h
  | tankFull => exact refreshLevels_keep K.toKeepFlags h
  | aux0 => exact refreshLevels_keep K.toKeepFlags h
  | aux1 => exact refreshLevels_keep K.toKeepFlags h

/-! ## Lines -/

theorem setLine_keep (K : KeepAll P) (h : P s) (l r) : P (s.setLine l r) := K.sensors _ _ h

theorem putLine_keep (K : KeepAll P) (h : P s) (l r) : P (s.putLine l r) := by
  simp only [putLine]
  repeat' split
  all_goals
    repeat first
      | with_reducible assumption
      | with_reducible apply setLine_keep K
      | with_reducible apply lineChanged_keep K

theorem takeLevel_keep (K : KeepAll P) (h : P s) (l) : P (s.takeLevel l) := by
  simp only [takeLevel]
  all_goals
    repeat first
      | with_reducible assumption
      | with_reducible apply putLine_keep K

theorem follow_keep (K : KeepAll P) (h : P s) (l) : P (s.follow l) := by
  simp only [follow]
  repeat' split
  all_goals
    repeat first
      | with_reducible assumption
      | with_reducible apply takeLevel_keep K
      | with_reducible apply setLine_keep K

theorem inputChange_keep (K : KeepAll P) (h : P s) (l b) : P (s.inputChange l b) := by
  simp only [inputChange]
  repeat' split
  all_goals
    repeat first
      | with_reducible assumption
      | with_reducible apply follow_keep K
      | with_reducible apply setLine_keep K

theorem filterExpiry_keep (K : KeepAll P) (h : P s) (l) : P (s.filterExpiry l) := by
  simp only [filterExpiry]
  repeat' split
  all_goals
    repeat first
      | with_reducible assumption
      | with_reducible apply takeLevel_keep K

theorem freeze_keep (K : KeepAll P) (h : P s) (l) : P (s.freeze l) := by
  simp only [freeze]
  all_goals
    repeat first
      | with_reducible assumption
      | with_reducible apply setLine_keep K

theorem rewrite_keep (K : KeepAll P) (h : P s) (l p f) : P (s.rewrite l p f) := by
  simp only [rewrite]
  repeat' split
  all_goals
    repeat first
      | with_reducible assumption
      | with_reducible apply takeLevel_keep K
      | with_reducible apply putLine_keep K
      | with_reducible apply setLine_keep K
      | with_reducible apply settle_keep K
      | with_reducible apply nextFree_keepAll K

theorem unmask_keep (K : KeepAll P) (h : P s) (l) : P (s.unmask l) := by
  simp only [unmask]
  all_goals
    repeat first
      | with_reducible assumption
      | with_reducible apply follow_keep K
      | with_reducible apply putLine_keep K
      | with_reducible apply settle_keep K

theorem configure_keep (K : KeepAll P) (h : P s) (l p f b) : P (s.configure l p f b) := by
  simp only [configure]
  repeat' split
  all_goals
    repeat first
      | with_reducible assumption
      | with_reducible apply unmask_keep K
      | with_reducible apply rewrite_keep K
      | with_reducible apply freeze_keep K

/-! ## Requests -/

theorem mapConds_keep (K : KeepAll P) (h : P s) (f) : P (s.mapConds f) := K.conds _ _ h

theorem takeIdentify_keep (_ : KeepAll P) (h : P s) (p) : P (takeIdentify p s).state := by
  simp only [takeIdentify, ofLength]
  repeat' split
  all_goals
    repeat first
      | with_reducible assumption
      | with_reducible apply report_keep K.toKeepWork
      | with_reducible apply refuse_same
      | with_reducible apply report_same

theorem takeReadStatus_keep (_ : KeepAll P) (h : P s) (p) : P (takeReadStatus p s).state := by
  simp only [takeReadStatus, ofLength]
  repeat' split
  all_goals
    repeat first
      | with_reducible assumption
      | with_reducible apply report_keep K.toKeepWork
      | with_reducible apply refuse_same
      | with_reducible apply report_same

theorem takeQueryResetCause_keep (K : KeepAll P) (h : P s) (p) : P (takeQueryResetCause p s).state := by
  simp only [takeQueryResetCause, ofLength]
  repeat' split
  all_goals
    repeat first
      | with_reducible assumption
      | with_reducible apply report_keep K.toKeepWork
      | with_reducible apply onLink_keepAll K
      | with_reducible apply refuse_same
      | with_reducible apply report_same

theorem takeReset_keep (K : KeepAll P) (h : P s) (p) : P (takeReset p s).state := by
  simp only [takeReset, ofLength]
  repeat' split
  all_goals
    repeat first
      | with_reducible assumption
      | with_reducible apply onLink_keepAll K
      | with_reducible apply done_same
      | with_reducible apply refuse_same

theorem onStore_keepAll (K : KeepAll P) (h : P s) (f) (hf : StoreMove s.store (f s.store)) :
    P (s.onStore f) := K.store _ _ h hf

theorem putKeepOut_move (t : Store) (n k) : StoreMove t (t.putKeepOut n k) := by
  unfold Store.putKeepOut
  split <;> exact .same_chains rfl rfl

theorem writeParam_keep (K : KeepAll P) (h : P s) (a b v) : P (writeParam a b v s).state := by
  simp only [writeParam]
  repeat' split
  all_goals
    repeat first
      | with_reducible assumption
      | with_reducible apply refreshLevels_keep K.toKeepFlags
      | with_reducible apply onParams_keepAll K
      | with_reducible apply done_same
      | with_reducible apply refuse_same

theorem takeTravelWindow_keep (K : KeepAll P) (h : P s) (p) : P (takeTravelWindow p s).state := by
  simp only [takeTravelWindow]
  repeat' split
  all_goals
    repeat first
      | with_reducible assumption
      | with_reducible apply onStore_keep K.toKeepWork
      | with_reducible apply onStore_keepAll K
      | exact .same_chains rfl rfl
      | with_reducible apply done_same
      | with_reducible apply refuse_same

theorem takeKeepOut_keep (K : KeepAll P) (h : P s) (p) : P (takeKeepOut p s).state := by
  simp only [takeKeepOut]
  repeat' split
  all_goals
    repeat first
      | with_reducible assumption
      | with_reducible apply onStore_keep K.toKeepWork
      | with_reducible apply onStore_keepAll K
      | with_reducible apply putKeepOut_move
      | with_reducible apply done_same
      | with_reducible apply refuse_same

theorem takeCorrectedCount_keep (K : KeepAll P) (h : P s) (p) : P (takeCorrectedCount p s).state := by
  simp only [takeCorrectedCount]
  repeat' split
  all_goals
    repeat first
      | with_reducible assumption
      | with_reducible apply onStore_keep K.toKeepWork
      | with_reducible apply onStore_keepAll K
      | exact .same_chains rfl rfl
      | with_reducible apply done_same
      | with_reducible apply refuse_same

theorem takeSetParam_keep (K : KeepAll P) (h : P s) (p) : P (takeSetParam p s).state := by
  simp only [takeSetParam]
  repeat' split
  all_goals
    repeat first
      | with_reducible assumption
      | with_reducible apply takeCorrectedCount_keep K
      | with_reducible apply takeKeepOut_keep K
      | with_reducible apply takeTravelWindow_keep K
      | with_reducible apply writeParam_keep K
      | with_reducible apply refuse_same

theorem takeGetParam_keep (_ : KeepAll P) (h : P s) (p) : P (takeGetParam p s).state := by
  simp only [takeGetParam]
  repeat' split
  all_goals
    repeat first
      | with_reducible assumption
      | with_reducible apply report_keep K.toKeepWork
      | with_reducible apply refuse_same
      | with_reducible apply report_same

theorem takeSetOverride_keep (K : KeepAll P) (h : P s) (p) : P (takeSetOverride p s).state := by
  simp only [takeSetOverride, ofLength]
  repeat' split
  all_goals
    repeat first
      | with_reducible assumption
      | with_reducible apply writeParam_keep K
      | with_reducible apply refuse_same

theorem setChain_keep (K : KeepAll P) (h : P s) (c) (v : Option Chain) (hv : slotsIn v = slotsIn (s.chain c))
    (hf : s.store.Formed → ∀ k, v = some k → k.Formed) : P (s.setChain c v) := by
  refine K.store s { s.store with chains := s.store.chains.set c v } h (StoreMove.set (n := s.store.freeSlots) ?_ hf)
  have e := credit_set s.store c v s.store.freeSlots
  rw [hv, chain] at e
  simp only [Store.credit] at e ⊢
  omega

theorem openChain_keep (K : KeepAll P) (h : P s) (c start) (hc : ¬(s.chain c).isSome = true) :
    P (s.setChain c (some (newChain start))) :=
  setChain_keep K h _ _ (by rw [Option.not_isSome_iff_eq_none.mp hc]; rfl) fun _ _ hk => by
    cases hk
    exact ⟨rfl, fun _ _ hg => by cases hg⟩

theorem takeOpenChain_keep (K : KeepAll P) (h : P s) (p) : P (takeOpenChain p s).state := by
  simp only [takeOpenChain, ofLength, withChain]
  repeat' split
  all_goals first
    | with_reducible exact refuse_same h _
    | exact openChain_keep K h _ _ ‹_›

theorem chainChanged_keep (K : KeepAll P) (h : P s) (c) : P (s.chainChanged c) := by
  simp only [chainChanged]
  repeat' split
  all_goals
    repeat first
      | with_reducible assumption
      | with_reducible apply recompute_keep K.toKeepWork
      | with_reducible apply settlePosition_keep K.toKeepWork
      | with_reducible apply refreshLevels_keep K.toKeepFlags

theorem checkSegments_length {t : Store} {e : Point} {n i : Nat} {qs : List Payload} {gs : List Segment}
    (h : checkSegments t e n i qs = .ok gs) : gs.length = qs.length := by
  induction qs generalizing e n i gs with
  | nil => cases h; rfl
  | cons q qs ih =>
    simp only [checkSegments] at h
    split at h
    · cases h
    · split at h
      · cases h
      · cases h
        simp [ih ‹_›]

theorem checkSegment_start {t : Store} {e : Point} {n : Nat} {q : Payload} {g : Segment}
    (h : checkSegment t e n q = .ok g) : g.cumStart = n := by
  simp only [checkSegment, checkLine, checkArc] at h
  repeat' split at h
  all_goals cases h
  all_goals rfl

theorem checkSegments_starts {t : Store} {e : Point} {n i : Nat} {qs : List Payload} {gs : List Segment}
    (h : checkSegments t e n i qs = .ok gs) :
    ∀ m g, gs[m]? = some g → g.cumStart = n + ((gs.take m).map (·.length)).sum := by
  induction qs generalizing e n i gs with
  | nil => cases h; intro m g hg; cases hg
  | cons q qs ih =>
    simp only [checkSegments] at h
    split at h
    · cases h
    · split at h
      · cases h
      · cases h
        rename_i hq _ _ hs
        intro m g hg
        cases m with
        | zero => cases hg; simpa using checkSegment_start hq
        | succ m =>
          have := ih hs m g (by simpa using hg)
          simp only [List.take_succ_cons, List.map_cons, List.sum_cons]
          omega

theorem load_keep (K : KeepAll P) (h : P s) (c k gs) (hk : s.chain c = some k)
    (hg : gs.length ≤ s.store.freeSlots)
    (hs : ∀ n g, gs[n]? = some g → g.cumStart = k.loaded + ((gs.take n).map (·.length)).sum) :
    P (s.load c k gs) := by
  refine chainChanged_keep K (s := (s.setChain c (some (k.append gs))).onStore fun t =>
    { t with freeSlots := t.freeSlots - gs.length }) ?_ c
  refine K.store s { s.store with chains := s.store.chains.set c (some (k.append gs)),
                                  freeSlots := s.store.freeSlots - gs.length } h
    (StoreMove.set ?_ fun hf l hl => by cases hl; exact (hf c k hk).append hs)
  have e := credit_set s.store c (some (k.append gs)) (s.store.freeSlots - gs.length)
  have hk' : s.store.chains[c] = some k := hk
  rw [hk'] at e
  simp only [slotsIn, Chain.append, List.length_append, Store.credit] at e ⊢
  omega

theorem takeLoadSegments_keep (K : KeepAll P) (h : P s) (p) : P (takeLoadSegments p s).state := by
  simp only [takeLoadSegments, withChain]
  repeat' split
  all_goals first
    | with_reducible exact refuse_same h _
    | with_reducible exact refuseAt_same h _ _
    | (refine load_keep K h _ _ _ ‹_› ?_ (checkSegments_starts ‹_›)
       have := checkSegments_length ‹_›
       omega)

theorem takeCloseChain_keep (K : KeepAll P) (h : P s) (p) : P (takeCloseChain p s).state := by
  simp only [takeCloseChain, ofLength, withChain]
  repeat' split
  all_goals first
    | with_reducible exact refuse_same h _
    | (refine chainChanged_keep K (setChain_keep K h _ _ ?_ fun hf _ hl => ?_) _
       · rw [‹s.chain _ = some _›]
         rfl
       · have hk := hf _ _ ‹s.chain _ = some _›
         cases hl
         exact hk.of_spans rfl rfl)

theorem takeDropChain_keep (K : KeepAll P) (h : P s) (p) : P (takeDropChain p s).state := by
  simp only [takeDropChain, ofLength, withChain]
  repeat' split
  all_goals
    repeat first
      | with_reducible assumption
      | with_reducible apply freeChain_keep K.toKeepWork
      | with_reducible apply done_same
      | with_reducible apply refuse_same

theorem takeQueryChain_keep (K : KeepAll P) (h : P s) (p) : P (takeQueryChain p s).state := by
  simp only [takeQueryChain, ofLength, withChain]
  repeat' split
  all_goals
    repeat first
      | with_reducible assumption
      | with_reducible apply readSlots_keep K.toKeepWork
      | with_reducible apply report_keep K.toKeepWork
      | with_reducible apply refuse_same
      | with_reducible apply report_same

theorem bindFrom_keep (K : KeepAll P) (h : P s) (i n ps) : P (bindFrom i n ps s) := by
  induction ps generalizing s n with
  | nil => exact h
  | cons p ps ih => exact ih (onChain_keep K.toKeepWork h _ (fun k => { k with binding := some (i, n) }) fun _ => ⟨rfl, rfl⟩) _

theorem setContour_keep (K : KeepAll P) (h : P s) (i c) : P (s.setContour i c) := K.contours _ _ h

theorem freeFrom_keep (K : KeepAll P) (h : P s) (i c n k) : P (freeFrom i c n k s) := by
  induction n generalizing s k with
  | zero => exact h
  | succ n ih => exact ih (freePass_keep K h _ _ _) _

theorem define_keep (K : KeepAll P) (h : P s) (i d) : P (s.define i d) := by
  simp only [define]
  repeat' split
  all_goals
    repeat first
      | with_reducible assumption
      | with_reducible apply setContour_keep K
      | with_reducible apply bindFrom_keep K
      | with_reducible apply choose_keep K
      | with_reducible apply contourChanged_keep K.toKeepChange

theorem defined_keep (h : P s) (i d b) : P (defined s i d b).state := by
  simp only [defined]
  split <;> exact h

theorem takeDefineContour_keep (K : KeepAll P) (h : P s) (p) : P (takeDefineContour p s).state := by
  simp only [takeDefineContour, withSlot]
  repeat' split
  all_goals
    repeat first
      | with_reducible assumption
      | with_reducible apply defined_keep K
      | with_reducible apply define_keep K
      | with_reducible apply defined_keep
      | with_reducible apply refuse_same
      | with_reducible apply refuseAt_same

theorem delete_keep (K : KeepAll P) (h : P s) (i c) : P (s.delete i c) := by
  simp only [delete]
  repeat' split
  all_goals
    repeat first
      | with_reducible assumption
      | with_reducible apply freeFrom_keep K
      | with_reducible apply setContour_keep K
      | with_reducible apply choose_keep K
      | with_reducible apply contourChanged_keep K.toKeepChange

theorem takeDeleteContour_keep (K : KeepAll P) (h : P s) (p) : P (takeDeleteContour p s).state := by
  simp only [takeDeleteContour, ofLength, withSlot]
  repeat' split
  all_goals
    repeat first
      | with_reducible assumption
      | with_reducible apply delete_keep K
      | with_reducible apply done_same
      | with_reducible apply refuse_same

theorem takeQueryContour_keep (_ : KeepAll P) (h : P s) (p) : P (takeQueryContour p s).state := by
  simp only [takeQueryContour, ofLength, withSlot]
  repeat' split
  all_goals
    repeat first
      | with_reducible assumption
      | with_reducible apply report_keep K.toKeepWork
      | with_reducible apply refuse_same
      | with_reducible apply report_same

theorem foldl_modes {α : Type} (f : State → α → State) (hf : ∀ s a, (f s a).modes = s.modes) (l : List α)
    (s : State) : (l.foldl f s).modes = s.modes := by
  induction l generalizing s with
  | nil => rfl
  | cons a l ih => exact (ih _).trans (hf _ _)

theorem clearJobAndPath_modes (s : State) : s.clearJobAndPath.modes = s.modes :=
  foldl_modes clearLatch (fun _ _ => rfl) _ _

theorem start_keep (K : KeepAll P) (h : P s) (hm : s.mode = .hold) : P s.start := by
  simp only [start]
  apply applyChoice_keep K
  apply offer_keep K.toKeepOffer
  apply toRun_keep K (clearJobAndPath_keep K.toKeepFlags h)
  simpa [mode, clearJobAndPath_modes] using hm

theorem takeStart_keep (K : KeepAll P) (h : P s) : P (takeStart s).state := by
  simp only [takeStart]
  split
  · exact start_keep K h (‹_ ∧ _›).1
  · exact h

theorem orderResumed_keep (K : KeepAll P) (h : P s) : P (s.orderResumed) := by
  simp only [orderResumed]
  repeat' split
  all_goals
    repeat first
      | with_reducible assumption
      | with_reducible apply takeUp_keep K
      | with_reducible apply giveDue_keep K

theorem takeResumed_keep (K : KeepAll P) (h : P s) (i n pos stage) : P (s.takeResumed i n pos stage) := by
  simp only [takeResumed]
  repeat' split
  all_goals
    repeat first
      | with_reducible assumption
      | with_reducible apply orderResumed_keep K
      | with_reducible apply setJobState_keep K
      | with_reducible apply firstOrder_keep K
      | with_reducible apply findStop_keep K.toKeepWork
      | with_reducible apply createPass_keep K.toKeepWork
      | with_reducible apply changeContour_keep K.toKeepChange
      | with_reducible apply refreshLevels_keep K.toKeepFlags
      | with_reducible apply onJob_keepAll K

/-- An offer changes the mode unit only by a forced hold. -/
theorem offer_hold (s : State) (r) (hm : s.mode = .hold) : (s.offer r).mode = .hold := by
  have hs : ∀ (t : State) (c v), t.modes = s.modes → (t.setLive c v).mode = .hold ∨ c.wakes = true := by
    intro t c v ht
    have hl : ∀ (u : State), u.modes = s.modes → (u.latch c).modes = s.modes ∨ c.wakes = true := by
      intro u hu
      simp only [latch]
      repeat' split
      · exact .inl hu
      · exact .inr ‹_›
      · exact .inl hu
      · exact .inl hu
      · exact .inl hu
    have hf : ∀ (u : State), u.modes = s.modes → u.forceHold.mode = .hold := by
      intro u hu
      have : u.mode = .hold := by rw [mode, hu]; exact hm
      simp [forceHold, this]
    simp only [setLive]
    repeat' split
    · exact .inl (by rw [mode, ht]; exact hm)
    · exact (hl (t.setCond c { t.cond c with live := v }) ht).imp_left (hf _)
    · exact (hl (t.setCond c { t.cond c with live := v }) ht).imp_left fun e => by rw [mode, e]; exact hm
    · exact .inl (by rw [mode]; exact (congrArg ModeUnit.mode ht).trans hm)
  exact (hs (s.onJournal fun j => j.take r) .journalBlocked _ rfl).resolve_right (by simp [Cond.wakes])

theorem startResumed_keep (K : KeepAll P) (h : P s) (i n pos) (hm : s.mode = .hold) :
    P (s.startResumed i n pos) := by
  simp only [startResumed]
  split
  · apply takeResumed_keep K
    apply toRun_keep K
    · exact offer_keep K.toKeepOffer (onJob_keepAll K (clearJobAndPath_keep K.toKeepFlags h) _) _
    · refine offer_hold _ _ ?_
      simpa [mode, onJob, clearJobAndPath_modes] using hm
  · exact h

theorem takeStartResumed_keep (K : KeepAll P) (h : P s) (p) : P (takeStartResumed p s).state := by
  simp only [takeStartResumed, withSlot]
  repeat' split
  all_goals first
    | with_reducible exact refuse_same h _
    | (refine startResumed_keep K h _ _ _ ?_
       have := ‹¬(s.mode ≠ .hold ∨ _)›
       exact Classical.byContradiction fun e => this (.inl e))

theorem takeStartJob_keep (K : KeepAll P) (h : P s) (p) : P (takeStartJob p s).state := by
  simp only [takeStartJob, ofLength]
  repeat' split
  all_goals
    repeat first
      | with_reducible assumption
      | with_reducible apply takeStartResumed_keep K
      | with_reducible apply takeStart_keep K
      | with_reducible apply refuse_same

theorem takeAbortJob_keep (K : KeepAll P) (h : P s) (p) : P (takeAbortJob p s).state := by
  simp only [takeAbortJob, ofLength]
  repeat' split
  all_goals
    repeat first
      | with_reducible assumption
      | with_reducible apply abort_keep K
      | with_reducible apply done_same
      | with_reducible apply refuse_same

theorem takeHold_keep (K : KeepAll P) (h : P s) (p) : P (takeHold p s).state := by
  simp only [takeHold, ofLength]
  repeat' split
  · exact holdEntry_keep K.toKeepFlags h ‹_›
  · exact K.modes _ _ h (.withdraw _ ‹_›)
  all_goals exact h

theorem takeResume_keep (K : KeepAll P) (h : P s) (p) : P (takeResume p s).state := by
  simp only [takeResume, ofLength]
  repeat' split
  · exact toRun_keep K h (‹_ ∧ _›).1
  all_goals exact h

theorem askPark_keep (K : KeepAll P) (h : P s) (hm : s.mode = .hold) : P s.askPark :=
  parkIfDue_keep K.toKeepFlags (K.modes _ _ h (.ask _ hm))

theorem takePark_keep (K : KeepAll P) (h : P s) (p) : P (takePark p s).state := by
  simp only [takePark, ofLength]
  repeat' split
  · exact askPark_keep K (holdEntry_keep K.toKeepFlags h ‹_›) rfl
  · exact askPark_keep K h ‹_›
  · exact h
  · exact parkEntry_keep K.toKeepFlags h (.inr ‹_›)
  · exact h

theorem takeWake_keep (K : KeepAll P) (h : P s) (p) : P (takeWake p s).state := by
  simp only [takeWake, ofLength]
  repeat' split
  · exact wakeCell_keep K.toKeepFlags h
  all_goals exact h

theorem skipOther_keep (K : KeepAll P) (h : P s) (i c) : P (s.skipOther i c) := by
  simp only [skipOther]
  repeat' split
  all_goals
    repeat first
      | with_reducible assumption
      | with_reducible apply choose_keep K
      | with_reducible apply changeContour_keep K.toKeepChange

theorem takeSkipContour_keep (K : KeepAll P) (h : P s) (p) : P (takeSkipContour p s).state := by
  simp only [takeSkipContour, ofLength, withSlot]
  repeat' split
  all_goals
    repeat first
      | with_reducible assumption
      | with_reducible apply skipOther_keep K
      | with_reducible apply skipCurrent_keep K
      | with_reducible apply done_same
      | with_reducible apply refuse_same

theorem release_keep (K : KeepAll P) (h : P s) (f) : P (s.release f) := by
  have ht := foldl_keep (P := P) (fun (t : State) (i : Slot) => if f i then t.onContour i fun c =>
      if c.releasable then { c with severReleased := true } else c else t)
    (fun t i ht => by
      split
      · exact onContour_keep K.toKeepChange ht _ _
      · exact ht) (List.finRange 64) h
  simp only [release]
  split
  · exact choose_keep K ht
  · exact ht

theorem takeReleaseSever_keep (K : KeepAll P) (h : P s) (p) : P (takeReleaseSever p s).state := by
  simp only [takeReleaseSever, ofLength, withSlot]
  repeat' split
  all_goals
    repeat first
      | with_reducible assumption
      | with_reducible apply release_keep K
      | with_reducible apply done_same
      | with_reducible apply refuse_same

theorem openHolder_keep (K : KeepAll P) (h : P s) : P (s.openHolder) := by
  simp only [openHolder]
  all_goals
    repeat first
      | with_reducible assumption
      | with_reducible apply onHolder_keep K.toKeepWork
      | with_reducible apply onHolder_keepAll K

theorem takeReleaseHolder_keep (K : KeepAll P) (h : P s) (p) : P (takeReleaseHolder p s).state := by
  simp only [takeReleaseHolder, ofLength]
  repeat' split
  all_goals
    repeat first
      | with_reducible assumption
      | with_reducible apply openHolder_keep K
      | with_reducible apply done_same
      | with_reducible apply refuse_same

theorem takeConfirmSlug_keep (K : KeepAll P) (h : P s) (p) : P (takeConfirmSlug p s).state := by
  simp only [takeConfirmSlug, ofLength, withSlot]
  repeat' split
  all_goals
    repeat first
      | with_reducible assumption
      | with_reducible apply dropEnds_keep K.toKeepWork
      | with_reducible apply done_same
      | with_reducible apply refuse_same

theorem takeRethreadDone_keep (K : KeepAll P) (h : P s) (p) : P (takeRethreadDone p s).state := by
  simp only [takeRethreadDone, ofLength, withSlot]
  repeat' split
  all_goals
    repeat first
      | with_reducible assumption
      | with_reducible apply takeUp_keep K
      | with_reducible apply done_same
      | with_reducible apply refuse_same

theorem takeConfigLine_keep (K : KeepAll P) (h : P s) (p) : P (takeConfigLine p s).state := by
  simp only [takeConfigLine, ofLength]
  repeat' split
  all_goals
    repeat first
      | with_reducible assumption
      | with_reducible apply configure_keep K
      | with_reducible apply done_same
      | with_reducible apply refuse_same

theorem takeEnableConditions_keep (K : KeepAll P) (h : P s) (p) : P (takeEnableConditions p s).state := by
  simp only [takeEnableConditions, ofLength]
  repeat' split
  all_goals
    repeat first
      | with_reducible assumption
      | with_reducible apply mapConds_keep K
      | with_reducible apply done_same
      | with_reducible apply refuse_same

theorem takeClearConditions_keep (K : KeepAll P) (h : P s) (p) : P (takeClearConditions p s).state := by
  simp only [takeClearConditions, ofLength]
  repeat' split
  all_goals
    repeat first
      | with_reducible assumption
      | with_reducible apply mapConds_keep K
      | with_reducible apply done_same
      | with_reducible apply refuse_same

theorem takeQueryConditions_keep (_ : KeepAll P) (h : P s) (p) : P (takeQueryConditions p s).state := by
  simp only [takeQueryConditions, ofLength]
  repeat' split
  all_goals
    repeat first
      | with_reducible assumption
      | with_reducible apply report_keep K.toKeepWork
      | with_reducible apply refuse_same
      | with_reducible apply report_same

theorem takeJournalSummary_keep (_ : KeepAll P) (h : P s) (p) : P (takeJournalSummary p s).state := by
  simp only [takeJournalSummary, ofLength]
  repeat' split
  all_goals
    repeat first
      | with_reducible assumption
      | with_reducible apply report_keep K.toKeepWork
      | with_reducible apply refuse_same
      | with_reducible apply report_same

theorem takeJournalRead_keep (_ : KeepAll P) (h : P s) (p) : P (takeJournalRead p s).state := by
  simp only [takeJournalRead, ofLength]
  repeat' split
  all_goals
    repeat first
      | with_reducible assumption
      | with_reducible apply report_keep K.toKeepWork
      | with_reducible apply refuse_same
      | with_reducible apply report_same

theorem takeJournalErase_keep (K : KeepAll P) (h : P s) (p) : P (takeJournalErase p s).state := by
  simp only [takeJournalErase, ofLength]
  repeat' split
  · exact K.journal _ _ h (.eraseAll _ (‹_ ∧ _›).2)
  all_goals exact h

theorem answerTo_keep (K : KeepAll P) (h : P s) (kind p) : P (answerTo kind p s).state := by
  unfold answerTo
  split
  · rename_i f hf
    unfold requestOf at hf
    split at hf <;> cases hf
    · exact takeIdentify_keep K h p
    · exact takeReadStatus_keep K h p
    · exact takeQueryResetCause_keep K h p
    · exact takeReset_keep K h p
    · exact takeSetParam_keep K h p
    · exact takeGetParam_keep K h p
    · exact takeOpenChain_keep K h p
    · exact takeLoadSegments_keep K h p
    · exact takeCloseChain_keep K h p
    · exact takeDropChain_keep K h p
    · exact takeQueryChain_keep K h p
    · exact takeDefineContour_keep K h p
    · exact takeDeleteContour_keep K h p
    · exact takeQueryContour_keep K h p
    · exact takeStartJob_keep K h p
    · exact takeAbortJob_keep K h p
    · exact takeHold_keep K h p
    · exact takeResume_keep K h p
    · exact takePark_keep K h p
    · exact takeWake_keep K h p
    · exact takeSkipContour_keep K h p
    · exact takeReleaseSever_keep K h p
    · exact takeReleaseHolder_keep K h p
    · exact takeConfirmSlug_keep K h p
    · exact takeRethreadDone_keep K h p
    · exact takeSetOverride_keep K h p
    · exact takeConfigLine_keep K h p
    · exact takeEnableConditions_keep K h p
    · exact takeClearConditions_keep K h p
    · exact takeQueryConditions_keep K h p
    · exact takeJournalSummary_keep K h p
    · exact takeJournalRead_keep K h p
    · exact takeJournalErase_keep K h p
  · exact h

/-! ## The link -/

theorem send_keep (K : KeepAll P) (h : P s) (a b) : P (s.send a b) := by
  simp only [send]
  all_goals
    repeat first
      | with_reducible assumption
      | with_reducible apply onLink_keepAll K

theorem reference_keep (K : KeepAll P) (h : P s) : P (s.reference) := by
  simp only [reference]
  all_goals
    repeat first
      | with_reducible assumption
      | with_reducible apply onSensors_keepAll K

theorem takeNotice_keep (K : KeepAll P) (h : P s) : P (s.takeNotice) := by
  simp only [takeNotice]
  all_goals
    repeat first
      | with_reducible assumption
      | with_reducible apply reference_keep K
      | with_reducible apply send_keep K
      | with_reducible apply mapConds_keep K

theorem takeProgress_keep (K : KeepAll P) (h : P s) : P (s.takeProgress) := by
  simp only [takeProgress]
  all_goals
    repeat first
      | with_reducible assumption
      | with_reducible apply reference_keep K
      | with_reducible apply send_keep K
      | with_reducible apply progress_keep K.toKeepChange
      | with_reducible apply onPass_keep K.toKeepFlags
      | with_reducible apply onLink_keepAll K

theorem takeStartup_keep (K : KeepAll P) (h : P s) : P (s.takeStartup) := by
  simp only [takeStartup]
  all_goals
    repeat first
      | with_reducible assumption
      | with_reducible apply send_keep K
      | with_reducible apply onLink_keepAll K

theorem arbitrate_keep (K : KeepAll P) (h : P s) : P (s.arbitrate) := by
  simp only [arbitrate]
  repeat' split
  all_goals
    repeat first
      | with_reducible assumption
      | with_reducible apply takeStartup_keep K
      | with_reducible apply takeProgress_keep K
      | with_reducible apply takeNotice_keep K
      | with_reducible apply send_keep K
      | with_reducible apply onLink_keepAll K

theorem serve_keep (K : KeepAll P) (h : P s) (f) : P (s.serve f) := by
  simp only [serve]
  all_goals
    repeat first
      | with_reducible assumption
      | with_reducible apply answerTo_keep K
      | with_reducible apply answerTo_keep K
      | with_reducible apply settle_keep K
      | with_reducible apply onLink_keepAll K

theorem takeNext_keep (K : KeepAll P) (h : P s) : P (s.takeNext) := by
  simp only [takeNext]
  repeat' split
  all_goals
    repeat first
      | with_reducible assumption
      | with_reducible apply serve_keep K
      | with_reducible apply onLink_keepAll K

theorem discardFrame_keep (K : KeepAll P) (h : P s) : P (s.discardFrame) := by
  simp only [discardFrame]
  all_goals
    repeat first
      | with_reducible assumption
      | with_reducible apply raise_keep K.toKeepFlags
      | with_reducible apply onLink_keepAll K

theorem goodFrame_keep (K : KeepAll P) (h : P s) (f) : P (s.goodFrame f) := by
  simp only [goodFrame]
  repeat' split
  all_goals
    repeat first
      | with_reducible assumption
      | with_reducible apply discardFrame_keep K
      | with_reducible apply takeNext_keep K
      | with_reducible apply onLink_keepAll K

theorem collect_keep (K : KeepAll P) (h : P s) (b) : P (s.collect b) := by
  simp only [collect]
  all_goals
    repeat first
      | with_reducible assumption
      | with_reducible apply onLink_keepAll K

theorem scanBytes_keep (K : KeepAll P) (h : P s) (n bs) : P (scanBytes n bs s) := by
  induction n generalizing s bs with
  | zero => exact collect_keep K h _
  | succ n ih =>
    cases bs with
    | nil => exact collect_keep K h _
    | cons b bs =>
      simp only [scanBytes]
      repeat' split
      · exact collect_keep K h _
      · exact ih (arbitrate_keep K (discardFrame_keep K h)) _
      · exact ih (arbitrate_keep K (goodFrame_keep K h _)) _
      · exact ih h _

theorem receive_keep (K : KeepAll P) (h : P s) (bs) : P (s.receive bs) := scanBytes_keep K h _ _

theorem begin_keep (K : KeepAll P) (h : P s) : P s.begin := settle_keep K (K.journal _ _ h (.settled _))

theorem finish_keep (K : KeepAll P) (h : P s) : P (s.finish) := by
  simp only [finish]
  all_goals
    repeat first
      | with_reducible assumption
      | with_reducible apply arbitrate_keep K
      | with_reducible apply settle_keep K

theorem event_keep (K : KeepAll P) (h : P s) (f : State → State) (hf : ∀ t, P t → P (f t)) : P (s.event f) :=
  finish_keep K (hf _ (begin_keep K h))

theorem request_keep (K : KeepAll P) (h : P s) (kind tag p) : P (s.request kind tag p) :=
  event_keep K h _ fun _ ht => receive_keep K ht _

/-! ## Events -/

theorem resetStep_keep (K : KeepAll P) (h : P s) (k) : P (s.resetStep k) :=
  finish_keep K (refreshLevels_keep K.toKeepFlags (K.reset _ _ h))

theorem transmitEnd_keep (K : KeepAll P) (h : P s) : P (s.transmitEnd) := by
  simp only [transmitEnd]
  repeat' split
  all_goals
    repeat first
      | with_reducible assumption
      | with_reducible apply takeNext_keep K
      | with_reducible apply arbitrate_keep K
      | with_reducible apply onLink_keepAll K

theorem countSample_keep (K : KeepAll P) (h : P s) (a b c) : P (s.countSample a b c) := by
  simp only [countSample]
  repeat' split
  all_goals
    repeat first
      | with_reducible assumption
      | with_reducible apply decideGapOpen_keep K.toKeepFlags
      | with_reducible apply raise_keep K.toKeepFlags
      | with_reducible apply onPass_keep K.toKeepFlags

theorem reportClamp_keep (K : KeepAll P) (h : P s) (r a b c) : P (s.reportClamp r a b c) := by
  simp only [reportClamp]
  repeat' split
  all_goals
    repeat first
      | with_reducible assumption
      | with_reducible apply raise_keep K.toKeepFlags
      | with_reducible apply onPass_keep K.toKeepFlags

theorem retracted_keep (K : KeepAll P) (h : P s) (a b) : P (s.retracted a b) := by
  simp only [retracted]
  repeat' split
  all_goals
    repeat first
      | with_reducible assumption
      | with_reducible apply recomputeQuietly_keep K.toKeepWork
      | with_reducible apply chooseSetting_keep K.toKeepWork

theorem applySample_keep (K : KeepAll P) (h : P s) (r k a b) : P (s.applySample r k a b) := by
  simp only [applySample]
  repeat' split
  all_goals
    repeat first
      | with_reducible assumption
      | with_reducible apply retracted_keep K
      | with_reducible apply reportClamp_keep K
      | with_reducible apply movePass_keep K.toKeepWork
      | with_reducible apply arrive_keep K.toKeepWork
      | with_reducible apply readSlots_keep K.toKeepWork
      | with_reducible apply report_keep K.toKeepWork
      | with_reducible apply genOff_keep K.toKeepFlags

theorem gapStep_keep (K : KeepAll P) (h : P s) (a b c d) : P (s.gapStep a b c d) := by
  simp only [gapStep]
  repeat' split
  all_goals
    repeat first
      | with_reducible assumption
      | with_reducible apply applySample_keep K
      | with_reducible apply countSample_keep K

theorem dryStep_keep (K : KeepAll P) (h : P s) (r k) : P (s.dryStep r k) := by
  simp only [dryStep]
  repeat' split
  all_goals
    repeat first
      | with_reducible assumption
      | with_reducible apply movePass_keep K.toKeepWork
      | with_reducible apply arrive_keep K.toKeepWork
      | with_reducible apply readSlots_keep K.toKeepWork

theorem approachStep_keep (K : KeepAll P) (h : P s) (r k a) : P (s.approachStep r k a) := by
  simp only [approachStep]
  repeat' split
  all_goals
    repeat first
      | with_reducible assumption
      | with_reducible apply dryStep_keep K
      | with_reducible apply readSlots_keep K.toKeepWork
      | with_reducible apply report_keep K.toKeepWork
      | with_reducible apply onPass_keep K.toKeepFlags
      | with_reducible apply onPath_keep K.toKeepFlags

theorem motionStep_keep (K : KeepAll P) (h : P s) : P (s.motionStep) := by
  simp only [motionStep]
  repeat' split
  all_goals
    repeat first
      | with_reducible assumption
      | with_reducible apply approachStep_keep K
      | with_reducible apply dryStep_keep K
      | with_reducible apply rapidStep_keep K.toKeepWork

theorem supply_keep (K : KeepAll P) (h : P s) : P (s.supply) := by
  simp only [supply]
  all_goals
    repeat first
      | with_reducible assumption
      | with_reducible apply onPath_keep K.toKeepFlags

theorem settleExpiry_keep (K : KeepAll P) (h : P s) : P s.settleExpiry := by
  unfold settleExpiry
  split
  · exact K.modes _ _ h (.settled _ (‹_ ∧ _›).1)
  · exact h

theorem dropExpiry_keep (K : KeepAll P) (h : P s) : P (s.dropExpiry) := by
  simp only [dropExpiry]
  repeat' split
  all_goals
    repeat first
      | with_reducible assumption
      | with_reducible apply dropExpired_keep K.toKeepWork

theorem eraseComplete_keep (K : KeepAll P) (h : P s) : P s.eraseComplete := by
  simp only [eraseComplete]
  split
  · rename_i p hp
    have ht := setLive_keep K.toKeepFlags (K.journal s _ h (.erased _ p hp)) .journalBlocked
      (s.journal.eraseDone p).blocked
    split
    · exact progress_keep K.toKeepChange ht
    · exact ht
  · exact h

theorem upsetSlot_keep (K : KeepAll P) (h : P s) (c i b) : P (s.upsetSlot c i b) := by
  unfold upsetSlot
  split
  · exact onChain_keep K.toKeepWork h _ _ fun k => ⟨spans_modify k _ _ fun _ => ⟨rfl, rfl⟩, rfl⟩
  · exact h

theorem idle_keep (K : KeepAll P) (h : P s) : P s.idle := by
  unfold idle
  split
  · exact upsetSlot_keep K (nextFree_keepAll K h) _ _ _
  · exact nextFree_keepAll K h

/-! ## The step -/

theorem next_keep {t s' : State} (h : (.next t : Outcome) = .next s') (ht : P t) : P s' := by
  cases h
  exact ht

theorem exec_keep (K : KeepAll P) {i : Instr} {s' : State} (hs : P s) (h : exec i s = .next s') : P s' := by
  cases i with
  | powerOn => exact next_keep h (resetStep_keep K hs _)
  | resetLine => exact next_keep h (resetStep_keep K hs _)
  | receiveFrame bytes => exact next_keep h (event_keep K hs _ fun _ ht => receive_keep K ht _)
  | unknownKindRequest kind tag payload => exact next_keep h (request_keep K hs _ _ _)
  | transmitEnd =>
    refine next_keep h ?_
    split
    · exact resetStep_keep K hs _
    · exact event_keep K hs _ fun _ ht => transmitEnd_keep K ht
  | identify tag payload => exact next_keep h (request_keep K hs _ _ _)
  | readStatus tag payload => exact next_keep h (request_keep K hs _ _ _)
  | queryResetCause tag payload => exact next_keep h (request_keep K hs _ _ _)
  | reset tag payload => exact next_keep h (request_keep K hs _ _ _)
  | setParam tag payload => exact next_keep h (request_keep K hs _ _ _)
  | setParamTravelWindow tag payload => exact next_keep h (request_keep K hs _ _ _)
  | setParamKeepOut tag payload => exact next_keep h (request_keep K hs _ _ _)
  | setParamCorrectedCount tag payload => exact next_keep h (request_keep K hs _ _ _)
  | getParam tag payload => exact next_keep h (request_keep K hs _ _ _)
  | setOverride tag payload => exact next_keep h (request_keep K hs _ _ _)
  | openChain tag payload => exact next_keep h (request_keep K hs _ _ _)
  | loadSegments tag payload => exact next_keep h (request_keep K hs _ _ _)
  | closeChain tag payload => exact next_keep h (request_keep K hs _ _ _)
  | dropChain tag payload => exact next_keep h (request_keep K hs _ _ _)
  | queryChain tag payload => exact next_keep h (request_keep K hs _ _ _)
  | defineContour tag payload => exact next_keep h (request_keep K hs _ _ _)
  | deleteContour tag payload => exact next_keep h (request_keep K hs _ _ _)
  | queryContour tag payload => exact next_keep h (request_keep K hs _ _ _)
  | startJob tag payload => exact next_keep h (request_keep K hs _ _ _)
  | startJobResumed tag payload => exact next_keep h (request_keep K hs _ _ _)
  | abortJob tag payload => exact next_keep h (request_keep K hs _ _ _)
  | hold tag payload => exact next_keep h (request_keep K hs _ _ _)
  | resume tag payload => exact next_keep h (request_keep K hs _ _ _)
  | park tag payload => exact next_keep h (request_keep K hs _ _ _)
  | wake tag payload => exact next_keep h (request_keep K hs _ _ _)
  | skipContour tag payload => exact next_keep h (request_keep K hs _ _ _)
  | releaseSever tag payload => exact next_keep h (request_keep K hs _ _ _)
  | releaseHolder tag payload => exact next_keep h (request_keep K hs _ _ _)
  | confirmSlug tag payload => exact next_keep h (request_keep K hs _ _ _)
  | rethreadDone tag payload => exact next_keep h (request_keep K hs _ _ _)
  | configLine tag payload => exact next_keep h (request_keep K hs _ _ _)
  | enableConditions tag payload => exact next_keep h (request_keep K hs _ _ _)
  | clearConditions tag payload => exact next_keep h (request_keep K hs _ _ _)
  | queryConditions tag payload => exact next_keep h (request_keep K hs _ _ _)
  | journalSummary tag payload => exact next_keep h (request_keep K hs _ _ _)
  | journalRead tag payload => exact next_keep h (request_keep K hs _ _ _)
  | journalErase tag payload => exact next_keep h (request_keep K hs _ _ _)
  | journalEraseComplete => exact next_keep h (event_keep K hs _ fun _ ht => eraseComplete_keep K ht)
  | lineInputChange line high => exact next_keep h (event_keep K hs _ fun _ ht => inputChange_keep K ht _ _)
  | lineFilterExpiry line => exact next_keep h (event_keep K hs _ fun _ ht => filterExpiry_keep K ht _)
  | axisFaultInput fault =>
    exact next_keep h (event_keep K hs _ fun _ ht => refreshLevels_keep K.toKeepFlags (onSensors_keepAll K ht _))
  | genFaultInput fault =>
    exact next_keep h (event_keep K hs _ fun _ ht => refreshLevels_keep K.toKeepFlags (onSensors_keepAll K ht _))
  | wakeSettleExpiry => exact next_keep h (event_keep K hs _ fun _ ht => settleExpiry_keep K ht)
  | gapSample voltage pulses shorts opens => exact next_keep h (event_keep K hs _ fun _ ht => gapStep_keep K ht _ _ _ _)
  | driveUpdate =>
    exact next_keep h (event_keep K hs _ fun _ ht => supply_keep K (settle_keep K (motionStep_keep K ht)))
  | tipCutExpiry => exact next_keep h (event_keep K hs _ fun _ ht => tipCutDone_keep K.toKeepWork ht)
  | feedTimeoutExpiry => exact next_keep h (event_keep K hs _ fun _ ht => feedTimedOut_keep K.toKeepWork ht)
  | retractExpiry => exact next_keep h (event_keep K hs _ fun _ ht => retractDone_keep K.toKeepWork ht)
  | unthreadCutExpiry => exact next_keep h (event_keep K hs _ fun _ ht => unthreadCutDone_keep K.toKeepWork ht)
  | pullTimeoutExpiry => exact next_keep h (event_keep K hs _ fun _ ht => pullTimedOut_keep K.toKeepWork ht)
  | dropWaitExpiry => exact next_keep h (event_keep K hs _ fun _ ht => dropExpiry_keep K ht)
  | holderEngageTimeout => exact next_keep h (event_keep K hs _ fun _ ht => engageTimedOut_keep K.toKeepWork ht)
  | holderReleaseTimeout => exact next_keep h (event_keep K hs _ fun _ ht => releaseTimedOut_keep K.toKeepWork ht)

/-- A property kept by every elementary change, and by a reset, is kept by every step. -/
theorem step_keep (K : KeepAll P) {s' : State} (hs : P s) (h : step s = .next s') : P s' := by
  unfold step at h
  split at h
  · cases h; exact idle_keep K hs
  · exact exec_keep K (K.pending _ _ hs) h

end State
end Sys2Proof.Machine
end

