-- ==== Sys2Proof/Laws/Link.lean ====
section
/-! SUPPORT. The link port: a whole frame that arrives at a hunting receiver is read as that frame, and a
request that reaches a part with nothing under way on its link is answered at once. -/

namespace Sys2Proof.Machine

theorem readFrame_frame (f : Frame) (rest : List Byte) (h : f.payload.length ≤ 250) :
    readFrame (frameBody f ++ leBytes 2 (crc (frameBody f)) ++ rest) = .good f rest := by
  obtain ⟨kind, tag, p⟩ := f
  have hb : (byte p.length).toNat = p.length := by
    simp only [BitVec.toNat_ofNat]; simp only at h; omega
  obtain ⟨a, b, hc⟩ : ∃ a b, leBytes 2 (crc (frameBody ⟨kind, tag, p⟩)) = [a, b] := ⟨_, _, rfl⟩
  have h1 : ¬ (250 < (byte p.length).toNat) := by rw [hb]; simp only at h; omega
  have h2 : ¬ ((kind :: tag :: (p ++ a :: b :: rest)).length < (byte p.length).toNat + 4) := by
    rw [hb]; simp only [List.length_cons, List.length_append]; omega
  have h3 : ((kind :: tag :: (p ++ a :: b :: rest)).drop 2).take (byte p.length).toNat = p := by
    rw [hb]; simp
  have h4 : (kind :: tag :: (p ++ a :: b :: rest)).take ((byte p.length).toNat + 2) = kind :: tag :: p := by
    rw [hb]; simp
  have h5 : ((kind :: tag :: (p ++ a :: b :: rest)).drop ((byte p.length).toNat + 2)) = a :: b :: rest := by
    rw [hb]; simp
  have h6 : ((kind :: tag :: (p ++ a :: b :: rest)).drop ((byte p.length).toNat + 4)) = rest := by
    rw [hb, show p.length + 4 = (p.length + 2) + 2 from rfl, ← List.drop_drop]; simp
  rw [hc]
  simp only [frameBody, List.cons_append, List.append_assoc, List.nil_append, readFrame, if_neg h1,
    if_neg h2, h3, h4, h5, h6]
  have hc' : leBytes 2 (crc (byte p.length :: kind :: tag :: p)) = [a, b] := hc
  simp [hc']

namespace State

/-- A transmitter that sends takes nothing more. -/
theorem arbitrate_sending (s : State) (h : s.link.sending.isSome = true) : s.arbitrate = s := if_pos h

/-- A whole frame at a hunting receiver is one good frame, a free transmitter takes what waits, and the
receiver hunts on. -/
theorem receive_frame (s : State) (f : Frame) (h : f.payload.length ≤ 250) (hc : s.link.collecting = []) :
    s.receive (frameBytes f) = (s.goodFrame f).arbitrate.collect [] := by
  have hr := readFrame_frame f [] h
  simp only [List.append_nil] at hr
  simp only [receive, hc, List.nil_append, frameBytes, List.length_cons]
  rw [scanBytes, if_pos rfl, hr]
  simp only [List.length_append, frameBody, List.length_cons]
  rw [show leBytes 2 _ = [_, _] from rfl]
  simp [scanBytes]

@[simp] theorem begin_steady (s : State) (h : s.Steady) : s.begin = s := by
  obtain ⟨ha, hw⟩ := h
  have : s.settleWrite = s := by
    obtain ⟨_, _, _, _, _, _, _, _, _, _, _, ⟨_, _, _, _, _, _, _, _, _, _, _, _, _⟩, _, _, _, _⟩ := s
    simp only at hw
    simp [settleWrite, onJournal, withJournal, hw]
  rw [begin, this, settle, Config.reportsPerStep, settleGo, ha]

theorem settle_nil (s : State) (h : s.agenda = []) : s.settle = s := by
  rw [settle, Config.reportsPerStep, settleGo, h]

/-- What a request comes to on a quiet link, where its answer leaves no report and the link as it was but
for the reset-cause flags and the RESET flag: the reply is in transmission. -/
theorem request_quiet (s : State) (kind tag : Byte) (p : Payload) (h : s.Quiet) (hp : p.length ≤ 250)
    (ha : (answerTo kind p s).state.agenda = [])
    (hc : (answerTo kind p s).state.link.collecting = [])
    (hr : (answerTo kind p s).state.link.replies = [])
    (hs : (answerTo kind p s).state.link.sending = none) :
    s.request kind tag p = (answerTo kind p s).state.replied kind tag (answerTo kind p s).status
      ((answerTo kind p s).extra (answerTo kind p s).state) := by
  obtain ⟨hst, h1, h2, h3, h4, h5, h6⟩ := h
  have hq : (s.onLink fun l => { l with queue := l.queue ++ [(⟨kind, tag, p⟩ : Frame)] }).onLink
      (fun l => { l with queue := [] }) = s := by
    obtain ⟨_, _, _, _, _, _, _, _, _, _, _, _, ⟨_, _, _, _, _, _, _, _, _, _, _⟩, _, _, _⟩ := s
    simp only at h2
    simp [onLink, withLink, h2]
  have hg : s.goodFrame ⟨kind, tag, p⟩ = s.serve ⟨kind, tag, p⟩ := by
    have hready : (s.onLink fun l => { l with queue := l.queue ++ [(⟨kind, tag, p⟩ : Frame)] }).ready = true := by
      simp [ready, onLink, replying, h3, h4, h5, h6]
    rw [goodFrame, if_pos (by simp [h2, Config.receiveQueue]), takeNext, if_pos hready]
    rw [show (s.onLink fun l => { l with queue := l.queue ++ [(⟨kind, tag, p⟩ : Frame)] }).link.queue =
      [⟨kind, tag, p⟩] from by simp [onLink, h2]]
    simp only [hq]
  rw [request, event, begin_steady s hst, receive_frame _ _ hp h1, hg, serve]
  simp only [settle_nil _ ha]
  generalize answerTo kind p s = a at *
  obtain ⟨⟨_, _, _, _, _, _, _, _, _, _, _, _, ⟨_, _, _, _, _, _, _, _, _, _, _⟩, _, _, _⟩, st, ex⟩ := a
  simp only at ha hc hr hs
  subst ha hc hr hs
  have hw : ∀ t : State, t.link.sending = none → ∀ g, t.link.replies = [g] →
      t.arbitrate = (t.send .reply g).onLink fun l => { l with replies := [] } := by
    intro t h1 g h2
    simp only [arbitrate, h1, h2, Option.isSome_none, Bool.false_eq_true, if_false]
  rw [hw _ rfl _ rfl, finish, settle_nil _ rfl, arbitrate_sending _ rfl]
  simp [collect, onLink, withLink, send, replied, replyFrame]

/-- `request_quiet` for an answer known by an equation, which leaves the link's queue and transmitter alone. -/
theorem request_is {s : State} {kind tag : Byte} {p : Payload} {a : Answer} (h : s.Quiet)
    (hp : p.length ≤ 250) (e : answerTo kind p s = a) (ha : a.state.agenda = s.agenda)
    (hc : a.state.link.collecting = s.link.collecting) (hr : a.state.link.replies = s.link.replies)
    (hs : a.state.link.sending = s.link.sending) :
    s.request kind tag p = a.state.replied kind tag a.status (a.extra a.state) := by
  subst e
  have q := h
  obtain ⟨⟨h0, _⟩, h1, h2, h3, h4, h5, h6⟩ := h
  exact request_quiet s kind tag p q hp (ha.trans h0) (hc.trans h1) (hr.trans h3) (hs.trans h4)

/-- A refused request has no effect but its reply. -/
theorem request_refused {s : State} {kind tag : Byte} {p : Payload} {st : Status} (h : s.Quiet)
    (hp : p.length ≤ 250) (e : answerTo kind p s = refuse s st) :
    s.request kind tag p = s.replied kind tag st [] :=
  request_is (a := refuse s st) h hp e rfl rfl rfl rfl

end State

end Sys2Proof.Machine
end

