-- ==== Sys2Proof/Laws/Ops.lean ====
section
/-! SUPPORT. What a read finds after an update: the same slot, and the others. -/

namespace Sys2Proof.Machine.State

variable (s : State)

/-! ## Contours -/

@[simp] theorem contour_setContour_same (i : Slot) (c) : (s.setContour i c).contour i = c := by
  simp [contour, setContour]

theorem contour_setContour_ne {i j : Slot} (h : j ≠ i) (c) : (s.setContour i c).contour j = s.contour j := by
  simp only [contour, setContour, withContours_contours]
  exact Vector.getElem_set_ne _ _ (fun e => h (Fin.ext e.symm))

@[simp] theorem contour_onContour_same (i : Slot) (f) : (s.onContour i f).contour i = (s.contour i).map f :=
  contour_setContour_same _ _ _

theorem contour_onContour_ne {i j : Slot} (h : j ≠ i) (f) : (s.onContour i f).contour j = s.contour j :=
  contour_setContour_ne _ h _

/-! ## Chains -/

@[simp] theorem chain_setChain_same (c : ChainId) (k) : (s.setChain c k).chain c = k := by
  simp [chain, setChain, onStore]

theorem chain_setChain_ne {c d : ChainId} (h : d ≠ c) (k) : (s.setChain c k).chain d = s.chain d := by
  simp only [chain, setChain, onStore, withStore_store]
  exact Vector.getElem_set_ne _ _ (fun e => h (Fin.ext e.symm))

@[simp] theorem chain_onChain_same (c : ChainId) (f) : (s.onChain c f).chain c = (s.chain c).map f :=
  chain_setChain_same _ _ _

theorem chain_onChain_ne {c d : ChainId} (h : d ≠ c) (f) : (s.onChain c f).chain d = s.chain d :=
  chain_setChain_ne _ h _

/-! ## Lines -/

theorem lineNum_injective : Function.Injective lineNum := by
  intro l m h
  cases l <;> cases m <;> first | rfl | (simp [lineNum] at h)

@[simp] theorem lineRec_setLine_same (l : Line) (r) : (s.setLine l r).lineRec l = r := by
  simp [lineRec, setLine, onSensors]

theorem lineRec_setLine_ne {l m : Line} (h : m ≠ l) (r) : (s.setLine l r).lineRec m = s.lineRec m := by
  simp only [lineRec, setLine, onSensors, withSensors_sensors]
  exact Vector.getElem_set_ne _ _ (fun e => h (lineNum_injective (Fin.ext e.symm)))

/-! ## Conditions -/

theorem num_injective : Function.Injective Cond.num := by
  intro c d h
  cases c <;> cases d <;> first | rfl | (simp [Cond.num] at h)

@[simp] theorem cond_setCond_same (c : Cond) (r) : (s.setCond c r).cond c = r := by
  simp [cond, setCond]

theorem cond_setCond_ne {c d : Cond} (h : d ≠ c) (r) : (s.setCond c r).cond d = s.cond d := by
  simp only [cond, setCond, withConds_conds]
  exact Vector.getElem_set_ne _ _ (fun e => h (num_injective (Fin.ext e.symm)))

theorem cond_withModes (v) (c : Cond) : (s.withModes v).cond c = s.cond c := rfl
theorem cond_withPath (v) (c : Cond) : (s.withPath v).cond c = s.cond c := rfl
theorem cond_withSensors (v) (c : Cond) : (s.withSensors v).cond c = s.cond c := rfl

/-- A latching, once over: the condition's own record, the other records, the mode unit (R146, R156). -/
theorem latch_cond (c d : Cond) : (s.latch c).cond d =
    if d = c ∧ (s.cond c).latch = false ∧ (s.cond c).enable = true then
      { s.cond c with latch := true, pending := true }
    else if d = c ∧ (s.cond c).latch = false ∧ s.params.latchDisabled = true then
      { s.cond c with latch := true }
    else s.cond d := by
  have hw : ∀ t : State, t.wakeCell.cond d = t.cond d := fun t => by unfold wakeCell; split <;> rfl
  by_cases hd : d = c
  · subst hd
    simp only [latch]
    repeat' split
    all_goals simp_all
  · simp only [hd, false_and, if_false, latch]
    repeat' split
    all_goals first
      | rfl
      | exact (hw _).trans (cond_setCond_ne _ hd _)
      | exact cond_setCond_ne _ hd _

end Sys2Proof.Machine.State
end

