-- ==== Sys2Proof/Tests/Slice0.lean ====
section
/-! SUPPORT. The model's own tests: the smoke test of WellFormed, one-step tests of the commands with values from
the manual or worked out from its rules, and for every statement with hypotheses a state and operands that meet
them. -/

set_option Elab.async false

namespace Sys2Proof.Tests

open Sys2Proof Sys2Proof.Machine

/-! ## Well-formed terms -/

theorem test_wf_payload : (Instr.identify 1 (List.replicate 251 0)).wf = false ∧
    (Instr.identify 1 (List.replicate 250 0)).wf = true := by decide +kernel

theorem test_wf_unknownKind : (Instr.unknownKindRequest 0x52 1 []).wf = false ∧
    (Instr.unknownKindRequest 0x53 1 []).wf = true := by decide

theorem test_wf_setParam : (Instr.setParam 1 [23, 0]).wf = false ∧ (Instr.setParam 1 [24]).wf = false ∧
    (Instr.setParam 1 [25, 0]).wf = false ∧ (Instr.setParam 1 [22, 0]).wf = true := by decide

theorem test_wf_setParamForms : (Instr.setParamTravelWindow 1 [22]).wf = false ∧
    (Instr.setParamKeepOut 1 [23]).wf = false ∧ (Instr.setParamCorrectedCount 1 [24]).wf = false ∧
    (Instr.setParamCorrectedCount 1 [25, 0]).wf = true := by decide

theorem test_wf_startJob : (Instr.startJob 1 (List.replicate 10 0)).wf = false ∧
    (Instr.startJobResumed 1 []).wf = false ∧ (Instr.startJob 1 []).wf = true ∧
    (Instr.startJobResumed 1 (List.replicate 10 0)).wf = true := by decide

theorem test_wf_gapSample : (Instr.gapSample 256 63 0 0).wf = false ∧ (Instr.gapSample 255 64 0 0).wf = false ∧
    (Instr.gapSample 255 63 40 40).wf = true := by decide

/-! ## Small states -/

/-- The cell in a mode, its STARTUP sent. -/
def cell (m : Mode) : State :=
  { State.reset with
    link := { Link.reset with startupDue := false }
    modes := ⟨m, false, if m = .waking then some 5000 else none, decide (m ≠ .park)⟩ }

/-- A CUT line of a length, from the origin along X. -/
def cutLine (len : Nat) : Segment := ⟨.line, .cut, ⟨len, 0⟩, none, len, none, 0, .unchanged⟩

/-- A pass on chain 7: setting 5, Vset 60, gain 40, FeedMax 300, RetractStep 40, ShortLimit 8. -/
def passOn (role : Role) : PassRec := ⟨role, 7, 5, 60, 40, 300, 40, 8⟩

/-- An unbridged DROP contour at the origin with in-gap threading. -/
def dropDef : ContourDef := ⟨⟨0, 0⟩, 1200, true, .drop, none, none, none, [passOn .rough]⟩

/-- A contour in a state, at the start of its pass 0. -/
def contourIn (st : ContourState) : Contour := ⟨dropDef, st, 0, 0, none, 0, 0, .attached, none, false⟩

/-- A chain of one line of 20,000 ticks, bound to pass 0 of slot 5. -/
def lineChain (st : ChainState) : Chain :=
  ⟨st, ⟨0, 0⟩, [cutLine 20000], 20000, ⟨20000, 0⟩, some (5, 0)⟩

/-- A pass on chain 7 at 1,000. -/
def runPass (sub : SubState) : RunPass :=
  ⟨7, 1000, 0, some 0, 20000, sub, 0, none, 0, 0, false, 0, 0⟩

/-- Slot 5 with a contour, its chain loaded. -/
def loaded (m : Mode) (st : ContourState) : State :=
  ((cell m).setContour 5 (some (contourIn st))).setChain 7 (some (lineChain .closed))

/-- Slot 5 current in stage A. -/
def current (m : Mode) (st : ContourState) : State :=
  (loaded m st).onJob fun j => { j with state := .stageA, current := some 5 }

/-- Slot 5's pass running at 1,000, the wire there. -/
def passing (m : Mode) (st : ContourState) (sub : SubState) (gen : Bool) : State :=
  (current m st).onPath fun p => { p with pass := some (runPass sub), commanded := ⟨1000, 0⟩, genOn := gen }

/-- A line with another active value, as its filter would leave it. -/
def lineAt (l : Line) (v : Bool) (s : State) : State :=
  s.setLine l { s.lineRec l with level := v, input := v, active := v }

/-- The state after a command. -/
def after (i : Instr) (s : State) : State :=
  match exec i s with
  | .next t => t
  | .fault _ => s
  | .refused _ => s

/-- The payload in transmission after a command, as numbers. -/
def sent (i : Instr) (s : State) : List Nat :=
  match (after i s).link.sending with
  | some t => t.frame.payload.map (·.toNat)
  | none => []

/-- The status byte of the reply to a command. -/
def status (i : Instr) (s : State) : Option Nat := (sent i s).head?

/-! ## One step of each command -/

theorem test_crc : crc [0x31, 0x32, 0x33, 0x34, 0x35, 0x36, 0x37, 0x38, 0x39] = 0x29B1 := by decide +kernel

theorem test_powerOn : (after .powerOn (passing .run .cutting .moving true)).path.pass = none ∧
    ((after .powerOn (cell .run)).link.sending.map (·.frame.payload)) = some [1, 1, 2, 0, 16] := by
  decide +kernel

theorem test_resetLine : (after .resetLine (passing .run .cutting .moving true)).path.commanded = ⟨1000, 0⟩ ∧
    (after .resetLine (cell .run)).link.causeLine = true := by decide +kernel

theorem test_receiveFrame : (after (.receiveFrame (0 :: frameBytes ⟨0x35, 9, []⟩)) (cell .park)).modes.mode =
    .waking := by decide +kernel

theorem test_unknownKind : sent (.unknownKindRequest 0x7D 1 []) (cell .hold) = [3, 0, 16] := by decide +kernel

theorem test_transmitEnd : (after .transmitEnd ((cell .hold).onLink fun l =>
    { l with sending := some ⟨.notice, ⟨0x7D, 0, []⟩⟩, progressPending := true })).link.progressPending =
      false := by decide +kernel

theorem test_identify : (sent (.identify 1 []) (cell .hold)).drop 3 =
    [69, 87, 45, 52, 49, 48, 1, 64, 0, 128, 0, 0, 16, 4, 0, 4, 0, 128, 0, 4, 0, 28, 0, 8, 0] := by
  decide +kernel

theorem test_readStatus : (sent (.readStatus 1 []) (current .run .cutting)).drop 3 =
    [0, 0, 1, 5, 255, 0, 0, 255, 0, 255, 0, 255, 0, 0, 0, 0, 0x35] := by decide +kernel

theorem test_queryResetCause : sent (.queryResetCause 1 []) (cell .hold) = [0, 0, 16, 1, 0, 0] := by
  decide +kernel

theorem test_reset : (after (.reset 1 []) (cell .hold)).link.resetTaken = true := by decide +kernel

theorem test_setParam : sent (.setParam 1 [6, 9, 0]) (cell .hold) = [2, 0, 16, 10, 0] ∧
    (after (.setParam 1 [6, 9, 0]) (cell .hold)).params.override = 10 := by decide +kernel

theorem test_setParam_structural : status (.setParam 1 [7, 32]) (cell .hold) = some 5 := by decide +kernel

theorem test_setParamTravelWindow : (after (.setParamTravelWindow 1 (23 :: (intBytes (-5) ++ intBytes 6 ++
    intBytes (-7) ++ intBytes 8))) (cell .hold)).store.window = ⟨-5, 6, -7, 8⟩ := by decide +kernel

theorem test_setParamKeepOut : (after (.setParamKeepOut 1 (24 :: 3 :: 1 :: (intBytes (-5) ++ intBytes (-7) ++
    intBytes 6 ++ intBytes 8))) (cell .hold)).store.keepOuts[3] = ⟨true, ⟨-5, 6, -7, 8⟩⟩ := by decide +kernel

theorem test_setParamCorrectedCount : status (.setParamCorrectedCount 1 [25, 1]) (cell .hold) = some 5 := by
  decide +kernel

theorem test_getParam : (sent (.getParam 1 [1]) (cell .hold)).drop 3 = [0x20, 0x4E, 0, 0] := by decide +kernel

theorem test_setOverride : (after (.setOverride 1 [150, 0]) (cell .run)).params.override = 150 := by
  decide +kernel

theorem test_openChain : ((after (.openChain 1 (9 :: pointBytes ⟨-3, 4⟩)) (cell .hold)).chain 9).map (·.endPt) =
    some ⟨-3, 4⟩ := by decide +kernel

theorem test_loadSegments : (sent (.loadSegments 1 (9 :: 1 :: 0 :: pointBytes ⟨30000, 40000⟩))
    ((cell .hold).setChain 9 (some (newChain ⟨0, 0⟩)))).drop 1 = [0xFF, 0x0F, 1, 0, 0x50, 0xC3, 0, 0] := by
  decide +kernel

/-- A quarter circle of radius 10,000: the length is 15,708 (R49). -/
theorem test_loadSegments_arc : ((after (.loadSegments 1 (9 :: 1 :: 2 :: (pointBytes ⟨0, 10000⟩ ++
    pointBytes ⟨0, 0⟩))) ((cell .hold).setChain 9 (some (newChain ⟨10000, 0⟩)))).chain 9).map (·.loaded) =
      some 15708 := by decide +kernel

theorem test_closeChain : status (.closeChain 1 [9]) ((cell .hold).setChain 9 (some (newChain ⟨0, 0⟩))) =
    some 5 := by decide +kernel

theorem test_dropChain : status (.dropChain 1 [7]) (loaded .hold .queued) = some 8 ∧
    (after (.dropChain 1 [7]) (loaded .hold .done)).chain 7 = none := by decide +kernel

theorem test_queryChain : (sent (.queryChain 1 [7, 0, 0, 0]) (loaded .hold .queued)).drop 3 =
    [2, 0, 0, 0, 0, 0, 0, 0, 0, 1, 0, 0x20, 0x4E, 0, 0, 0x20, 0x4E, 0, 0, 0, 0, 0, 0, 5, 0] := by
  decide +kernel

theorem test_defineContour : (after (.defineContour 1 (defnBytes 5 dropDef))
    ((cell .hold).setChain 7 (some { lineChain .closed with binding := none }))).contour 5 =
      some (contourIn .queued) := by decide +kernel

theorem test_deleteContour : (after (.deleteContour 1 [5]) (loaded .hold .queued)).chain 7 = none ∧
    (after (.deleteContour 1 [5]) (loaded .hold .queued)).contour 5 = none := by decide +kernel

theorem test_queryContour : (sent (.queryContour 1 [4]) (loaded .hold .queued)).drop 3 = [0] := by decide +kernel

theorem test_startJob : ((after (.startJob 1 []) (lineAt .lowerDetect false (loaded .hold .queued))).contour 5).map
    (·.state) = some .threading := by decide +kernel

theorem test_startJobResumed : ((after (.startJobResumed 1 (5 :: 0 :: (leBytes 4 500 ++ leBytes 4 20000)))
    (loaded .hold .queued)).contour 5).map (·.front) = some 500 := by decide +kernel

theorem test_abortJob : ((after (.abortJob 1 []) (passing .run .cutting .moving true)).contour 5).map (·.state) =
    some .stopped := by decide +kernel

theorem test_hold : (after (.hold 1 []) (passing .run .cutting .moving true)).path.genOn = false := by
  decide +kernel

theorem test_resume : (after (.resume 1 []) (passing .hold .cutting .paused false)).path.genOn = true := by
  decide +kernel

theorem test_park : (after (.park 1 []) (cell .run)).modes = ⟨.park, false, none, false⟩ := by decide +kernel

theorem test_wake : (after (.wake 1 []) (cell .park)).modes = ⟨.waking, false, some 5000, true⟩ := by
  decide +kernel

theorem test_skipContour : status (.skipContour 1 [5]) (current .run .cutting) = some 6 ∧
    ((after (.skipContour 1 [5]) (current .hold .cutting)).contour 5).map (·.state) = some .skipped := by
  decide +kernel

theorem test_releaseSever : status (.releaseSever 1 [5]) (loaded .hold .queued) = some 6 := by decide +kernel

theorem test_releaseHolder : (after (.releaseHolder 1 []) ((cell .hold).onHolder fun h =>
    { h with state := .holding, output := true })).holder.timer = some 2000 := by decide +kernel

theorem test_confirmSlug : (((after (.confirmSlug 1 [5]) ((passing .hold .cutting .slugWait false).onSlug fun g =>
    { g with drop := .expired, dropContour := some 5 })).contour 5).map (·.retention)) = some .released := by
  decide +kernel

theorem test_rethreadDone : ((after (.rethreadDone 1 [5]) (lineAt .lowerDetect true
    (passing .hold .reentryWait .paused false))).contour 5).map (·.state) = some .cutting := by decide +kernel

theorem test_configLine : sent (.configLine 1 [6, 0, 20, 0]) (cell .hold) = [2, 0, 16, 15] := by decide +kernel

theorem test_enableConditions : ((after (.enableConditions 1 [0x40, 0, 0, 0]) (cell .hold)).cond
    .storeCorrected).enable = true := by decide +kernel

theorem test_clearConditions : status (.clearConditions 1 [0, 0, 0, 0x10]) (cell .hold) = some 5 := by
  decide +kernel

theorem test_queryConditions : ((sent (.queryConditions 1 []) (cell .hold)).drop 11).take 4 =
    [0xBF, 0xFE, 0xFF, 0x0F] := by decide +kernel

theorem test_journalSummary : (sent (.journalSummary 1 [0, 0]) (cell .hold)).drop 71 = [0, 0, 0] := by
  decide +kernel

theorem test_journalRead : (sent (.journalRead 1 [0, 0, 1]) (cell .hold)).drop 3 =
    [1, 1, 0, 0, 0, 254] ++ List.replicate 15 255 := by decide +kernel

theorem test_journalErase : status (.journalErase 1 []) (cell .hold) = some 1 := by decide +kernel

theorem test_journalEraseComplete : (after .journalEraseComplete ((cell .hold).onJournal fun j =>
    { j with active := none, erasing := some 3, erasingAll := true })).journal.active = some 0 := by
  decide +kernel

theorem test_lineInputChange : ((after (.lineInputChange .doorClosed false) (cell .run)).lineRec
    .doorClosed).holding = true := by decide +kernel

theorem test_lineFilterExpiry : (after (.lineFilterExpiry .doorClosed)
    (after (.lineInputChange .doorClosed false) (cell .run))).modes.mode = .hold := by decide +kernel

theorem test_axisFaultInput : (after (.axisFaultInput true) (cell .park)).modes.mode = .waking := by
  decide +kernel

theorem test_genFaultInput : ((after (.genFaultInput true) (cell .run)).cond .genFault).latch = true := by
  decide +kernel

theorem test_wakeSettleExpiry : (after .wakeSettleExpiry (cell .waking)).modes.pump = true := by decide +kernel

/-- Vg 73 with Vset 60 and gain 40: (13 * 40) / 64 is 8 (R55). -/
theorem test_gapSample : ((after (.gapSample 73 30 0 5) (passing .run .cutting .moving true)).path.pass.map (·.s))
    = some 1008 := by decide +kernel

/-- A short sample retracts by RetractStep (R55). -/
theorem test_gapSample_short : ((after (.gapSample 73 30 8 5)
    (passing .run .cutting .moving true)).path.pass.map (·.s)) = some 960 := by decide +kernel

theorem test_driveUpdate : (after .driveUpdate ((cell .run).onPath fun p => { p with
    rapid := some ⟨⟨0, 0⟩, ⟨30000, 40000⟩, 50000, 0, .contourTable⟩ })).path.supplied = ⟨6000, 8000⟩ := by
  decide +kernel

/-- Slot 5 with a threading operation whose step timer runs. -/
def threading (op : ThreadOp) (st : ThreadStep) (again : Bool) : State :=
  (current .run .threading).withThread (some ⟨op, 5, st, false, 2, 1, none, none, none, some 400, again⟩)

theorem test_tipCutExpiry : ((after .tipCutExpiry (threading .inGap .tipCut false)).thread.map (·.timer)) =
    some (some 4000) := by decide +kernel

theorem test_feedTimeoutExpiry : ((after .feedTimeoutExpiry (threading .inGap .feed false)).thread.map
    fun t => (t.step, t.again)) = some (.retract, true) := by decide +kernel

theorem test_retractExpiry : ((after .retractExpiry (threading .inGap .retract true)).thread.map (·.made)) =
    some 2 := by decide +kernel

theorem test_unthreadCutExpiry : ((after .unthreadCutExpiry (lineAt .lowerDetect true
    (threading .unthread .unthreadCut false))).thread.map (·.timer)) = some (some 5000) := by decide +kernel

theorem test_pullTimeoutExpiry : ((after .pullTimeoutExpiry (threading .unthread .unthreadPull false)).contour
    5).map (·.fault) = some (some .unthreadFailed) := by decide +kernel

theorem test_dropWaitExpiry : (after .dropWaitExpiry ((cell .run).onSlug fun g =>
    { g with drop := .waiting, dropTimer := some 1500 })).modes.mode = .hold := by decide +kernel

theorem test_holderEngageTimeout : (after .holderEngageTimeout ((current .run .cutting).onHolder fun h =>
    { h with state := .engaging, claimant := some 5, output := true, timer := some 2000 })).holder.request =
      some (.timedOut, 5) := by decide +kernel

theorem test_holderReleaseTimeout : (after .holderReleaseTimeout ((cell .run).onHolder fun h =>
    { h with state := .releasing, timer := some 2000 })).holder.state = .releasing := by decide +kernel

/-! ## The hypotheses of the statements can be met -/

theorem quietCell (m : Mode) : (cell m).Quiet := ⟨⟨rfl, rfl⟩, rfl, rfl, rfl, rfl, rfl, rfl⟩

theorem quietLoaded (m : Mode) (st : ContourState) : (loaded m st).Quiet :=
  ⟨⟨rfl, rfl⟩, rfl, rfl, rfl, rfl, rfl, rfl⟩

theorem quietCurrent (m : Mode) (st : ContourState) : (current m st).Quiet :=
  ⟨⟨rfl, rfl⟩, rfl, rfl, rfl, rfl, rfl, rfl⟩

theorem quietPassing (m : Mode) (st : ContourState) (sub : SubState) (g : Bool) : (passing m st sub g).Quiet :=
  ⟨⟨rfl, rfl⟩, rfl, rfl, rfl, rfl, rfl, rfl⟩

theorem quietLine (l : Line) (v : Bool) {s : State} (h : s.Quiet) : (lineAt l v s).Quiet := h

/-- A property of every contour, from a check of every slot. -/
theorem every {s : State} {f : Slot → Contour → Bool}
    (h : ((List.finRange 64).all fun j => (s.contour j).all (f j)) = true) :
    ∀ j k, s.contour j = some k → f j k = true := by
  intro j k hk
  have := List.all_eq_true.mp h j (List.mem_finRange j)
  rw [hk] at this
  exact this

theorem noContour (m : Mode) (i : Slot) : (cell m).contour i = none := by
  simp [State.contour, cell, State.reset]

/-- Slot 5 current with a contour, its pass running on chain 7, the wire at point(s). -/
def running (m : Mode) (c : Contour) (r : RunPass) (k : Chain) : State :=
  ((((cell m).setContour 5 (some c)).setChain 7 (some k)).onJob fun j =>
    { j with state := .stageA, current := some 5 }).onPath fun p =>
      { p with pass := some r, commanded := k.point r.s, genOn := decide (m = .run) }

theorem running_contour (m c r k) : (running m c r k).contour 5 = some c :=
  State.contour_setContour_same (cell m) 5 (some c)

theorem running_chain (m c r k) : (running m c r k).chain 7 = some k :=
  State.chain_setChain_same ((cell m).setContour 5 (some c)) 7 (some k)

theorem quietRunning (m c r k) : (running m c r k).Quiet := ⟨⟨rfl, rfl⟩, rfl, rfl, rfl, rfl, rfl, rfl⟩

theorem running_onPass {m c r k} {q : PassRec} (hq : c.pass = some q) (hr : r.chain = 7)
    (hk : (k.segs.all fun g => decide (g.check = .unchanged)) = true) : (running m c r k).OnPass 5 c q r k :=
  ⟨rfl, running_contour m c r k, hq, rfl, hr ▸ running_chain m c r k, fun g hg =>
    of_decide_eq_true (List.all_eq_true.mp hk g hg)⟩

/-- Slot 5 holds a contour, and every other slot is EMPTY. -/
def Only (s : State) (c : Contour) : Prop := s.contours = ((cell .hold).setContour 5 (some c)).contours

theorem only_contour {s : State} {c : Contour} (h : Only s c) : s.contour 5 = some c := by
  unfold State.contour
  rw [h]
  exact State.contour_setContour_same (cell .hold) 5 (some c)

theorem only_noneWaiting {s : State} {c : Contour} (h : Only s c) (hc : c.state ≠ .queued ∧ c.state ≠ .bridged) :
    s.NoneWaiting := by
  intro j d hd
  by_cases hj : j = 5
  · subst hj
    rw [only_contour h] at hd
    cases hd
    exact hc
  · have : s.contour j = (cell .hold).contour j := by
      unfold State.contour
      rw [h]
      exact State.contour_setContour_ne (cell .hold) hj (some c)
    rw [this, noContour] at hd
    cases hd

theorem room {s : State} (h : s.journal = Journal.reset) : s.JournalRoom := by
  unfold State.JournalRoom
  rw [h]
  exact ⟨rfl, rfl, rfl, by decide, 1, rfl, by decide⟩

theorem running_noHold (m c r k) : (running m c r k).NoHoldCause := ⟨rfl, rfl, rfl, rfl, rfl, rfl⟩

/-- A line's hold is running, the input at the other level. -/
def holdingLine (l : Line) (v : Bool) (s : State) : State :=
  s.setLine l { s.lineRec l with input := v, level := !v, active := !v, holding := true }

theorem turns (l : Line) (v : Bool) (s : State) (h : (s.lineRec l).polarity = .activeHigh) :
    (holdingLine l v s).Turns l v := by
  unfold State.Turns holdingLine
  rw [State.lineRec_setLine_same]
  exact ⟨rfl, rfl, by cases v <;> simp [h]⟩

theorem soundCut {k : Chain}
    (h : (k.segs.all fun g => decide (g.check = .unchanged ∧ g.mode = .cut)) = true) : k.SoundCut :=
  fun g hg => of_decide_eq_true (List.all_eq_true.mp h g hg)

/-- A chain's sums hold where they hold for the numbers of its segments. -/
theorem formed {k : Chain} (hl : k.loaded = (k.segs.map (·.length)).sum)
    (h : ((List.range k.segs.length).all fun n => k.segs[n]?.all fun g =>
      decide (g.cumStart = ((k.segs.take n).map (·.length)).sum)) = true) : k.Formed := by
  refine ⟨hl, fun n g hg => ?_⟩
  have hn : n < k.segs.length := (List.getElem?_eq_some_iff.mp hg).1
  have := List.all_eq_true.mp h n (List.mem_range.mpr hn)
  rw [hg] at this
  exact of_decide_eq_true this

/-- No command waits. -/
theorem test_meets_IdlePart : State.reset.pending = [] := rfl

/-- The statements about a quiet link, with no other hypothesis. -/
theorem test_meets_quiet : ∀ m, (cell m).Quiet := quietCell

/-- A reply to RESET in transmission, three frames queued. -/
def resetting : State := (cell .hold).onLink fun l =>
  { l with resetTaken := true, sending := some ⟨.reply, ⟨0x84, 1, [0, 0, 16]⟩⟩
           queue := List.replicate 3 ⟨0x01, 2, []⟩ }

theorem test_meets_ResetRequest : (cell .hold).Quiet ∧
    (resetting.Steady ∧ resetting.link.collecting = [] ∧ resetting.link.resetTaken = true ∧
      resetting.link.sending.isSome = true ∧ resetting.link.queue.length < 4 ∧
      (List.replicate 250 (0 : Byte)).length ≤ 250) ∧
    resetting.link.sending = some ⟨.reply, ⟨0x84, 1, [0, 0, 16]⟩⟩ :=
  ⟨quietCell _, ⟨⟨rfl, rfl⟩, rfl, rfl, rfl, by decide, by decide +kernel⟩, rfl⟩

theorem test_meets_UnknownKinds : (cell .hold).Quiet ∧ (List.replicate 250 (0 : Byte)).length ≤ 250 ∧
    assignedKinds.contains (0xFF : Byte).toNat = false ∧ ([0] : Payload).length ≠ 0 ∧
    (([0] : Payload).length ≠ 0 ∧ ([0] : Payload).length ≠ 10) :=
  ⟨quietCell _, by decide +kernel, by decide, by decide, by decide⟩

/-- Four frames wait while a reply is sent. -/
def fullQueue : State := (cell .hold).onLink fun l =>
  { l with sending := some ⟨.reply, ⟨0x81, 1, []⟩⟩, queue := List.replicate 4 ⟨0x01, 2, []⟩ }

theorem test_meets_DiscardedFrames : fullQueue.Steady ∧ fullQueue.link.collecting = [] ∧
    250 < (251 : Byte).toNat ∧
    (let f : Frame := ⟨0x01, 0, []⟩
     f.payload.length ≤ 250 ∧ ([0, 0] : List Byte) ≠ leBytes 2 (crc (frameBody f)) ∧
      ∀ b ∈ frameBody f ++ [0, 0], b ≠ 0xA5) ∧
    4 ≤ fullQueue.link.queue.length :=
  ⟨⟨rfl, rfl⟩, rfl, by decide, by decide +kernel, by decide +kernel⟩

theorem test_meets_GoodFrames :
    let s := fullQueue.onLink fun l => { l with queue := List.replicate 3 ⟨0x01, 2, []⟩ }
    let f : Frame := ⟨0x01, 0, []⟩
    s.Steady ∧ s.link.collecting = [] ∧ f.payload.length ≤ 250 ∧ (∀ b ∈ ([0xA4] : List Byte), b ≠ 0xA5) ∧
      s.link.queue.length < 4 ∧ s.replying = true ∧ (0 < 5 ∧ 5 < (frameBytes f).length) :=
  ⟨⟨rfl, rfl⟩, rfl, by decide, by decide, by decide, rfl, by decide +kernel⟩

/-- A frame in transmission. -/
def sendingCell : State := (cell .hold).onLink fun l => { l with sending := some ⟨.notice, ⟨0x7D, 0, []⟩⟩ }

theorem test_meets_TransmitterChooses :
    let waiting := sendingCell.onLink fun l => { l with replies := [⟨0x81, 1, []⟩] }
    let noticing := sendingCell.setCond .aux ⟨true, true, false, true, true⟩
    let progressing := sendingCell.onLink fun l => { l with progressPending := true }
    (waiting.Steady ∧ waiting.link.sending = some ⟨.notice, ⟨0x7D, 0, []⟩⟩ ∧ waiting.link.resetTaken = false ∧
      waiting.link.replies = ⟨0x81, 1, []⟩ :: []) ∧
    (noticing.Steady ∧ noticing.link.replies = [] ∧ noticing.link.queue = [] ∧ noticing.noticePending = true) ∧
    (progressing.Steady ∧ progressing.noticePending = false ∧ progressing.link.progressPending = true) ∧
    sendingCell.Steady ∧ sendingCell.noticePending = false ∧ sendingCell.link.progressPending = false :=
  ⟨⟨⟨rfl, rfl⟩, rfl, rfl, rfl⟩, ⟨⟨rfl, rfl⟩, rfl, rfl, by decide +kernel⟩,
    ⟨⟨rfl, rfl⟩, by decide +kernel, rfl⟩, ⟨rfl, rfl⟩, by decide +kernel, rfl⟩

theorem test_meets_Parameters : (cell .hold).Quiet ∧ (10, 4, true, 1000, 1000000) ∈ parameterRows ∧
    1000001 < 256 ^ 4 ∧ valueTaken 10 true 1000 1000000 1000001 = some 1000000 ∧
    writeAllowed (cell .hold) 10 1000000 ∧ valueTaken 7 false 0 31 32 = none ∧
    valueTaken 18 false 0 15 15 = some 15 ∧ writeAllowed (cell .hold) 18 15 :=
  ⟨quietCell _, by decide, by decide, by decide, ⟨fun _ => rfl, by decide⟩, by decide, by decide,
    fun _ => rfl, fun _ i c h => by
      rw [noContour .hold i] at h
      cases h⟩

/-- Slot 5's contour with a break count. -/
def broken (st : ContourState) (n : Nat) : State :=
  (loaded .hold st).setContour 5 (some { contourIn st with breakCount := n })

theorem test_meets_RestrictedParameters : (current .hold .cutting).job.current.isSome = true ∧
    (broken .queued 16).Quiet ∧ (broken .queued 16).contour 5 = some { contourIn .queued with breakCount := 16 } ∧
    (ContourState.queued ≠ .faulted ∧ 15 < 16) :=
  ⟨rfl, ⟨⟨rfl, rfl⟩, rfl, rfl, rfl, rfl, rfl, rfl⟩, by decide +kernel, by decide, by decide⟩

theorem test_meets_GetParam : (cell .hold).Quiet ∧ 3 < (4 : Byte).toNat := ⟨quietCell _, by decide⟩

/-- The window with its corners at the coordinate limits. -/
def widest : Rect := ⟨-4000000, 4000000, -4000000, 4000000⟩

theorem widest_proper : widest.Proper := by
  refine ⟨?_, by decide, by decide⟩
  simp [widest]

theorem sendable (q : Rect) (h : ([q.xMin, q.xMax, q.yMin, q.yMax].all fun v =>
    decide (-2147483648 ≤ v ∧ v ≤ 2147483647)) = true) : q.Sendable := by
  intro v hv
  simpa [fourBytes] using List.all_eq_true.mp h v hv

theorem test_meets_TravelWindow :
    ((⟨-4000001, 0, 0, 0⟩ : Rect).Sendable ∧ ¬ (⟨-4000001, 0, 0, 0⟩ : Rect).Proper) ∧
    (widest.Sendable ∧ widest.Proper ∧ (∃ ch, (loaded .hold .queued).chain ch ≠ none)) ∧
    (∀ ch, (cell .hold).chain ch = none) ∧
    ((⟨1, 1, 0, 0⟩ : Rect).Sendable ∧ (⟨1, 1, 0, 0⟩ : Rect).Proper ∧
      ¬ (1 ≤ (cell .hold).path.commanded.x)) ∧
    ((⟨0, 0, 0, 0⟩ : Rect).Proper ∧ (0 ≤ (cell .hold).path.commanded.x ∧
      (cell .hold).path.commanded.x ≤ 0 ∧ 0 ≤ (cell .hold).path.commanded.y ∧
      (cell .hold).path.commanded.y ≤ 0)) :=
  ⟨⟨sendable _ (by decide), by simp [Rect.Proper]⟩,
    ⟨sendable _ (by decide), widest_proper, 7, by decide +kernel⟩, by decide +kernel,
    ⟨sendable _ (by decide), by simp [Rect.Proper], by decide⟩, by simp [Rect.Proper], by decide⟩

theorem test_meets_KeepOuts : widest.Sendable ∧ 3 < (4 : Byte).toNat ∧ 1 < (2 : Byte).toNat ∧
    ((3 : Byte) = byte (3 : Fin 4).val ∧ (1 : Byte).toNat ≤ 1 ∧ widest.Proper) ∧
    (∃ ch, (loaded .hold .queued).chain ch ≠ none) ∧ (∀ ch, (cell .hold).chain ch = none) ∧
    (255 : Byte) ≠ 0 :=
  ⟨sendable _ (by decide), by decide, by decide, ⟨by decide, by decide, widest_proper⟩,
    ⟨7, by decide +kernel⟩, by decide +kernel, by decide⟩

/-- A keep-out rectangle at the corner of the work area. -/
def keptOutCell : State := (cell .hold).onStore fun t =>
  { t with keepOuts := t.keepOuts.set 3 ⟨true, ⟨3999999, 4000000, 3999999, 4000000⟩⟩ }

theorem test_meets_OpenChain : fourBytes 4000000 ∧ fourBytes (-4000001) ∧ 127 < (128 : Byte).toNat ∧
    (127 : Byte) = byte (127 : ChainId).val ∧ (loaded .hold .queued).chain 7 ≠ none ∧
    (cell .hold).chain 127 = none ∧
    (let s := (cell .hold).onStore fun t => { t with window := ⟨0, 3999999, 0, 0⟩ }
     s.Quiet ∧ s.chain 127 = none ∧ ¬ ((4000000 : Int) ≤ s.store.window.xMax)) ∧
    (keptOutCell.Quiet ∧ keptOutCell.chain 127 = none ∧ ∃ n : Fin 4, keptOutCell.store.keepOuts[n].enabled = true ∧
      keptOutCell.store.keepOuts[n].rect.holds ⟨4000000, 4000000⟩ = true) ∧
    ¬ (∃ n : Fin 4, (cell .hold).store.keepOuts[n].enabled = true ∧
      (cell .hold).store.keepOuts[n].rect.holds ⟨4000000, 4000000⟩ = true) :=
  ⟨⟨by decide, by decide⟩, ⟨by decide, by decide⟩, by decide, by decide, by decide +kernel, by decide +kernel,
    ⟨⟨⟨rfl, rfl⟩, rfl, rfl, rfl, rfl, rfl, rfl⟩, by decide +kernel, by decide⟩,
    ⟨⟨⟨rfl, rfl⟩, rfl, rfl, rfl, rfl, rfl, rfl⟩, by decide +kernel, by decide +kernel⟩, by decide +kernel⟩

/-- Slot 5's chain 7 open with a line of 20,000 ticks, no pass running. -/
def openLoaded : State := (loaded .hold .queued).setChain 7 (some (lineChain .opened))

theorem quietOpen : openLoaded.Quiet := ⟨⟨rfl, rfl⟩, rfl, rfl, rfl, rfl, rfl, rfl⟩

theorem test_meets_Load : openLoaded.Quiet ∧ ([7, 12] : Payload).length ≤ 250 ∧
    ∀ r, openLoaded.path.pass = some r → u8 [7, 12] 0 ≠ r.chain.val :=
  ⟨quietOpen, by decide, fun _ h => by cases h⟩

theorem test_meets_Line : (openLoaded.Quiet ∧ openLoaded.chain 7 = some (lineChain .opened) ∧
      1 ≤ openLoaded.store.freeSlots ∧ ∀ r, openLoaded.path.pass = some r → r.chain ≠ 7) ∧
    (fourBytes 4000001 ∧ ¬ ((4000001 : Int) ≤ 4000000)) ∧ (lineChain .opened).endPt = ⟨20000, 0⟩ ∧
    (openLoaded.store.window.holds ⟨20000, 0⟩ = true ∧ openLoaded.store.window.holds ⟨4000000, 0⟩ = true ∧
      ∀ n : Fin 4, openLoaded.store.keepOuts[n].enabled = true →
        lineMeets ⟨20000, 0⟩ ⟨4000000, 0⟩ openLoaded.store.keepOuts[n].rect = false) ∧
    20000 + distance ⟨20000, 0⟩ ⟨4000000, 0⟩ ≤ 2147483647 :=
  ⟨⟨quietOpen, by decide +kernel, by decide, fun _ h => by cases h⟩, ⟨⟨by decide, by decide⟩, by decide⟩, rfl,
    ⟨by decide, by decide, by decide +kernel⟩, by decide +kernel⟩

/-- The remaining clauses: a window and a keep-out that the line meets, and a length beyond the largest. -/
theorem test_meets_Line_refused :
    let narrow := openLoaded.onStore fun t => { t with window := ⟨0, 3999999, 0, 0⟩ }
    let barred := openLoaded.onStore fun t =>
      { t with keepOuts := t.keepOuts.set 3 ⟨true, ⟨20001, 20002, 0, 1⟩⟩ }
    let long := openLoaded.setChain 7 (some { lineChain .opened with loaded := 2147483647 })
    (narrow.Quiet ∧ ¬ (narrow.store.window.holds ⟨4000000, 0⟩ = true)) ∧
    (barred.Quiet ∧ ∃ n : Fin 4, barred.store.keepOuts[n].enabled = true ∧
      lineMeets ⟨20000, 0⟩ ⟨4000000, 0⟩ barred.store.keepOuts[n].rect = true) ∧
    (long.Quiet ∧ 2147483647 < 2147483647 + distance ⟨20000, 0⟩ ⟨4000000, 0⟩) :=
  ⟨⟨⟨⟨rfl, rfl⟩, rfl, rfl, rfl, rfl, rfl, rfl⟩, by decide⟩,
    ⟨⟨⟨rfl, rfl⟩, rfl, rfl, rfl, rfl, rfl, rfl⟩, by decide +kernel⟩,
    ⟨⟨⟨rfl, rfl⟩, rfl, rfl, rfl, rfl, rfl, rfl⟩, by decide +kernel⟩⟩

theorem test_meets_CloseChain :
    (cell .hold).chain 7 = none ∧ (loaded .hold .queued).chain 7 = some (lineChain .closed) ∧
    openLoaded.chain 7 = some (lineChain .opened) ∧ (lineChain .opened).segs ≠ [] ∧
    (openLoaded.contour 5 = some (contourIn .queued) ∧ dropDef.reserve 0 < 20000) ∧
    (let s := openLoaded.setContour 5 (some { contourIn .queued with
        defn := { dropDef with bridge := some ⟨20000, .attended⟩ } })
     s.Quiet ∧ s.contour 5 = some { contourIn .queued with
        defn := { dropDef with bridge := some ⟨20000, .attended⟩ } } ∧
      20000 ≤ ({ dropDef with bridge := some ⟨20000, .attended⟩ } : ContourDef).reserve 0) ∧
    (let s := (cell .hold).setChain 7 (some (lineChain .corrupt))
     s.Quiet ∧ s.chain 7 = some (lineChain .corrupt)) ∧
    (let s := (cell .hold).setChain 7 (some (newChain ⟨0, 0⟩))
     s.Quiet ∧ s.chain 7 = some (newChain ⟨0, 0⟩) ∧ (newChain ⟨0, 0⟩).segs = []) :=
  ⟨by decide +kernel, by decide +kernel, by decide +kernel, by decide, ⟨by decide +kernel, by decide⟩,
    ⟨⟨⟨rfl, rfl⟩, rfl, rfl, rfl, rfl, rfl, rfl⟩, by decide +kernel, by decide⟩,
    ⟨⟨⟨rfl, rfl⟩, rfl, rfl, rfl, rfl, rfl, rfl⟩, by decide +kernel⟩,
    ⟨⟨rfl, rfl⟩, rfl, rfl, rfl, rfl, rfl, rfl⟩, by decide +kernel, rfl⟩

theorem test_meets_CloseRunning :
    let c := { contourIn .cutting with
      defn := { dropDef with
        bridge := some ⟨2000, .attended⟩, passes := [passOn .rough, { passOn .sever with chain := 8 }] } }
    let k := lineChain .opened
    let r (pos : Nat) := { runPass .paused with s := pos, stopPoint := 18000 }
    let s (pos : Nat) := running .hold c (r pos) k
    127 < (128 : Byte).toNat ∧
    (∀ pos, (s pos).Quiet ∧ (s pos).OnPass 5 c (passOn .rough) (r pos) k ∧ (s pos).modes.mode = .hold) ∧
    (c.defn.method = .drop ∧ k.state = .opened ∧ k.SoundCut ∧ k.segs ≠ [] ∧ k.binding = some (5, c.passIndex) ∧
      c.defn.reserve c.passIndex < k.loaded) ∧
    17999 < c.defn.passEnd c.passIndex k.loaded ∧
    (18000 = c.defn.passEnd c.passIndex k.loaded ∧ c.passIndex ≠ c.defn.closingPass ∧
      (c.defn.passes[c.passIndex + 1]?).map (·.role) = some .sever) :=
  ⟨by decide, fun _ => ⟨quietRunning _ _ _ _, running_onPass rfl rfl rfl, rfl⟩,
    ⟨rfl, rfl, soundCut rfl, by decide, rfl, by decide⟩, by decide, by decide, by decide, rfl⟩

theorem test_meets_DropChain : 127 < (128 : Byte).toNat ∧ (cell .hold).chain 7 = none ∧
    (loaded .hold .queued).chain 7 = some (lineChain .closed) ∧ (loaded .hold .queued).slotState 5 = .queued ∧
    (loaded .hold .done).slotState 5 = .done := by decide +kernel

theorem test_meets_QueryChain : 4095 < 4096 ∧ 6 < (7 : Byte).toNat ∧ (4095 ≤ 4095 ∧ (6 : Byte).toNat ≤ 6) ∧
    (cell .hold).chain 7 = none ∧ (loaded .hold .queued).chain 7 = some (lineChain .closed) ∧
    (∀ g ∈ ((lineChain .closed).segs.drop 0).take 6, g.check = .unchanged) ∧
    ((cell .hold).setChain 7 (some (lineChain .corrupt))).chain 7 = some (lineChain .corrupt) := by
  decide +kernel

/-- Slot 5's chain with an error in its slot. -/
def upsetChain (c : SlotCheck) : Chain := { lineChain .closed with segs := [{ cutLine 20000 with check := c }] }

theorem test_meets_SlotErrors : ∀ c : SlotCheck,
    let s := (loaded .hold .queued).setChain 7 (some (upsetChain c))
    s.Quiet ∧ (upsetChain c).state ≠ .corrupt ∧ (upsetChain c).segs[0]? =
      some { cutLine 20000 with check := c } ∧ s.job.current ≠ some 5 :=
  fun _ => ⟨⟨⟨rfl, rfl⟩, rfl, rfl, rfl, rfl, rfl, rfl⟩, fun e => (by cases e), rfl, fun e => (by cases e)⟩

theorem test_meets_SlotErrors_current :
    let k := upsetChain .uncorrectable
    let s := running .run (contourIn .cutting) (runPass .moving) k
    s.Quiet ∧ s.chain 7 = some k ∧ k.state ≠ .corrupt ∧ 0 ≤ 4095 ∧
      k.segs[0]? = some { cutLine 20000 with check := .uncorrectable } ∧ k.binding = some (5, 0) ∧
      s.job.current = some 5 ∧ s.contour 5 = some (contourIn .cutting) ∧ s.NoneWaiting :=
  ⟨quietRunning _ _ _ _, running_chain _ _ _ _, fun e => (by cases e), by decide, rfl, rfl, rfl,
    running_contour _ _ _ _, only_noneWaiting (c := contourIn .cutting) rfl (by decide)⟩

/-- The invariants hold after a reset, so that each has a state that meets it. -/
theorem test_meets_invariants : State.reset.ChainsFormed ∧ State.reset.LinkSettled ∧ State.reset.StageHasCurrent ∧
    State.reset.PumpFollowsMode ∧ State.reset.ModeTimers := by
  refine ⟨fun ch k h => ?_, fun _ => ⟨rfl, by decide +kernel, rfl⟩, ?_, rfl, ?_⟩
  · simp [State.chain, State.reset, Store.reset] at h
  · simp [State.StageHasCurrent, State.reset, Job.reset]
  · simp [State.ModeTimers, State.reset, ModeUnit.reset]

theorem test_meets_Credits : State.reset.Credits := by
  unfold State.Credits
  decide +kernel

theorem test_meets_JournalForm : State.reset.JournalForm := by
  show Journal.reset.Form
  constructor <;> simp [Journal.reset, Journal.awaitsErase] <;> decide

/-- A pass whose tuning field lies beyond its clamp. -/
def wideDef : ContourDef := { dropDef with passes := [{ passOn .rough with feedMax := 2001 }] }

theorem dropDef_inRange : dropDef.InRange ∧ wideDef.InRange := by
  constructor <;> simp [ContourDef.InRange, dropDef, wideDef, passOn]

theorem test_meets_DefineContour :
    let s := (cell .hold).setChain 7 (some { lineChain .closed with binding := none })
    s.Quiet ∧ (∀ d ∈ [dropDef, wideDef], (Instr.defineContour 1 (defnBytes 5 d)).wf = true) ∧
      (dropDef.fieldsOk = true ∧ dropDef.planOk = true ∧ dropDef.taken = dropDef) ∧
      (wideDef.fieldsOk = true ∧ wideDef.planOk = true ∧ wideDef.taken ≠ wideDef) ∧
      s.contour 5 = none ∧ StoreAccepts s dropDef ∧ StoreAccepts s wideDef ∧ s.job.state ≠ .severWait ∧
      (loaded .hold .queued).contour 5 ≠ none := by
  intro s
  have hc : s.chain 7 = some { lineChain .closed with binding := none } := by decide +kernel
  have ha : ∀ d : ContourDef, d.centre = ⟨0, 0⟩ → d.bridge = none → d.method = .drop →
      (∀ n q, d.passes[n]? = some q → n = 0 ∧ q.chain = 7) → StoreAccepts s d := by
    intro d h0 hb hm hp
    refine ⟨by rw [h0]; decide, by rw [h0]; decide +kernel, fun n q hq => ?_⟩
    obtain ⟨rfl, h7⟩ := hp n q hq
    refine ⟨_, by rw [h7]; exact hc, by decide, rfl, fun _ => by rw [h0]; decide +kernel, fun _ => ?_⟩
    simp [ContourDef.reserve, ContourDef.holdBack, hb, hm, lineChain]
  refine ⟨⟨⟨rfl, rfl⟩, rfl, rfl, rfl, rfl, rfl, rfl⟩, by decide +kernel, by decide +kernel, by decide +kernel,
    by decide +kernel, ha _ rfl rfl rfl ?_, ha _ rfl rfl rfl ?_, by decide, by decide +kernel⟩
  all_goals
    intro n q hq
    rcases n with _ | n
    · cases hq; exact ⟨rfl, rfl⟩
    · simp [dropDef, wideDef] at hq

theorem test_meets_DeleteContour : (cell .hold).contour 5 = none ∧
    ((current .run .cutting).contour 5 = some (contourIn .cutting) ∧ (contourIn .cutting).state.isActive = true) ∧
    (let s := loaded .hold .queued
     s.contour 5 = some (contourIn .queued) ∧ (contourIn .queued).state.isActive = false ∧
      s.job.current ≠ some 5 ∧ s.holder.owner ≠ some 5 ∧ s.holder.claimant ≠ some 5 ∧
      ¬ (s.job.state = .severWait ∧ (contourIn .queued).state = .bridged)) := by decide +kernel

theorem test_meets_QueryContour : (cell .hold).contour 63 = none ∧
    (loaded .hold .queued).contour 5 = some (contourIn .queued) := by decide +kernel

theorem test_meets_StartJobRefusals : (cell .run).modes.mode ≠ .hold ∧ (current .hold .cutting).job.state = .stageA ∧
    (loaded .hold .stopped).contour 5 = some (contourIn .stopped) ∧
    (((cell .hold).setCond .doorOpen ⟨true, true, false, false, true⟩).cond .doorOpen).live = true := by
  decide +kernel

/-- Slot 5 queued, the wire 1,000 ticks from its start hole, nothing in the lower guide. -/
def ready : State := (loaded .hold .queued).onPath fun p => { p with commanded := ⟨-1000, 0⟩ }

theorem ready_noHold : ready.NoHoldCause ∧ (lineAt .lowerDetect true ready).NoHoldCause := by
  constructor <;> exact ⟨by decide +kernel, by decide +kernel, by decide +kernel, rfl, rfl, rfl⟩

theorem ready_idle : ready.NothingUnderWay := ⟨rfl, rfl, rfl, rfl, rfl, rfl, rfl⟩

theorem ready_room : ready.JournalRoom := ⟨rfl, rfl, rfl, by decide, 1, rfl, by decide⟩

theorem test_meets_StartJob : ready.Quiet ∧ ready.modes.mode = .hold ∧ ready.job.state = .idle ∧
    (∀ j k, ready.contour j = some k → k.state ≠ .stopped) ∧ ready.NoHoldCause ∧ ready.NothingUnderWay ∧
    ready.JournalRoom ∧ ready.contour 5 = some (contourIn .queued) ∧ (contourIn .queued).state = .queued ∧
    (∀ j k, j < 5 → ready.contour j = some k → k.state ≠ .queued) ∧ ready.active .lowerDetect = false ∧
    ready.path.commanded ≠ dropDef.centre ∧
    ready.store.lineKeptOut ready.path.commanded dropDef.centre = false := by
  refine ⟨⟨⟨rfl, rfl⟩, rfl, rfl, rfl, rfl, rfl, rfl⟩, rfl, rfl, ?_, ready_noHold.1, ready_idle, ready_room,
    by decide +kernel, rfl, ?_, by decide +kernel, by decide, by decide +kernel⟩
  · intro j k hk
    simpa using every (f := fun _ k => decide (k.state ≠ .stopped)) (by decide +kernel) j k hk
  · intro j k hj hk
    have := every (s := ready) (f := fun j k => decide (5 ≤ j)) (by decide +kernel) j k hk
    simp only [decide_eq_true_eq] at this
    exact absurd hj (Fin.not_lt.mpr this)

theorem test_meets_ResumedStart :
    let s := lineAt .lowerDetect true ready
    s.Quiet ∧ (19999 < 2 ^ 32 ∧ 20000 < 2 ^ 32) ∧ (cell .run).modes.mode ≠ .hold ∧ s.modes.mode = .hold ∧
      s.job.state = .idle ∧ s.mayRun = true ∧ s.contour 5 = some (contourIn .queued) ∧
      dropDef.passes[(0 : Fin 8).val]? = some (passOn .rough) ∧ s.chain 7 = some (lineChain .closed) ∧
      (lineChain .closed).binding = some (5, 0) ∧ 19999 < dropDef.passEnd 0 20000 ∧
      (lineChain .closed).Sound ∧ s.NoHoldCause ∧ s.NothingUnderWay ∧ s.JournalRoom ∧
      s.active .lowerDetect = true ∧
      within 2 s.path.commanded ((lineChain .closed).point 19999) = false := by
  refine ⟨⟨⟨rfl, rfl⟩, rfl, rfl, rfl, rfl, rfl, rfl⟩, by decide, by decide, rfl, rfl, by decide +kernel,
    by decide +kernel, rfl, by decide +kernel, rfl, by decide, ?_, ready_noHold.2, ⟨rfl, rfl, rfl, rfl, rfl, rfl, rfl⟩,
    ⟨rfl, rfl, rfl, by decide, 1, rfl, by decide⟩, by decide +kernel, by decide +kernel⟩
  simp [Chain.Sound, lineChain, cutLine]

theorem test_meets_Abort : (cell .park).modes.mode = .park ∧ (cell .hold).job.state = .idle ∧
    (let s := passing .run .cutting .moving true
     s.Quiet ∧ s.modes.mode = .run ∧ s.modes.parkPending = false ∧ s.job.state = .stageA ∧
      s.job.current = some 5 ∧ s.contour 5 = some (contourIn .cutting)) ∧
    (let s := (loaded .hold .bridged).onJob fun j => { j with state := .severWait }
     s.Quiet ∧ s.modes.mode = .hold ∧ s.modes.parkPending = false ∧ s.job.state = .severWait ∧
      s.job.current = none) :=
  ⟨rfl, rfl, ⟨quietPassing _ _ _ _, rfl, rfl, rfl, rfl, by decide +kernel⟩, ⟨⟨rfl, rfl⟩, rfl, rfl, rfl, rfl, rfl,
    rfl⟩, rfl, rfl, rfl, rfl⟩

theorem test_meets_Skip : (cell .hold).contour 5 = none ∧
    (loaded .hold .done).contour 5 = some (contourIn .done) ∧
    ((current .run .cutting).contour 5 = some (contourIn .cutting) ∧ (current .run .cutting).modes.mode = .run) ∧
    ((loaded .hold .bridged).contour 5 = some (contourIn .bridged) ∧
      (loaded .hold .bridged).job.state ≠ .severWait) := by decide +kernel

/-- A BRIDGED contour with an ATTENDED bridge. -/
def bridgedContour : Contour := { contourIn .bridged with
  defn := { dropDef with bridge := some ⟨2000, .attended⟩, passes := [passOn .rough, passOn .sever] } }

/-- The job waits for a release of slot 5. -/
def severWaiting : State := ((cell .hold).setContour 5 (some bridgedContour)).onJob fun j =>
  { j with state := .severWait }

theorem test_meets_ReleaseSever :
    (∀ c, (cell .hold).contour 5 = some c → (c.defn.attended && !decide (c.state = .empty ∨ c.state = .done ∨
      c.state = .skipped ∨ c.state = .faulted)) = false) ∧
    (let s := (cell .hold).setContour 5 (some bridgedContour)
     s.Quiet ∧ s.job.state ≠ .severWait ∧ s.contour 5 = some bridgedContour ∧
      bridgedContour.defn.attended = true) :=
  ⟨fun c h => (by rw [noContour .hold 5] at h; cases h), ⟨⟨rfl, rfl⟩, rfl, rfl, rfl, rfl, rfl, rfl⟩, by decide,
    by decide +kernel, rfl⟩

theorem test_meets_ReleaseInSeverWait : severWaiting.Quiet ∧ severWaiting.job.state = .severWait ∧
    severWaiting.contour 5 = some bridgedContour ∧ bridgedContour.state = .bridged ∧
    bridgedContour.defn.attended = true ∧ bridgedContour.severReleased = false ∧
    severWaiting.modes.mode = .hold ∧
    (∀ j k, severWaiting.contour j = some k → k.state ≠ .queued ∧
      (k.state = .bridged → k.defn.attended = true ∧ k.severReleased = false)) := by
  refine ⟨⟨⟨rfl, rfl⟩, rfl, rfl, rfl, rfl, rfl, rfl⟩, rfl, by decide +kernel, rfl, rfl, rfl, rfl, fun j k hk => ?_⟩
  have := every (s := severWaiting) (f := fun _ k => decide (k = bridgedContour)) (by decide +kernel) j k hk
  simp only [decide_eq_true_eq] at this
  subst this
  decide

/-- Slot 5 waits for hand rethreading, the wire through the plate at point(s). -/
def rethreaded : State := lineAt .lowerDetect true (passing .hold .reentryWait .paused false)

theorem test_meets_RethreadDone : (cell .hold).slotState 5 ≠ .reentryWait ∧
    (rethreaded.Quiet ∧ rethreaded.contour 5 = some (contourIn .reentryWait) ∧ rethreaded.job.current = some 5 ∧
      rethreaded.path.pass = some (runPass .paused) ∧ rethreaded.chain 7 = some (lineChain .closed) ∧
      (contourIn .reentryWait).pass = some (passOn .rough) ∧ rethreaded.active .lowerDetect = true ∧
      rethreaded.active .wireIntact = true) ∧
    (let s := rethreaded.onPath fun p => { p with commanded := ⟨1001, 0⟩ }
     s.path.commanded ≠ (lineChain .closed).point 1000) ∧
    (rethreaded.path.commanded = (lineChain .closed).point 1000 ∧ rethreaded.modes.mode = .hold ∧
      rethreaded.job.resume = none ∧ dropDef.method = .drop ∧ (lineChain .closed).state = .closed ∧
      (lineChain .closed).SoundCut ∧ (lineChain .closed).segs ≠ [] ∧
      1000 < dropDef.passEnd 0 (lineChain .closed).loaded ∧ (runPass .paused).sub = .paused) := by
  refine ⟨by decide +kernel, ⟨⟨⟨rfl, rfl⟩, rfl, rfl, rfl, rfl, rfl, rfl⟩, by decide +kernel, rfl, rfl,
    by decide +kernel, rfl, by decide +kernel, by decide +kernel⟩, by decide +kernel, by decide +kernel, rfl, rfl, rfl,
    rfl, ?_, by decide, by decide, rfl⟩
  simp [Chain.SoundCut, lineChain, cutLine]

theorem test_meets_Modes : (cell .run).modes.mode = .run ∧ (cell .hold).modes.mode = .hold ∧
    (cell .park).modes.mode = .park ∧ (cell .waking).modes.mode = .waking ∧
    (cell .waking).modes.settle.isSome = true ∧ (cell .waking).Steady := ⟨rfl, rfl, rfl, rfl, rfl, rfl, rfl⟩

theorem test_meets_Resume :
    let s := passing .hold .cutting .paused false
    s.Quiet ∧ s.modes.mode = .hold ∧
      (∀ c ∈ [Cond.doorOpen, .tankLow, .axisFault, .genFault, .journalBlocked], (s.cond c).live = false) ∧
      s.thread = none ∧ s.job.due = false ∧ s.slug.drop = .idle ∧
      (∀ i, s.holder.request ≠ some (.timedOut, i)) :=
  ⟨quietPassing _ _ _ _, rfl, by decide +kernel, rfl, rfl, rfl, fun _ e => by cases e⟩

theorem test_meets_Park :
    (let s := (cell .hold).setCond .aux ⟨true, true, false, false, false⟩
     ∃ c, (s.cond c).latch = true ∧ (s.cond c).enable = true) ∧
    (∃ t, (threading .inGap .feed false).thread = some t ∧ t.held = false ∧ t.step ≠ .searchMove ∧
      t.step ≠ .centreMove) ∧
    ¬ (∃ t, (cell .run).thread = some t ∧ t.held = false ∧ t.step ≠ .searchMove ∧ t.step ≠ .centreMove) :=
  ⟨⟨.aux, by decide +kernel, by decide +kernel⟩, ⟨_, rfl, rfl, by decide, by decide⟩, fun ⟨_, h, _⟩ => (by cases h)⟩

/-- The holder holds slot 5's slug, or no contour's. -/
def holding (owner : Option Slot) (r : Retention) : State :=
  ((cell .hold).setContour 5 (some { contourIn .done with retention := r })).onHolder fun h =>
    { h with state := .holding, owner := owner, output := true }

theorem test_meets_ReleaseHolder : (holding none .held).Quiet ∧ (holding none .held).holder.state = .holding ∧
    (∀ i, (holding none .held).holder.owner ≠ some i) ∧
    ((holding (some 5) .held).holder.owner = some 5 ∧
      ((holding (some 5) .held).contour 5).map (·.retention) = some .held) ∧
    ((holding (some 5) .lost).contour 5).map (·.retention) ≠ some .held ∧
    (cell .hold).holder.state ≠ .holding :=
  ⟨⟨⟨rfl, rfl⟩, rfl, rfl, rfl, rfl, rfl, rfl⟩, rfl, fun _ e => (by cases e), ⟨rfl, by decide +kernel⟩,
    by decide +kernel, by decide⟩

theorem test_meets_HolderTimers :
    let s := (passing .run .cutting .waitHolder false).onHolder fun h =>
      { h with state := .engaging, claimant := some 5, output := true, timer := some 2000 }
    let t := (cell .run).onHolder fun h => { h with state := .releasing, owner := some 5, timer := some 2000 }
    (s.Steady ∧ s.holder.timer.isSome = true ∧ s.holder.state = .engaging ∧ s.holder.claimant = some 5 ∧
      s.job.current = some 5) ∧ t.Steady ∧ t.holder.timer.isSome = true ∧ t.holder.state = .releasing :=
  ⟨⟨⟨rfl, rfl⟩, rfl, rfl, rfl, rfl⟩, ⟨rfl, rfl⟩, rfl, rfl⟩

/-- Slot 5's pass in SLUG_WAIT with its drop wait expired. -/
def slugWaiting (st : ContourState) : State :=
  (passing .hold st .slugWait false).onSlug fun g => { g with drop := .expired, dropContour := some 5 }

theorem test_meets_DropWait :
    (let s := (passing .run .cutting .slugWait false).onSlug fun g =>
       { g with drop := .waiting, dropContour := some 5, dropTimer := some 1 }
     s.Steady ∧ s.slug.drop = .waiting ∧ s.slug.dropTimer.isSome = true) ∧
    (cell .hold).job.current ≠ some 5 ∧
    (∀ r, (passing .hold .cutting .moving false).path.pass = some r → r.sub ≠ .slugWait) ∧
    (∀ st, (slugWaiting st).Quiet ∧ (slugWaiting st).job.current = some 5 ∧
      (slugWaiting st).path.pass = some (runPass .slugWait) ∧ (slugWaiting st).slug.drop ≠ .idle ∧
      (slugWaiting st).slug.dropContour = some 5 ∧ (slugWaiting st).modes.mode = .hold) ∧
    ((slugWaiting .reentry).contour 5 = some (contourIn .reentry) ∧
      (slugWaiting .cutting).contour 5 = some (contourIn .cutting) ∧
      (contourIn .cutting).defn.passes.length = (contourIn .cutting).passIndex + 1) :=
  ⟨⟨⟨rfl, rfl⟩, rfl, rfl⟩, by decide, fun r e => (by cases e; decide),
    fun _ => ⟨⟨⟨rfl, rfl⟩, rfl, rfl, rfl, rfl, rfl, rfl⟩, rfl, rfl, fun e => (by cases e), rfl, rfl⟩,
    by decide +kernel⟩

theorem test_meets_ConfigLine : (7 < (8 : Byte).toNat ∧ 1 < (2 : Byte).toNat) ∧
    (let r := (cell .hold).lineRec .doorClosed
     r.mask = false ∧ r.holding = false ∧ r.active = (decide (r.polarity = .activeHigh) == r.level) ∧
      r.active ≠ (decide (Polarity.activeLow = .activeHigh) == r.level)) ∧
    (16 : Byte).toNat > 15 ∧ (15 : Byte).toNat ≤ 15 := by decide +kernel

theorem test_meets_LineFilter : (cell .run).Steady ∧
    (((cell .run).setLine .aux0 { (cell .run).lineRec .aux0 with mask := true }).lineRec .aux0).mask = true ∧
    (((cell .run).lineRec .aux0).mask = false ∧ ((cell .run).lineRec .aux0).filter ≠ 0) ∧
    ((after (.lineInputChange .aux0 true) (cell .run)).lineRec .aux0).holding = true ∧
    ((cell .run).lineRec .aux0).holding = false := by
  refine ⟨⟨rfl, rfl⟩, ?_⟩
  decide +kernel

theorem test_meets_FaultInputs : (cell .run).Steady ∧ ((cell .run).cond .axisFault).live = false ∧
    ((cell .park).cond .genFault).latch = false ∧ ((cell .park).cond .genFault).enable = true := by
  refine ⟨⟨rfl, rfl⟩, ?_⟩
  decide +kernel

theorem test_meets_ConditionSets : (cell .hold).Quiet ∧ 2 ^ 28 ≤ 2 ^ 28 ∧ 2 ^ 28 < 2 ^ 32 ∧ 2 ^ 28 - 1 < 2 ^ 28 :=
  ⟨quietCell _, by decide, by decide, by decide⟩

theorem test_meets_Offer :
    let s := (cell .hold).onJournal fun j => { j with nextSlot := 126, nextSeq := some 4294967294 }
    s.JournalForm ∧ s.journal.active = some 0 ∧ s.journal.nextSeq = some 4294967294 ∧
      4294967294 < 4294967295 ∧ s.journal.nextSlot < 127 ∧ s.journal.queue = [] ∧ s.journal.blocked = false := by
  refine ⟨?_, rfl, rfl, by decide, by decide, rfl, rfl⟩
  show Journal.Form { Journal.reset with nextSlot := 126, nextSeq := some 4294967294 }
  constructor <;> simp [Journal.reset, Journal.awaitsErase] <;> decide

theorem test_meets_JournalRequests :
    (3 < (4 : Byte).toNat ∧ 127 < (128 : Byte).toNat ∧ 8 < (9 : Byte).toNat ∧ 128 < (127 : Byte).toNat + (2 : Byte).toNat) ∧
    ¬ (3 < (3 : Byte).toNat ∨ 127 < (127 : Byte).toNat ∨ (1 : Byte) = 0 ∨ 8 < (1 : Byte).toNat ∨
      128 < (127 : Byte).toNat + (1 : Byte).toNat) ∧
    ((cell .hold).onJournal fun j => { j with erasing := some 3 }).journal.erasing = some (3 : Byte).toNat ∧
    (cell .hold).journal.erasing ≠ some (3 : Byte).toNat ∧
    (63 < (64 : Byte).toNat ∧ 6 < (7 : Byte).toNat ∧ 64 < (63 : Byte).toNat + (2 : Byte).toNat) ∧
    ((58 : Byte).toNat ≤ 63 ∧ (6 : Byte).toNat ≤ 6 ∧ (58 : Byte).toNat + (6 : Byte).toNat ≤ 64) := by
  decide +kernel

theorem test_meets_JournalErase :
    (current .hold .cutting).job.state = .stageA ∧ (cell .hold).job.state = .idle ∧
    (cell .hold).journal.erasingAll = false ∧
    (let s := (cell .hold).onJournal fun j => { j with erasing := some 1, eraseList := [2] }
     s.Steady ∧ s.JournalForm ∧ s.journal.erasing = some 1 ∧ s.journal.erasingAll = false ∧
      s.journal.waitRoll = none ∧ s.journal.waitFirst = false) ∧
    (let s := (cell .hold).onJournal fun j => { j with active := none, erasing := some 3, erasingAll := true }
     s.Steady ∧ s.JournalForm ∧ s.journal.erasing = some 3 ∧ s.journal.erasingAll = true ∧
      s.journal.eraseList = [] ∧ s.journal.queue = []) := by
  refine ⟨rfl, rfl, rfl, ⟨⟨rfl, rfl⟩, ?_, rfl, rfl, rfl, rfl⟩, ⟨rfl, rfl⟩, ?_, rfl, rfl, rfl, rfl⟩
  · show Journal.Form { Journal.reset with erasing := some 1, eraseList := [2] }
    constructor <;> simp [Journal.reset, Journal.awaitsErase] <;> decide
  · show Journal.Form { Journal.reset with active := none, erasing := some 3, erasingAll := true }
    constructor <;> simp [Journal.reset, Journal.awaitsErase] <;> decide

theorem test_meets_IgnoredSamples : (passing .run .cutting .moving true).Steady ∧ (cell .hold).modes.mode ≠ .run ∧
    (cell .run).path.genOn = false ∧ 10 < 10 + 1 := ⟨⟨rfl, rfl⟩, by decide, rfl, by decide⟩

theorem test_meets_TakenSample :
    let s := passing .run .cutting .moving true
    s.Steady ∧ s.modes.mode = .run ∧ s.path.genOn = true ∧ s.job.current = some 5 ∧
      s.contour 5 = some (contourIn .cutting) ∧ (contourIn .cutting).pass = some (passOn .rough) ∧
      s.path.pass = some (runPass .moving) ∧ s.chain 7 = some (lineChain .closed) ∧ (lineChain .closed).Sound ∧
      (lineChain .closed).modeAt 1000 = some .cut ∧ 0 < 30 ∧ 0 + 30 ≤ 30 ∧
      (runPass .moving).stuckCount + 1 < s.params.stuckSamples ∧
      (1000 : Int) + max (-40) (min 300 300) < 20000 := by
  refine ⟨⟨rfl, rfl⟩, rfl, rfl, rfl, by decide +kernel, rfl, rfl, by decide +kernel, ?_, by decide, by decide,
    by decide, by decide, by decide⟩
  simp [Chain.Sound, lineChain, cutLine]

theorem test_meets_DriveUpdate :
    let s := (cell .run).onPath fun p => { p with
      rapid := some ⟨⟨0, 0⟩, ⟨10001, 0⟩, 10001, 0, .contourTable⟩ }
    (s.Steady ∧ s.modes.mode = .run ∧ 0 + s.params.rapidStep < 10001) ∧
    (let t := passing .run .cutting .paused false
     t.Steady ∧ t.modes.mode = .run ∧ t.path.rapid = none ∧ t.job.work ≠ some .approach ∧
      t.path.pass = some (runPass .paused) ∧ (runPass .paused).sub ≠ .moving) ∧ (cell .hold).modes.mode ≠ .run :=
  ⟨⟨⟨rfl, rfl⟩, rfl, by decide⟩, ⟨⟨rfl, rfl⟩, rfl, rfl, by decide, rfl, by decide⟩, by decide⟩

theorem test_meets_ThreadTimers : (cell .run).thread = none ∧
    (∀ op st again, (threading op st again).Steady ∧ (threading op st again).thread =
      some ⟨op, 5, st, false, 2, 1, none, none, none, some 400, again⟩ ∧
      (threading op st again).modes.mode = .run) ∧
    (threading .inGap .tipCut false).contour 5 = some (contourIn .threading) ∧
    (threading .inGap .tipCut false).active .lowerDetect = false ∧
    (threading .inGap .tipCut false).active .wireIntact = true ∧
    (lineAt .lowerDetect true (threading .unthread .unthreadCut false)).active .lowerDetect = true :=
  ⟨rfl, fun _ _ _ => ⟨⟨rfl, rfl⟩, rfl, rfl⟩, by decide +kernel, by decide +kernel, by decide +kernel,
    by decide +kernel⟩

theorem test_meets_PullTimeout :
    let s := (current .run .unthreading).withThread
      (some ⟨.unthread, 5, .unthreadPull, false, 0, 0, none, none, none, some 5000, false⟩)
    s.Steady ∧ s.modes.mode = .run ∧ s.job.current = some 5 ∧ s.contour 5 = some (contourIn .unthreading) ∧
      (s.cond .contourFault).enable = true ∧
      (∀ j k, s.contour j = some k → k.state ≠ .queued ∧ k.state ≠ .bridged) := by
  refine ⟨⟨rfl, rfl⟩, rfl, rfl, by decide +kernel, by decide +kernel, fun j k hk => ?_⟩
  have := every (f := fun _ k => decide (k.state ≠ .queued ∧ k.state ≠ .bridged)) (by decide +kernel) j k hk
  simpa using this

/-! ## The hypotheses of the clauses -/

/-- Slot 5's contour on a pass, with the break that is under way. -/
def breaking (m : Mode) (c : Contour) : State :=
  holdingLine .wireIntact false (running m c (runPass .moving) (lineChain .closed))

/-- A contour on its second pass, the first one on another chain. -/
def onSecond (st : ContourState) : Contour :=
  { contourIn st with
    defn := { dropDef with inGap := false, passes := [{ passOn .rough with chain := 6 }, passOn .skim] }
    passIndex := 1 }

theorem breaking_breaks (m : Mode) {c : Contour} {q : PassRec} (hq : c.pass = some q) (hc : c.state = .cutting) :
    (breaking m c).Breaks 5 c q (runPass .moving) (lineChain .closed) :=
  ⟨turns _ _ _ rfl, rfl, rfl, running_onPass hq rfl rfl, .inl hc⟩

theorem test_meets_Breaks :
    let limit := { contourIn .cutting with breakCount := 15 }
    let rough := { contourIn .cutting with defn := { dropDef with inGap := false } }
    let point := (lineChain .closed).point 1000
    (∀ m, (breaking m limit).Steady ∧
      (breaking m limit).Breaks 5 limit (passOn .rough) (runPass .moving) (lineChain .closed) ∧
      (breaking m limit).params.breakLimit ≤ limit.breakCount ∧ (breaking m limit).NoneWaiting) ∧
    ((breaking .hold (contourIn .cutting)).Breaks 5 (contourIn .cutting) (passOn .rough) (runPass .moving)
        (lineChain .closed) ∧ 0 < (breaking .hold (contourIn .cutting)).params.breakLimit ∧
      (breaking .hold (contourIn .cutting)).modes.mode = .hold ∧ dropDef.inGap = true ∧
      (breaking .hold (contourIn .cutting)).path.commanded = point ∧
      (lineChain .closed).modeAt 1000 = some .cut) ∧
    ((breaking .hold rough).Breaks 5 rough (passOn .rough) (runPass .moving) (lineChain .closed) ∧
      rough.passIndex = 0 ∧ rough.defn.inGap = false) ∧
    ((breaking .run (onSecond .cutting)).Breaks 5 (onSecond .cutting) (passOn .skim) (runPass .moving)
        (lineChain .closed) ∧ (onSecond .cutting).passIndex ≠ 0 ∧
      (breaking .run (onSecond .cutting)).path.commanded = point ∧ (onSecond .cutting).defn.inGap = false) ∧
    ((breaking .run (contourIn .cutting)).modes.mode = .run ∧ (breaking .run (contourIn .cutting)).NoHoldCause ∧
      (breaking .run (contourIn .cutting)).JournalRoom ∧
      (breaking .run (contourIn .cutting)).params.inGapAttempts ≠ 0) ∧
    ((breaking .run rough).NoHoldCause ∧ (breaking .run rough).JournalRoom ∧
      (breaking .run rough).path.commanded ≠ dropDef.centre ∧
      (breaking .run rough).store.lineKeptOut (breaking .run rough).path.commanded dropDef.centre = false) := by
  intro limit rough point
  refine ⟨fun m => ⟨⟨rfl, rfl⟩, breaking_breaks m rfl rfl, show Params.default.breakLimit ≤ 15 by decide, only_noneWaiting (c := limit) rfl (by decide)⟩,
    ⟨breaking_breaks _ rfl rfl, by decide, rfl, rfl, rfl, by decide⟩, ⟨breaking_breaks _ rfl rfl, rfl, rfl⟩,
    ⟨breaking_breaks _ rfl rfl, by decide, rfl, rfl⟩,
    ⟨rfl, ⟨by decide +kernel, by decide +kernel, by decide +kernel, rfl, rfl, rfl⟩, room rfl, by decide⟩,
    ⟨by decide +kernel, by decide +kernel, by decide +kernel, rfl, rfl, rfl⟩, room rfl, by decide +kernel,
    by decide +kernel⟩

/-- A HOLDER contour of one pass, with an engage distance of 500. -/
def holderContour (st : ContourState) : Contour :=
  { contourIn st with defn := { dropDef with method := .holder, engage := some 500 } }

/-- Slot 5's contour waits at its engage point, the holder as given. -/
def engaging (st : ContourState) (h : Holder → Holder) : State :=
  (running .hold (holderContour st) { runPass .waitHolder with s := 19500, stopPoint := 19500 }
    (lineChain .closed)).onHolder h

theorem test_meets_EngageConfirmed :
    let claimed := fun h : Holder => { h with state := .engaging, claimant := some 5, timer := some 1 }
    let r := { runPass .waitHolder with s := 19500, stopPoint := 19500 }
    (let s := holdingLine .holderEngaged true ((cell .hold).onHolder claimed)
     s.Steady ∧ s.Turns .holderEngaged true ∧ s.holder.state = .engaging ∧ s.holder.claimant = some 5 ∧
      s.job.current ≠ some 5) ∧
    (let s := holdingLine .holderEngaged true (engaging .reentry claimed)
     s.Turns .holderEngaged true ∧ s.holder.claimant = some 5 ∧ s.job.current = some 5 ∧
      s.contour 5 = some (holderContour .reentry)) ∧
    (let s := holdingLine .holderEngaged true (engaging .cutting claimed)
     s.Steady ∧ s.Turns .holderEngaged true ∧ s.holder.state = .engaging ∧ s.holder.claimant = some 5 ∧
      s.OnPass 5 (holderContour .cutting) (passOn .rough) r (lineChain .closed) ∧
      (holderContour .cutting).defn.method = .holder ∧ r.sub = .waitHolder ∧ (lineChain .closed).SoundCut ∧
      (lineChain .closed).segs ≠ [] ∧ r.s < (holderContour .cutting).defn.passEnd 0 20000 ∧ s.modes.mode = .hold) :=
  ⟨⟨⟨rfl, rfl⟩, turns _ _ _ rfl, rfl, rfl, by decide⟩, ⟨turns _ _ _ rfl, rfl, rfl,
      running_contour .hold (holderContour .reentry) { runPass .waitHolder with s := 19500, stopPoint := 19500 }
        (lineChain .closed)⟩,
    ⟨rfl, rfl⟩, turns _ _ _ rfl, rfl, rfl, running_onPass rfl rfl rfl, rfl, rfl, soundCut rfl, by decide, by decide,
    rfl⟩

theorem test_meets_ReleaseCompleted :
    let s (owner : Option Slot) (request : Option (RequestState × Slot)) := holdingLine .holderEngaged false
      ((loaded .hold .done).onHolder fun h =>
        { h with state := .releasing, owner := owner, request := request, timer := some 1 })
    (∀ o q, (s o q).Steady ∧ (s o q).Turns .holderEngaged false ∧ (s o q).holder.state = .releasing ∧
      (s o q).contour 5 = some (contourIn .done)) ∧
    (∀ o j, (s o (some (.timedOut, 3))).holder.request ≠ some (.waiting, j)) ∧
    (s none none).holder.owner = none ∧ (s (some 5) none).holder.owner = some 5 ∧
    (s (some 5) (some (.waiting, 3))).holder.request = some (.waiting, 3) :=
  ⟨fun _ _ => ⟨⟨rfl, rfl⟩, turns _ _ _ rfl, rfl, State.contour_setContour_same (cell .hold) _ _⟩,
    fun _ _ e => (by cases e), rfl, rfl, rfl⟩

theorem test_meets_SlugLost :
    let held := fun h : Holder => { h with state := .holding, owner := some 5, output := true }
    let r := { runPass .paused with s := 19499 }
    (let s := holdingLine .holderEngaged false ((loaded .park .done).onHolder held)
     s.Steady ∧ s.Turns .holderEngaged false ∧ s.holder.state = .holding ∧
      (∀ j, s.holder.request ≠ some (.waiting, j)) ∧ s.holder.owner ≠ s.job.current ∧ s.holder.owner = some 5 ∧
      s.contour 5 = some (contourIn .done) ∧ s.modes.mode = .park ∧ (s.cond .holderLost).latch = false ∧
      (s.cond .holderLost).enable = true) ∧
    (let s := holdingLine .holderEngaged false
       ((running .hold (holderContour .cutting) r (lineChain .closed)).onHolder held)
     s.Steady ∧ s.Turns .holderEngaged false ∧ s.holder.state = .holding ∧
      (∀ j, s.holder.request ≠ some (.waiting, j)) ∧
      s.OnPass 5 (holderContour .cutting) (passOn .rough) r (lineChain .closed) ∧ s.holder.owner = some 5 ∧
      (holderContour .cutting).defn.method = .holder ∧
      (holderContour .cutting).passIndex = (holderContour .cutting).defn.closingPass ∧
      (lineChain .closed).SoundCut ∧ (lineChain .closed).segs ≠ [] ∧ r.s < 20000 - 500 ∧
      20000 - 500 ≤ (holderContour .cutting).defn.passEnd 0 20000 ∧ s.modes.mode = .hold) :=
  ⟨⟨⟨rfl, rfl⟩, turns _ _ _ rfl, rfl, fun _ e => (by cases e), by decide, rfl,
      State.contour_setContour_same (cell .park) _ _, rfl, rfl, rfl⟩,
    ⟨rfl, rfl⟩, turns _ _ _ rfl, rfl, fun _ e => (by cases e), running_onPass rfl rfl rfl, rfl, rfl, rfl, soundCut rfl,
    by decide, by decide, by decide, rfl⟩

/-- An engage whose claimant is not current, with a request that waits or none. -/
theorem test_meets_HolderTimers_other :
    let s (q : Option (RequestState × Slot)) := (cell .run).onHolder fun h =>
      { h with state := .engaging, claimant := some 5, output := true, timer := some 1, request := q }
    (∀ q, (s q).Steady ∧ (s q).holder.timer.isSome = true ∧ (s q).holder.state = .engaging ∧
      (s q).holder.claimant = some 5 ∧ (s q).job.current ≠ some 5 ∧ (s q).active .holderEngaged = false) ∧
    (∀ j, (s none).holder.request ≠ some (.waiting, j)) ∧
    (s (some (.waiting, 3))).holder.request = some (.waiting, 3) :=
  ⟨fun _ => ⟨⟨rfl, rfl⟩, rfl, rfl, rfl, fun e => (by cases e), rfl⟩, fun _ e => (by cases e), rfl⟩

theorem test_meets_SlugLine :
    let watched := holdingLine .slugPresent false ((running .run (contourIn .cutting) (runPass .moving)
      (lineChain .closed)).onSlug fun g => { g with watch := some 5 })
    let waiting (st : ContourState) := holdingLine .slugPresent false ((running .hold (contourIn st)
      (runPass .slugWait) (lineChain .closed)).onSlug fun g => { g with drop := .waiting, dropContour := some 5 })
    (watched.Steady ∧ watched.Turns .slugPresent false ∧ watched.slug.drop = .idle ∧ watched.slug.watch = some 5 ∧
      watched.contour 5 = some (contourIn .cutting)) ∧
    (∀ st, (waiting st).Turns .slugPresent false ∧ (waiting st).slug.drop ≠ .idle ∧
      (waiting st).slug.dropContour = some 5 ∧ (waiting st).job.current = some 5 ∧
      (waiting st).contour 5 = some (contourIn st) ∧ (waiting st).path.pass = some (runPass .slugWait) ∧
      (waiting st).modes.mode = .hold) ∧
    (contourIn .cutting).defn.passes.length = (contourIn .cutting).passIndex + 1 :=
  ⟨⟨⟨rfl, rfl⟩, turns _ _ _ rfl, rfl, rfl,
      running_contour .run (contourIn .cutting) (runPass .moving) (lineChain .closed)⟩,
    fun st => ⟨turns _ _ _ rfl, fun e => (by cases e), rfl, rfl,
      running_contour .hold (contourIn st) (runPass .slugWait) (lineChain .closed), rfl, rfl⟩, rfl⟩

theorem test_meets_Lines :
    (∀ l, ((cell .run).lineRec l).polarity = .activeHigh → ∀ v, (holdingLine l v (cell .run)).Steady ∧
      (holdingLine l v (cell .run)).Turns l v) ∧
    (∀ l, ((cell .run).lineRec l).polarity = .activeHigh) ∧
    (((cell .run).cond .doorOpen).live = false ∧ ((cell .park).cond .doorOpen).latch = false ∧
      ((cell .park).cond .doorOpen).enable = true) ∧
    (∀ c ∈ [Cond.doorOpen, .tankLow, .axisFault, .genFault, .journalBlocked],
      ((cell .run).cond c).live = (cell .run).source c) ∧
    (((cell .run).setLine .aux0 { (cell .run).lineRec .aux0 with filter := 0 }).lineRec .aux0).filter = 0 := by
  refine ⟨fun l h v => ⟨⟨rfl, rfl⟩, turns l v _ h⟩, fun l => by cases l <;> rfl, by decide, by decide +kernel,
    by decide +kernel⟩

theorem test_meets_Latching : (cell .hold).OutOfForce .gapOpen ∧ (cell .hold).OutOfForce .wireBreak ∧
    (cell .hold).OutOfForce .threadRetry ∧ ¬ (cell .hold).OutOfForce .aux ∧
    ¬ (passing .run .cutting .moving true).OutOfForce .gapOpen ∧ (cell .hold).job.current = none := by
  refine ⟨.inl ⟨by decide, rfl⟩, .inr (.inl ⟨by decide, rfl⟩), .inr (.inr ⟨by decide, rfl⟩), ?_, ?_, rfl⟩
  · rintro (⟨h, -⟩ | ⟨h, -⟩ | ⟨h, -⟩) <;> revert h <;> decide
  · rintro (⟨-, h⟩ | ⟨h, -⟩ | ⟨h, -⟩) <;> revert h <;> decide

/-! ### Reset, link, store and program -/

/-- A storage with the header of page 0, and a record in a slot of it. -/
def oneRecord (slot seq : Nat) : List Host.Cell :=
  slotWrite (slotWrite [] 0 0 (headerBytes 1)) 0 slot (recordBytes seq ⟨.job, none, 0, 0, false, 0, 0, 4, 0⟩)

theorem noRecordIn : ∀ bs, ¬ RecordIn [] bs := by
  rintro bs ⟨p, hp, n, hn, h1, rfl, hv⟩
  have : (([0, 1, 2, 3] : List Nat).all fun p => (List.range 128).all fun n => !recordValid (slotBytes [] p n)) =
      true := by decide +kernel
  have := List.all_eq_true.mp (List.all_eq_true.mp this p (by simp; omega)) n (List.mem_range.mpr hn)
  simp [hv] at this

theorem test_meets_Scan :
    ((cell .hold).journal.writing = none ∧ (cell .hold).journal.erasing = none) ∧
    (let m := oneRecord 126 5
     headerValid (slotBytes m 0 0) = true ∧ (∀ n < 4, n ≠ 0 → headerValid (slotBytes m n 0) = false) ∧
      slotBlank m 0 126 = false ∧ slotBlank m 0 127 = true ∧ slotSeq (slotBytes m 0 0) < 4294967295) ∧
    ((∀ p < 4, headerValid (slotBytes [] p 0) = false) ∧ pageBlank [] 0 = true) ∧ (∀ bs, ¬ RecordIn [] bs) ∧
    RecordIn (oneRecord 1 4294967295) (slotBytes (oneRecord 1 4294967295) 0 1) ∧
    slotSeq (slotBytes (oneRecord 1 4294967295) 0 1) = 4294967295 := by
  refine ⟨⟨rfl, rfl⟩, by decide +kernel, by decide +kernel, noRecordIn,
    ⟨0, by decide, 1, by decide, by decide, rfl, by decide +kernel⟩, by decide +kernel⟩

theorem test_meets_TransmitterChooses_queue :
    let s := sendingCell.onLink fun l => { l with queue := [⟨0x01, 9, []⟩] }
    let t := s.onLink fun l => { l with progressPending := true }
    (s.Steady ∧ s.link.sending = some ⟨.notice, ⟨0x7D, 0, []⟩⟩ ∧ s.link.resetTaken = false ∧ s.link.replies = [] ∧
      s.link.queue = ⟨0x01, 9, []⟩ :: [] ∧ s.link.startupDue = false ∧ s.noticePending = false ∧
      s.link.progressPending = false) ∧ t.noticePending = false ∧ t.link.progressPending = true :=
  ⟨⟨⟨rfl, rfl⟩, rfl, rfl, rfl, rfl, rfl, by decide +kernel, rfl⟩, by decide +kernel, rfl⟩

theorem test_meets_LoadChecks :
    let seg : Payload := 0x80 :: List.replicate 8 0xFF
    (127 < (128 : Byte).toNat ∧ 12 < (List.replicate 13 seg).length ∧ (List.replicate 13 seg).length ≤ 27 ∧
      ∀ b ∈ List.replicate 13 seg, b.length = 9 ∧ (b.getD 0 0 = 0 ∨ b.getD 0 0 = 0x80)) ∧
    ((127 : Byte) = byte (127 : ChainId).val ∧ (List.replicate 12 seg) ≠ [] ∧ (List.replicate 12 seg).length ≤ 12) ∧
    ((cell .hold).chain 7 = none ∧
      ((cell .hold).setChain 7 (some (lineChain .corrupt))).chain 7 = some (lineChain .corrupt) ∧
      (loaded .hold .queued).chain 7 = some (lineChain .closed) ∧ openLoaded.chain 7 = some (lineChain .opened)) ∧
    (let s := openLoaded.onStore fun t => { t with freeSlots := 0 }
     s.Quiet ∧ s.chain 7 = some (lineChain .opened) ∧ s.store.freeSlots < [seg].length) := by
  refine ⟨by decide, by decide, by decide +kernel, ⟨⟨rfl, rfl⟩, rfl, rfl, rfl, rfl, rfl, rfl⟩, by decide +kernel,
    by decide⟩

/-- An empty OPEN chain 9 that starts at (10000, 0). -/
def arcCell (loaded : Nat) : State := (cell .hold).setChain 9 (some { newChain ⟨10000, 0⟩ with loaded := loaded })

/-- A quarter and a full circle around the origin from (10000, 0), a centre that is off, and the windows that the
quarter leaves: its bounding box reaches from 0 to 10,000 on both axes. -/
theorem test_meets_Arc :
    let a : Point := ⟨10000, 0⟩
    let o : Point := ⟨0, 0⟩
    let theta (e : Point) := sweep .arcCcw (o.to a) (o.to e) (decide (a = e))
    ((arcCell 0).Quiet ∧ (arcCell 0).chain 9 = some (newChain a) ∧ (newChain a).state = .opened ∧
      1 ≤ (arcCell 0).store.freeSlots ∧ (∀ r, (arcCell 0).path.pass = some r → r.chain ≠ 9) ∧ fourBytes 4000001) ∧
    (distance a o = 10000 ∧ distance ⟨0, 10000⟩ o = 10000 ∧ distance ⟨0, 10003⟩ o = 10003 ∧
      arcLength 10000 (theta ⟨0, 10000⟩) = 15708 ∧ arcLength 10000 (theta a) = 62832 ∧
      cross (o.to a) (o.to ⟨0, 10000⟩) ≠ 0) ∧
    arcBox .arcCcw a ⟨0, 10000⟩ o 10000 = ⟨0, 10000, 0, 10000⟩ ∧
    (2147483647 < 2147483647 + 15708 ∧ (arcCell 2147483647).chain 9 =
      some { newChain a with loaded := 2147483647 }) :=
  ⟨⟨⟨⟨rfl, rfl⟩, rfl, rfl, rfl, rfl, rfl, rfl⟩, by decide +kernel, rfl, by decide, fun _ h => (by cases h),
      by decide, by decide⟩, by decide +kernel, by decide +kernel, by decide, by decide +kernel⟩

theorem test_meets_RunningChain :
    let r := { runPass .starved with stopPoint := 1000 }
    let s := running .hold (contourIn .cutting) r (lineChain .opened)
    s.Quiet ∧ s.OnPass 5 (contourIn .cutting) (passOn .rough) r (lineChain .opened) ∧ s.modes.mode = .hold ∧
      dropDef.method = .drop ∧ (lineChain .opened).SoundCut ∧ (lineChain .opened).segs ≠ [] ∧ r.sub = .starved ∧
      1 ≤ s.store.freeSlots ∧ (lineChain .opened).endPt ≠ ⟨4000000, 0⟩ ∧
      s.store.window.holds (lineChain .opened).endPt = true ∧ s.store.window.holds ⟨4000000, 0⟩ = true ∧
      s.store.lineKeptOut (lineChain .opened).endPt ⟨4000000, 0⟩ = false ∧
      20000 + distance ⟨20000, 0⟩ ⟨4000000, 0⟩ ≤ 2147483647 ∧
      r.s < 20000 + distance ⟨20000, 0⟩ ⟨4000000, 0⟩ - dropDef.reserve 0 :=
  ⟨quietRunning _ _ _ _, running_onPass rfl rfl rfl, rfl, rfl, soundCut rfl, by decide, rfl, by decide, by decide,
    by decide, by decide, by decide +kernel, by decide +kernel, by decide +kernel⟩

/-- A bridged plan whose hold-back is as long as its chain. -/
def longBridge : ContourDef :=
  { dropDef with bridge := some ⟨20000, .attended⟩, passes := [passOn .rough, { passOn .sever with chain := 8 }] }

theorem test_meets_DefinitionRefused :
    let free := { lineChain .closed with binding := none }
    let s := ((cell .hold).setChain 7 (some free)).setChain 8 (some free)
    (dropDef.InRange ∧ 299 < 300 ∧ 50000 < 50001 ∧ ({ dropDef with engage := some 1 } : ContourDef).fieldsOk = false ∧
      ({ dropDef with passes := [] } : ContourDef).planOk = false ∧
      ∀ d ∈ [({ dropDef with engage := some 1 } : ContourDef), { dropDef with passes := [] }, longBridge],
        (Instr.defineContour 1 (defnBytes 5 d)).wf = true) ∧
    (¬ (⟨1, 2, 1, 2⟩ : Rect).holds dropDef.centre = true ∧ (⟨0, 0, 0, 0⟩ : Rect).holds dropDef.centre = true ∧
      s.store.window.holds dropDef.centre = true ∧
      ¬ ∃ n : Fin 4, s.store.keepOuts[n].enabled = true ∧ s.store.keepOuts[n].rect.holds dropDef.centre = true) ∧
    ((cell .hold).chain 7 = none ∧ (loaded .hold .queued).chain 7 = some (lineChain .closed) ∧
      (lineChain .closed).binding ≠ none) ∧
    (within 2 ⟨3, 0⟩ dropDef.centre = false ∧ within 2 ⟨2, 0⟩ dropDef.centre = true) ∧
    (longBridge.InRange ∧ longBridge.fieldsOk = true ∧ longBridge.planOk = true ∧ s.chain 7 = some free ∧
      s.chain 8 = some free ∧ free.binding = none ∧ within 2 free.start longBridge.centre = true ∧
      ¬ longBridge.reserve 0 < free.loaded) := by
  refine ⟨⟨dropDef_inRange.1, by decide⟩, by decide +kernel, by decide +kernel, by decide +kernel, ?_,
    by decide +kernel⟩
  simp [ContourDef.InRange, longBridge, dropDef, passOn]

theorem test_meets_ResumedStop : (lineChain .closed).SoundCut ∧ (lineChain .closed).segs ≠ [] ∧
    (contourIn .queued).defn.method = .drop := ⟨soundCut rfl, by decide, rfl⟩

theorem test_meets_CurrentIsSkipped :
    let s (m : Mode) (st : ContourState) := running m (contourIn st) (runPass .paused) (lineChain .closed)
    (∀ m st, (s m st).Quiet ∧ (s m st).job.current = some 5 ∧ (s m st).contour 5 = some (contourIn st)) ∧
    ((s .run .reentryWait).NoneWaiting ∧ (contourIn .reentryWait).state = .reentryWait) ∧
    ((s .park .severing).NoneWaiting ∧ (s .park .severing).modes.mode ≠ .run) :=
  ⟨fun m st => ⟨quietRunning _ _ _ _, rfl, running_contour m (contourIn st) (runPass .paused) (lineChain .closed)⟩,
    ⟨only_noneWaiting (c := contourIn .reentryWait) rfl (by decide), rfl⟩,
    only_noneWaiting (c := contourIn .severing) rfl (by decide), by decide⟩

/-! ### The journal -/

/-- The journal's form, from a check of what its proofs ask. -/
theorem journalForm {j : Journal} (hm : memWf j.mem = true) (ha : (j.active.all fun p => decide (p < 4)) = true)
    (hs : decide (1 ≤ j.nextSlot ∧ j.nextSlot ≤ 128) = true) (he : (j.erasing.all fun p => decide (p < 4)) = true)
    (hl : (j.eraseList.all fun p => decide (p < 4)) = true)
    (ho : ((List.range 4).all fun p => decide (j.erasesDue p ≤ j.eraseLimit p)) = true)
    (hb : j.erasing = none → j.eraseList = []) (hw : j.writing = none)
    (hi : j.active.isSome = true → j.waitRoll = none ∧ j.waitFirst = false)
    (hf : j.waitFirst = false) (hr : (j.waitRoll.all fun p => decide (p < 4)) = true)
    (hk : (j.active.all fun p => !j.awaitsErase p) = true)
    (hx : j.erasingAll = true → j.active = none ∧ j.waitRoll = none ∧ j.waitFirst = false) : j.Form where
  mem := hm
  active p h := by simpa [h] using ha
  slot := of_decide_eq_true hs
  erasing p h := by simpa [h] using he
  list p h := of_decide_eq_true (List.all_eq_true.mp hl p h)
  once p h := of_decide_eq_true (List.all_eq_true.mp ho p (List.mem_range.mpr h))
  busy := hb
  idle p h := hi (by simp [h])
  first h := by simp [hf] at h
  roll p h := by simpa [h] using hr
  writing p k h := by simp [hw] at h
  kept p h := by simpa [h] using hk
  all := hx

/-- A journal whose append state a function gives. -/
def journalCell (f : Journal → Journal) : State := (cell .run).onJournal f

theorem test_meets_Roll :
    let full (j : Journal) : Journal := { j with nextSlot := 127, nextSeq := some 4294967294 }
    let due (j : Journal) : Journal := { full j with erasing := some 1 }
    (∀ f ∈ [full, due], (journalCell f).JournalForm ∧ (journalCell f).journal.active = some 0 ∧
      (journalCell f).journal.nextSeq = some 4294967294 ∧ (journalCell f).journal.nextSlot = 127 ∧
      (journalCell f).journal.queue = []) ∧
    (pageBlank (journalCell full).journal.mem 1 = true ∧ (journalCell full).journal.erasing ≠ some 1 ∧
      1 ∉ (journalCell full).journal.eraseList) ∧ (journalCell due).journal.erasing = some 1 := by
  refine ⟨fun f hf => ?_, by decide +kernel, rfl⟩
  simp only [List.mem_cons, List.not_mem_nil, or_false] at hf
  rcases hf with rfl | rfl <;> refine ⟨?_, rfl, rfl, rfl, rfl⟩
  all_goals
    show Journal.Form _
    apply journalForm <;> decide

theorem test_meets_Waits :
    let r : JRecord := ⟨.position, some 5, 0, 7, true, 20000, 1000, 2, 0⟩
    let s (q : List JRecord) := journalCell fun j => { j with active := none, queue := q }
    (∀ q, (s q).journal.active = none ∧ (s q).journal.queue = q) ∧
    ((s [{ r with front := 0 }]).journal.queue = [] ++ { r with front := 0 } :: [] ∧ r.kind = .position) ∧
    ((s []).journal.queue = [] ∧ (s []).journal.queue.length < 8) ∧
    (let full := s (List.replicate 8 { r with pass := 1 })
     (∀ q ∈ full.journal.queue, q.pass ≠ r.pass) ∧ 8 ≤ full.journal.queue.length ∧
      (full.cond .journalBlocked).live = false ∧ full.modes.mode = .run) := by
  refine ⟨fun _ => ⟨rfl, rfl⟩, ⟨rfl, rfl⟩, ⟨rfl, by decide⟩, ?_, by decide, by decide, rfl⟩
  intro q hq
  rw [List.eq_of_mem_replicate hq]
  decide

theorem test_meets_EraseGoesOn :
    let s := journalCell fun j => { j with active := none, erasing := some 0, eraseList := [1, 2, 3], erasingAll := true }
    s.Steady ∧ s.JournalForm ∧ s.journal.erasing = some 0 ∧ s.journal.erasingAll = true ∧
      s.journal.eraseList ≠ [] := by
  refine ⟨⟨rfl, rfl⟩, ?_, rfl, rfl, by decide⟩
  show Journal.Form _
  apply journalForm <;> decide

theorem test_meets_EraseMakesTheRoll :
    let s (l : List Nat) := journalCell fun j =>
      { j with active := none, erasing := some 3, eraseList := l, waitRoll := some 3 }
    (∀ l ∈ [([] : List Nat), [3]], (s l).Steady ∧ (s l).JournalForm ∧ (s l).journal.erasing = some 3 ∧
      (s l).journal.erasingAll = false ∧ (s l).journal.waitRoll = some 3 ∧ (s l).journal.queue = [] ∧
      (s l).journal.eraseList = l) := by
  intro s l hl
  simp only [List.mem_cons, List.not_mem_nil, or_false] at hl
  rcases hl with rfl | rfl <;> refine ⟨⟨rfl, rfl⟩, ?_, rfl, rfl, rfl, rfl, rfl⟩
  all_goals
    show Journal.Form _
    apply journalForm <;> decide

/-! ### Motion -/

/-- A chain of two lines of 1,000 ticks, in two modes. -/
def twoModes (first second : SegMode) : Chain :=
  ⟨.closed, ⟨0, 0⟩, [{ cutLine 1000 with mode := first },
    ⟨.line, second, ⟨2000, 0⟩, none, 1000, none, 1000, .unchanged⟩], 2000, ⟨2000, 0⟩, some (5, 0)⟩

/-- Slot 5's pass on the servo, at a position short of a stop point. -/
def onServo (c : Contour) (pos stop : Nat) (k : Chain) : State :=
  running .run c { runPass .moving with s := pos, stopPoint := stop } k

theorem onServo_servo {c : Contour} {q : PassRec} {pos stop : Nat} {k : Chain} (hq : c.pass = some q)
    (hk : (k.segs.all fun g => decide (g.check = .unchanged)) = true) (hc : c.state = .cutting)
    (hm : k.modeAt pos = some .cut) :
    (onServo c pos stop k).Steady ∧
      (onServo c pos stop k).Servo 5 c q { runPass .moving with s := pos, stopPoint := stop } k :=
  ⟨⟨rfl, rfl⟩, running_onPass hq rfl hk, rfl, rfl, .inl hc, rfl, hm⟩

/-- An open sample at FeedMax 300 reaches a stop point 200 ticks away. -/
theorem onServo_arrives {c : Contour} {pos stop : Nat} {k : Chain} (hq : c.pass = some (passOn .rough))
    (hk : (k.segs.all fun g => decide (g.check = .unchanged)) = true) (hc : c.state = .cutting)
    (hm : k.modeAt pos = some .cut) (hs : pos + 200 = stop) :
    (onServo c pos stop k).Arrives 5 c (passOn .rough) { runPass .moving with s := pos, stopPoint := stop } k 0 30 0
      30 := by
  refine ⟨(onServo_servo hq hk hc hm).2, by decide, by decide, show 0 + 1 < 2000 by decide, show pos < stop by omega, ?_⟩
  have : stepOf (passOn .rough) (onServo c pos stop k).params.override 0 30 0 30 = 300 :=
    show stepOf (passOn .rough) 100 0 30 0 30 = 300 by decide
  rw [this]
  show (stop : Int) ≤ pos + 300
  omega

/-- A TACK contour with one span. -/
def tackContour (t : Span) : Contour :=
  { contourIn .cutting with defn := { dropDef with method := .tack, tacks := some [t] } }

theorem test_meets_Arrivals :
    let arrives (c : Contour) (pos stop : Nat) (k : Chain) := (onServo c pos stop k).Arrives 5 c (passOn .rough)
      { runPass .moving with s := pos, stopPoint := stop } k 0 30 0 30
    (arrives (contourIn .cutting) 19800 20000 (lineChain .opened) ∧ 20000 - dropDef.reserve 0 ≤ 20000) ∧
    (arrives (holderContour .cutting) 19300 19500 (lineChain .closed) ∧
      (holderContour .cutting).passIndex = (holderContour .cutting).defn.closingPass ∧
      (onServo (holderContour .cutting) 19300 19500 (lineChain .closed)).holder.state = .free ∧
      (onServo (holderContour .cutting) 19300 19500 (lineChain .closed)).active .holderEngaged = false) ∧
    (arrives (contourIn .cutting) 800 1000 (twoModes .cut .dry) ∧ 1000 < dropDef.passEnd 0 2000 ∧
      (twoModes .cut .dry).modeAt 1000 = some .dry) ∧
    (∀ t ∈ [(⟨1000, 500⟩ : Span), ⟨500, 500⟩], arrives (tackContour t) 800 1000 (lineChain .closed) ∧
      (t.start = 1000 ∨ t.start + t.length = 1000) ∧ (lineChain .closed).SoundCut ∧
      (onServo (tackContour t) 800 1000 (lineChain .closed)).NoHoldCause ∧
      (onServo (tackContour t) 800 1000 (lineChain .closed)).JournalRoom ∧
      (onServo (tackContour t) 800 1000 (lineChain .closed)).active .wireIntact = true) ∧
    ((lineChain .opened).Formed ∧ (lineChain .closed).Formed ∧ (twoModes .cut .dry).Formed) := by
  refine ⟨⟨onServo_arrives rfl rfl rfl (by decide) rfl, by decide⟩,
    ⟨onServo_arrives rfl rfl rfl (by decide) rfl, rfl, rfl, rfl⟩,
    ⟨onServo_arrives rfl rfl rfl (by decide) rfl, by decide, by decide⟩, fun t ht =>
    ⟨onServo_arrives rfl rfl rfl (by decide) rfl, ?_, soundCut rfl, running_noHold _ _ _ _, room rfl, rfl⟩,
    formed rfl (by decide), formed rfl (by decide), formed rfl (by decide)⟩
  simp only [List.mem_cons, List.not_mem_nil, or_false] at ht
  rcases ht with rfl | rfl
  · exact .inl rfl
  · exact .inr rfl

theorem test_meets_Sticks :
    let r := { runPass .moving with cutRunStart := some 1000, stuckCount := 65535 }
    let s := running .run (contourIn .cutting) r (lineChain .closed)
    s.Steady ∧ s.Servo 5 (contourIn .cutting) (passOn .rough) r (lineChain .closed) ∧ 0 < 30 ∧ 8 + 0 ≤ 30 ∧
      (passOn .rough).shortLimit ≤ 8 ∧ r.s = s.floorNow (contourIn .cutting) r ∧ r.s < r.stopPoint ∧
      s.params.stuckSamples ≤ min 65535 (r.stuckCount + 1) ∧ s.NoneWaiting ∧ s.NoHoldCause ∧ s.JournalRoom :=
  ⟨⟨rfl, rfl⟩, ⟨running_onPass rfl rfl rfl, rfl, rfl, .inl rfl, rfl, by decide⟩, by decide, by decide, by decide,
    by decide, by decide, by decide, only_noneWaiting (c := contourIn .cutting) rfl (by decide), running_noHold _ _ _ _,
    room rfl⟩

theorem test_meets_DrySteps :
    let r (pos : Nat) := { runPass .moving with s := pos, stopPoint := 1000, cutRunStart := none }
    let s (pos : Nat) := running .run (contourIn .cutting) (r pos) (twoModes .dry .cut)
    (∀ pos < 1000, (s pos).Steady ∧ ((twoModes .dry .cut).modeAt pos = some .dry →
      (s pos).Dry 5 (contourIn .cutting) (passOn .rough) (r pos) (twoModes .dry .cut))) ∧
    ((twoModes .dry .cut).modeAt 499 = some .dry ∧ 499 + (s 499).params.dryStep < (r 499).stopPoint) ∧
    ((twoModes .dry .cut).modeAt 500 = some .dry ∧ (r 500).s < (r 500).stopPoint ∧
      (r 500).stopPoint ≤ (r 500).s + (s 500).params.dryStep ∧ (r 500).cutRunStart = none ∧
      1000 < dropDef.passEnd 0 2000 ∧ (twoModes .dry .cut).modeAt 1000 = some .cut ∧ (twoModes .dry .cut).Formed ∧
      (s 500).NoHoldCause ∧ (s 500).JournalRoom) :=
  ⟨fun _ _ => ⟨⟨rfl, rfl⟩, fun h => ⟨running_onPass rfl rfl rfl, rfl, rfl, fun e => (by cases e), .inl rfl,
    rfl, h⟩⟩,
    by decide, by decide, by decide, by decide, rfl, by decide, by decide, formed rfl (by decide),
    running_noHold _ _ _ _, room rfl⟩

theorem test_meets_Approaches :
    let r (a : Nat) := { runPass .paused with approach := some a }
    let s (a : Nat) := (running .run (contourIn .reentry) (r a) (lineChain .closed)).onJob fun j =>
      { j with work := some .approach }
    (∀ a, (s a).Steady ∧ (s a).Approaches 5 (contourIn .reentry) (passOn .rough) (r a) (lineChain .closed) a) ∧
    499 + (s 499).params.dryStep < (r 499).s ∧
    (500 ≤ (r 500).s ∧ (r 500).s ≤ 500 + (s 500).params.dryStep ∧ (s 500).job.resume = none ∧
      (lineChain .closed).SoundCut ∧ (r 500).s < dropDef.passEnd 0 20000 ∧ (r 500).sub = .paused ∧
      (s 500).NoHoldCause ∧ (s 500).JournalRoom) :=
  ⟨fun _ => ⟨⟨rfl, rfl⟩, running_onPass rfl rfl rfl, rfl, rfl, rfl, rfl⟩, by decide, by decide, by decide, rfl,
    soundCut rfl, by decide, rfl, ⟨rfl, rfl, rfl, rfl, rfl, rfl⟩, room rfl⟩

theorem test_meets_RapidEnds :
    let m : Rapid := ⟨⟨0, 0⟩, ⟨10000, 0⟩, 10000, 0, .search⟩
    let s := (threading .atHole .searchMove false).onPath fun p => { p with rapid := some m }
    s.Steady ∧ s.modes.mode = .run ∧ s.path.rapid = some m ∧ m.done ≤ m.length ∧
      m.length ≤ m.done + s.params.rapidStep ∧ s.thread.isSome = true :=
  ⟨⟨rfl, rfl⟩, rfl, rfl, by decide, by decide, rfl⟩

/-! ### Threading and the ends of passes and stages -/

/-- A step of the threading unit runs in RUN for slot 5, whose pass stands at 1,000. -/
def stepping (op : ThreadOp) (st : ThreadStep) (again : Bool) (made : Nat) (c : Contour) : State :=
  (running .run c (runPass .paused) (lineChain .closed)).withThread
    (some ⟨op, 5, st, false, 2, made, some ⟨0, 0⟩, some 100, none, some 400, again⟩)

theorem stepping_timed (op st again made c) : (stepping op st again made c).Steady ∧
    (stepping op st again made c).Timed ⟨op, 5, st, false, 2, made, some ⟨0, 0⟩, some 100, none, some 400, again⟩ st
      c :=
  ⟨⟨rfl, rfl⟩, rfl, rfl, rfl, rfl, running_contour .run c (runPass .paused) (lineChain .closed), rfl⟩

/-- No state of such a step has a record waiting. -/
theorem stepping_settled (op st again made c) : (stepping op st again made c).LinkSettled :=
  fun _ => ⟨rfl, (by decide +kernel : (cell .run).noticePending = false), rfl⟩

theorem test_meets_TimersElsewhere : (cell .run).thread = none ∧
    (stepping .inGap .searchMove false 0 (contourIn .reentry)).Steady ∧
    ((stepping .inGap .searchMove false 0 (contourIn .reentry)).thread.map (·.step)) = some .searchMove ∧
    ∀ row ∈ threadTimers, ThreadStep.searchMove ≠ row.2 :=
  ⟨rfl, ⟨rfl, rfl⟩, rfl, by decide⟩

theorem test_meets_TimersEnd :
    let reentry := contourIn .reentry
    (let s := stepping .atHole .tipCut false 1 reentry
     s.active .lowerDetect = false ∧ s.active .wireIntact = true ∧
      (lineAt .wireIntact false s).active .wireIntact = false ∧ (lineAt .wireIntact false s).thread = s.thread) ∧
    (∀ op, (stepping op .feed false 2 reentry).Timed
      ⟨op, 5, .feed, false, 2, 2, some ⟨0, 0⟩, some 100, none, some 400, false⟩ .feed reentry) ∧
    (lineAt .lowerDetect true (stepping .unthread .unthreadCut false 0 reentry)).active .lowerDetect = true ∧
    (let s := (threading .inGap .tipCut false).withModes { (cell .hold).modes with mode := .hold }
     s.modes.mode = .hold ∧ s.modes.parkPending = false ∧ s.thread.isSome = true) :=
  ⟨by decide +kernel, fun op => (stepping_timed op .feed false 2 _).2, by decide +kernel, by decide⟩

theorem test_meets_FeedSucceeds :
    let s (op : ThreadOp) (c : Contour) := (holdingLine .lowerDetect true (stepping op .feed false 2 c)).onJob fun j =>
      { j with wire := some 500 }
    let t (op : ThreadOp) : Threading :=
      ⟨op, 5, .feed, false, 2, 2, some ⟨0, 0⟩, some 100, none, some 400, false⟩
    (∀ op c, (s op c).Steady ∧ (s op c).LinkSettled ∧ (s op c).Timed (t op) .feed c ∧
      (s op c).Turns .lowerDetect true) ∧
    (let u := s .atHole (contourIn .threading)
     u.path.commanded ≠ ⟨0, 0⟩ ∧ u.store.lineKeptOut u.path.commanded ⟨0, 0⟩ = false) ∧
    ((s .inGap (contourIn .reentry)).OnPass 5 (contourIn .reentry) (passOn .rough) (runPass .paused)
        (lineChain .closed) ∧ (contourIn .reentry).passIndex = 0 ∧ 500 < (runPass .paused).s) ∧
    (let u := s .inGap (onSecond .reentry)
     u.OnPass 5 (onSecond .reentry) (passOn .skim) (runPass .paused) (lineChain .closed) ∧
      (onSecond .reentry).passIndex ≠ 0 ∧ u.job.resume = none ∧ (onSecond .reentry).defn.method = .drop ∧
      (lineChain .closed).SoundCut ∧
      (runPass .paused).s < (onSecond .reentry).defn.passEnd 1 (lineChain .closed).loaded ∧ u.NoHoldCause ∧
      u.JournalRoom) := by
  refine ⟨fun op c => ⟨⟨rfl, rfl⟩, fun _ => ⟨rfl, (by decide +kernel : (cell .run).noticePending = false), rfl⟩,
      ⟨rfl, rfl, rfl, rfl, running_contour .run c (runPass .paused) (lineChain .closed), rfl⟩, turns _ _ _ rfl⟩,
    by decide +kernel, ⟨?_, rfl, by decide⟩, ?_, by decide, rfl, rfl, soundCut rfl, by decide,
    ⟨by decide +kernel, by decide +kernel, by decide +kernel, rfl, rfl, rfl⟩, room rfl⟩
  · exact (running_onPass rfl rfl rfl :
      (running .run (contourIn .reentry) (runPass .paused) (lineChain .closed)).OnPass 5 _ _ _ _)
  · exact (running_onPass rfl rfl rfl :
      (running .run (onSecond .reentry) (runPass .paused) (lineChain .closed)).OnPass 5 _ _ _ _)

/-- The last step of a centre move for slot 5, its chain 7 bound to pass 0. -/
def centring (c : Contour) (lower : Bool) (at0 : Point) (r : Option RunPass) : State :=
  lineAt .lowerDetect lower (((running .run c (runPass .paused) (lineChain .closed)).onPath fun p =>
    { p with pass := r, rapid := some ⟨⟨1000, 0⟩, at0, 1000, 0, .centre⟩, genOn := false }).withThread
      (some ⟨.atHole, 5, .centreMove, false, 2, 2, some at0, some 100, none, none, false⟩))

theorem test_meets_CentreMoveEnds :
    let m (p : Point) : Rapid := ⟨⟨1000, 0⟩, p, 1000, 0, .centre⟩
    let k := lineChain .closed
    (∀ c lower p r, let s := centring c lower p r
      s.Steady ∧ s.LinkSettled ∧ s.modes.mode = .run ∧ s.path.rapid = some (m p) ∧ (m p).done ≤ (m p).length ∧
        (m p).length ≤ (m p).done + s.params.rapidStep ∧ s.contour 5 = some c ∧ s.job.current = some 5) ∧
    (centring (contourIn .threading) false ⟨0, 0⟩ none).active .lowerDetect = false ∧
    (let s (p : Point) := centring (contourIn .threading) true p none
     (∀ p, (s p).active .lowerDetect = true ∧ (s p).active .wireIntact = true ∧ (s p).chain 7 = some k ∧
        k.SoundCut ∧ 0 < dropDef.passEnd 0 k.loaded ∧ (s p).active .slugPresent = true ∧ (s p).NoHoldCause ∧
        (s p).JournalRoom ∧ (s p).path.genOn = false) ∧
      within 2 k.start ⟨2, -2⟩ = true ∧ within 2 k.start ⟨3, 0⟩ = false ∧ (s ⟨3, 0⟩).NoneWaiting) ∧
    (let s := centring (contourIn .reentry) true ⟨0, 0⟩ (some (runPass .paused))
     s.active .lowerDetect = true ∧ s.active .wireIntact = true ∧
      s.OnPass 5 (contourIn .reentry) (passOn .rough) (runPass .paused) k ∧ 0 < (runPass .paused).s) := by
  intro m k
  refine ⟨fun c lower p r => ⟨⟨rfl, rfl⟩, fun _ => ⟨rfl, (by decide +kernel : (cell .run).noticePending = false), rfl⟩,
      rfl, rfl, Nat.zero_le _, (by decide : 1000 ≤ 0 + (cell .run).params.rapidStep), running_contour .run c (runPass .paused) k, rfl⟩, by decide +kernel,
    ⟨fun p => ⟨rfl, rfl, running_chain .run (contourIn .threading) (runPass .paused) k, soundCut rfl, by decide, rfl,
      ⟨rfl, rfl, rfl, rfl, rfl, rfl⟩, room rfl, rfl⟩, by decide, by decide,
      only_noneWaiting (c := contourIn .threading) rfl (by decide)⟩, rfl, rfl, ?_, by decide⟩
  exact (running_onPass rfl rfl rfl :
    (running .run (contourIn .reentry) (runPass .paused) (lineChain .closed)).OnPass 5 _ _ _ _)

theorem test_meets_Retracts :
    let s (again : Bool) (op : ThreadOp) (c : Contour) := stepping op .retract again 1 c
    let t (again : Bool) (op : ThreadOp) : Threading :=
      ⟨op, 5, .retract, false, 2, 1, some ⟨0, 0⟩, some 100, none, some 400, again⟩
    (∀ again op c, (s again op c).Steady ∧ (s again op c).LinkSettled ∧ (s again op c).Timed (t again op) .retract c ∧
      (s again op c).job.current = some 5 ∧ (s again op c).path.pass.isSome = true) ∧
    (let u := s true .atHole (contourIn .threading)
     let target := State.searchOffset ⟨0, 0⟩ 100 1
     (t true .atHole).search.getD 0 < (1 : Fin 9).val ∧ u.store.window.holds target = true ∧
      u.path.commanded ≠ target ∧ u.store.lineKeptOut u.path.commanded target = false) ∧
    ((s false .atHole (contourIn .threading)).NoneWaiting ∧ (s false .atHole (contourIn .reentry)).NoneWaiting) ∧
    (let u := s false .inGap (contourIn .reentry)
     u.path.commanded ≠ dropDef.centre ∧ u.store.lineKeptOut u.path.commanded dropDef.centre = false) ∧
    (let u := (s false .inGap (contourIn .reentry)).onStore fun x =>
       { x with keepOuts := x.keepOuts.set 0 ⟨true, ⟨400, 500, -10, 10⟩⟩ }
     u.Steady ∧ u.LinkSettled ∧ u.Timed (t false .inGap) .retract (contourIn .reentry) ∧
      u.store.lineKeptOut u.path.commanded dropDef.centre = true ∧ u.path.commanded ≠ dropDef.centre ∧ u.NoneWaiting) ∧
    (onSecond .reentry).passIndex ≠ 0 ∧ (onSecond .reentry).state = .reentry := by
  refine ⟨fun again op c => ⟨⟨rfl, rfl⟩, stepping_settled op .retract again 1 c,
      (stepping_timed op .retract again 1 c).2, rfl, rfl⟩, by decide +kernel,
    ⟨only_noneWaiting (c := contourIn .threading) rfl (by decide),
      only_noneWaiting (c := contourIn .reentry) rfl (by decide)⟩, by decide +kernel,
    ⟨⟨rfl, rfl⟩, stepping_settled .inGap .retract false 1 (contourIn .reentry),
      ⟨rfl, rfl, rfl, rfl, running_contour .run (contourIn .reentry) (runPass .paused) (lineChain .closed), rfl⟩,
      by decide +kernel, by decide +kernel, only_noneWaiting (c := contourIn .reentry) rfl (by decide)⟩, by decide, rfl⟩

theorem test_meets_StageEnds :
    let bridged := { bridgedContour with state := .unthreading }
    let h : Threading := ⟨.unthread, 5, .unthreadPull, false, 0, 0, none, none, none, some 5000, false⟩
    let s (c : Contour) := holdingLine .lowerDetect false (((running .run c (runPass .paused)
      (lineChain .closed)).withThread (some h)).onJob fun j => { j with work := some .stageUnthread })
    (∀ c, (s c).Steady ∧ (s c).thread = some h ∧ (s c).job.current = some 5 ∧ (s c).contour 5 = some c ∧
      (s c).job.work = some .stageUnthread ∧ (s c).Turns .lowerDetect false) ∧
    ((s bridged).NoneWaiting ∧ bridged.defn.bridge.isSome = true ∧ bridged.pass.map (·.role) ≠ some .sever ∧
      bridged.defn.attended = true ∧ bridged.severReleased = false) ∧
    ((s (contourIn .unthreading)).NoneWaiting ∧ (contourIn .unthreading).defn.bridge.isSome = false) :=
  ⟨fun c => ⟨⟨rfl, rfl⟩, rfl, rfl, running_contour .run c (runPass .paused) (lineChain .closed), rfl, turns _ _ _ rfl⟩,
    ⟨only_noneWaiting (c := { bridgedContour with state := .unthreading }) rfl (by decide), rfl, by decide, rfl, rfl⟩,
    only_noneWaiting (c := contourIn .unthreading) rfl (by decide), rfl⟩

/-- A bridged contour on its first pass, with one SKIM pass to follow before the SEVER pass. -/
def skimmed : Contour := { contourIn .cutting with
  defn := { dropDef with
    bridge := some ⟨2000, .attended⟩
    passes := [passOn .rough, { passOn .skim with chain := 6 }, { passOn .sever with chain := 8 }] } }

/-- The chain of the SKIM pass, from the end of the first pass on. -/
def skimChain : Chain :=
  ⟨.closed, ⟨18000, 0⟩, [{ cutLine 5000 with endPt := ⟨23000, 0⟩ }], 5000, ⟨23000, 0⟩, some (5, 1)⟩

/-- Another chain in the store changes nothing about the arrival. -/
theorem skimmed_arrives (k : Chain) : ((onServo skimmed 17800 18000 (lineChain .closed)).setChain 6 (some k)).Arrives 5
    skimmed (passOn .rough) { runPass .moving with s := 17800, stopPoint := 18000 } (lineChain .closed) 0 30 0 30 := by
  obtain ⟨⟨⟨h1, h2, h3, h4, h5, h6⟩, hs⟩, ha⟩ := onServo_arrives (c := skimmed) (pos := 17800) (stop := 18000)
    (k := lineChain .closed) rfl rfl rfl (by decide) rfl
  exact ⟨⟨⟨h1, h2, h3, h4, (State.chain_setChain_ne _ (by decide) _).trans h5, h6⟩, hs⟩, ha⟩

theorem test_meets_PassEnds :
    let cutting := { bridgedContour with state := .cutting }
    let k := lineChain .closed
    let s := (onServo skimmed 17800 18000 k).setChain 6 (some skimChain)
    ((onServo cutting 17800 18000 k).Arrives 5 cutting (passOn .rough)
        { runPass .moving with s := 17800, stopPoint := 18000 } k 0 30 0 30 ∧
      18000 = cutting.defn.passEnd 0 20000 ∧ cutting.passIndex ≠ cutting.defn.closingPass ∧
      (cutting.defn.passes[cutting.passIndex + 1]?).map (·.role) = some .sever ∧
      (onServo cutting 17800 18000 k).NoHoldCause ∧ (onServo cutting 17800 18000 k).JournalRoom) ∧
    (s.contour 5 = some skimmed ∧ s.chain 6 = some skimChain ∧ s.chain 7 = some k ∧
      18000 = skimmed.defn.passEnd 0 20000 ∧
      skimmed.defn.passes[skimmed.passIndex + 1]? = some { passOn .skim with chain := 6 } ∧ skimChain.SoundCut ∧
      within 2 skimChain.start (k.point 18000) = true ∧ skimmed.passIndex + 1 < skimmed.defn.closingPass ∧
      0 < skimmed.defn.passEnd 1 skimChain.loaded) ∧
    k.Formed ∧
    (let far := { skimChain with start := ⟨18000, 3⟩ }
     let u := (onServo skimmed 17800 18000 k).setChain 6 (some far)
     u.Arrives 5 skimmed (passOn .rough) { runPass .moving with s := 17800, stopPoint := 18000 } k 0 30 0 30 ∧
      u.chain 6 = some far ∧ far.state ≠ .corrupt ∧ within 2 far.start (k.point 18000) = false ∧ u.NoneWaiting) :=
  ⟨⟨onServo_arrives rfl rfl rfl (by decide) rfl, by decide, by decide, by decide, running_noHold _ _ _ _, room rfl⟩,
    ⟨by decide +kernel, by decide +kernel, by decide +kernel, by decide, by decide, soundCut rfl, by decide +kernel,
      by decide, by decide⟩, formed rfl (by decide), skimmed_arrives _, by decide +kernel, by decide,
    by decide +kernel, only_noneWaiting (c := skimmed) rfl (by decide)⟩

theorem test_meets_SlugFree :
    let s (c : Contour) := onServo c 19800 20000 (lineChain .closed)
    (∀ c ∈ [contourIn .cutting, holderContour .cutting, tackContour ⟨500, 500⟩, tackContour ⟨20000, 500⟩],
      (s c).Arrives 5 c (passOn .rough) { runPass .moving with s := 19800, stopPoint := 20000 } (lineChain .closed)
        0 30 0 30 ∧ 20000 = c.defn.passEnd 0 20000 ∧ c.passIndex = c.defn.closingPass ∧
      c.defn.passes.length = c.passIndex + 1 ∧ (c.defn.method = .holder → 0 < c.defn.engage.getD 0) ∧
      c.defn.holdBack c.passIndex = 0 ∧ (s c).slug.drop = .idle) ∧
    ((s (contourIn .cutting)).active .slugPresent = true ∧ 0 < (s (contourIn .cutting)).params.dropWait) ∧
    (lineAt .slugPresent false (s (contourIn .cutting))).active .slugPresent = false ∧ (lineChain .closed).Formed := by
  refine ⟨fun c hc => ?_, by decide +kernel, by decide +kernel, formed rfl (by decide)⟩
  simp only [List.mem_cons, List.not_mem_nil, or_false] at hc
  rcases hc with rfl | rfl | rfl | rfl <;>
    exact ⟨onServo_arrives rfl rfl rfl (by decide) rfl, by decide, by decide, by decide, by decide, by decide, rfl⟩

/-- R8, R52: a tack span from the very end of the pass changes no setting. -/
theorem test_tackAtTheEnd : (after (.gapSample 0 30 0 30)
    (onServo (tackContour ⟨20000, 500⟩) 19800 20000 (lineChain .closed))).path.genSetting =
    (onServo (tackContour ⟨20000, 500⟩) 19800 20000 (lineChain .closed)).path.genSetting := by decide +kernel

end Sys2Proof.Tests
end

section
/-! SUPPORT. What the raising of conditions, the taking of live values and a hold can change, said once: the condition
records, the mode, the generator going off, and in the running pass its counts and MOVING to PAUSED. -/

set_option Elab.async false

namespace Sys2Proof.Machine

/-! ## The running pass under a hold -/

/-- A running-pass record whose counts have fallen, or which a hold has paused. -/
structure RunPass.Held (r q : RunPass) : Prop where
  rest : q = { r with sub := q.sub, openCount := q.openCount, stuckCount := q.stuckCount }
  sub : q.sub = r.sub ∨ (r.sub = .moving ∧ q.sub = .paused)
  stuck : q.stuckCount ≤ r.stuckCount

theorem RunPass.Held.refl (r : RunPass) : r.Held r := ⟨rfl, .inl rfl, le_refl _⟩

theorem RunPass.Held.trans {r q p : RunPass} (h : r.Held q) (g : q.Held p) : r.Held p where
  rest := by rw [g.rest, h.rest]
  sub := by
    rcases h.sub with h1 | ⟨h1, h2⟩ <;> rcases g.sub with g1 | ⟨g1, g2⟩ <;> simp_all
  stuck := g.stuck.trans h.stuck

theorem heldPass_self (p : Option RunPass) :
    ∃ f : RunPass → RunPass, (∀ r : RunPass, r.Held (f r)) ∧ p = p.map f :=
  ⟨id, RunPass.Held.refl, (congrFun Option.map_id p).symm⟩

/-! ## The mode under a hold and a waking -/

/-- The mode unit is as it was, or has passed from RUN to HOLD, or has been woken from PARK. -/
def ModeUnit.Stirred (m n : ModeUnit) : Prop :=
  n = m ∨ (m.mode = .run ∧ n = { m with mode := .hold }) ∨
    (m.mode = .park ∧ ∃ ms, n = { m with mode := .waking, pump := true, settle := some ms })

theorem ModeUnit.Stirred.trans {m n o : ModeUnit} (h : m.Stirred n) (g : n.Stirred o) : m.Stirred o := by
  rcases h with rfl | ⟨h, rfl⟩ | ⟨h, ms, rfl⟩
  · exact g
  · rcases g with rfl | ⟨g, rfl⟩ | ⟨g, _, rfl⟩
    · exact .inr (.inl ⟨h, rfl⟩)
    · cases g
    · cases g
  · rcases g with rfl | ⟨g, rfl⟩ | ⟨g, _, rfl⟩
    · exact .inr (.inr ⟨h, ms, rfl⟩)
    · cases g
    · cases g

theorem ModeUnit.Stirred.of_hold {m n : ModeUnit} (h : m.Stirred n) (hm : m.mode = .hold) : n = m := by
  rcases h with h | ⟨h, -⟩ | ⟨h, -⟩
  · exact h
  · rw [hm] at h; cases h
  · rw [hm] at h; cases h

namespace State

/-- The state with its path unit, condition records and mode unit replaced. -/
def reflag (s : State) (p : PathUnit) (c : Vector CondRec 28) (m : ModeUnit) : State :=
  { s with path := p, conds := c, modes := m }

/-- What flags can change, a forced hold included. -/
structure Stirs (s t : State) : Prop where
  rest : t = s.reflag t.path t.conds t.modes
  path : t.path = { s.path with pass := t.path.pass, genOn := t.path.genOn }
  pass : ∃ f : RunPass → RunPass, (∀ r : RunPass, r.Held (f r)) ∧ t.path.pass = s.path.pass.map f
  gen : t.path.genOn = true → s.path.genOn = true
  modes : s.modes.Stirred t.modes
  enable : ∀ c, (t.cond c).enable = (s.cond c).enable
  latch : ∀ c, (s.cond c).latch = true → (t.cond c).latch = true
  raised : ∀ c, t.raisedLatch c = s.raisedLatch c

/-- What flags can change where no hold is forced from outside: in a cell without a cause for a hold the mode stays
as it is. -/
structure Flags (s t : State) : Prop extends Stirs s t where
  calm : s.modes.mode ≠ .park → s.NoHoldCause → t.modes = s.modes ∧ t.NoHoldCause

variable {s t u : State}

theorem Stirs.refl (s : State) : s.Stirs s where
  rest := rfl
  path := rfl
  pass := heldPass_self _
  gen := id
  modes := .inl rfl
  enable _ := rfl
  latch _ := id
  raised _ := rfl

theorem Stirs.trans (h : s.Stirs t) (g : t.Stirs u) : s.Stirs u where
  rest := by rw [g.rest, h.rest]; rfl
  path := by rw [g.path, h.path]
  pass := by
    obtain ⟨f, hf, hp⟩ := h.pass
    obtain ⟨f', hf', hp'⟩ := g.pass
    exact ⟨f' ∘ f, fun r => (hf r).trans (hf' _), by rw [hp', hp, Option.map_map]⟩
  gen h' := h.gen (g.gen h')
  modes := h.modes.trans g.modes
  enable c := (g.enable c).trans (h.enable c)
  latch c h' := g.latch c (h.latch c h')
  raised c := (g.raised c).trans (h.raised c)

theorem Flags.refl (s : State) : s.Flags s := ⟨.refl s, fun _ h => ⟨rfl, h⟩⟩

theorem Flags.trans (h : s.Flags t) (g : t.Flags u) : s.Flags u :=
  ⟨h.toStirs.trans g.toStirs, fun hm hc => by
    obtain ⟨h1, h2⟩ := h.calm hm hc
    obtain ⟨g1, g2⟩ := g.calm (h1 ▸ hm) h2
    exact ⟨g1.trans h1, g2⟩⟩

/-! ## What they leave unchanged -/

namespace Stirs

variable (h : s.Stirs t)
include h

theorem params : t.params = s.params := by rw [h.rest]; rfl
theorem contours : t.contours = s.contours := by rw [h.rest]; rfl
theorem job : t.job = s.job := by rw [h.rest]; rfl
theorem store : t.store = s.store := by rw [h.rest]; rfl
theorem thread : t.thread = s.thread := by rw [h.rest]; rfl
theorem slug : t.slug = s.slug := by rw [h.rest]; rfl
theorem holder : t.holder = s.holder := by rw [h.rest]; rfl
theorem sensors : t.sensors = s.sensors := by rw [h.rest]; rfl
theorem journal : t.journal = s.journal := by rw [h.rest]; rfl
theorem link : t.link = s.link := by rw [h.rest]; rfl
theorem agenda : t.agenda = s.agenda := by rw [h.rest]; rfl
theorem free : t.free = s.free := by rw [h.rest]; rfl
theorem pending : t.pending = s.pending := by rw [h.rest]; rfl

theorem rapid : t.path.rapid = s.path.rapid := by rw [h.path]
theorem commanded : t.path.commanded = s.path.commanded := by rw [h.path]
theorem supplied : t.path.supplied = s.path.supplied := by rw [h.path]
theorem genSetting : t.path.genSetting = s.path.genSetting := by rw [h.path]

theorem contour (i : Slot) : t.contour i = s.contour i := by rw [State.contour, h.contours, State.contour]
theorem chain (c : ChainId) : t.chain c = s.chain c := by rw [State.chain, h.store, State.chain]
theorem lineRec (l : Line) : t.lineRec l = s.lineRec l := by rw [State.lineRec, h.sensors, State.lineRec]
theorem active (l : Line) : t.active l = s.active l := by rw [State.active, h.lineRec, State.active]

theorem curContour : t.curContour = s.curContour := by
  rw [State.curContour, h.job, State.curContour]
  cases s.job.current with
  | none => rfl
  | some i => exact h.contour i

theorem cutting : t.cutting = s.cutting := by rw [State.cutting, h.curContour, State.cutting]

theorem front : t.front = s.front := by rw [State.front, h.curContour, State.front]
theorem reserve : t.reserve = s.reserve := by rw [State.reserve, h.curContour, State.reserve]

theorem genOff (hg : s.path.genOn = false) : t.path.genOn = false := by
  cases e : t.path.genOn with
  | false => rfl
  | true => rw [h.gen e] at hg; cases hg

theorem pass_none (hp : s.path.pass = none) : t.path.pass = none := by
  obtain ⟨f, -, e⟩ := h.pass
  rw [e, hp]; rfl

theorem pass_some {r : RunPass} (hp : s.path.pass = some r) : ∃ q, t.path.pass = some q ∧ r.Held q := by
  obtain ⟨f, hf, e⟩ := h.pass
  exact ⟨f r, by rw [e, hp]; rfl, hf r⟩

theorem modes_of_hold (hm : s.modes.mode = .hold) : t.modes = s.modes := h.modes.of_hold hm

/-- A condition raised to the full stays so. -/
theorem latch_eq {c : Cond} (hc : (s.cond c).latch = s.raisedLatch c) : (t.cond c).latch = t.raisedLatch c := by
  have e := h.raised c
  cases hl : (s.cond c).latch with
  | true => rw [h.latch c hl, e, ← hc, hl]
  | false =>
    rw [← hc, hl] at e
    rw [e]
    simp only [raisedLatch, Bool.or_eq_false_iff] at e
    exact e.1.1

end Stirs

/-! ## Each operation on flags -/

/-- A change of condition records alone, where no enable changes and a latch is set only as an event may set it. -/
theorem stirs_of_conds {c : Vector CondRec 28}
    (hc : ∀ d : Cond, ((s.withConds c).cond d).enable = (s.cond d).enable ∧
      ((s.cond d).latch = true → ((s.withConds c).cond d).latch = true) ∧
      (((s.withConds c).cond d).latch = true → s.raisedLatch d = true)) : s.Stirs (s.withConds c) where
  rest := rfl
  path := rfl
  pass := heldPass_self _
  gen := id
  modes := .inl rfl
  enable d := (hc d).1
  latch d := (hc d).2.1
  raised d := by
    obtain ⟨he, hl, hr⟩ := hc d
    rw [Bool.eq_iff_iff]
    simp only [raisedLatch, Bool.or_eq_true, he, withConds_params] at hr ⊢
    tauto

/-- One condition record set, its enable and its latch kept. -/
theorem stirs_setCond {c : Cond} {r : CondRec} (he : r.enable = (s.cond c).enable)
    (hl : (s.cond c).latch = true → r.latch = true) (hr : r.latch = true → s.raisedLatch c = true) :
    s.Stirs (s.setCond c r) := by
  refine stirs_of_conds fun d => ?_
  show ((s.setCond c r).cond d).enable = _ ∧ _
  by_cases hd : d = c
  · subst hd
    have e := cond_setCond_same s d r
    exact ⟨by rw [e, he], fun h => by rw [show (s.withConds (s.conds.set d.num r)).cond d = r from e]; exact hl h,
      fun h => hr (by rwa [show (s.withConds (s.conds.set d.num r)).cond d = r from e] at h)⟩
  · have e := cond_setCond_ne s hd r
    refine ⟨by rw [e], fun h => ?_, fun h => ?_⟩
    · rwa [show (s.withConds (s.conds.set c.num r)).cond d = s.cond d from e]
    · rw [show (s.withConds (s.conds.set c.num r)).cond d = s.cond d from e] at h
      simp [raisedLatch, h]

/-- A live value set. -/
theorem stirs_setCond_live (c : Cond) (v : Bool) : s.Stirs (s.setCond c { s.cond c with live := v }) :=
  stirs_setCond rfl id fun h => by simp [raisedLatch, show (s.cond c).latch = true from h]

theorem genOff_stirs (s : State) : s.Stirs s.genOff := by
  have hp : s.Stirs ((s.onPath fun p => { p with genOn := false }).onPass fun r =>
      { r with openCount := 0, stuckCount := 0 }) :=
    { rest := rfl
      path := rfl
      pass := ⟨fun r => { r with openCount := 0, stuckCount := 0 },
        fun r => ⟨rfl, .inl rfl, Nat.zero_le _⟩, rfl⟩
      gen := by rintro ⟨⟩
      modes := .inl rfl
      enable := fun _ => rfl
      latch := fun _ => id
      raised := fun _ => rfl }
  exact hp.trans (stirs_setCond_live _ _)

@[simp] theorem genOff_genOn (s : State) : s.genOff.path.genOn = false := rfl

theorem holdEntry_stirs (hm : s.modes.mode = .run) : s.Stirs s.holdEntry := by
  refine (genOff_stirs s).trans ?_
  refine { rest := rfl, path := rfl, pass := ⟨fun r => if r.sub = .moving then { r with sub := .paused } else r, ?_, rfl⟩,
           gen := id, modes := .inr (.inl ⟨hm, rfl⟩), enable := fun _ => rfl, latch := fun _ => id,
           raised := fun _ => rfl }
  intro r
  simp only
  by_cases hr : r.sub = .moving
  · rw [if_pos hr]; exact ⟨rfl, .inr ⟨hr, rfl⟩, le_refl _⟩
  · rw [if_neg hr]; exact .refl r

theorem forceHold_stirs (s : State) : s.Stirs s.forceHold := by
  unfold forceHold
  split
  · exact holdEntry_stirs ‹_›
  · exact .refl s

theorem forceHold_of_ne (h : s.modes.mode ≠ .run) : s.forceHold = s := if_neg h

theorem forceHold_mode (h : s.modes.mode = .run) : s.forceHold.modes = { s.modes with mode := .hold } := by
  rw [forceHold, if_pos (show s.mode = .run from h)]; rfl

theorem wakeCell_stirs (s : State) : s.Stirs s.wakeCell := by
  unfold wakeCell
  split
  · rename_i hm
    exact { rest := rfl, path := rfl, pass := heldPass_self _, gen := id
            modes := .inr (.inr ⟨hm, _, rfl⟩), enable := fun _ => rfl, latch := fun _ => id, raised := fun _ => rfl }
  · exact .refl s

theorem wakeCell_of_ne (h : s.modes.mode ≠ .park) : s.wakeCell = s := if_neg h

theorem latch_stirs (s : State) (c : Cond) : s.Stirs (s.latch c) := by
  simp only [State.latch]
  split
  · exact .refl s
  · split
    · rename_i he
      have ht : s.Stirs (s.setCond c { s.cond c with latch := true, pending := true }) :=
        stirs_setCond rfl (fun _ => rfl) fun _ => by simp [raisedLatch, he]
      split
      · exact ht.trans (wakeCell_stirs _)
      · exact ht
    · split
      · rename_i hd
        exact stirs_setCond rfl (fun _ => rfl) fun _ => by simp [raisedLatch, hd]
      · exact .refl s

/-- A latching sets what the enable and LatchDisabled let it set (R156). -/
theorem latch_raised (s : State) (c : Cond) : ((s.latch c).cond c).latch = s.raisedLatch c := by
  rw [latch_cond]
  simp only [raisedLatch, true_and]
  cases hl : (s.cond c).latch <;> cases (s.cond c).enable <;> cases s.params.latchDisabled <;> simp [hl]

theorem latch_live (s : State) (c d : Cond) : ((s.latch c).cond d).live = (s.cond d).live := by
  rw [latch_cond]
  repeat' split
  · rename_i h; rw [h.1]
  · rename_i h; rw [h.1]
  · rfl

theorem latch_modes (s : State) (c : Cond) (h : s.modes.mode ≠ .park) : (s.latch c).modes = s.modes := by
  simp only [State.latch]
  repeat' split
  · rfl
  · rw [wakeCell_of_ne (by exact h)]; rfl
  · rfl
  · rfl
  · rfl

/-! ## No cause of a hold -/

/-- No cause of a hold stands, where the live values and their sources are as they were. -/
theorem NoHoldCause.congr (h : s.NoHoldCause) (hl : ∀ c ∈ [Cond.doorOpen, .tankLow, .axisFault, .genFault, .journalBlocked],
      (t.cond c).live = (s.cond c).live) (hs : t.sensors = s.sensors) (hj : t.journal.blocked = s.journal.blocked) :
    t.NoHoldCause := by
  simp only [List.forall_mem_cons, List.not_mem_nil, false_implies, implies_true, and_true] at hl
  obtain ⟨h1, h2, h3, h4, h5⟩ := hl
  simpa only [NoHoldCause, mayRun, live, h1, h2, h3, h4, h5, State.active, State.lineRec, hs, hj] using h

theorem forcesHold_mem {c : Cond} (hc : c.forcesHold = true) :
    c ∈ [Cond.doorOpen, .tankLow, .axisFault, .genFault, .journalBlocked] := by
  cases c <;> simp_all [Cond.forcesHold]

theorem NoHoldCause.live (h : s.NoHoldCause) {c : Cond} (hc : c.forcesHold = true) : (s.cond c).live = false := by
  have hm := h.1
  simp only [mayRun, State.live, Bool.not_eq_true', Bool.or_eq_false_iff] at hm
  obtain ⟨⟨⟨⟨h1, h2⟩, h3⟩, h4⟩, h5⟩ := hm
  have := forcesHold_mem hc
  simp only [List.mem_cons, List.not_mem_nil, or_false] at this
  rcases this with rfl | rfl | rfl | rfl | rfl <;> assumption

theorem NoHoldCause.source (h : s.NoHoldCause) {c : Cond} (hc : c.forcesHold = true) : s.source c = false := by
  obtain ⟨-, h1, h2, h3, h4, h5⟩ := h
  have := forcesHold_mem hc
  simp only [List.mem_cons, List.not_mem_nil, or_false] at this
  rcases this with rfl | rfl | rfl | rfl | rfl <;> simp [State.source, h1, h2, h3, h4, h5]

/-- A latching is calm: outside PARK it changes neither the mode nor a live value. -/
theorem latch_flags (s : State) (c : Cond) : s.Flags (s.latch c) where
  toStirs := latch_stirs s c
  calm hm hc := ⟨latch_modes s c hm, hc.congr (fun d _ => latch_live s c d) (latch_stirs s c).sensors
    (by rw [(latch_stirs s c).journal])⟩

theorem raise_flags (s : State) (c : Cond) : s.Flags (s.raise c) := by
  unfold raise
  split
  · exact latch_flags s c
  · exact .refl s

/-- An event raised while its group is valid (R154, R156). -/
theorem raise_raised (c : Cond) (h : s.groupValid c.group = true) : ((s.raise c).cond c).latch = s.raisedLatch c := by
  rw [raise, if_pos h, latch_raised]

theorem genOff_flags (s : State) : s.Flags s.genOff where
  toStirs := genOff_stirs s
  calm _ hc := by
    refine ⟨rfl, hc.congr (fun c hm => ?_) rfl rfl⟩
    have hne : c ≠ .gapOpen := by rintro rfl; revert hm; decide
    show ((s.setCond .gapOpen { s.cond .gapOpen with live := false }).cond c).live = _
    rw [cond_setCond_ne s hne]

/-- A live value taken, where one that forces HOLD does not rise in a cell without a cause for a hold. -/
theorem setLive_flags {c : Cond} {v : Bool} (hv : c.forcesHold = true → s.NoHoldCause → v = false) :
    s.Flags (s.setLive c v) := by
  have hs : s.Stirs (s.setCond c { s.cond c with live := v }) := stirs_setCond_live c v
  simp only [setLive]
  split
  · exact .refl s
  · rename_i hne
    have hcalm (hf : c.forcesHold = false) : s.Flags (s.setCond c { s.cond c with live := v }) :=
      ⟨hs, fun _ hc => ⟨rfl, hc.congr (fun d hd => by
        have hdc : d ≠ c := by
          rintro rfl
          simp only [List.mem_cons, List.not_mem_nil, or_false] at hd
          rcases hd with rfl | rfl | rfl | rfl | rfl <;> cases hf
        rw [cond_setCond_ne s hdc]) rfl rfl⟩⟩
    cases hf : c.forcesHold with
    | false =>
      split
      · simpa using (hcalm hf).trans (latch_flags _ c)
      · exact hcalm hf
    | true =>
      have hno (hc : s.NoHoldCause) : False := hne (by rw [hc.live hf, hv hf hc])
      split
      · exact ⟨hs.trans ((latch_stirs _ c).trans (forceHold_stirs _)), fun _ hc => (hno hc).elim⟩
      · exact ⟨hs, fun _ hc => (hno hc).elim⟩

theorem decideGapOpen_flags (s : State) : s.Flags s.decideGapOpen := by
  unfold decideGapOpen
  split
  · exact setLive_flags (by rintro ⟨⟩)
  · exact .refl s

/-! ## The level conditions -/

/-- The value that a level condition takes: its source's, false while its group is not valid (R153, R154). -/
def levelValue (s : State) (c : Cond) : Bool := s.groupValid c.group && s.source c

/-- A hold changes no source of a level condition. -/
theorem Stirs.levelValue (h : s.Stirs t) {c : Cond} (hc : c ∈ Cond.levels) : t.levelValue c = s.levelValue c := by
  have hsrc : t.source c = s.source c := by
    have hlow : t.chainLowSource = s.chainLowSource := by
      obtain ⟨f, hf, e⟩ := h.pass
      simp only [chainLowSource, e, h.reserve, h.params]
      cases s.path.pass with
      | none => rfl
      | some r =>
        have hr := (hf r).rest
        have hch : (f r).chain = r.chain := by rw [hr]
        have hs : (f r).s = r.s := by rw [hr]
        simp only [Option.map_some, h.chain, hch, hs]
    have hst : t.chainStarvedSource = s.chainStarvedSource := by
      obtain ⟨f, hf, e⟩ := h.pass
      simp only [chainStarvedSource, e, h.cutting]
      cases s.path.pass with
      | none => rfl
      | some r =>
        have hsub : decide ((f r).sub = .starved) = decide (r.sub = .starved) := by
          rcases (hf r).sub with e | ⟨e, e'⟩
          · rw [e]
          · rw [e, e']; rfl
        simp only [Option.map_some, hsub]
    cases c <;> simp only [source, h.active, h.sensors, h.journal, h.holder, hlow, hst]
  have hgrp : t.groupValid c.group = s.groupValid c.group := by
    simp only [Cond.levels, List.mem_cons, List.not_mem_nil, or_false] at hc
    rcases hc with rfl | rfl | rfl | rfl | rfl | rfl | rfl | rfl | rfl <;> simp only [Cond.group, groupValid, h.job]
  rw [State.levelValue, State.levelValue, hsrc, hgrp]

theorem setLevel_flags (s : State) (c : Cond) : s.Flags (s.setLive c (s.levelValue c)) :=
  setLive_flags fun hf hc => by rw [State.levelValue, hc.source hf, Bool.and_false]

/-- The level conditions take, one after the other, the values that they have at the start. -/
theorem refreshLevels_eq (s : State) :
    s.refreshLevels = Cond.levels.foldl (fun t c => t.setLive c (s.levelValue c)) s := by
  have hg : ∀ (l : List Cond) (t : State), (∀ c ∈ l, c ∈ Cond.levels) → s.Stirs t →
      l.foldl (fun t c => t.setLive c (t.groupValid c.group && t.source c)) t =
        l.foldl (fun t c => t.setLive c (s.levelValue c)) t := by
    intro l
    induction l with
    | nil => exact fun _ _ _ => rfl
    | cons c l ih =>
      intro t hl ht
      have hv : (t.groupValid c.group && t.source c) = s.levelValue c := ht.levelValue (hl c (.head _))
      have hn := (setLevel_flags t c).toStirs
      rw [List.foldl_cons, List.foldl_cons, hv]
      rw [show t.levelValue c = s.levelValue c from hv] at hn
      exact ih _ (fun d hd => hl d (.tail _ hd)) (ht.trans hn)
  exact hg Cond.levels s (fun _ h => h) (.refl s)

theorem refreshLevels_flags (s : State) : s.Flags s.refreshLevels := by
  unfold refreshLevels
  generalize Cond.levels = l
  induction l generalizing s with
  | nil => exact .refl s
  | cons c l ih => exact (setLevel_flags s c).trans (ih _)

/-! ## Updates that are no matter of the flags -/

/-- An update that commutes with every change of flags, and changes nothing that they rest on. -/
structure Apart (f : State → State) : Prop where
  comm : ∀ s p c m, f (s.reflag p c m) = (f s).reflag p c m
  path : ∀ s, (f s).path = s.path
  conds : ∀ s, (f s).conds = s.conds
  modes : ∀ s, (f s).modes = s.modes
  params : ∀ s, (f s).params = s.params
  sensors : ∀ s, (f s).sensors = s.sensors
  blocked : ∀ s, (f s).journal.blocked = s.journal.blocked

theorem Apart.cond {f : State → State} (hf : Apart f) (s : State) (c : Cond) : (f s).cond c = s.cond c := by
  rw [State.cond, hf.conds, State.cond]

theorem Apart.raisedLatch {f : State → State} (hf : Apart f) (s : State) (c : Cond) :
    (f s).raisedLatch c = s.raisedLatch c := by
  rw [State.raisedLatch, State.raisedLatch, hf.cond, hf.params]

theorem Apart.noHoldCause {f : State → State} (hf : Apart f) (s : State) : (f s).NoHoldCause ↔ s.NoHoldCause :=
  ⟨fun h => h.congr (fun c _ => by rw [hf.cond]) (hf.sensors s).symm (hf.blocked s).symm,
    fun h => h.congr (fun c _ => by rw [hf.cond]) (hf.sensors s) (hf.blocked s)⟩

/-- A change of flags, seen from behind such an update. -/
theorem Stirs.apart (h : s.Stirs t) {f : State → State} (hf : Apart f) : (f s).Stirs (f t) where
  rest := by
    have e := hf.comm s t.path t.conds t.modes
    rw [← h.rest] at e
    rw [hf.path, hf.conds, hf.modes, ← e]
  path := by rw [hf.path, hf.path]; exact h.path
  pass := by rw [hf.path, hf.path]; exact h.pass
  gen := by rw [hf.path, hf.path]; exact h.gen
  modes := by rw [hf.modes, hf.modes]; exact h.modes
  enable c := by rw [hf.cond, hf.cond]; exact h.enable c
  latch c := by rw [hf.cond, hf.cond]; exact h.latch c
  raised c := by rw [hf.raisedLatch, hf.raisedLatch]; exact h.raised c

theorem Flags.apart (h : s.Flags t) {f : State → State} (hf : Apart f) : (f s).Flags (f t) where
  toStirs := h.toStirs.apart hf
  calm hm hc := by
    rw [hf.modes] at hm
    obtain ⟨h1, h2⟩ := h.calm hm ((hf.noHoldCause s).mp hc)
    exact ⟨by rw [hf.modes, hf.modes, h1], (hf.noHoldCause t).mpr h2⟩

theorem apart_onJob (f) : Apart fun s => s.onJob f :=
  ⟨fun _ _ _ _ => rfl, fun _ => rfl, fun _ => rfl, fun _ => rfl, fun _ => rfl, fun _ => rfl, fun _ => rfl⟩
theorem apart_onContour (i f) : Apart fun s => s.onContour i f :=
  ⟨fun _ _ _ _ => rfl, fun _ => rfl, fun _ => rfl, fun _ => rfl, fun _ => rfl, fun _ => rfl, fun _ => rfl⟩
theorem apart_setContour (i c) : Apart fun s => s.setContour i c :=
  ⟨fun _ _ _ _ => rfl, fun _ => rfl, fun _ => rfl, fun _ => rfl, fun _ => rfl, fun _ => rfl, fun _ => rfl⟩
theorem apart_onLink (f) : Apart fun s => s.onLink f :=
  ⟨fun _ _ _ _ => rfl, fun _ => rfl, fun _ => rfl, fun _ => rfl, fun _ => rfl, fun _ => rfl, fun _ => rfl⟩
theorem apart_progress : Apart progress := apart_onLink _
theorem apart_onSlug (f) : Apart fun s => s.onSlug f :=
  ⟨fun _ _ _ _ => rfl, fun _ => rfl, fun _ => rfl, fun _ => rfl, fun _ => rfl, fun _ => rfl, fun _ => rfl⟩
theorem apart_onHolder (f) : Apart fun s => s.onHolder f :=
  ⟨fun _ _ _ _ => rfl, fun _ => rfl, fun _ => rfl, fun _ => rfl, fun _ => rfl, fun _ => rfl, fun _ => rfl⟩
theorem apart_withThread (v) : Apart fun s => s.withThread v :=
  ⟨fun _ _ _ _ => rfl, fun _ => rfl, fun _ => rfl, fun _ => rfl, fun _ => rfl, fun _ => rfl, fun _ => rfl⟩
theorem apart_withAgenda (v) : Apart fun s => s.withAgenda v :=
  ⟨fun _ _ _ _ => rfl, fun _ => rfl, fun _ => rfl, fun _ => rfl, fun _ => rfl, fun _ => rfl, fun _ => rfl⟩
theorem apart_report (r) : Apart fun s => s.report r :=
  ⟨fun _ _ _ _ => rfl, fun _ => rfl, fun _ => rfl, fun _ => rfl, fun _ => rfl, fun _ => rfl, fun _ => rfl⟩
theorem apart_onStore (f) : Apart fun s => s.onStore f :=
  ⟨fun _ _ _ _ => rfl, fun _ => rfl, fun _ => rfl, fun _ => rfl, fun _ => rfl, fun _ => rfl, fun _ => rfl⟩

/-! ## Offers, and the report of a contour's change -/

/-- An offer is its journal entry, and then a matter of flags. -/
theorem offer_flags (s : State) (r : JRecord) : (s.onJournal fun j => j.take r).Flags (s.offer r) :=
  setLive_flags fun _ hc => hc.2.2.2.2.2

end State
end Sys2Proof.Machine
end

section
/-! SUPPORT. What the shared operations of the contour table leave: the report of a contour's change, the end of the work
on the current contour, the choice that comes to COMPLETE, the reports worked off, and the transmitter's turn. -/

set_option Elab.async false

namespace Sys2Proof.Machine.State

variable {s t : State}

/-! ## Changes of flags behind an update of the path unit, the mode unit or the journal -/

theorem Stirs.withModes (h : s.Stirs t) (m : ModeUnit) : (s.withModes m).Stirs (t.withModes m) where
  rest := by
    conv_lhs => rw [h.rest]
    rfl
  path := h.path
  pass := h.pass
  gen := h.gen
  modes := .inl rfl
  enable := h.enable
  latch := h.latch
  raised := h.raised

theorem Stirs.withJournal (h : s.Stirs t) (j : Journal) : (s.withJournal j).Stirs (t.withJournal j) where
  rest := by
    conv_lhs => rw [h.rest]
    rfl
  path := h.path
  pass := h.pass
  gen := h.gen
  modes := h.modes
  enable := h.enable
  latch := h.latch
  raised := h.raised

theorem Stirs.endRapid (h : s.Stirs t) : s.endRapid.Stirs t.endRapid where
  rest := by
    conv_lhs => rw [h.rest]
    rfl
  path := by
    show { t.path with rapid := none } = { { s.path with rapid := none } with pass := t.path.pass, genOn := t.path.genOn }
    rw [h.path]
  pass := h.pass
  gen := h.gen
  modes := h.modes
  enable := h.enable
  latch := h.latch
  raised := h.raised

/-- The running pass discarded on both sides. -/
theorem Stirs.clearPass (h : s.Stirs t) :
    (s.onPath fun p => { p with pass := none }).Stirs (t.onPath fun p => { p with pass := none }) where
  rest := by
    conv_lhs => rw [h.rest]
    rfl
  path := by
    show { t.path with pass := none } = { { s.path with pass := none } with pass := none, genOn := t.path.genOn }
    rw [h.path]
  pass := heldPass_self none
  gen := h.gen
  modes := h.modes
  enable := h.enable
  latch := h.latch
  raised := h.raised

/-- Where the generator is off afterwards, it may be taken as off from the start. -/
theorem Stirs.of_genOff (h : s.Stirs t) (hg : t.path.genOn = false) :
    (s.onPath fun p => { p with genOn := false }).Stirs t where
  rest := h.rest
  path := h.path
  pass := h.pass
  gen e := by rw [hg] at e; cases e
  modes := h.modes
  enable := h.enable
  latch := h.latch
  raised := h.raised

theorem Stirs.offer (h : s.Stirs t) (r : JRecord) : (s.withJournal (s.journal.take r)).Stirs (t.offer r) := by
  have ht := (offer_flags t r).toStirs
  rw [show (t.onJournal fun j => j.take r) = t.withJournal (s.journal.take r) from by rw [onJournal, h.journal]] at ht
  exact (h.withJournal _).trans ht

/-! ## A contour's change, reported (R11, R91) -/

/-- The report of a contour's change, flags apart: the last-changed contour, a journal that has been offered its STATE
record, PROGRESS pending. -/
def changed (s : State) (i : Slot) (j : Journal) : State :=
  ((s.onJob fun b => { b with lastChanged := some i }).withJournal j).progress

theorem contourChanged_flags (s : State) (i : Slot) :
    (s.changed i (s.journal.take (s.stateRecord i))).Flags (s.contourChanged i) :=
  (offer_flags _ _).apart apart_progress

theorem Stirs.contourChanged (h : s.Stirs t) (i : Slot) : ∃ j, (s.changed i j).Stirs (t.contourChanged i) :=
  ⟨_, (((h.apart (apart_onJob _)).withJournal _).apart apart_progress).trans (contourChanged_flags t i).toStirs⟩

/-- A reported change is the change of the contour table, and what flags, journal and link make of it. -/
theorem contourChanged_eq (s : State) (i : Slot) : s.contourChanged i =
    { s with job := { s.job with lastChanged := some i }, journal := (s.contourChanged i).journal
             conds := (s.contourChanged i).conds, modes := (s.contourChanged i).modes
             path := (s.contourChanged i).path, link := { s.link with progressPending := true } } := by
  have h := (contourChanged_flags s i).toStirs
  conv_lhs => rw [h.rest]
  rw [h.journal]
  rfl

/-! ## The choice, where no contour waits (R71, R73) -/

theorem firstSlot_none {f : Contour → Bool} (h : ∀ i c, s.contour i = some c → f c = false) : s.firstSlot f = none := by
  refine List.find?_eq_none.mpr fun i _ => ?_
  cases hc : s.contour i with
  | none => simp
  | some c => simp [h i c hc]

/-- With no contour QUEUED or BRIDGED the choice comes to COMPLETE. -/
theorem choose_complete (h : s.NoneWaiting) : s.choose = s.completeJob := by
  have hq : (s.firstSlot fun c => decide (c.state = .queued)) = none :=
    firstSlot_none fun i c hc => by simpa using (h i c hc).1
  have hb : (s.firstSlot fun c => decide (c.state = .bridged)) = none :=
    firstSlot_none fun i c hc => by simpa using (h i c hc).2
  have he : s.firstSlot Contour.eligible = none :=
    firstSlot_none fun i c hc => by simp [Contour.eligible, (h i c hc).2]
  rw [choose, choice, hq, hb, he]
  cases decide (s.job.state = .stageB) <;> rfl

theorem setJobState_progress (s : State) (js : JobState) :
    (s.setJobState js).progress = (s.onJob fun j => { j with state := js }).progress := by
  unfold setJobState
  split
  · rename_i h
    subst h
    rfl
  · rfl

/-- The completion of the job, flags apart (R73). -/
def completed (s : State) (j : Journal) : State :=
  ((s.onJob fun b => { b with state := .complete }).withJournal j).progress

theorem completeJob_flags (s : State) :
    (s.completed (s.journal.take (jobRecord .complete none))).Flags s.completeJob := by
  have h : ((s.setJobState .complete).onJournal fun j => j.take (jobRecord .complete none)).progress.Flags
      s.completeJob := ((offer_flags _ _).trans (raise_flags _ _)).apart apart_progress
  have hj : (s.setJobState .complete).journal = s.journal := by unfold setJobState; split <;> rfl
  have e := congrArg (fun u : State => u.withJournal (s.journal.take (jobRecord .complete none)))
    (setJobState_progress s .complete)
  rw [onJournal, hj] at h
  exact (show _ = s.completed _ from e) ▸ h

theorem Stirs.completeJob (h : s.Stirs t) : ∃ j, (s.completed j).Stirs t.completeJob :=
  ⟨_, (((h.apart (apart_onJob _)).withJournal _).apart apart_progress).trans (completeJob_flags t).toStirs⟩

/-- The current contour becomes absent, flags apart (R21). -/
def noCurrent (s : State) : State := s.onJob fun j => { j with current := none, resume := none }

theorem dropCurrent_flags (s : State) : s.noCurrent.Flags s.dropCurrent := refreshLevels_flags _

/-! ## The end of the work on the current contour (R85, R89, R135) -/

theorem parkIfDue_eq (s : State) : ∃ m, s.parkIfDue = s.withModes m ∧
    (s.modes.parkPending = false ∨ s.modes.mode ≠ .hold → m = s.modes) := by
  unfold parkIfDue parkEntry
  split
  · rename_i h
    simp only [Bool.and_eq_true, decide_eq_true_eq] at h
    split <;> exact ⟨_, rfl, by rintro (h' | h') <;> simp_all [State.mode]⟩
  · exact ⟨s.modes, rfl, fun _ => rfl⟩

/-- The threading unit is IDLE; a deferred PARK may then be entered. -/
theorem endThread_eq (h : s.path.rapid = none) : ∃ m, s.endThread = (s.withThread none).withModes m ∧
    (s.thread = none ∨ s.modes.parkPending = false → m = s.modes) := by
  unfold endThread
  split
  · rename_i ht
    obtain ⟨m, e, hm⟩ := parkIfDue_eq s.endRapid.threadIdle
    refine ⟨m, ?_, ?_⟩
    · have : s.endRapid = s := by
        simp only [endRapid, onPath, withPath, ← h]
      rw [e, this]; rfl
    · rintro (h' | h')
      · rw [h'] at ht; cases ht
      · exact hm (.inl h')
  · rename_i ht
    refine ⟨s.modes, ?_, fun _ => rfl⟩
    rw [Option.not_isSome_iff_eq_none] at ht
    simp only [State.withThread, State.withModes, ← ht]

end Sys2Proof.Machine.State

namespace Sys2Proof.Machine

/-- The slug records once a contour is no longer current (R135). -/
def SlugRecords.left (g : SlugRecords) (i : Slot) : SlugRecords :=
  if g.dropContour = some i then SlugRecords.reset else { g with watch := none }

/-- The engage request once a contour is no longer current (R135). -/
def Holder.left (h : Holder) (i : Slot) : Holder :=
  { h with request := match h.request with
      | some (q, k) => if k = i then none else some (q, k)
      | none => none }

theorem Holder.left_request (h : Holder) (i : Slot) (w : RequestState) : (h.left i).request ≠ some (w, i) := by
  unfold Holder.left
  rcases h.request with _ | ⟨q, k⟩
  · simp
  · by_cases e : k = i <;> simp [e]

namespace State

variable {s t : State}

theorem discardPass_stirs (s : State) : (s.onPath fun p => { p with pass := none, genOn := false }).Stirs s.discardPass :=
  ((genOff_stirs s).clearPass.of_genOff rfl).trans (refreshLevels_flags _).toStirs

theorem retentionLeft_stirs (s : State) (i : Slot) :
    ((s.onSlug fun g => g.left i).onHolder fun h => h.left i).Stirs (s.retentionLeft i) := by
  have e : s.retentionLeft i = ((s.onSlug fun g => g.left i).onHolder fun h => h.left i).refreshLevels := by
    simp only [retentionLeft, SlugRecords.left]
    by_cases h : s.slug.dropContour = some i
    · rw [if_pos (by exact h)]
      simp only [onSlug, disarmWatch, dropIdle, h, if_true]
      rfl
    · rw [if_neg (by exact h)]
      simp only [onSlug, disarmWatch, h, if_false]
      rfl
  rw [e]
  exact (refreshLevels_flags _).toStirs

/-- The job record once the work on the current contour has ended. -/
def idleJob (j : Job) : Job :=
  { j with work := none, due := false, wire := none, keptHolding := false, keptProceed := false }

/-- The part once the work on its current contour has ended, flags apart. -/
def workEnded (s : State) (i : Slot) (m : ModeUnit) : State :=
  ((((((((s.endRapid.withThread none).withModes m).onPath fun p => { p with pass := none }).onPath fun p =>
    { p with genOn := false }).onSlug fun g => g.left i).onHolder fun h => h.left i).onJob idleJob).withAgenda [])

theorem endWork_stirs (s : State) (i : Slot) : ∃ m, (s.workEnded i m).Stirs (s.endWork i) ∧
    (s.thread = none ∨ s.modes.parkPending = false → m = s.modes) := by
  obtain ⟨m, e, hm⟩ := endThread_eq (s := s.genOff.endRapid) rfl
  refine ⟨m, ?_, hm⟩
  have h1 : ((s.endRapid.withThread none).withModes m).Stirs s.genOff.endRapid.endThread := by
    rw [e]
    exact (((genOff_stirs s).endRapid).apart (apart_withThread none)).withModes m
  have h2 := ((h1.trans (genOff_stirs _)).clearPass.of_genOff rfl).trans (refreshLevels_flags _).toStirs
  have h3 := ((h2.apart (apart_onSlug fun g => g.left i)).apart (apart_onHolder fun h => h.left i)).trans
    (retentionLeft_stirs _ i)
  exact (h3.apart (apart_onJob idleJob)).apart (apart_withAgenda [])

/-- The job record once the current contour has left for good and no contour waits. -/
def doneJob (j : Job) (i : Slot) : Job :=
  { idleJob j with state := .complete, current := none, resume := none, lastChanged := some i }

/-- The part once its current contour has left for good and the job is COMPLETE, flags apart. -/
def left (s : State) (i : Slot) (f : Contour → Contour) (m : ModeUnit) (j : Journal) : State :=
  { s with
    contours := (s.onContour i f).contours
    job := doneJob s.job i
    path := { s.path with pass := none, rapid := none, genOn := false }
    thread := none, slug := s.slug.left i, holder := s.holder.left i, modes := m, journal := j
    link := { s.link with progressPending := true }, agenda := [] }

theorem left_eq (s : State) (i : Slot) (f : Contour → Contour) (m : ModeUnit) (j k : Journal) :
    ((((s.workEnded i m).onContour i f).changed i j).noCurrent).completed k = s.left i f m k := by
  obtain ⟨_, _, _, _, _, _, _, _, _, _, _, _, _, _, _, _⟩ := s
  rfl

theorem noCurrent_contours (s : State) (i : Slot) (f : Contour → Contour) (m : ModeUnit) (j : Journal) :
    ((((s.workEnded i m).onContour i f).changed i j).noCurrent).contours = (s.onContour i f).contours := by
  obtain ⟨_, _, _, _, _, _, _, _, _, _, _, _, _, _, _, _⟩ := s
  rfl

/-- The current contour leaves the active states, and no contour waits: the job is COMPLETE (R73, R85, R88, R89). -/
theorem leave_stirs (s : State) (i : Slot) (f : Contour → Contour) (hn : (s.onContour i f).NoneWaiting) :
    ∃ m j, (s.left i f m j).Stirs ((((s.endWork i).changeContour i f).dropCurrent).choose) ∧
      (s.thread = none ∨ s.modes.parkPending = false → m = s.modes) := by
  obtain ⟨m, h, hm⟩ := endWork_stirs s i
  obtain ⟨j, h1⟩ := (h.apart (apart_onContour i f)).contourChanged i
  have h2 : Stirs _ ((s.endWork i).changeContour i f).dropCurrent :=
    (h1.apart (apart_onJob _)).trans (dropCurrent_flags _).toStirs
  generalize ((s.endWork i).changeContour i f).dropCurrent = d at h2 ⊢
  have hc : d.contours = (s.onContour i f).contours := h2.contours.trans (noCurrent_contours s i f m j)
  have hd : d.NoneWaiting := fun k c hk => hn k c (by rwa [State.contour, ← hc])
  obtain ⟨k, h3⟩ := h2.completeJob
  rw [← choose_complete hd] at h3
  exact ⟨m, k, left_eq s i f m j k ▸ h3, hm⟩

/-! ## Reports worked off (log entry 4) -/

theorem settleGo_nil (n : Nat) (h : s.agenda = []) : settleGo n s = s := by
  cases n with
  | zero => rfl
  | succ n => simp only [settleGo, h]

theorem settleGo_cons (n : Nat) {r : Report} {rest : List Report} (h : s.agenda = r :: rest) :
    settleGo (n + 1) s = settleGo n ((s.withAgenda rest).handle r) := by
  simp only [settleGo, h]

/-! ## The transmitter's turn (R174) -/

/-- What the transmitter's turn leaves as it was: all but the link, the SLUG_CHANGE reference, noticed and pending, and the
count of completed segments. -/
structure Sends (s t : State) : Prop where
  rest : t = { s with path := t.path, conds := t.conds, sensors := t.sensors, link := t.link }
  pass : ∃ f : RunPass → RunPass, (∀ r : RunPass, f r = { r with segsCompleted := (f r).segsCompleted }) ∧
    t.path = { s.path with pass := s.path.pass.map f }
  latch : ∀ c, (t.cond c).latch = (s.cond c).latch

theorem mapConds_cond (s : State) (f : Nat → CondRec → CondRec) (c : Cond) :
    (s.mapConds f).cond c = f c.num (s.cond c) := by
  simp only [mapConds, State.cond, withConds_conds]
  exact Vector.getElem_mapFinIdx ..

theorem arbitrate_sends (s : State) : s.Sends s.arbitrate := by
  have hlink (l : Link) : s.Sends (s.withLink l) :=
    ⟨rfl, ⟨id, fun _ => rfl, by rw [Option.map_id]; rfl⟩, fun _ => rfl⟩
  unfold arbitrate
  split
  · exact hlink s.link
  · split
    · exact hlink _
    · split
      · refine ⟨rfl, ⟨id, fun _ => rfl, by rw [Option.map_id]; rfl⟩, fun c => ?_⟩
        rw [takeNotice, mapConds_cond]
        split <;> rfl
      · split
        · exact ⟨rfl, ⟨fun r => { r with segsCompleted := 0 }, fun _ => rfl, rfl⟩, fun _ => rfl⟩
        · split
          · exact hlink _
          · exact hlink s.link

end State
end Sys2Proof.Machine
end

section
/-! The requests on one contour of the table: QUERY_CONTOUR, RELEASE_SEVER, SKIP_CONTOUR and DELETE_CONTOUR. -/

set_option Elab.async false

namespace Sys2Proof.Machine

/-! ## The slot that a request names -/

theorem slotOf_val (i : Slot) : slotOf i.val = some i := dif_pos i.isLt

theorem u8_byte {v : Nat} (h : v < 256) (p : Payload) : u8 (byte v :: p) 0 = v := byte_toNat_of_lt h

theorem slot_lt (i : Slot) : i.val < 256 := lt_trans i.isLt (by decide)

theorem withSlot_byte (i : Slot) (p : Payload) (s : State) (f : Slot → State → Answer) :
    withSlot (byte i.val :: p) s f = f i s := by
  rw [withSlot, u8_byte (slot_lt i), slotOf_val]

theorem ofLength_one (b : Byte) (s : State) (f : Payload → State → Answer) : ofLength 1 [b] s f = f [b] s := rfl

/-! ## QUERY_CONTOUR -/

/-- Settles O28: the answer is a report, its contents the record's bytes by definition. -/
theorem queryContourReportsTheRecord : Obligations.QueryContourReportsTheRecord := by
  intro tag i s hq
  have ha : answerTo 0x22 [byte i.val] s = report s fun t => contourBytes t i := by
    show takeQueryContour [byte i.val] s = _
    rw [takeQueryContour, ofLength_one, withSlot_byte]
  have h : exec (.queryContour tag [byte i.val]) s = .next (s.replied 0x22 tag .ok (contourBytes s i)) :=
    congrArg _ (State.request_is hq (by simp) ha rfl rfl rfl rfl)
  refine ⟨fun hn => ?_, fun k hk => ?_⟩
  · rw [h, contourBytes, hn]
    rfl
  · have hb : boundBytes s i k = (List.range k.defn.passes.length).map fun n => boolByte (decide
        (∃ q, k.defn.passes[n]? = some q ∧ (s.chain q.chain).bind (·.binding) = some (i, n))) := by
      refine List.map_congr_left fun n _ => congrArg boolByte ?_
      cases k.defn.passes[n]? <;> simp
    simp only [h, contourBytes, hk, hb, workingBytes, breakBytes, posOpt, decide_eq_true_eq, List.append_assoc,
      List.cons_append, List.nil_append]
    rfl

/-! ## RELEASE_SEVER -/

/-- The states in which R12 accepts a release, of a contour with an ATTENDED bridge. -/
theorem releasable_eq (c : Contour) : c.releasable = (c.defn.attended &&
    !decide (c.state = .empty ∨ c.state = .done ∨ c.state = .skipped ∨ c.state = .faulted)) := by
  rw [Contour.releasable]
  cases c.state <;> rfl

/-- The record once a release has been made, where it may be. -/
def Contour.released (c : Contour) : Contour := if c.releasable then { c with severReleased := true } else c

namespace State

/-- Named records changed one after the other, slot by slot, are each changed once. -/
theorem foldl_onContour (named : Slot → Bool) (f : Contour → Contour) (l : List Slot) (s : State) :
    ∃ v, l.foldl (fun t i => if named i then t.onContour i f else t) s = s.withContours v ∧
      (l.Nodup → ∀ i, (s.withContours v).contour i = if i ∈ l ∧ named i = true then (s.contour i).map f else s.contour i) := by
  induction l generalizing s with
  | nil => exact ⟨s.contours, rfl, fun _ i => by simp⟩
  | cons j l ih =>
    obtain ⟨v, hv, hl⟩ := ih (if named j then s.onContour j f else s)
    rw [List.foldl_cons, hv]
    refine ⟨v, by split <;> rfl, fun hn i => ?_⟩
    obtain ⟨hj, hn⟩ := List.nodup_cons.mp hn
    have e : ((if named j = true then s.onContour j f else s).withContours v).contour i = (s.withContours v).contour i := rfl
    rw [← e, hl hn i]
    by_cases hij : i = j
    · subst hij
      rw [if_neg (fun h => hj h.1)]
      by_cases hi : named i = true <;> simp [hi]
    · have hc : (if named j = true then s.onContour j f else s).contour i = s.contour i := by
        split
        · exact contour_onContour_ne s hij f
        · rfl
      simp [hc, hij]

/-- Outside SEVER_WAIT a release sets the field of the contours named, and nothing else. -/
theorem release_eq (s : State) (named : Slot → Bool) (h : s.job.state ≠ .severWait) : ∃ v,
    s.release named = s.withContours v ∧
      ∀ i, (s.withContours v).contour i = if named i = true then (s.contour i).map Contour.released else s.contour i := by
  obtain ⟨v, hv, hc⟩ := foldl_onContour named Contour.released (List.finRange 64) s
  refine ⟨v, ?_, fun i => by rw [hc (List.nodup_finRange 64) i]; simp⟩
  have e : (List.finRange 64).foldl (fun t i => if named i then t.onContour i fun c =>
      if c.releasable then { c with severReleased := true } else c else t) s = s.withContours v := hv
  simp only [release, e, withContours_job, h, and_false, if_false]

end State

/-- Settles O34: outside SEVER_WAIT a release is an update of the contour table alone. -/
theorem releaseSeverSetsTheField : Obligations.ReleaseSeverSetsTheField := by
  intro tag s hq
  simp only [← releasable_eq]
  have hne (i : Slot) : u8 [byte i.val] 0 ≠ 255 := by rw [u8_byte (slot_lt i)]; omega
  refine ⟨fun i hi => congrArg _ (State.request_refused hq (by simp) ?_), fun hj => ⟨fun i c hc ha => ?_, ?_⟩⟩
  · show takeReleaseSever [byte i.val] s = _
    rw [takeReleaseSever, ofLength_one, if_neg (hne i), withSlot_byte]
    cases hc : s.contour i with
    | none => rfl
    | some c => simp only [hi c hc, Bool.false_eq_true, if_false]
  · obtain ⟨v, hv, hcs⟩ := s.release_eq (fun k => decide (k = i)) hj
    have e : s.withContours v = s.setContour i (some { c with severReleased := true }) := by
      refine congrArg s.withContours (Vector.ext fun n hn => ?_)
      have := hcs ⟨n, hn⟩
      by_cases hni : n = i.val
      · subst hni
        rw [decide_eq_true rfl, if_pos rfl, hc, Option.map_some, Contour.released, if_pos ha] at this
        simpa [State.contour] using this
      · have hne : (⟨n, hn⟩ : Slot) ≠ i := fun e => hni (congrArg Fin.val e)
        rw [decide_eq_false hne] at this
        simpa [State.contour, Vector.getElem_set_ne, Ne.symm hni] using this
    have hans : answerTo 0x37 [byte i.val] s = done (s.setContour i (some { c with severReleased := true })) := by
      show takeReleaseSever [byte i.val] s = _
      rw [takeReleaseSever, ofLength_one, if_neg (hne i), withSlot_byte, hc]
      simp only [ha, if_true, hv, e]
    exact congrArg _ (State.request_is hq (by simp) hans rfl rfl rfl rfl)
  · obtain ⟨v, hv, hcs⟩ := s.release_eq (fun _ => true) hj
    have hans : answerTo 0x37 [0xFF] s = done (s.withContours v) := by
      rw [← hv]
      rfl
    refine ⟨s.withContours v, congrArg _ (State.request_is hq (by simp) hans rfl rfl rfl rfl),
      fun i => (hcs i).trans (if_pos rfl), rfl⟩

/-! ## SKIP_CONTOUR -/

/-- SKIP_CONTOUR by the state of the contour named (R12, R84, R85). -/
theorem takeSkip_waiting {i : Slot} {k : Contour} {s : State} (hk : s.contour i = some k)
    (h : k.state = .queued ∨ k.state = .bridged ∨ k.state = .stopped) :
    takeSkipContour [byte i.val] s = done (s.skipOther i k) := by
  rw [takeSkipContour, ofLength_one, withSlot_byte, hk]
  rcases h with h | h | h <;> simp only [h]

theorem takeSkip_finished {i : Slot} {k : Contour} {s : State} (hk : s.contour i = some k)
    (h : k.state = .done ∨ k.state = .skipped ∨ k.state = .faulted) :
    takeSkipContour [byte i.val] s = refuse s .wrongState := by
  rw [takeSkipContour, ofLength_one, withSlot_byte, hk]
  rcases h with h | h | h <;> simp only [h]

theorem takeSkip_active {i : Slot} {k : Contour} {s : State} (hk : s.contour i = some k)
    (h : k.state = .threading ∨ k.state = .cutting ∨ k.state = .reentry ∨ k.state = .unthreading ∨
      k.state = .severing) : takeSkipContour [byte i.val] s =
        if s.modes.mode = .run then refuse s .wrongState else done (s.skipCurrent i) := by
  rw [takeSkipContour, ofLength_one, withSlot_byte, hk]
  rcases h with h | h | h | h | h <;> simp only [h] <;> rfl

theorem takeSkip_reentryWait {i : Slot} {k : Contour} {s : State} (hk : s.contour i = some k)
    (h : k.state = .reentryWait) : takeSkipContour [byte i.val] s = done (s.skipCurrent i) := by
  rw [takeSkipContour, ofLength_one, withSlot_byte, hk]
  simp only [h]

namespace State

@[simp] theorem contourChanged_contours (s : State) (i : Slot) : (s.contourChanged i).contours = s.contours :=
  (contourChanged_flags s i).contours

@[simp] theorem contourChanged_store (s : State) (i : Slot) : (s.contourChanged i).store = s.store :=
  (contourChanged_flags s i).store

/-- Where the contour table and the store alone have been written, a reported change writes flags, journal and link
besides. -/
theorem contourChanged_keeps {s t : State} (v : Vector (Option Contour) 64) (w : Store)
    (h : t = (s.withContours v).withStore w) (i : Slot) : t.contourChanged i =
    { s with contours := (t.contourChanged i).contours, store := w, job := { s.job with lastChanged := some i }
             journal := (t.contourChanged i).journal, conds := (t.contourChanged i).conds
             modes := (t.contourChanged i).modes, path := (t.contourChanged i).path
             link := { s.link with progressPending := true } } := by
  subst h
  have e := contourChanged_eq ((s.withContours v).withStore w) i
  have hc := contourChanged_contours ((s.withContours v).withStore w) i
  generalize ((s.withContours v).withStore w).contourChanged i = u at e hc
  rw [hc]
  exact e

/-- No contour but a finished one has work, where the current one was the last. -/
theorem noneWaiting_onContour {s : State} (h : s.NoneWaiting) (i : Slot) {f : Contour → Contour}
    (hf : ∀ c, (f c).state ≠ .queued ∧ (f c).state ≠ .bridged) : (s.onContour i f).NoneWaiting := by
  intro j k hk
  by_cases hj : j = i
  · subst hj
    rw [contour_onContour_same] at hk
    obtain ⟨c, -, rfl⟩ := Option.map_eq_some_iff.mp hk
    exact hf c
  · rw [contour_onContour_ne s hj] at hk
    exact h j k hk

end State

theorem currentIsSkipped (tag : Byte) (i : Slot) (c : Contour) (s : State) (hq : s.Quiet) :
    CurrentIsSkipped tag i c s := by
  intro _ hc hst hn
  obtain ⟨m, j, h, hm⟩ := s.leave_stirs i (fun c => { c with state := .skipped, fault := none })
    (State.noneWaiting_onContour hn i fun _ => ⟨nofun, nofun⟩)
  have ha : answerTo 0x36 [byte i.val] s = done (s.skipCurrent i) := by
    show takeSkipContour [byte i.val] s = _
    rcases hst with hst | ⟨hr, hst⟩
    · exact takeSkip_reentryWait hc hst
    · rw [takeSkip_active hc hst, if_neg hr]
  rw [← State.skipCurrent] at h
  generalize s.skipCurrent i = u at h ha
  have hlink : u.link = { s.link with progressPending := true } := h.link
  refine ⟨u, congrArg _ (State.request_is hq (by simp) ha (h.agenda.trans hq.1.1.symm) ?_ ?_ ?_), ?_, fun k hk => ?_,
    ?_, ?_, ?_, ?_, h.pass_none rfl, h.rapid, h.genOff rfl, h.commanded, h.thread, ?_, fun hd => ?_, ?_, fun w => ?_,
    fun hh hp => ?_, h.store, h.params, h.sensors⟩
  · show u.link.collecting = _; rw [hlink]
  · show u.link.replies = _; rw [hlink]
  · show u.link.sending = _; rw [hlink]
  · rw [h.contour]
    exact (State.contour_onContour_same s i _).trans (by rw [hc]; rfl)
  · rw [h.contour]
    exact State.contour_onContour_ne s hk _
  · rw [h.job]; rfl
  · rw [h.job]; rfl
  · rw [h.job]; rfl
  · rw [h.job]; rfl
  · rw [h.slug]
    show (s.slug.left i).watch = none
    rw [SlugRecords.left]; split <;> rfl
  · rw [h.slug]
    show (s.slug.left i).drop = .idle
    rw [SlugRecords.left, if_pos hd]; rfl
  · rw [h.holder]; rfl
  · rw [h.holder]
    exact s.holder.left_request i w
  · have e := hm (.inr hp)
    subst e
    exact h.modes_of_hold hh

/-- Settles O33, by the state of the contour: a waiting one is changed and reported, the current one leaves. -/
theorem skipOfAWaitingContour : Obligations.SkipOfAWaitingContour := by
  intro tag i s hq
  refine ⟨fun hn => congrArg _ (State.request_refused hq (by simp) ?_), fun k hk =>
    ⟨fun h => congrArg _ (State.request_refused hq (by simp) ((rfl : answerTo 0x36 _ s = _).trans (takeSkip_finished hk h))),
      fun h hr => congrArg _ (State.request_refused hq (by simp) ?_), fun h hw => ?_, currentIsSkipped tag i k s hq⟩⟩
  · show takeSkipContour [byte i.val] s = _
    rw [takeSkipContour, ofLength_one, withSlot_byte, hn]
  · exact (takeSkip_active hk h).trans (if_pos hr)
  · have e := State.contourChanged_keeps (s := s) (t := s.onContour i fun c => { c with state := .skipped })
      (s.onContour i fun c => { c with state := .skipped }).contours s.store rfl i
    have hc := (s.onContour i fun c => { c with state := .skipped }).contourChanged_contours i
    have ha : answerTo 0x36 [byte i.val] s = done ((s.onContour i fun c => { c with state := .skipped }).contourChanged i) := by
      refine (takeSkip_waiting hk h).trans (congrArg done ?_)
      simp only [State.skipOther]
      refine if_neg fun h' => hw ⟨?_, h'.2⟩
      rw [State.changeContour, e] at h'
      exact h'.1
    have hcon := (State.contour_onContour_same s i fun c => { c with state := .skipped }).trans (by rw [hk])
    have hoth (j : Slot) (hj : j ≠ i) := State.contour_onContour_ne s hj fun c => { c with state := .skipped }
    generalize (s.onContour i fun c => { c with state := .skipped }).contourChanged i = u at e hc ha
    refine ⟨u, congrArg _ (State.request_is hq (by simp) ha ?_ ?_ ?_ ?_), ?_, fun j hj => ?_, e⟩
    · exact (congrArg State.agenda e :)
    · exact (congrArg (·.link.collecting) e :)
    · exact (congrArg (·.link.replies) e :)
    · exact (congrArg (·.link.sending) e :)
    · rw [State.contour, hc]
      exact hcon
    · rw [State.contour, hc]
      exact hoth j hj

end Sys2Proof.Machine
end

section
/-! Chains freed by a contour (R18, R36), and the request that deletes it. -/

set_option Elab.async false

namespace Sys2Proof.Machine

/-! ## Chains freed pass by pass (R36) -/

/-- A chain is still bound to the pass of an index of a contour. -/
def Contour.Binds (c : Contour) (i : Slot) (s : State) (n : Nat) (ch : ChainId) : Prop :=
  ∃ q, c.defn.passes[n]? = some q ∧ q.chain = ch ∧ (s.chain ch).bind (·.binding) = some (i, n)

/-- What freeing the passes of a list of indices leaves: the chains still bound to them FREE, the others as they were,
their slots free again, and nothing but the chains and that count written. -/
structure State.FreesPasses (i : Slot) (c : Contour) (l : List Nat) (s t : State) : Prop where
  rest : t = s.withStore { s.store with chains := t.store.chains, freeSlots := t.store.freeSlots }
  credit : t.store.credit = s.store.credit
  freed : ∀ ch, (∃ n ∈ l, c.Binds i s n ch) → t.chain ch = none
  kept : ∀ ch, (∀ n ∈ l, ¬ c.Binds i s n ch) → t.chain ch = s.chain ch

namespace State

theorem credit_eq (s : State) : s.store.freeSlots + s.slotsHeld = s.store.credit := rfl

theorem freeChain_frees {s : State} {ch : ChainId} {k : Chain} (hk : s.chain ch = some k) :
    s.freeChain ch = s.withStore
        { s.store with chains := s.store.chains.set ch none, freeSlots := s.store.freeSlots + k.segs.length } ∧
      (s.freeChain ch).store.credit = s.store.credit := by
  have e : s.freeChain ch = s.withStore
      { s.store with chains := s.store.chains.set ch none, freeSlots := s.store.freeSlots + k.segs.length } := by
    rw [freeChain, hk]
    rfl
  refine ⟨e, ?_⟩
  have h := credit_set s.store ch none (s.store.freeSlots + k.segs.length)
  rw [show s.store.chains[ch] = some k from hk] at h
  rw [e]
  simp only [Store.credit, slotsIn, withStore_store] at h ⊢
  omega

theorem freePass_frees (s : State) (i : Slot) (c : Contour) (n : Nat) :
    State.FreesPasses i c [n] s (s.freePass i c n) := by
  have stay (h : ∀ ch, ¬ c.Binds i s n ch) : State.FreesPasses i c [n] s s :=
    ⟨rfl, rfl, fun ch ⟨m, hm, hb⟩ => absurd (List.mem_singleton.mp hm ▸ hb) (h ch), fun _ _ => rfl⟩
  rw [freePass]
  cases hq : c.defn.passes[n]? with
  | none => exact stay fun ch ⟨q, h, _⟩ => by rw [hq] at h; cases h
  | some q =>
    by_cases hb : (s.chain q.chain).bind (·.binding) = some (i, n)
    · dsimp only
      rw [if_pos hb]
      obtain ⟨k, hk, -⟩ := Option.bind_eq_some_iff.mp hb
      obtain ⟨e, hcr⟩ := freeChain_frees hk
      have hne (ch : ChainId) (h : ch ≠ q.chain) : (s.freeChain q.chain).chain ch = s.chain ch := by
        rw [e]
        exact chain_setChain_ne (s := s) h none
      refine ⟨by rw [e]; rfl, hcr, fun ch h => ?_, fun ch h => ?_⟩
      · obtain ⟨m, hm, q', hq', rfl, -⟩ := h
        obtain rfl := List.mem_singleton.mp hm
        obtain rfl := Option.some.inj (hq.symm.trans hq')
        rw [e]
        exact chain_setChain_same (s := s) q.chain none
      · exact hne ch fun hch => h n (List.mem_singleton.mpr rfl) ⟨q, hq, hch.symm, hch ▸ hb⟩
    · dsimp only
      rw [if_neg hb]
      exact stay fun ch ⟨q', h, hch, hb'⟩ => hb (by
        obtain rfl := Option.some.inj (hq.symm.trans h)
        rw [hch]
        exact hb')

/-- Freeing passes leaves the bindings of the chains that it does not free. -/
theorem FreesPasses.trans {i : Slot} {c : Contour} {l m : List Nat} {s t u : State} (h : State.FreesPasses i c l s t)
    (h' : State.FreesPasses i c m t u) : State.FreesPasses i c (l ++ m) s u where
  rest := by
    conv_lhs => rw [h'.rest, h.rest]
    rfl
  credit := h'.credit.trans h.credit
  freed ch := by
    rintro ⟨n, hn, hb⟩
    by_cases hl : ∃ k ∈ l, c.Binds i s k ch
    · have hnone := h.freed ch hl
      refine (h'.kept ch fun k _ hk => ?_).trans hnone
      obtain ⟨q, -, -, hbk⟩ := hk
      rw [hnone] at hbk
      cases hbk
    · have hsame := h.kept ch fun k hk hb => hl ⟨k, hk, hb⟩
      have hm : n ∈ m := (List.mem_append.mp hn).resolve_left fun hnl => hl ⟨n, hnl, hb⟩
      refine h'.freed ch ⟨n, hm, ?_⟩
      rwa [Contour.Binds, hsame]
  kept ch hk := by
    have hsame := h.kept ch fun n hn => hk n (List.mem_append_left m hn)
    refine (h'.kept ch fun n hn => ?_).trans hsame
    rw [Contour.Binds, hsame]
    exact hk n (List.mem_append_right l hn)

theorem freesPasses_nil (s : State) (i : Slot) (c : Contour) : State.FreesPasses i c [] s s :=
  ⟨rfl, rfl, fun _ ⟨_, h, _⟩ => (List.not_mem_nil h).elim, fun _ _ => rfl⟩

theorem foldl_freePass_frees (i : Slot) (c : Contour) (l : List Nat) (s : State) :
    State.FreesPasses i c l s (l.foldl (fun u n => u.freePass i c n) s) := by
  induction l generalizing s with
  | nil => exact freesPasses_nil s i c
  | cons n l ih => exact (freePass_frees s i c n).trans (ih (s.freePass i c n))

end State

/-! ## DELETE_CONTOUR -/

theorem freeFrom_eq (i : Slot) (c : Contour) (k n : Nat) (s : State) :
    freeFrom i c k n s = (List.range' n k).foldl (fun u m => u.freePass i c m) s := by
  induction k generalizing n s with
  | zero => rfl
  | succ k ih => rw [freeFrom, ih, List.range'_succ, List.foldl_cons]

/-- A pass of the plan has its index below the count. -/
theorem Contour.Binds.mem {c : Contour} {i : Slot} {s : State} {n : Nat} {ch : ChainId} (h : c.Binds i s n ch) :
    n ∈ List.range' 0 c.passCount := by
  obtain ⟨q, hq, -⟩ := h
  have := (List.getElem?_eq_some_iff.mp hq).1
  simpa [Contour.passCount] using this

theorem takeDelete_eq {i : Slot} {k : Contour} {s : State} (hk : s.contour i = some k) :
    takeDeleteContour [byte i.val] s =
      if k.state.isActive || s.undeletable i then refuse s .wrongState else done (s.delete i k) := by
  rw [takeDeleteContour, ofLength_one, withSlot_byte, hk]

/-- Settles O27: the freeing of the contour's chains, pass by pass, then the slot emptied and the change reported. -/
theorem deleteContourEmptiesTheSlot : Obligations.DeleteContourEmptiesTheSlot := by
  intro tag i s hq
  refine ⟨fun hn => congrArg _ (State.request_refused hq (by simp) ?_), fun k hk =>
    ⟨fun h => congrArg _ (State.request_refused hq (by simp) ?_), fun ha hc ho hcl hw => ?_⟩⟩
  · show takeDeleteContour [byte i.val] s = _
    rw [takeDeleteContour, ofLength_one, withSlot_byte, hn]
  · refine (takeDelete_eq hk).trans (if_pos ?_)
    rcases h with h | h | h | h <;> simp [h, State.undeletable]
  · have hf := State.foldl_freePass_frees i k (List.range' 0 k.passCount) s
    rw [← freeFrom_eq] at hf
    generalize hw' : freeFrom i k k.passCount 0 s = w at hf
    have hcon : (w.setContour i none).contours = (s.setContour i none).contours := by
      rw [hf.rest]
      rfl
    have hrest : w.setContour i none = (s.withContours (s.setContour i none).contours).withStore
        { s.store with chains := w.store.chains, freeSlots := w.store.freeSlots } := by
      conv_lhs => rw [hf.rest]
      rfl
    have e := State.contourChanged_keeps _ _ hrest i
    have hcs := (w.setContour i none).contourChanged_contours i
    have hst : ((w.setContour i none).contourChanged i).store = w.store := State.contourChanged_store _ i
    have ha : answerTo 0x21 [byte i.val] s = done ((w.setContour i none).contourChanged i) := by
      refine (takeDelete_eq hk).trans ((if_neg (by simp [ha, hc, ho, hcl, State.undeletable])).trans (congrArg done ?_))
      rw [State.delete, hw']
      refine if_neg fun h' => hw ⟨?_, h'.2⟩
      have := h'.1
      rw [e] at this
      exact this
    generalize (w.setContour i none).contourChanged i = u at e hcs hst ha
    have hu (ch : ChainId) : u.chain ch = w.chain ch := by rw [State.chain, hst]; rfl
    refine ⟨u, congrArg _ (State.request_is hq (by simp) ha ?_ ?_ ?_ ?_), ?_, fun j hj => ?_, fun n q hn h hch hb => ?_,
      fun ch hch => ?_, ?_, ?_⟩
    · exact (congrArg State.agenda e :)
    · exact (congrArg (·.link.collecting) e :)
    · exact (congrArg (·.link.replies) e :)
    · exact (congrArg (·.link.sending) e :)
    · rw [State.contour, hcs, hcon]
      exact State.contour_setContour_same s i none
    · rw [State.contour, hcs, hcon]
      exact State.contour_setContour_ne s hj none
    · have hbinds : k.Binds i s n q.chain := ⟨q, hn, rfl, by rw [hch]; exact hb⟩
      exact (hu q.chain).trans (hf.freed q.chain ⟨n, hbinds.mem, hbinds⟩)
    · refine (hu ch).trans (hf.kept ch fun n _ hb => ?_)
      obtain ⟨q, hq, hqc, hbd⟩ := hb
      obtain ⟨h, hh, hbh⟩ := Option.bind_eq_some_iff.mp hbd
      exact hch n q h hq hqc hh hbh
    · rw [State.credit_eq, State.credit_eq, hst]
      exact hf.credit
    · rw [hst]
      exact e

end Sys2Proof.Machine
end

section
/-! SUPPORT. A contour definition survives its travel: the fields that DEFINE_CONTOUR reads from the bytes of a
definition, and the definition as it is taken from them (R4, R180, R181). -/

set_option Elab.async false

namespace Sys2Proof.Machine

/-! ## Values read at the place where their bytes begin -/

theorem u8_drop {p r : Payload} {k v : Nat} (h : p.drop k = byte v :: r) (hv : v < 256) : u8 p k = v := by
  have e : p[k]? = some (byte v) := by rw [← List.head?_drop, h, List.head?_cons]
  rw [u8, List.getD_eq_getElem?_getD, e, Option.getD_some, byte_toNat_of_lt hv]

theorem uN_drop {p r : Payload} {n k v : Nat} (h : p.drop k = leBytes n v ++ r) (hv : v < 256 ^ n) : uN n p k = v := by
  rw [uN, h, List.take_append_of_le_length (by rw [leBytes_length]), List.take_of_length_le (by rw [leBytes_length]),
    leNat_leBytes n v hv]

/-- The rest of a payload, behind a field that begins at an offset. -/
theorem drop_field {p a r : Payload} {k m : Nat} (h : p.drop k = a ++ r) (hm : m = k + a.length) : p.drop m = r := by
  rw [hm, ← List.drop_drop, h, List.drop_left]

theorem chunks_flatMap {α : Type} {f : α → Payload} {n : Nat} (hf : ∀ a, (f a).length = n) (l : List α) (r : Payload) :
    chunks n l.length (l.flatMap f ++ r) = l.map f := by
  induction l with
  | nil => rfl
  | cons a l ih =>
    rw [List.length_cons, chunks, List.flatMap_cons, List.append_assoc, List.take_left' (hf a), List.drop_left' (hf a), ih,
      List.map_cons]

/-! ## Pass records -/

/-- A pass record as it is taken (R4). -/
def PassRec.taken (q : PassRec) : PassRec :=
  { q with feedMax := max 1 (min 2000 q.feedMax), retractStep := min 2000 q.retractStep
           shortLimit := max 1 (min 63 q.shortLimit) }

/-- The values of a pass record fit the bytes in which they travel, its setting index a structural field. -/
def PassRec.Travels (q : PassRec) : Prop :=
  q.setting ≤ 31 ∧ q.vset ≤ 255 ∧ q.gain ≤ 255 ∧ q.feedMax ≤ 65535 ∧ q.retractStep ≤ 65535 ∧ q.shortLimit ≤ 255

theorem passBytes_length (q : PassRec) : (passBytes q).length = 10 := rfl

theorem roleOf_code (r : Role) : roleOf r.code = some r := by cases r <;> rfl

theorem methodOf_code (m : HoldMethod) : methodOf m.code = some m := by cases m <;> rfl

theorem attendanceOf_code (a : Attendance) : attendanceOf a.code = some a := by cases a <;> rfl

theorem passOf_passBytes {q : PassRec} (h : q.Travels) : passOf (passBytes q) = some q.taken := by
  obtain ⟨hs, hv, hg, hf, hr, hl⟩ := h
  have hrole : u8 (passBytes q) 0 = q.role.code := u8_drop rfl (by cases q.role <;> decide)
  have hchain : u8 (passBytes q) 1 = q.chain.val := u8_drop rfl (by have := q.chain.isLt; omega)
  have hsetting : u8 (passBytes q) 2 = q.setting := u8_drop rfl (by omega)
  have hvset : u8 (passBytes q) 3 = q.vset := u8_drop rfl (by omega)
  have hgain : u8 (passBytes q) 4 = q.gain := u8_drop rfl (by omega)
  have hfeed : uN 2 (passBytes q) 5 = q.feedMax := uN_drop (r := leBytes 2 q.retractStep ++ [byte q.shortLimit]) rfl (by omega)
  have hstep : uN 2 (passBytes q) 7 = q.retractStep := uN_drop (r := [byte q.shortLimit]) rfl (by omega)
  have hshort : u8 (passBytes q) 9 = q.shortLimit := u8_drop rfl (by omega)
  have hof : chainOf q.chain.val = some q.chain := dif_pos q.chain.isLt
  simp only [passOf, hrole, hchain, hsetting, hvset, hgain, hfeed, hstep, hshort, roleOf_code, hof, if_pos hs, PassRec.taken,
    clamp, Nat.zero_max]

theorem leBytes_inj {n v w : Nat} (hv : v < 256 ^ n) (hw : w < 256 ^ n) (h : leBytes n v = leBytes n w) : v = w := by
  rw [← leNat_leBytes n v hv, h, leNat_leBytes n w hw]

/-- A pass record is reported as clamped where its taking has changed it. -/
theorem clampedPass_passBytes {q : PassRec} (h : q.Travels) : clampedPass (passBytes q) = decide (q.taken ≠ q) := by
  rw [clampedPass, passOf_passBytes h, Option.map_some]
  refine decide_eq_decide.mpr (not_congr ⟨fun e => ?_, fun e => by rw [e]⟩)
  obtain ⟨-, -, -, hf, hr, hl⟩ := h
  have e := Option.some.inj e
  have hfeed : q.taken.feedMax = q.feedMax := leBytes_inj (n := 2) (by simp only [PassRec.taken]; omega) (by omega)
    (congrArg (fun l : Payload => (l.drop 5).take 2) e)
  have hstep : q.taken.retractStep = q.retractStep := leBytes_inj (n := 2) (by simp only [PassRec.taken]; omega) (by omega)
    (congrArg (fun l : Payload => (l.drop 7).take 2) e)
  have hshort : q.taken.shortLimit = q.shortLimit := leBytes_inj (n := 1) (by simp only [PassRec.taken]; omega) (by omega)
    (congrArg (fun l : Payload => l.drop 9) e)
  have eta : q.taken = { q with feedMax := q.taken.feedMax, retractStep := q.taken.retractStep
                                shortLimit := q.taken.shortLimit } := rfl
  rw [eta, hfeed, hstep, hshort]

/-! ## The fields of a definition -/

/-- The values of a definition fit the bytes in which they travel. -/
structure ContourDef.Travels (d : ContourDef) : Prop where
  x : -2147483648 ≤ d.centre.x ∧ d.centre.x ≤ 2147483647
  y : -2147483648 ≤ d.centre.y ∧ d.centre.y ≤ 2147483647
  diameter : d.diameter < 65536
  bridge : ∀ b, d.bridge = some b → b.holdBack < 4294967296
  engage : ∀ e, d.engage = some e → e < 65536
  tacks : ∀ ts, d.tacks = some ts → ts.length < 256 ∧ ∀ t ∈ ts, t.start < 4294967296 ∧ t.length < 65536
  passes : d.passes.length < 256

namespace ContourDef

def presence (d : ContourDef) : Nat :=
  (if d.bridge.isSome then 1 else 0) + (if d.engage.isSome then 2 else 0) + (if d.tacks.isSome then 4 else 0)

def headBytes (i : Slot) (d : ContourDef) : List Byte :=
  [byte i.val] ++ pointBytes d.centre ++ leBytes 2 d.diameter ++ [boolByte d.inGap, byte d.method.code, byte d.presence]

def bridgeBytes (d : ContourDef) : List Byte :=
  match d.bridge with
  | some b => leBytes 4 b.holdBack ++ [byte b.attendance.code]
  | none => []

def engageBytes (d : ContourDef) : List Byte :=
  match d.engage with
  | some e => leBytes 2 e
  | none => []

def spanBytes (t : Span) : List Byte := leBytes 4 t.start ++ leBytes 2 t.length

def tackBytes (d : ContourDef) : List Byte :=
  match d.tacks with
  | some ts => byte ts.length :: ts.flatMap spanBytes
  | none => []

/-- The fields that a definition gives before any check. -/
def raw (i : Slot) (d : ContourDef) : RawContour where
  slot := i.val
  centre := d.centre
  diameter := d.diameter
  inGap := if d.inGap then 1 else 0
  method := d.method.code
  presence := d.presence
  bridge := d.bridge.map fun b => (b.holdBack, b.attendance.code)
  engage := d.engage
  tacks := d.tacks
  passes := d.passes.map passBytes

theorem presence_bits (d : ContourDef) : d.presence < 8 ∧ d.presence.testBit 0 = d.bridge.isSome ∧
    d.presence.testBit 1 = d.engage.isSome ∧ d.presence.testBit 2 = d.tacks.isSome := by
  rw [presence]
  cases d.bridge.isSome <;> cases d.engage.isSome <;> cases d.tacks.isSome <;> decide

theorem defnBytes_eq (i : Slot) (d : ContourDef) : defnBytes i d =
    d.headBytes i ++ (d.bridgeBytes ++ (d.engageBytes ++ (d.tackBytes ++ passesBytes d.passes))) := by
  simp only [← List.append_assoc]
  rfl

theorem passesBytes_length (ps : List PassRec) : (passesBytes ps).length = 1 + 10 * ps.length := by
  simp [passesBytes, List.length_flatMap, passBytes_length]
  omega

theorem headBytes_length (i : Slot) (d : ContourDef) : (d.headBytes i).length = 14 := by
  simp [headBytes, pointBytes_len, leBytes_length]

theorem bridgeBytes_length (d : ContourDef) : d.bridgeBytes.length = if d.bridge.isSome then 5 else 0 := by
  rw [bridgeBytes]
  cases d.bridge <;> rfl

theorem engageBytes_length (d : ContourDef) : d.engageBytes.length = if d.engage.isSome then 2 else 0 := by
  rw [engageBytes]
  cases d.engage <;> rfl

theorem bridge_read {d : ContourDef} {p r : Payload} {k : Nat} (h : d.Travels) (hp : p.drop k = d.bridgeBytes ++ r) :
    (if d.bridge.isSome then some (uN 4 p k, u8 p (k + 4)) else none) =
      d.bridge.map fun b => (b.holdBack, b.attendance.code) := by
  cases hb : d.bridge with
  | none => rfl
  | some b =>
    rw [bridgeBytes, hb] at hp
    have hh : uN 4 p k = b.holdBack := uN_drop (r := byte b.attendance.code :: r) hp (h.bridge b hb)
    have ha : u8 p (k + 4) = b.attendance.code :=
      u8_drop (drop_field (a := leBytes 4 b.holdBack) hp rfl) (by cases b.attendance <;> decide)
    simp [hh, ha]

theorem engage_read {d : ContourDef} {p r : Payload} {k : Nat} (h : d.Travels) (hp : p.drop k = d.engageBytes ++ r) :
    (if d.engage.isSome then some (uN 2 p k) else none) = d.engage := by
  cases he : d.engage with
  | none => rfl
  | some e =>
    rw [engageBytes, he] at hp
    simp [uN_drop hp (h.engage e he)]

theorem spanBytes_length (t : Span) : (spanBytes t).length = 6 := rfl

theorem span_read {t : Span} (h : t.start < 4294967296 ∧ t.length < 65536) :
    (⟨uN 4 (spanBytes t) 0, uN 2 (spanBytes t) 4⟩ : Span) = t := by
  have hs : uN 4 (spanBytes t) 0 = t.start := uN_drop (r := leBytes 2 t.length) rfl h.1
  have hl : uN 2 (spanBytes t) 4 = t.length := uN_drop (r := []) rfl h.2
  rw [hs, hl]

/-- The tack spans are read, and the pass plan stands behind them. -/
theorem tacks_read {d : ContourDef} {p r : Payload} {k : Nat} (h : d.Travels) (hp : p.drop k = d.tackBytes ++ r) :
    p.drop (k + if d.tacks.isSome then 1 + 6 * u8 p k else 0) = r ∧
    (if d.tacks.isSome then some ((chunks 6 (u8 p k) (p.drop (k + 1))).map fun q => (⟨uN 4 q 0, uN 2 q 4⟩ : Span))
      else none) = d.tacks := by
  cases ht : d.tacks with
  | none =>
    rw [tackBytes, ht] at hp
    exact ⟨hp, rfl⟩
  | some ts =>
    obtain ⟨hlen, hspan⟩ := h.tacks ts ht
    rw [tackBytes, ht] at hp
    have hn : u8 p k = ts.length := u8_drop hp hlen
    have hspans : p.drop (k + 1) = ts.flatMap spanBytes ++ r := drop_field (a := [byte ts.length]) hp rfl
    have hread : (ts.map spanBytes).map (fun q => (⟨uN 4 q 0, uN 2 q 4⟩ : Span)) = ts := by
      rw [List.map_map]
      exact (List.map_congr_left fun t hmem => span_read (hspan t hmem)).trans (List.map_id ts)
    simp only [Option.isSome_some, if_true, hn, hspans, chunks_flatMap spanBytes_length, hread, and_true]
    refine drop_field hspans ?_
    simp [List.length_flatMap, spanBytes_length]
    omega

/-- The fields of a definition are read back from its bytes. -/
theorem rawContour_defnBytes {d : ContourDef} (i : Slot) (h : d.Travels) :
    rawContour (defnBytes i d) = some (d.raw i) := by
  obtain ⟨hpres, hb0, hb1, hb2⟩ := d.presence_bits
  generalize hp : defnBytes i d = p
  have h0 := hp.symm.trans (defnBytes_eq i d)
  have hslot : u8 p 0 = i.val := u8_drop h0 (slot_lt i)
  have hcentre : pointAt p 1 = d.centre := by
    rw [h0]
    exact pointAt_at d.centre h.x.1 h.x.2 h.y.1 h.y.2 [byte i.val] _
  have h9 : p.drop 9 = leBytes 2 d.diameter ++ (boolByte d.inGap :: byte d.method.code :: byte d.presence ::
      (d.bridgeBytes ++ (d.engageBytes ++ (d.tackBytes ++ passesBytes d.passes)))) :=
    drop_field (k := 0) (a := byte i.val :: pointBytes d.centre) (by rw [List.drop_zero, h0]; simp [headBytes])
      (by rw [List.length_cons, pointBytes_len])
  have hdiameter : uN 2 p 9 = d.diameter := uN_drop h9 h.diameter
  have h11 := drop_field h9 (m := 11) rfl
  have hinGap : u8 p 11 = if d.inGap then 1 else 0 := by
    rw [show boolByte d.inGap = byte (if d.inGap then 1 else 0) from by cases d.inGap <;> rfl] at h11
    exact u8_drop h11 (by split <;> decide)
  have h12 := drop_field (a := [_]) h11 (m := 12) rfl
  have hmethod : u8 p 12 = d.method.code := u8_drop h12 (by cases d.method <;> decide)
  have h13 := drop_field (a := [_]) h12 (m := 13) rfl
  have hpresence : u8 p 13 = d.presence := u8_drop h13 (by omega)
  have h14 : p.drop 14 = d.bridgeBytes ++ (d.engageBytes ++ (d.tackBytes ++ passesBytes d.passes)) :=
    drop_field (a := [_]) h13 rfl
  have hbridge := bridge_read h h14
  have hE : p.drop (14 + if d.bridge.isSome then 5 else 0) = d.engageBytes ++ (d.tackBytes ++ passesBytes d.passes) :=
    drop_field h14 (by rw [bridgeBytes_length])
  have hengage := engage_read h hE
  have hT : p.drop (14 + (if d.bridge.isSome then 5 else 0) + if d.engage.isSome then 2 else 0) =
    d.tackBytes ++ passesBytes d.passes := drop_field hE (by rw [engageBytes_length])
  obtain ⟨hP, htacks⟩ := tacks_read h hT
  simp only [rawContour, hslot, hcentre, hdiameter, hinGap, hmethod, hpresence, hb0, hb1, hb2, hbridge, hengage, htacks]
  generalize (14 + (if d.bridge.isSome then 5 else 0) + (if d.engage.isSome then 2 else 0) +
    if d.tacks.isSome then 1 + 6 * u8 p _ else 0) = k at hP
  have hn : u8 p k = d.passes.length := u8_drop hP h.passes
  have hpasses : p.drop (k + 1) = d.passes.flatMap passBytes := drop_field (a := [_]) (r := d.passes.flatMap passBytes) hP rfl
  have hchunks := chunks_flatMap passBytes_length d.passes []
  have hk := congrArg List.length hP
  have h14l := congrArg List.length h14
  rw [List.length_drop, passesBytes_length] at hk
  rw [List.append_nil, ← hpasses] at hchunks
  simp only [List.length_drop, List.length_append, passesBytes_length] at h14l
  rw [if_neg (by omega), hn, if_pos (by omega), hchunks]
  rfl

end ContourDef

end Sys2Proof.Machine
end

section
/-! DEFINE_CONTOUR (R13 to R16): its checks in their order, and the record and the bindings that it writes. -/

set_option Elab.async false

namespace Sys2Proof.Machine

/-! ## The definition as it is taken -/

/-- Step 3 of R14, field by field. -/
theorem RawContour.rangesOk_iff (q : RawContour) : q.rangesOk = true ↔
    (300 ≤ q.diameter ∧ q.diameter ≤ 50000) ∧ q.inGap ≤ 1 ∧ (methodOf q.method).isSome = true ∧ q.presence < 8 ∧
    (∀ b, q.bridge = some b → (1 ≤ b.1 ∧ b.1 ≤ 100000) ∧ (attendanceOf b.2).isSome = true) ∧
    (∀ e, q.engage = some e → e ≤ 50000) ∧
    (∀ ts, q.tacks = some ts → ts.length ≤ 4 ∧ ∀ t ∈ ts, spanOk t = true) ∧
    (1 ≤ q.passes.length ∧ q.passes.length ≤ 8) ∧ ∀ p ∈ q.passes, (passOf p).isSome = true := by
  obtain ⟨slot, centre, diameter, inGap, method, presence, bridge, engage, tacks, passes⟩ := q
  simp only [RawContour.rangesOk, Bool.and_eq_true, decide_eq_true_eq, List.all_eq_true, and_assoc]
  cases bridge <;> cases engage <;> cases tacks <;> simp [and_assoc]

namespace ContourDef

theorem taken_eq (d : ContourDef) : d.taken = { d with passes := d.passes.map PassRec.taken } := rfl

theorem InRange.travels {d : ContourDef} (h : d.InRange) (hlen : d.passes.length < 256) : d.Travels := by
  obtain ⟨⟨hx, hy⟩, hd, hb, he, ht, -⟩ := h
  refine ⟨⟨by omega, by omega⟩, ⟨by omega, by omega⟩, by omega, fun b h => ?_, fun e h => ?_, fun ts h => ?_, hlen⟩
  · have := hb b h; omega
  · have := he e h; omega
  · obtain ⟨hn, -, hs⟩ := ht ts h
    exact ⟨by omega, fun t hm => by have := hs t hm; omega⟩

theorem InRange.passes {d : ContourDef} (h : d.InRange) : ∀ q ∈ d.passes, q.Travels := by
  obtain ⟨-, -, -, -, -, hp⟩ := h
  exact hp

theorem passes_map_passOf {d : ContourDef} (h : d.InRange) :
    (d.passes.map passBytes).map passOf = d.passes.map fun q => some q.taken := by
  rw [List.map_map]
  exact List.map_congr_left fun q hq => passOf_passBytes (h.passes q hq)

theorem fieldsOk_taken (d : ContourDef) : d.taken.fieldsOk = d.fieldsOk := rfl

theorem planOk_taken (d : ContourDef) : d.taken.planOk = d.planOk := by
  have hr : d.taken.passes.map (·.role) = d.passes.map (·.role) := by simp [taken]
  have hc : d.taken.passes.map (·.chain) = d.passes.map (·.chain) := by simp [taken]
  simp only [planOk, hr, hc]
  rfl

theorem reserve_taken (d : ContourDef) (n : Nat) : d.taken.reserve n = d.reserve n := by
  have hb : d.taken.holdBack n = d.holdBack n := by
    simp only [holdBack, taken, List.getElem?_map]
    cases d.bridge <;> cases d.passes[n]? <;> rfl
  have hc : d.taken.closingPass = d.closingPass := by simp [closingPass, taken]
  rw [reserve, reserve, hb, hc]
  rfl

/-- The fields of a definition in range meet step 3 of R14, where the number of passes does. -/
theorem rangesOk_raw {d : ContourDef} (i : Slot) (h : d.InRange) :
    (d.raw i).rangesOk = decide (1 ≤ d.passes.length ∧ d.passes.length ≤ 8) := by
  have hpass : ∀ p ∈ (d.raw i).passes, (passOf p).isSome = true := by
    simp only [raw, List.forall_mem_map]
    exact fun q hq => by rw [passOf_passBytes (h.passes q hq)]; rfl
  have hgap : (d.raw i).inGap ≤ 1 := by
    simp only [raw]
    split <;> decide
  have hmethod : (methodOf (d.raw i).method).isSome = true := by rw [raw, methodOf_code]; rfl
  have hlen : (d.raw i).passes.length = d.passes.length := List.length_map ..
  obtain ⟨-, hd, hb, he, ht, -⟩ := h
  rw [Bool.eq_iff_iff, RawContour.rangesOk_iff, decide_eq_true_eq, hlen]
  refine ⟨fun ⟨_, _, _, _, _, _, _, h, _⟩ => h, fun h => ⟨hd, hgap, hmethod, d.presence_bits.1, fun b hbr => ?_, he,
    fun ts hts => ?_, h, hpass⟩⟩
  · obtain ⟨b, hb', rfl⟩ := Option.map_eq_some_iff.mp hbr
    exact ⟨hb b hb', by rw [attendanceOf_code]; rfl⟩
  · obtain ⟨hn, -, hs⟩ := ht ts hts
    exact ⟨hn, fun t hm => decide_eq_true (hs t hm)⟩

theorem rangesOk_diameter {d : ContourDef} (i : Slot) (h : d.diameter < 300 ∨ 50000 < d.diameter) :
    (d.raw i).rangesOk = false := by
  have hd : ¬ (300 ≤ (d.raw i).diameter ∧ (d.raw i).diameter ≤ 50000) := by
    simp only [raw]
    omega
  simp only [RawContour.rangesOk, decide_eq_false hd, Bool.false_and]

end ContourDef

theorem insertSpan_first {t : Span} {ts : List Span} (h : ∀ u ∈ ts, t.start ≤ u.start) : insertSpan t ts = t :: ts := by
  cases ts with
  | nil => rfl
  | cons u us => exact if_neg (Nat.not_lt.mpr (h u List.mem_cons_self))

/-- Spans already in order are left as they stand. -/
theorem sortSpans_sorted {ts : List Span} (h : ts.Pairwise fun a b => a.start ≤ b.start) : sortSpans ts = ts := by
  induction h with
  | nil => rfl
  | cons ht _ ih => rw [sortSpans, List.foldr_cons, ← sortSpans, ih, insertSpan_first ht]

theorem allSome_map {α β : Type} (f : α → β) (l : List α) : allSome (l.map fun a => some (f a)) = some (l.map f) := by
  induction l with
  | nil => rfl
  | cons a l ih => rw [List.map_cons, allSome, ih]; rfl

namespace ContourDef

theorem defn_raw {d : ContourDef} (i : Slot) (h : d.InRange) : (d.raw i).defn = some d.taken := by
  have hgap : decide ((d.raw i).inGap = 1) = d.inGap := by rw [raw]; cases d.inGap <;> rfl
  have hbridge : ((d.raw i).bridge.bind fun b => (attendanceOf b.2).map fun a => (⟨b.1, a⟩ : Bridge)) = d.bridge := by
    simp only [raw]
    cases d.bridge <;> simp [attendanceOf_code]
  have htacks : (d.raw i).tacks.map sortSpans = d.tacks := by
    obtain ⟨-, -, -, -, ht, -⟩ := h
    simp only [raw]
    cases h : d.tacks with
    | none => rfl
    | some ts => rw [Option.map_some, sortSpans_sorted (ht ts h).2.1]
  have hmethod : methodOf (d.raw i).method = some d.method := methodOf_code d.method
  have hpasses : allSome ((d.raw i).passes.map passOf) = some (d.passes.map PassRec.taken) := by
    simp only [raw, passes_map_passOf h, allSome_map]
  simp only [RawContour.defn, hmethod, hpasses, hgap, hbridge, htacks]
  rfl

/-- A definition is reported as clamped where its taking has changed it. -/
theorem any_clampedPass {d : ContourDef} (i : Slot) (h : d.InRange) :
    (d.raw i).passes.any clampedPass = decide (d.taken ≠ d) := by
  have he : d.taken = d ↔ ∀ q ∈ d.passes, q.taken = q := by
    rw [taken_eq]
    refine ⟨fun e q hq => ?_, fun e => ?_⟩
    · have hm : d.passes.map PassRec.taken = d.passes.map id := by
        rw [List.map_id]
        exact congrArg ContourDef.passes e
      exact List.map_inj_left.mp hm q hq
    · rw [(List.map_congr_left e).trans (List.map_id d.passes)]
  rw [Bool.eq_iff_iff, List.any_eq_true, decide_eq_true_eq, Ne, he]
  simp only [raw, List.mem_map, not_forall, exists_prop]
  constructor
  · rintro ⟨-, ⟨q, hq, rfl⟩, hc⟩
    exact ⟨q, hq, by simpa [clampedPass_passBytes (h.passes q hq)] using hc⟩
  · rintro ⟨q, hq, hc⟩
    exact ⟨_, ⟨q, hq, rfl⟩, by simpa [clampedPass_passBytes (h.passes q hq)] using hc⟩

theorem planOk_length {d : ContourDef} (h : d.planOk = true) : 1 ≤ d.passes.length ∧ d.passes.length ≤ 8 := by
  simp only [planOk, Bool.and_eq_true, decide_eq_true_eq, List.length_map] at h
  exact h.1.1.1.1.1.1

theorem planOk_nodup {d : ContourDef} (h : d.planOk = true) : (d.passes.map (·.chain)).Nodup := by
  simp only [planOk, Bool.and_eq_true, decide_eq_true_eq] at h
  exact h.2

end ContourDef

/-! ## The checks of the passes (R15) -/

/-- The pass record of an index, and no other, is checked with that index. -/
theorem firstFault_eq_none {f : Nat → PassRec → Option Status} {n : Nat} {ps : List PassRec}
    (h : ∀ m p, ps[m]? = some p → f (n + m) p = none) : firstFault f n ps = none := by
  induction ps generalizing n with
  | nil => rfl
  | cons p ps ih =>
    have hp : f n p = none := h 0 p rfl
    rw [firstFault, hp]
    refine ih fun m q hq => ?_
    rw [Nat.add_assoc, Nat.add_comm 1 m]
    exact h (m + 1) q hq

/-- The first pass that fails a check gives the status and the index. -/
theorem firstFault_eq_some {f : Nat → PassRec → Option Status} {n k : Nat} {ps : List PassRec} {q : PassRec} {st : Status}
    (h : ∀ m < k, ∀ p, ps[m]? = some p → f (n + m) p = none) (hq : ps[k]? = some q) (hf : f (n + k) q = some st) :
    firstFault f n ps = some (st, n + k) := by
  induction ps generalizing n k with
  | nil => cases hq
  | cons p ps ih =>
    cases k with
    | zero =>
      obtain rfl : p = q := Option.some.inj hq
      rw [firstFault, show f n p = some st from hf]
      rfl
    | succ k =>
      have hp : f n p = none := h 0 (Nat.succ_pos k) p rfl
      rw [firstFault, hp]
      refine (ih (fun m hm r hr => ?_) hq ?_).trans ?_
      · rw [Nat.add_assoc, Nat.add_comm 1 m]
        exact h (m + 1) (Nat.succ_lt_succ hm) r hr
      · rw [Nat.add_assoc, Nat.add_comm 1 k]
        exact hf
      · rw [Nat.add_assoc, Nat.add_comm 1 k]

theorem firstFault_map (f : Nat → PassRec → Option Status) (g : PassRec → PassRec) (n : Nat) (ps : List PassRec) :
    firstFault f n (ps.map g) = firstFault (fun m p => f m (g p)) n ps := by
  induction ps generalizing n with
  | nil => rfl
  | cons p ps ih => rw [List.map_cons, firstFault, firstFault, ih]

/-- The checks of R15 do not read the fields that are clamped. -/
theorem passFault_taken (s : State) (d : ContourDef) : passFault s d.taken = passFault s d := by
  have hl : lengthFault s d.taken = lengthFault s d := by
    funext n p
    simp only [lengthFault, d.reserve_taken]
  have hp : d.taken.passes = d.passes.map PassRec.taken := rfl
  rw [passFault, passFault, hl, hp]
  simp only [firstFault_map]
  rfl

theorem chainFault_none {s : State} {q : PassRec} :
    chainFault s q = none ↔ ∃ k, s.chain q.chain = some k ∧ k.state ≠ .corrupt ∧ k.binding = none := by
  rw [chainFault]
  cases s.chain q.chain with
  | none => simp
  | some k => by_cases hc : k.state = .corrupt <;> cases hb : k.binding <;> simp [hc, hb]

theorem chainFault_notFound {s : State} {q : PassRec}
    (h : s.chain q.chain = none ∨ ∃ k, s.chain q.chain = some k ∧ k.state = .corrupt) : chainFault s q = some .notFound := by
  rw [chainFault]
  rcases h with h | ⟨k, h, hc⟩
  · rw [h]
  · simp [h, hc]

theorem chainFault_inUse {s : State} {q : PassRec} {k : Chain} (h : s.chain q.chain = some k) (hc : k.state ≠ .corrupt)
    (hb : k.binding ≠ none) : chainFault s q = some .inUse := by
  simp [chainFault, h, hc, Option.isSome_iff_ne_none.mpr hb]

theorem startFault_cases (s : State) (d : ContourDef) (n : Nat) (q : PassRec) :
    (startFault s d n q = none ∧ (n = 0 ∨ q.role = .sever →
      ∀ k, s.chain q.chain = some k → within 2 k.start d.centre = true)) ∨
    (startFault s d n q = some .geometry ∧ ¬ (n = 0 ∨ q.role = .sever →
      ∀ k, s.chain q.chain = some k → within 2 k.start d.centre = true)) := by
  rw [startFault]
  cases s.chain q.chain with
  | none => simp
  | some k =>
    by_cases h : (n = 0 ∨ q.role = .sever) ∧ within 2 k.start d.centre = false
    · simp [h]
    · refine .inl ⟨if_neg h, fun hr k' hk => ?_⟩
      obtain rfl := Option.some.inj hk
      simpa [hr] using h

theorem lengthFault_cases (s : State) (d : ContourDef) (n : Nat) (q : PassRec) :
    (lengthFault s d n q = none ∧ ∀ k, s.chain q.chain = some k → k.state = .closed → d.reserve n < k.loaded) ∨
    (lengthFault s d n q = some .badValue ∧
      ¬ ∀ k, s.chain q.chain = some k → k.state = .closed → d.reserve n < k.loaded) := by
  rw [lengthFault]
  cases s.chain q.chain with
  | none => simp
  | some k =>
    by_cases h : k.state = .closed ∧ k.loaded ≤ d.reserve n
    · simp [h]
    · refine .inl ⟨if_neg h, fun k' hk hc => ?_⟩
      obtain rfl := Option.some.inj hk
      exact Nat.lt_of_not_le fun hl => h ⟨hc, hl⟩

/-! ## The answer to a definition -/

/-- The start hole lies in an enabled keep-out rectangle. -/
theorem pointKeptOut_iff (t : Store) (p : Point) : t.pointKeptOut p = true ↔
    ∃ n : Fin 4, t.keepOuts[n].enabled = true ∧ t.keepOuts[n].rect.holds p = true := by
  simp only [Store.pointKeptOut, Store.enabledKeepOuts, List.any_map, List.any_eq_true, List.mem_filter, Vector.mem_toList_iff,
    Function.comp_apply]
  constructor
  · rintro ⟨k, ⟨hk, he⟩, hr⟩
    obtain ⟨n, hn, rfl⟩ := Vector.getElem_of_mem hk
    exact ⟨⟨n, hn⟩, he, hr⟩
  · rintro ⟨n, he, hr⟩
    exact ⟨_, ⟨Vector.getElem_mem n.isLt, he⟩, hr⟩

theorem withSlot_defnBytes (i : Slot) (d : ContourDef) (s : State) (f : Slot → State → Answer) :
    withSlot (defnBytes i d) s f = f i s := by
  rw [show defnBytes i d = byte i.val :: (defnBytes i d).drop 1 from rfl]
  exact withSlot_byte i _ s f

theorem takeDefine_occupied {i : Slot} {d : ContourDef} {s : State} (h : d.Travels) (hs : s.contour i ≠ none) :
    takeDefineContour (defnBytes i d) s = refuse s .wrongState := by
  rw [takeDefineContour, ContourDef.rawContour_defnBytes i h]
  exact (withSlot_defnBytes i d s _).trans (if_pos (Option.isSome_iff_ne_none.mpr hs))

theorem takeDefine_range {i : Slot} {d : ContourDef} {s : State} (h : d.Travels) (hs : s.contour i = none)
    (hr : (d.raw i).rangesOk = false) : takeDefineContour (defnBytes i d) s = refuse s .badValue := by
  rw [takeDefineContour, ContourDef.rawContour_defnBytes i h]
  refine (withSlot_defnBytes i d s _).trans ?_
  rw [hs, hr]
  rfl

/-- The answer for an EMPTY slot, the numbers of the definition in range: the fields and the plan, the start hole, the
passes, and the definition taken. -/
theorem takeDefine_eq {i : Slot} {d : ContourDef} {s : State} (h : d.InRange) (hlen : d.passes.length < 256)
    (hs : s.contour i = none) : takeDefineContour (defnBytes i d) s =
      if !d.fieldsOk || !d.planOk then refuse s .badValue
      else if !s.store.window.holds d.centre then refuse s .window
      else if s.store.pointKeptOut d.centre then refuse s .keepOut
      else match passFault s d with
        | some (st, n) => refuseAt s st n
        | none => defined (s.define i d.taken) i d.taken (decide (d.taken ≠ d)) := by
  by_cases hr : (d.raw i).rangesOk = true
  · rw [takeDefineContour, ContourDef.rawContour_defnBytes i (h.travels hlen)]
    refine (withSlot_defnBytes i d s _).trans ?_
    simp only [hs, hr, Option.isSome_none, Bool.false_eq_true, if_false, Bool.not_true, ContourDef.defn_raw i h,
      d.fieldsOk_taken, d.planOk_taken, passFault_taken, ContourDef.any_clampedPass i h]
    rfl
  · have hp : d.planOk = false := Bool.eq_false_iff.mpr fun hp => hr (by
      rw [ContourDef.rangesOk_raw i h]
      exact decide_eq_true (ContourDef.planOk_length hp))
    rw [takeDefine_range (h.travels hlen) hs (Bool.eq_false_iff.mpr hr), hp]
    simp

/-! ## The bindings written (R13) -/

/-- What binding the chains of a plan, no chain named twice, leaves. -/
structure State.Binds (i : Slot) (n : Nat) (ps : List PassRec) (s t : State) : Prop where
  rest : t = s.withStore { s.store with chains := t.store.chains }
  bound : ∀ m q, ps[m]? = some q → t.chain q.chain = (s.chain q.chain).map fun k => { k with binding := some (i, n + m) }
  kept : ∀ ch, (∀ q ∈ ps, q.chain ≠ ch) → t.chain ch = s.chain ch

theorem bindFrom_binds (i : Slot) (n : Nat) {ps : List PassRec} (h : (ps.map (·.chain)).Nodup) (s : State) :
    State.Binds i n ps s (bindFrom i n ps s) := by
  induction ps generalizing n s with
  | nil => exact ⟨rfl, nofun, fun _ _ => rfl⟩
  | cons p ps ih =>
    obtain ⟨hp, hps⟩ := List.nodup_cons.mp h
    have hne (q : PassRec) (hq : q ∈ ps) : q.chain ≠ p.chain := fun e => hp (List.mem_map.mpr ⟨q, hq, e⟩)
    have hb := ih (n + 1) hps (s.onChain p.chain fun k => { k with binding := some (i, n) })
    refine ⟨?_, fun m q hq => ?_, fun ch hch => ?_⟩
    · rw [bindFrom]
      conv_lhs => rw [hb.rest]
      rfl
    · cases m with
      | zero =>
        obtain rfl : p = q := Option.some.inj hq
        exact (hb.kept p.chain hne).trans (State.chain_onChain_same s p.chain _)
      | succ m =>
        have hq' : ps[m]? = some q := hq
        have := hb.bound m q hq'
        rwa [State.chain_onChain_ne s (hne q (List.mem_of_getElem? hq')), Nat.add_assoc, Nat.add_comm 1 m] at this
    · exact (hb.kept ch fun q hq => hch q (List.mem_cons_of_mem p hq)).trans
        (State.chain_onChain_ne s (hch p List.mem_cons_self).symm _)

/-! ## The obligation -/

/-- A refusal of a definition, with what follows the count. -/
theorem define_refuses {tag : Byte} {i : Slot} {d : ContourDef} {s : State} {a : Answer} (hq : s.Quiet)
    (hw : (Instr.defineContour tag (defnBytes i d)).wf = true) (ha : takeDefineContour (defnBytes i d) s = a)
    (hs : a.state = s) : exec (.defineContour tag (defnBytes i d)) s =
      .next (s.replied 0x20 tag a.status (a.extra s)) := by
  have hlen : (defnBytes i d).length ≤ 250 := of_decide_eq_true hw
  have e := State.request_is (kind := 0x20) (tag := tag) hq hlen ha (by rw [hs]) (by rw [hs]) (by rw [hs]) (by rw [hs])
  rw [hs] at e
  exact congrArg _ e

theorem passes_short {i : Slot} {d : ContourDef} (h : (defnBytes i d).length ≤ 250) : d.passes.length < 256 := by
  simp only [ContourDef.defnBytes_eq, List.length_append, ContourDef.passesBytes_length] at h
  omega

theorem definitionRefused {tag : Byte} {i : Slot} {d : ContourDef} {s : State} (hq : s.Quiet) (hr : d.InRange)
    (hw : (Instr.defineContour tag (defnBytes i d)).wf = true) (hs : s.contour i = none) : DefinitionRefused tag i d s := by
  have hlen := passes_short (of_decide_eq_true hw)
  have htake := takeDefine_eq (i := i) hr hlen hs
  have ha {a : Answer} (h : _ = a) (hsame : a.state = s) := define_refuses hq hw (htake.trans h) hsame
  refine ⟨fun x hx hout => ?_, fun h => ?_, fun hf hp => ⟨fun hwin => ?_, fun hwin hk => ?_, fun hwin hk n q hn => ?_⟩⟩
  · have hw' : (Instr.defineContour tag (defnBytes i { d with diameter := x })).wf = true := by
      rw [← hw]
      simp [Instr.wf, Payload.fits, defnBytes, leBytes_length]
    have ht : ({ d with diameter := x } : ContourDef).Travels := { hr.travels hlen with diameter := hx }
    exact define_refuses (a := refuse s .badValue) hq hw'
      (takeDefine_range ht hs (ContourDef.rangesOk_diameter i hout)) rfl
  · exact ha (a := refuse s .badValue) (if_pos (by rcases h with h | h <;> simp [h])) rfl
  · have hok : ¬ (!d.fieldsOk || !d.planOk) = true := by simp [hf, hp]
    exact ha (a := refuse s .window) ((if_neg hok).trans (if_pos (by simp [hwin]))) rfl
  · have hok : ¬ (!d.fieldsOk || !d.planOk) = true := by simp [hf, hp]
    exact ha (a := refuse s .keepOut) ((if_neg hok).trans ((if_neg (by simp [hwin])).trans
      (if_pos ((pointKeptOut_iff _ _).mpr hk)))) rfl
  · have hok : ¬ (!d.fieldsOk || !d.planOk) = true := by simp [hf, hp]
    have hpass {st : Status} (h : passFault s d = some (st, n)) := ha (a := refuseAt s st n) ((if_neg hok).trans
      ((if_neg (by simp [hwin])).trans ((if_neg (mt (pointKeptOut_iff _ _).mp hk)).trans (by rw [h])))) rfl
    have hzero (f : Nat → PassRec → Option Status) (m : Nat) (p : PassRec) (h : f m p = none) : f (0 + m) p = none := by
      rwa [Nat.zero_add]
    have hchain (st : Status) (hav : ∀ m < n, ∀ p : PassRec, d.passes[m]? = some p → ∃ k, s.chain p.chain = some k ∧
        k.state ≠ .corrupt ∧ k.binding = none) (h : chainFault s q = some st) : passFault s d = some (st, n) := by
      rw [passFault, firstFault_eq_some (fun m hm p hp => chainFault_none.mpr (hav m hm p hp)) hn h, Nat.zero_add]
      rfl
    refine ⟨fun hav => ⟨fun h => hpass (hchain _ hav (chainFault_notFound h)),
      fun k hk hc hb => hpass (hchain _ hav (chainFault_inUse hk hc hb))⟩, fun hav => ?_⟩
    have hnone : firstFault (fun _ p => chainFault s p) 0 d.passes = none :=
      firstFault_eq_none fun m p hp => chainFault_none.mpr (hav m p hp)
    refine ⟨fun hb hst => hpass ?_, fun hst hb hl => hpass ?_⟩
    · have hf := (startFault_cases s d n q).resolve_left fun h => hst h.2
      rw [passFault, hnone, firstFault_eq_some (fun m hm p hp => hzero _ m p
        ((startFault_cases s d m p).resolve_right fun h => h.2 (hb m hm p hp)).1) hn (by rw [Nat.zero_add]; exact hf.1),
        Nat.zero_add]
      rfl
    · have hf := (lengthFault_cases s d n q).resolve_left fun h => hl h.2
      have hstart : firstFault (startFault s d) 0 d.passes = none := firstFault_eq_none fun m p hp => hzero _ m p
        ((startFault_cases s d m p).resolve_right fun h => h.2 (hst m p hp)).1
      rw [passFault, hnone, hstart, firstFault_eq_some (fun m hm p hp => hzero _ m p
        ((lengthFault_cases s d m p).resolve_right fun h => h.2 (hb m hm p hp)).1) hn (by rw [Nat.zero_add]; exact hf.1),
        Nat.zero_add]
      rfl

/-- A definition that the store accepts is taken. -/
theorem takeDefine_accepted {i : Slot} {d : ContourDef} {s : State} (h : d.InRange) (hlen : d.passes.length < 256)
    (hs : s.contour i = none) (hf : d.fieldsOk = true) (hp : d.planOk = true) (ha : StoreAccepts s d) :
    takeDefineContour (defnBytes i d) s = defined (s.define i d.taken) i d.taken (decide (d.taken ≠ d)) := by
  obtain ⟨hwin, hkeep, hpass⟩ := ha
  have hout : ¬ s.store.pointKeptOut d.centre = true := by
    rw [pointKeptOut_iff]
    rintro ⟨n, he, hr⟩
    rw [hkeep n he] at hr
    cases hr
  have hfault : passFault s d = none := by
    have hc : firstFault (fun _ p => chainFault s p) 0 d.passes = none := firstFault_eq_none fun m p hp => by
      obtain ⟨k, hk, hcor, hb, -⟩ := hpass m p hp
      exact chainFault_none.mpr ⟨k, hk, hcor, hb⟩
    have hst : firstFault (startFault s d) 0 d.passes = none := firstFault_eq_none fun m p hp => by
      obtain ⟨k, hk, -, -, hst, -⟩ := hpass m p hp
      rw [Nat.zero_add]
      exact ((startFault_cases s d m p).resolve_right fun h => h.2 fun hn k' hk' =>
        Option.some.inj (hk.symm.trans hk') ▸ hst hn).1
    have hl : firstFault (lengthFault s d) 0 d.passes = none := firstFault_eq_none fun m p hp => by
      obtain ⟨k, hk, -, -, -, hl⟩ := hpass m p hp
      rw [Nat.zero_add]
      exact ((lengthFault_cases s d m p).resolve_right fun h => h.2 fun k' hk' hc =>
        Option.some.inj (hk.symm.trans hk') ▸ hl (Option.some.inj (hk.symm.trans hk') ▸ hc)).1
    rw [passFault, hc, hst, hl]
    rfl
  rw [takeDefine_eq h hlen hs, if_neg (by simp [hf, hp]), if_neg (by simp [hwin]), if_neg hout, hfault]

/-- The reply to a definition taken names the slot, and the passes where one was clamped. -/
theorem defined_eq (s : State) (i : Slot) (d : ContourDef) : defined s i d.taken (decide (d.taken ≠ d)) =
    ⟨s, if d.taken = d then .ok else .clamped,
      fun _ => byte i.val :: if d.taken = d then [] else passesBytes d.taken.passes⟩ := by
  by_cases h : d.taken = d
  · simp only [defined, h, ne_eq, not_true_eq_false, decide_false, Bool.false_eq_true, if_false, if_true]
    rfl
  · simp only [defined, h, ne_eq, not_false_eq_true, decide_true, if_true, if_false]

/-- Settles O26: the payload is read back, the checks follow in their order, and the record, the bindings and the report
are the writes of the definition. -/
theorem defineContourWritesTheRecord : Obligations.DefineContourWritesTheRecord := by
  intro tag i d s hq hr c hw
  have hlen := passes_short (of_decide_eq_true hw)
  refine ⟨fun _ _ hs => define_refuses (a := refuse s .wrongState) hq hw (takeDefine_occupied (hr.travels hlen) hs) rfl,
    definitionRefused hq hr hw, fun hf hp hs hacc hj => ?_⟩
  have hnodup := ContourDef.planOk_nodup (d.planOk_taken.trans hp)
  have hb := bindFrom_binds i 0 hnodup (s.setContour i (some (newContour d.taken)))
  have hdef : s.define i d.taken =
      if ((bindFrom i 0 d.taken.passes (s.setContour i (some (newContour d.taken)))).contourChanged i).job.state =
        .severWait then ((bindFrom i 0 d.taken.passes (s.setContour i (some (newContour d.taken)))).contourChanged i).choose
      else (bindFrom i 0 d.taken.passes (s.setContour i (some (newContour d.taken)))).contourChanged i := rfl
  have hans := (takeDefine_accepted (i := i) hr hlen hs hf hp hacc).trans (defined_eq _ i d)
  generalize bindFrom i 0 d.taken.passes (s.setContour i (some (newContour d.taken))) = w at hb hdef
  have hcon : w.contours = (s.setContour i (some (newContour d.taken))).contours := by
    rw [hb.rest]
    rfl
  have hrest : w = (s.withContours (s.setContour i (some (newContour d.taken))).contours).withStore
      { s.store with chains := w.store.chains } := by
    conv_lhs => rw [hb.rest]
    rfl
  have e := State.contourChanged_keeps _ _ hrest i
  have hcs := w.contourChanged_contours i
  have hst : (w.contourChanged i).store = w.store := State.contourChanged_store _ i
  rw [if_neg (by rw [e]; exact hj)] at hdef
  rw [hdef] at hans
  generalize w.contourChanged i = u at e hcs hst hans
  have hu (ch : ChainId) : u.chain ch = w.chain ch := by rw [State.chain, hst]; rfl
  have hmem {q : PassRec} (h : q ∈ d.taken.passes) : ∃ p ∈ d.passes, p.chain = q.chain := by
    obtain ⟨p, hp, rfl⟩ := List.mem_map.mp h
    exact ⟨p, hp, rfl⟩
  refine ⟨u, congrArg _ (State.request_is hq (of_decide_eq_true hw) ((rfl : answerTo 0x20 _ s = _).trans hans) ?_ ?_ ?_ ?_), ?_, fun j hj' => ?_,
    fun n q hn => ?_, fun ch hch => ?_, ?_⟩
  · exact (congrArg State.agenda e :)
  · exact (congrArg (·.link.collecting) e :)
  · exact (congrArg (·.link.replies) e :)
  · exact (congrArg (·.link.sending) e :)
  · rw [State.contour, hcs, hcon]
    exact State.contour_setContour_same s i _
  · rw [State.contour, hcs, hcon]
    exact State.contour_setContour_ne s hj' _
  · have hn' : d.taken.passes[n]? = some q.taken := by
      rw [d.taken_eq, List.getElem?_map, hn]
      rfl
    have := hb.bound n q.taken hn'
    rw [Nat.zero_add] at this
    exact (hu q.chain).trans this
  · refine (hu ch).trans (hb.kept ch fun q hq => ?_)
    obtain ⟨p, hp, hpc⟩ := hmem hq
    exact hpc ▸ hch p hp
  · rw [hst]
    exact e

end Sys2Proof.Machine
end

section
/-! SUPPORT. What a reset leaves (R162, R176): the level conditions that are found true have risen, and the transmitter has
taken the record that is due. -/

set_option Elab.async false

namespace Sys2Proof.Machine

/-- The record of a level condition that has taken its first value after a reset (R156, R162). -/
def CondRec.first (v : Bool) : CondRec := { CondRec.reset true with latch := v, pending := v, live := v }

/-- A condition record after a NOTICE has been taken. -/
def CondRec.noticedNow (r : CondRec) : CondRec := if r.pending then { r with noticed := true, pending := false } else r

namespace State

/-- The mode unit once conditions that wake the cell have risen, where any has (R146). -/
def wokenIf (s : State) (b : Bool) : ModeUnit :=
  if s.modes.mode = .park ∧ b = true then
    { s.modes with mode := .waking, pump := true, settle := some s.params.wakeSettle }
  else s.modes

/-- What the conditions of a list leave that take their first values. -/
structure FirstValues (l : List Cond) (v : Cond → Bool) (s t : State) : Prop where
  taken : ∀ c ∈ l, t.cond c = CondRec.first (v c)
  others : ∀ c ∉ l, t.cond c = s.cond c
  modes : t.modes = s.wokenIf (l.any fun c => v c && c.wakes)

theorem setLive_stirs (s : State) (c : Cond) (v : Bool) : s.Stirs (s.setLive c v) := by
  have hs : s.Stirs (s.setCond c { s.cond c with live := v }) := stirs_setCond_live c v
  simp only [setLive]
  repeat' split
  · exact .refl s
  · exact hs.trans ((latch_stirs _ c).trans (forceHold_stirs _))
  · exact hs.trans (latch_stirs _ c)
  · exact hs

/-- The first latching of an enabled condition wakes a parked cell where it is one of those that do (R146). -/
theorem latch_wokenIf {s : State} {c : Cond} (hl : (s.cond c).latch = false) (he : (s.cond c).enable = true) :
    (s.latch c).modes = s.wokenIf c.wakes := by
  simp only [latch, hl, he, if_true, Bool.false_eq_true, if_false, wokenIf]
  cases c.wakes with
  | false => simp only [Bool.false_eq_true, and_false, if_false]; rfl
  | true =>
    simp only [if_true, wakeCell, and_true]
    by_cases hm : s.modes.mode = .park
    · rw [if_pos (show (s.setCond c _).mode = .park from hm), if_pos hm]
      rfl
    · rw [if_neg (show ¬ (s.setCond c _).mode = .park from hm), if_neg hm]
      rfl

theorem setLive_first {s : State} {c : Cond} (hc : s.cond c = CondRec.reset true) (hm : s.modes.mode ≠ .run) (v : Bool) :
    (s.setLive c v).cond c = CondRec.first v ∧ (∀ d, d ≠ c → (s.setLive c v).cond d = s.cond d) ∧
      (s.setLive c v).modes = s.wokenIf (v && c.wakes) := by
  cases v with
  | false =>
    have e : s.setLive c false = s := by simp only [setLive, hc, CondRec.reset, if_true]
    rw [e]
    exact ⟨hc, fun _ _ => rfl, by simp [wokenIf]⟩
  | true =>
    have hr : (s.setCond c { s.cond c with live := true }).cond c = { CondRec.reset true with live := true } := by
      rw [cond_setCond_same, hc]
    have hmodes := latch_wokenIf (s := s.setCond c { s.cond c with live := true }) (c := c) (by rw [hr]; rfl) (by rw [hr]; rfl)
    have hnr : ((s.setCond c { s.cond c with live := true }).latch c).modes.mode ≠ .run := by
      rw [hmodes, wokenIf]
      split
      · nofun
      · exact hm
    have e : s.setLive c true = (s.setCond c { s.cond c with live := true }).latch c := by
      have hl : (s.cond c).live ≠ true := by rw [hc]; decide
      simp only [setLive, if_neg hl, if_true]
      split
      · exact forceHold_of_ne hnr
      · rfl
    rw [e]
    refine ⟨?_, fun d hd => ?_, hmodes⟩
    · rw [latch_cond, hr]
      simp [CondRec.reset, CondRec.first]
    · rw [latch_cond, if_neg (fun h => hd h.1), if_neg (fun h => hd h.1), cond_setCond_ne s hd]

/-- Distinct conditions in their reset state take their first values one after the other. -/
theorem foldl_setLive_first {l : List Cond} (hl : l.Nodup) (v : Cond → Bool) {s : State}
    (hc : ∀ c ∈ l, s.cond c = CondRec.reset true) (hm : s.modes.mode ≠ .run) :
    FirstValues l v s (l.foldl (fun t c => t.setLive c (v c)) s) := by
  induction l generalizing s with
  | nil => exact ⟨nofun, fun _ _ => rfl, by simp [wokenIf]⟩
  | cons c l ih =>
    obtain ⟨hcl, hl⟩ := List.nodup_cons.mp hl
    obtain ⟨hsame, hne, hmodes⟩ := setLive_first (hc c (.head l)) hm (v c)
    have hmode : (s.setLive c (v c)).modes.mode ≠ .run := by
      rw [hmodes, wokenIf]
      split
      · nofun
      · exact hm
    have h := ih hl (fun d hd => (hne d fun e => hcl (e ▸ hd)).trans (hc d (.tail c hd))) hmode
    rw [List.foldl_cons]
    refine ⟨fun d hd => ?_, fun d hd => ?_, ?_⟩
    · rcases List.mem_cons.mp hd with rfl | hd
      · rw [h.others d hcl, hsame]
      · exact h.taken d hd
    · rw [List.mem_cons, not_or] at hd
      rw [h.others d hd.2, hne d hd.1]
    · rw [h.modes, List.any_cons]
      cases hw : v c && c.wakes with
      | false =>
        rw [hw, wokenIf, if_neg (by simp)] at hmodes
        have hp : (s.setLive c (v c)).params = s.params := (setLive_stirs s c (v c)).params
        rw [wokenIf, wokenIf, hmodes, hp, Bool.false_or]
      | true =>
        rw [hw] at hmodes
        have hnp : (s.setLive c (v c)).modes.mode ≠ .park := by
          rw [hmodes, wokenIf]
          split
          · nofun
          · rename_i hn
            exact fun h => hn ⟨h, rfl⟩
        rw [wokenIf, if_neg (fun h => hnp h.1), hmodes, Bool.true_or]

/-! ## The transmitter's first turn (R157, R176) -/

/-- What the transmitter's turn leaves that finds neither a frame in transmission, nor a reply, nor PROGRESS: a NOTICE taken
where one is pending, and else the STARTUP that is due. -/
structure FirstTurn (s t : State) : Prop where
  rest : t = { s with conds := t.conds, sensors := t.sensors, link := t.link }
  sensors : t.sensors = { s.sensors with slugReference := t.sensors.slugReference }
  reference : t.sensors.slugReference = s.sensors.slugReference ∨ t.sensors.slugReference = s.active .slugPresent
  cond : ∀ c, t.cond c = (s.cond c).noticedNow
  link : (∃ f, t.link = { s.link with sending := some f }) ∨
    ∃ f, t.link = { s.link with sending := some ⟨.startup, f⟩, startupDue := false }
  startup : t.link.startupDue = true ∨ ∃ f, t.link.sending = some ⟨.startup, f⟩

section
variable {s t : State} (h : s.FirstTurn t)
include h

theorem FirstTurn.params : t.params = s.params := by rw [h.rest]
theorem FirstTurn.contour (i : Slot) : t.contour i = s.contour i := by rw [h.rest]; rfl
theorem FirstTurn.job : t.job = s.job := by rw [h.rest]
theorem FirstTurn.store : t.store = s.store := by rw [h.rest]
theorem FirstTurn.path : t.path = s.path := by rw [h.rest]
theorem FirstTurn.thread : t.thread = s.thread := by rw [h.rest]
theorem FirstTurn.slug : t.slug = s.slug := by rw [h.rest]
theorem FirstTurn.holder : t.holder = s.holder := by rw [h.rest]
theorem FirstTurn.modes : t.modes = s.modes := by rw [h.rest]
theorem FirstTurn.journal : t.journal = s.journal := by rw [h.rest]
theorem FirstTurn.pending : t.pending = s.pending := by rw [h.rest]
theorem FirstTurn.lineRec (l : Line) : t.lineRec l = s.lineRec l := by rw [State.lineRec, h.sensors, State.lineRec]
theorem FirstTurn.active (l : Line) : t.active l = s.active l := by rw [State.active, h.lineRec, State.active]
theorem FirstTurn.axisFault : t.sensors.axisFault = s.sensors.axisFault := by rw [h.sensors]
theorem FirstTurn.genFault : t.sensors.genFault = s.sensors.genFault := by rw [h.sensors]

end

theorem noticePending_of {s : State} {c : Cond} (h : (s.cond c).pending = true) : s.noticePending = true :=
  List.any_eq_true.mpr ⟨s.cond c, Vector.mem_toList_iff.mpr (Vector.getElem_mem c.num.isLt), h⟩

theorem arbitrate_firstTurn {s : State} (hs : s.link.sending = none) (hr : s.link.replies = [])
    (hp : s.link.progressPending = false) (hd : s.link.startupDue = true) : s.FirstTurn s.arbitrate := by
  rw [arbitrate, hs, hr]
  simp only [Option.isSome_none, Bool.false_eq_true, if_false]
  split
  · refine ⟨rfl, rfl, .inr rfl, fun c => ?_, .inl ⟨_, rfl⟩, .inl hd⟩
    rw [takeNotice, mapConds_cond]
    rfl
  · rename_i hn
    simp only [hp, Bool.false_eq_true, if_false]
    refine ⟨rfl, rfl, .inl rfl, fun c => ?_, .inr ⟨_, rfl⟩, .inr ⟨_, rfl⟩⟩
    rw [CondRec.noticedNow, if_neg fun h => hn (noticePending_of h)]
    rfl

end State

end Sys2Proof.Machine
end

section
/-! SUPPORT. What the start-up scan makes of a storage (R168): the newest page, the slot after its last written one, the
pages due for erase and the next sequence. -/

set_option Elab.async false

namespace Sys2Proof.Machine

/-! ## Blank bytes -/

theorem memRead_blank {m : List Host.Cell} {a n x : Nat} (h : memBlank m a n = true) (h1 : a ≤ x) (h2 : x < a + n) :
    memRead m x = erasedByte := by
  rw [memBlank, List.all_eq_true] at h
  induction m with
  | nil => rfl
  | cons d m ih =>
    have hd := h d (.head _)
    simp only [Bool.not_eq_true', Bool.and_eq_false_iff, decide_eq_false_iff_not] at hd
    have hne : ¬ d.1 = x := by omega
    simp only [memRead, if_neg hne]
    exact ih fun c hc => h c (.tail _ hc)

/-- Erased bytes are no valid record. -/
theorem recordValid_blank {m : List Host.Cell} {p n : Nat} (hn : n < 128) (h : pageBlank m p = true) :
    recordValid (slotBytes m p n) = false := by
  have hb : slotBytes m p n = List.replicate 20 erasedByte := by
    have := memBytes_eq_of (m := m) (a := slotAddr p n) (bs := List.replicate 20 erasedByte) (by
      intro i hi
      rw [List.length_replicate] at hi
      have ha : slotAddr p n = slotAddr p 0 + 20 * n := by simp only [slotAddr]; omega
      rw [memRead_blank h (by omega) (by omega), List.getD_eq_getElem _ _ (by rw [List.length_replicate]; exact hi),
        List.getElem_replicate])
    rwa [List.length_replicate] at this
  rw [hb]
  decide

namespace Journal

/-! ## The valid records and their highest sequence -/

theorem mem_records {m : List Host.Cell} {bs : List Byte} :
    bs ∈ [0, 1, 2, 3].flatMap (pageRecords m) ↔ RecordIn m bs := by
  rw [List.mem_flatMap]
  constructor
  · rintro ⟨p, hp, hb⟩
    have hp4 : p < 4 := (by decide : ∀ p ∈ [0, 1, 2, 3], p < 4) p hp
    rw [pageRecords] at hb
    split at hb
    · cases hb
    · obtain ⟨hb, hv⟩ := List.mem_filter.mp hb
      obtain ⟨k, hk, rfl⟩ := List.mem_map.mp hb
      have := List.mem_range.mp hk
      exact ⟨p, hp4, k + 1, by omega, by omega, rfl, hv⟩
  · rintro ⟨p, hp, n, hn, h1, rfl, hv⟩
    refine ⟨p, (by decide : ∀ p < 4, p ∈ [0, 1, 2, 3]) p hp, ?_⟩
    rw [pageRecords, if_neg fun h => by rw [recordValid_blank hn h] at hv; cases hv]
    exact List.mem_filter.mpr ⟨List.mem_map.mpr ⟨n - 1, List.mem_range.mpr (by omega), by rw [Nat.sub_add_cancel h1]⟩, hv⟩

theorem foldl_maxSeq {rs : List (List Byte)} {a b : Nat} (hle : ∀ r ∈ rs, slotSeq r ≤ b) (ha : a ≤ b)
    (hb : a = b ∨ ∃ r ∈ rs, slotSeq r = b) : rs.foldl (fun n r => max n (slotSeq r)) a = b := by
  induction rs generalizing a with
  | nil => exact hb.resolve_right (by simp)
  | cons r rs ih =>
    have hr := hle r (.head rs)
    rw [List.foldl_cons]
    refine ih (fun q hq => hle q (.tail r hq)) (by omega) ?_
    rcases hb with rfl | ⟨q, hq, hqb⟩
    · exact .inl (by omega)
    · rcases List.mem_cons.mp hq with rfl | hq
      · exact .inl (by omega)
      · exact .inr ⟨q, hq, hqb⟩

/-! ## The newest page and its last written slot -/

/-- The newer of a page found so far and another one. -/
def newerPage (m : List Host.Cell) (best : Option (Nat × Nat)) (p : Nat) : Option (Nat × Nat) :=
  match pageSeq m p, best with
  | some n, some (_, k) => if k < n then some (p, n) else best
  | some n, none => some (p, n)
  | none, _ => best

theorem newestPage_eq (m : List Host.Cell) : newestPage m = [0, 1, 2, 3].foldl (newerPage m) none := rfl

theorem newerPage_none {m : List Host.Cell} {p : Nat} (h : pageSeq m p = none) (best : Option (Nat × Nat)) :
    newerPage m best p = best := by
  cases best <;> simp only [newerPage, h]

theorem newerPage_first {m : List Host.Cell} {p n : Nat} (h : pageSeq m p = some n) : newerPage m none p = some (p, n) := by
  simp only [newerPage, h]

theorem newerPage_some {m : List Host.Cell} {p n : Nat} (h : pageSeq m p = some n) (q : Nat × Nat) :
    newerPage m (some q) p = if q.2 < n then some (p, n) else some q := by
  simp only [newerPage, h]

/-- The newer of two carries a sequence not below either's. -/
theorem newerPage_ge (m : List Host.Cell) (best : Option (Nat × Nat)) (p : Nat) :
    (∀ q, best = some q → ∃ r, newerPage m best p = some r ∧ q.2 ≤ r.2) ∧
    (∀ k, pageSeq m p = some k → ∃ r, newerPage m best p = some r ∧ k ≤ r.2) := by
  cases hp : pageSeq m p with
  | none => exact ⟨fun q hq => ⟨q, (newerPage_none hp best).trans hq, Nat.le_refl _⟩, nofun⟩
  | some n =>
    cases best with
    | none => exact ⟨nofun, fun k hk => ⟨_, newerPage_first hp, (Option.some.inj hk).ge⟩⟩
    | some q =>
      rw [newerPage_some hp]
      by_cases hlt : q.2 < n
      · rw [if_pos hlt]
        exact ⟨fun r hr => ⟨_, rfl, (Option.some.inj hr) ▸ hlt.le⟩, fun k hk => ⟨_, rfl, (Option.some.inj hk).ge⟩⟩
      · rw [if_neg hlt]
        exact ⟨fun r hr => ⟨r, hr, Nat.le_refl _⟩,
          fun k hk => ⟨q, rfl, (Option.some.inj hk) ▸ Nat.le_of_not_lt hlt⟩⟩

theorem foldl_newerPage_ge (m : List Host.Cell) (l : List Nat) (best : Option (Nat × Nat)) :
    (∀ q, best = some q → ∃ r, l.foldl (newerPage m) best = some r ∧ q.2 ≤ r.2) ∧
    (∀ p ∈ l, ∀ k, pageSeq m p = some k → ∃ r, l.foldl (newerPage m) best = some r ∧ k ≤ r.2) := by
  induction l generalizing best with
  | nil => exact ⟨fun q hq => ⟨q, hq, le_refl _⟩, nofun⟩
  | cons p l ih =>
    obtain ⟨hbest, hl⟩ := ih (newerPage m best p)
    obtain ⟨hb, hp⟩ := newerPage_ge m best p
    have via {k : Nat} (h : ∃ r, newerPage m best p = some r ∧ k ≤ r.2) :
        ∃ r, l.foldl (newerPage m) (newerPage m best p) = some r ∧ k ≤ r.2 := by
      obtain ⟨r, hr, hk⟩ := h
      obtain ⟨u, hu, hru⟩ := hbest r hr
      exact ⟨u, hu, hk.trans hru⟩
    refine ⟨fun q hq => via (hb q hq), fun n hn k hk => ?_⟩
    rcases List.mem_cons.mp hn with rfl | hn
    · exact via (hp k hk)
    · exact hl n hn k hk

/-- A page whose valid header carries a higher sequence than every other valid one is the newest. -/
theorem newestPage_of_highest {m : List Host.Cell} {p : Nat} (hp : p < 4) (hv : headerValid (slotBytes m p 0) = true)
    (hmax : ∀ n < 4, n ≠ p → headerValid (slotBytes m n 0) = true →
      slotSeq (slotBytes m n 0) < slotSeq (slotBytes m p 0)) :
    newestPage m = some (p, slotSeq (slotBytes m p 0)) := by
  have hseq : pageSeq m p = some (slotSeq (slotBytes m p 0)) := if_pos hv
  obtain ⟨q, hq, hle⟩ := (foldl_newerPage_ge m [0, 1, 2, 3] none).2 p ((by decide : ∀ p < 4, p ∈ [0, 1, 2, 3]) p hp) _ hseq
  rw [← newestPage_eq] at hq
  obtain ⟨hq4, hqs⟩ := pageSeq_lt hq
  have hqp : q.1 = p := by
    by_contra hne
    rw [pageSeq] at hqs
    split at hqs
    · have := hmax q.1 hq4 hne ‹_›
      have := Option.some.inj hqs
      omega
    · cases hqs
  rw [hqp, hseq] at hqs
  rw [hq, Option.some.inj hqs, ← hqp]

theorem newestPage_none {m : List Host.Cell} (h : ∀ p < 4, headerValid (slotBytes m p 0) = false) : newestPage m = none := by
  cases hq : newestPage m with
  | none => rfl
  | some q =>
    obtain ⟨hq4, hqs⟩ := pageSeq_lt hq
    simp [pageSeq, h q.1 hq4] at hqs

theorem slotAfterLast_eq {m : List Host.Cell} {p last : Nat} (hlast : last < 128) (hb : slotBlank m p last = false)
    (hrest : ∀ n < 128, last < n → slotBlank m p n = true) : slotAfterLast m p = last + 1 := by
  have h : ∀ n ≤ 128, last < n → (List.range n).foldl (fun n k => if slotBlank m p k then n else k + 1) 0 = last + 1 := by
    intro n
    induction n with
    | zero => omega
    | succ n ih =>
      intro hn hlt
      rw [List.range_succ, List.foldl_append, List.foldl_cons, List.foldl_nil]
      by_cases he : n = last
      · subst he
        rw [hb]
        rfl
      · rw [hrest n (by omega) (by omega), if_pos rfl]
        exact ih (by omega) (by omega)
  exact h 128 (le_refl _) hlast

/-! ## What the scan comes to -/

/-- The fields that neither a begun erase nor an activated page writes. -/
def Idle (j k : Journal) : Prop :=
  k.nextSeq = j.nextSeq ∧ k.queue = j.queue ∧ k.blocked = j.blocked ∧ k.erasingAll = j.erasingAll

theorem startErase_eq (j : Journal) :
    j.startErase = { j with erasing := j.startErase.erasing, eraseList := j.startErase.eraseList } := by
  unfold startErase
  split <;> rfl

theorem startErase_idle (j : Journal) : j.Idle j.startErase := by
  rw [startErase_eq]
  exact ⟨rfl, rfl, rfl, rfl⟩

theorem activate_idle (j : Journal) (p : Nat) : j.Idle (j.activate p) := by
  rw [activate, listErase]
  obtain ⟨h1, h2, h3, h4⟩ := startErase_idle (_ : Journal)
  exact ⟨h1, h2, h3, h4⟩

theorem roll_idle (j : Journal) : j.Idle j.roll := by
  rw [roll]
  split
  · dsimp only
    split
    · exact activate_idle j _
    · exact ⟨rfl, rfl, rfl, rfl⟩
  · exact ⟨rfl, rfl, rfl, rfl⟩

theorem activateFirst_idle (j : Journal) : j.Idle j.activateFirst := by
  simp only [Idle, activateFirst, and_self]

theorem Idle.trans {i j k : Journal} (h : i.Idle j) (g : j.Idle k) : i.Idle k := by
  obtain ⟨h1, h2, h3, h4⟩ := h
  obtain ⟨g1, g2, g3, g4⟩ := g
  exact ⟨g1.trans h1, g2.trans h2, g3.trans h3, g4.trans h4⟩

/-- The pages due for erase behind a newest page, in ring order. -/
def dueAfter (m : List Host.Cell) (p : Nat) : List Nat :=
  (if pageBlank m (nextPage p) then [] else [nextPage p]) ++
    [nextPage (nextPage p), nextPage (nextPage (nextPage p))].filter fun k => !pageBlank m k && (pageSeq m k).isNone

/-- The sequence that follows the highest of the valid records. -/
def scannedSeq (m : List Host.Cell) : Option Nat := seqAfter (highestSeq ([0, 1, 2, 3].flatMap (pageRecords m)))

/-- The journal of a storage with a newest page, before its first erase begins. -/
def found (m : List Host.Cell) (p n : Nat) : Journal where
  mem := m
  active := some p
  nextSlot := slotAfterLast m p
  nextSeq := scannedSeq m
  nextPageSeq := if n = Config.maxSequence then Config.pageSequenceAfterLast else n + 1
  erasing := none
  eraseList := dueAfter m p
  queue := []
  waitRoll := none
  waitFirst := false
  blocked := false
  erasingAll := false
  writing := none

/-- The journal of a storage with no valid header, before its first erase begins. -/
def unfound (m : List Host.Cell) : Journal where
  mem := m
  active := none
  nextSlot := 1
  nextSeq := scannedSeq m
  nextPageSeq := 1
  erasing := none
  eraseList := [0, 1, 2, 3].filter fun k => !pageBlank m k
  queue := []
  waitRoll := none
  waitFirst := false
  blocked := false
  erasingAll := false
  writing := none

theorem scan_found {m : List Host.Cell} {p n : Nat} (h : newestPage m = some (p, n)) : scan m =
    if (found m p n).startErase.nextSlot = 128 then (found m p n).startErase.roll else (found m p n).startErase := by
  rw [scan, h]
  rfl

theorem scan_unfound {m : List Host.Cell} (h : newestPage m = none) : scan m =
    if pageBlank m 0 then (unfound m).startErase.activateFirst
    else { (unfound m).startErase with waitFirst := true } := by
  rw [scan, h]
  rfl

theorem scan_idle (m : List Host.Cell) :
    (scan m).nextSeq = scannedSeq m ∧ (scan m).queue = [] ∧ (scan m).blocked = false ∧ (scan m).erasingAll = false := by
  cases h : newestPage m with
  | some q =>
    have hf := startErase_idle (found m q.1 q.2)
    rw [scan_found h]
    split
    · exact hf.trans (roll_idle _)
    · exact hf
  | none =>
    have hu := startErase_idle (unfound m)
    rw [scan_unfound h]
    split
    · exact hu.trans (activateFirst_idle _)
    · exact hu.trans ⟨rfl, rfl, rfl, rfl⟩

theorem scan_newest {m : List Host.Cell} {p n : Nat} (h : newestPage m = some (p, n)) (hs : slotAfterLast m p ≠ 128) :
    (scan m).mem = m ∧ (scan m).active = some p ∧ (scan m).nextSlot = slotAfterLast m p ∧
      (scan m).nextPageSeq = (if n = Config.maxSequence then Config.pageSequenceAfterLast else n + 1) ∧
      ∀ k, (scan m).awaitsErase k = (dueAfter m p).contains k := by
  have e := startErase_eq (found m p n)
  have hne : (found m p n).startErase.nextSlot ≠ 128 := by rw [e]; exact hs
  rw [scan_found h, if_neg hne]
  exact ⟨by rw [e]; rfl, by rw [e]; rfl, by rw [e]; rfl, by rw [e]; rfl, startErase_awaits⟩

theorem scan_first {m : List Host.Cell} (h : newestPage m = none) (hb : pageBlank m 0 = true) :
    (scan m).mem = slotWrite m 0 0 (headerBytes 1) ∧ (scan m).active = some 0 ∧ (scan m).nextSlot = 1 ∧
      (scan m).nextPageSeq = 2 := by
  rw [scan_unfound h, if_pos hb]
  have hm : (unfound m).startErase.mem = m := by rw [startErase_eq]; rfl
  exact ⟨by rw [activateFirst, hm], rfl, rfl, rfl⟩

theorem mem_dueAfter {m : List Host.Cell} {p n : Nat} (hp : p < 4) (hn : n < 4) : n ∈ dueAfter m p ↔
    n ≠ p ∧ pageBlank m n = false ∧ (n = (p + 1) % 4 ∨ headerValid (slotBytes m n 0) = false) := by
  have hseq (k : Nat) : (pageSeq m k).isNone = !headerValid (slotBytes m k 0) := by
    rw [pageSeq]
    cases headerValid (slotBytes m k 0) <;> rfl
  have hq : nextPage p = (p + 1) % 4 := rfl
  have hring : n ≠ p ↔ n = nextPage p ∨ n = nextPage (nextPage p) ∨ n = nextPage (nextPage (nextPage p)) := by
    simp only [nextPage]
    omega
  have hdist : nextPage p ≠ nextPage (nextPage p) ∧ nextPage p ≠ nextPage (nextPage (nextPage p)) := by
    simp only [nextPage]
    omega
  have hfirst : n ∈ (if pageBlank m (nextPage p) then ([] : List Nat) else [nextPage p]) ↔
      n = nextPage p ∧ pageBlank m n = false := by
    split
    · rename_i hb
      simp only [List.not_mem_nil, false_iff, not_and, Bool.not_eq_false]
      rintro rfl
      exact hb
    · rename_i hb
      rw [List.mem_singleton]
      exact ⟨fun e => ⟨e, e ▸ Bool.eq_false_iff.mpr hb⟩, And.left⟩
  rw [dueAfter, List.mem_append, hfirst, List.mem_filter, hring, ← hq, hseq]
  simp only [List.mem_cons, List.not_mem_nil, or_false, Bool.and_eq_true, Bool.not_eq_true']
  constructor
  · rintro (⟨rfl, hb⟩ | ⟨h, hb, hv⟩)
    · exact ⟨.inl rfl, hb, .inl rfl⟩
    · exact ⟨.inr h, hb, .inr hv⟩
  · rintro ⟨h, hb, hv⟩
    by_cases h1 : n = nextPage p
    · exact .inl ⟨h1, hb⟩
    · exact .inr ⟨h.resolve_left h1, hb, hv.resolve_left h1⟩

/-- The start-up scan of R168. -/
theorem scan_scanned (m : List Host.Cell) : Scanned m (scan m) := by
  obtain ⟨hseq, hqueue, hblocked, hall⟩ := scan_idle m
  refine ⟨⟨hqueue, hblocked, hall⟩, fun p hp hv hmax last hl hb hrest => ?_, fun hno hb => ?_, fun hno => ?_,
    fun bs hbs hmax => ?_⟩
  · have hslot := slotAfterLast_eq (by omega) hb hrest
    obtain ⟨hm, ha, hn, hps, haw⟩ := scan_newest (newestPage_of_highest hp hv hmax) (by omega)
    refine ⟨hm, ha, hn.trans hslot, fun hlt => ?_, fun n hn4 => ?_⟩
    · rw [hps, if_neg (by simp only [Config.maxSequence]; omega)]
    · rw [← mem_dueAfter hp hn4, ← List.contains_iff_mem (as := dueAfter m p), ← haw n, awaitsErase]
      simp
  · exact scan_first (newestPage_none hno) hb
  · have he : [0, 1, 2, 3].flatMap (pageRecords m) = [] :=
      List.eq_nil_iff_forall_not_mem.mpr fun bs hbs => hno bs (mem_records.mp hbs)
    rw [hseq, scannedSeq, he]
    rfl
  · rw [hseq, scannedSeq, highestSeq, foldl_maxSeq (b := slotSeq bs) (fun r hr => hmax r (mem_records.mp hr)) (Nat.zero_le _)
      (.inr ⟨bs, mem_records.mpr hbs, rfl⟩)]
    rfl

end Journal

end Sys2Proof.Machine
end

section
/-! The resets: power-on and the reset line (R22, R45, R69, R108, R123, R137, R138, R149, R162, R168, R172, R176). -/

set_option Elab.async false

namespace Sys2Proof.Machine

namespace State

variable (s : State) (k : ResetKind)

/-! ## The part before its live values are computed -/

theorem cleared_cond (c : Cond) :
    (s.cleared k).cond c = CondRec.reset (decide (c ≠ .storeCorrected ∧ c ≠ .linkError)) := by
  cases c <;> rfl

theorem cleared_lineRec (l : Line) : (s.cleared k).lineRec l = LineRec.reset (s.lineRec l).input :=
  Vector.getElem_map ..

theorem cleared_active (l : Line) : (s.cleared k).active l = (s.lineRec l).input := by
  rw [active, cleared_lineRec]
  rfl

theorem cleared_holder : (s.cleared k).holder.owner = none ∧ (s.cleared k).holder.claimant = none ∧
    (s.cleared k).holder.timer = none ∧ (s.cleared k).holder.request = none := by
  have h (b : Bool) : (s.holder.afterReset k b).owner = none ∧ (s.holder.afterReset k b).claimant = none ∧
      (s.holder.afterReset k b).timer = none ∧ (s.holder.afterReset k b).request = none := by
    cases k <;> cases b <;> exact ⟨rfl, rfl, rfl, rfl⟩
  exact h _

/-- The level conditions whose source a reset leaves open: those of the lines and the fault inputs. -/
def inputLevels : List Cond := [.doorOpen, .tankLow, .axisFault, .genFault, .aux]

theorem cleared_levelValue (c : Cond) :
    (c ∈ inputLevels → (s.cleared k).levelValue c = (s.cleared k).source c) ∧
    (c ∈ Cond.levels → c ∉ inputLevels → (s.cleared k).levelValue c = false) := by
  have hblocked : (s.cleared k).journal.blocked = false := (Journal.scan_idle _).2.2.1
  have hrequest := (s.cleared_holder k).2.2.2
  refine ⟨fun h => ?_, fun h hn => ?_⟩
  · simp only [inputLevels, List.mem_cons, List.not_mem_nil, or_false] at h
    rcases h with rfl | rfl | rfl | rfl | rfl <;> rfl
  · have hc : c = .journalBlocked ∨ c = .chainLow ∨ c = .chainStarved ∨ c = .holderBusy := by
      revert h hn
      cases c <;> decide
    rcases hc with rfl | rfl | rfl | rfl
    · exact hblocked
    · rfl
    · rfl
    · simp only [levelValue, source, hrequest, Bool.and_false]

/-- A condition that wakes the cell rises where the door is open or a fault input is active (R146). -/
theorem cleared_wakes : Cond.levels.any (fun c => (s.cleared k).levelValue c && c.wakes) =
    (!(s.lineRec .doorClosed).input || s.sensors.axisFault || s.sensors.genFault) := by
  have hdoor : (s.cleared k).levelValue .doorOpen = !(s.lineRec .doorClosed).input := by
    rw [(s.cleared_levelValue k .doorOpen).1 (by decide), source, cleared_active]
  have haxis : (s.cleared k).levelValue .axisFault = s.sensors.axisFault := rfl
  have hgen : (s.cleared k).levelValue .genFault = s.sensors.genFault := rfl
  simp only [Cond.levels, List.any_cons, List.any_nil, Cond.wakes, hdoor, haxis, hgen, Bool.and_true, Bool.and_false,
    Bool.or_false, Bool.false_or, Bool.or_assoc]

/-! ## The part after a reset -/

theorem resetBy_stirs : (s.cleared k).Stirs (s.resetBy k) := (refreshLevels_flags _).toStirs

theorem resetStep_eq : s.resetStep k = (s.resetBy k).arbitrate := by
  have h : (s.resetBy k).agenda = [] := (s.resetBy_stirs k).agenda
  rw [resetStep, finish, settle, settleGo_nil _ h]

theorem resetBy_first : FirstValues Cond.levels (s.cleared k).levelValue (s.cleared k) (s.resetBy k) := by
  rw [resetBy, refreshLevels_eq]
  refine foldl_setLive_first (by decide) _ (fun c hc => ?_) (nofun : Mode.park ≠ .run)
  rw [cleared_cond]
  revert hc
  cases c <;> decide

theorem resetBy_link : (s.resetBy k).link = s.link.afterReset k := (s.resetBy_stirs k).link

theorem resetStep_firstTurn : (s.resetBy k).FirstTurn (s.resetStep k) := by
  rw [resetStep_eq]
  apply arbitrate_firstTurn <;> rw [resetBy_link] <;> cases k <;> rfl

/-- The condition records after a reset (R157, R162). -/
theorem resetStep_cond (c : Cond) : (s.resetStep k).cond c =
    if c ∈ Cond.levels then (CondRec.first ((s.cleared k).levelValue c)).noticedNow
    else CondRec.reset (decide (c ≠ .storeCorrected ∧ c ≠ .linkError)) := by
  rw [(s.resetStep_firstTurn k).cond]
  split
  · rw [(s.resetBy_first k).taken c ‹_›]
  · rw [(s.resetBy_first k).others c ‹_›, cleared_cond]
    rfl

theorem noticedNow_first (v : Bool) : (CondRec.first v).noticedNow = ⟨v, true, v, false, v⟩ := by cases v <;> rfl

/-- The sources of the lines and the fault inputs are as the reset has found them. -/
theorem resetStep_source {c : Cond} (hc : c ∈ inputLevels) : (s.resetStep k).source c = (s.cleared k).levelValue c := by
  rw [(s.cleared_levelValue k c).1 hc]
  have hturn := s.resetStep_firstTurn k
  have h := s.resetBy_stirs k
  have hact (l : Line) : (s.resetStep k).active l = (s.cleared k).active l := (hturn.active l).trans (h.active l)
  have haxis := hturn.axisFault.trans (congrArg Sensors.axisFault h.sensors)
  have hgen := hturn.genFault.trans (congrArg Sensors.genFault h.sensors)
  simp only [inputLevels, List.mem_cons, List.not_mem_nil, or_false] at hc
  rcases hc with rfl | rfl | rfl | rfl | rfl <;> simp only [source, hact, haxis, hgen]

theorem resetStep_lineRec (l : Line) : (s.resetStep k).lineRec l = LineRec.reset (s.lineRec l).input :=
  ((s.resetStep_firstTurn k).lineRec l).trans (((s.resetBy_stirs k).lineRec l).trans (s.cleared_lineRec k l))

theorem resetStep_modes : (s.resetStep k).modes =
    if (s.lineRec .doorClosed).input = true ∧ s.sensors.axisFault = false ∧ s.sensors.genFault = false then
      ⟨.park, false, none, false⟩ else ⟨.waking, false, some 5000, true⟩ := by
  rw [(s.resetStep_firstTurn k).modes, (s.resetBy_first k).modes, cleared_wakes]
  cases (s.lineRec .doorClosed).input <;> cases s.sensors.axisFault <;> cases s.sensors.genFault <;> rfl

theorem resetStep_levels :
    (∀ c, ((s.resetStep k).cond c).enable = decide (c ≠ .storeCorrected ∧ c ≠ .linkError)) ∧
    (∀ c ∈ inputLevels, ((s.resetStep k).cond c).latch = (s.resetStep k).source c ∧
      ((s.resetStep k).cond c).live = (s.resetStep k).source c) ∧
    (∀ c ∉ inputLevels, ((s.resetStep k).cond c).latch = false ∧ ((s.resetStep k).cond c).live = false) ∧
    (∀ c, ((s.resetStep k).cond c).pending = false ∧
      ((s.resetStep k).cond c).noticed = ((s.resetStep k).cond c).latch) := by
  have hin : ∀ c ∈ inputLevels, c ∈ Cond.levels := by decide
  refine ⟨fun c => ?_, fun c hc => ?_, fun c hc => ?_, fun c => ?_⟩
  · rw [resetStep_cond, noticedNow_first]
    cases c <;> rfl
  · rw [resetStep_cond, noticedNow_first, if_pos (hin c hc), resetStep_source s k hc]
    exact ⟨rfl, rfl⟩
  · rw [resetStep_cond, noticedNow_first]
    split
    · rw [(s.cleared_levelValue k c).2 ‹_› hc]
      exact ⟨rfl, rfl⟩
    · exact ⟨rfl, rfl⟩
  · rw [resetStep_cond, noticedNow_first]
    split <;> exact ⟨rfl, rfl⟩

/-- What a reset leaves of the link port: the transmitter has taken the NOTICE or the STARTUP. -/
theorem resetStep_link : ∃ f d, (s.resetStep k).link = { s.link.afterReset k with sending := f, startupDue := d } ∧
    (d = true ∨ ∃ g, f = some ⟨.startup, g⟩) := by
  have h := s.resetStep_firstTurn k
  have hl := h.link
  rw [resetBy_link] at hl
  rcases hl with ⟨f, e⟩ | ⟨f, e⟩
  · exact ⟨some f, true, by rw [e]; cases k <;> rfl, .inl rfl⟩
  · exact ⟨_, false, e, .inr ⟨f, rfl⟩⟩

theorem resetStep_path : (s.resetStep k).path.pass = none ∧ (s.resetStep k).path.rapid = none ∧
    (s.resetStep k).path.genOn = false ∧ (s.resetStep k).path.genSetting = 0 ∧
    (s.resetStep k).path.commanded = (s.path.afterReset k).commanded := by
  have h := s.resetBy_stirs k
  rw [(s.resetStep_firstTurn k).path]
  refine ⟨h.pass_none (by cases k <;> rfl), h.rapid.trans (by cases k <;> rfl), h.genOff (by cases k <;> rfl),
    h.genSetting.trans (by cases k <;> rfl), h.commanded⟩

/-- Every block but the path's position, the holder's output and the cause is in its reset state. -/
theorem resetLeft : ResetLeft s (s.resetStep k) := by
  have h := s.resetBy_stirs k
  have hturn := s.resetStep_firstTurn k
  obtain ⟨hpass, hrapid, hgen, hset, -⟩ := s.resetStep_path k
  obtain ⟨hen, hin, hout, hpend⟩ := s.resetStep_levels k
  obtain ⟨f, d, hlink, hstart⟩ := s.resetStep_link k
  have hjob : (s.resetStep k).job = Job.reset := hturn.job.trans h.job
  have hstore : (s.resetStep k).store = Store.reset := hturn.store.trans h.store
  have hholder := hturn.holder.trans h.holder
  have hjournal : (s.resetStep k).journal = Journal.scan (s.journal.memAfterReset s.free) := hturn.journal.trans h.journal
  obtain ⟨-, hqueue, hblocked, -⟩ := Journal.scan_idle (s.journal.memAfterReset s.free)
  refine ⟨hturn.params.trans h.params, fun i => ?_, ?_, fun c => ?_, ?_, ⟨hpass, hrapid, hgen, hset⟩,
    hturn.thread.trans h.thread, hturn.slug.trans h.slug, ?_, s.resetStep_modes k, s.resetStep_lineRec k, hen, hin, hout,
    hpend, ?_, ?_, fun hw he => ?_, ?_, ?_, hturn.pending.trans h.pending⟩
  · exact (hturn.contour i).trans ((h.contour i).trans (Vector.getElem_replicate ..))
  · rw [hjob]
    exact ⟨rfl, rfl, rfl, rfl⟩
  · rw [chain, hstore]
    exact Vector.getElem_replicate ..
  · rw [hstore]
    exact ⟨rfl, rfl, rfl, fun n => Vector.getElem_replicate ..⟩
  · rw [hholder]
    exact s.cleared_holder k
  · have hact : (s.resetStep k).active .slugPresent = (s.lineRec .slugPresent).input := by
      rw [active, resetStep_lineRec]
      rfl
    rw [hact]
    rcases hturn.reference with hr | hr
    · rw [hr]
      exact congrArg Sensors.slugReference h.sensors
    · rw [hr, h.active, cleared_active]
  · rw [hjournal]
    exact ⟨hqueue, hblocked⟩
  · rw [hjournal, Journal.memAfterReset, hw, he]
    exact Journal.scan_scanned s.journal.mem
  · rw [hlink]
    cases k <;> exact ⟨rfl, rfl, rfl, rfl, rfl, rfl⟩
  · rw [hlink]
    exact hstart

end State

/-- Settles O6: every block is in its reset state, and at power-on nothing of position, holder and cause is kept. -/
theorem powerOnLeavesResetState : Obligations.PowerOnLeavesResetState := by
  intro s
  obtain ⟨f, d, hlink, -⟩ := s.resetStep_link .powerOn
  have hholder : (s.resetStep .powerOn).holder = Holder.reset :=
    (s.resetStep_firstTurn .powerOn).holder.trans (s.resetBy_stirs .powerOn).holder
  refine ⟨s.resetStep .powerOn, rfl, s.resetLeft .powerOn, (s.resetStep_path .powerOn).2.2.2.2, ?_, ?_, ?_⟩
  · rw [hholder]; rfl
  · rw [hholder]; rfl
  · rw [hlink]
    exact ⟨rfl, rfl, rfl⟩

/-- Settles O7: every block is in its reset state, and the line keeps the position, the held holder and the other
causes. -/
theorem resetLineKeepsPositionAndHolder : Obligations.ResetLineKeepsPositionAndHolder := by
  intro s
  obtain ⟨f, d, hlink, -⟩ := s.resetStep_link .line
  have hholder : (s.resetStep .line).holder = s.holder.afterReset .line (s.lineRec .holderEngaged).input :=
    (s.resetStep_firstTurn .line).holder.trans (s.resetBy_stirs .line).holder
  refine ⟨s.resetStep .line, rfl, s.resetLeft .line, ⟨(s.resetStep_path .line).2.2.2.2, ?_⟩, ?_⟩
  · rw [hholder]
    cases (s.lineRec .holderEngaged).input <;> exact ⟨rfl, rfl⟩
  · rw [hlink]
    exact ⟨rfl, rfl, rfl⟩

end Sys2Proof.Machine
end

section
/-! SUPPORT. The end of an event, and a fault of the current contour (R88, R89, R174). -/

set_option Elab.async false

namespace Sys2Proof.Machine.State

variable {s t : State}

/-! ## What the transmitter's turn leaves unchanged -/

section
variable (h : s.Sends t)
include h

theorem Sends.params : t.params = s.params := by rw [h.rest]
theorem Sends.contour (i : Slot) : t.contour i = s.contour i := by rw [h.rest]; rfl
theorem Sends.job : t.job = s.job := by rw [h.rest]
theorem Sends.store : t.store = s.store := by rw [h.rest]
theorem Sends.chain (c : ChainId) : t.chain c = s.chain c := by rw [State.chain, h.store, State.chain]
theorem Sends.thread : t.thread = s.thread := by rw [h.rest]
theorem Sends.slug : t.slug = s.slug := by rw [h.rest]
theorem Sends.holder : t.holder = s.holder := by rw [h.rest]
theorem Sends.modes : t.modes = s.modes := by rw [h.rest]

theorem Sends.path : t.path = { s.path with pass := t.path.pass } := by
  obtain ⟨f, -, e⟩ := h.pass
  rw [e]

theorem Sends.genOn : t.path.genOn = s.path.genOn := by rw [h.path]
theorem Sends.commanded : t.path.commanded = s.path.commanded := by rw [h.path]
theorem Sends.genSetting : t.path.genSetting = s.path.genSetting := by rw [h.path]

theorem Sends.pass_none (hp : s.path.pass = none) : t.path.pass = none := by
  obtain ⟨f, -, e⟩ := h.pass
  rw [e, hp]
  rfl

theorem Sends.pass_some {r : RunPass} (hp : s.path.pass = some r) :
    ∃ n, t.path.pass = some { r with segsCompleted := n } := by
  obtain ⟨f, hf, e⟩ := h.pass
  exact ⟨(f r).segsCompleted, by rw [e, hp]; exact congrArg some (hf r)⟩

end

/-! ## An event that ends with its reports -/

/-- The rest of an event, from a state with one report to work off. -/
theorem finish_report {r : Report} (ha : s.agenda = []) (h : (s.handle r).agenda = []) :
    (s.report r).finish = (s.handle r).arbitrate := by
  have he : (s.report r).agenda = [r] := by
    rw [report, withAgenda_agenda, ha]
    rfl
  have hs : (s.report r).withAgenda [] = s := by
    rw [← ha]
    rfl
  rw [finish, settle, Config.reportsPerStep, settleGo_cons _ he, hs, settleGo_nil _ h]

theorem event_eq (h : s.Steady) (f : State → State) : s.event f = (f s).finish := by rw [event, begin_steady s h]

/-! ## The current contour has left for good -/

/-- What a state keeps that has left its current contour behind, no contour waiting. -/
structure HasLeft (i : Slot) (f : Contour → Contour) (s t : State) : Prop where
  contour : t.contour i = (s.contour i).map f
  others : ∀ j, j ≠ i → t.contour j = s.contour j
  job : t.job.state = .complete ∧ t.job.current = none
  pass : t.path.pass = none
  genOff : t.path.genOn = false
  thread : t.thread = none
  commanded : t.path.commanded = s.path.commanded
  store : t.store = s.store
  agenda : t.agenda = []

theorem Stirs.hasLeft {i : Slot} {f : Contour → Contour} {m : ModeUnit} {j : Journal} (h : (s.left i f m j).Stirs t) :
    HasLeft i f s t where
  contour := (h.contour i).trans (contour_onContour_same s i f)
  others k hk := (h.contour k).trans (contour_onContour_ne s hk f)
  job := by rw [h.job]; exact ⟨rfl, rfl⟩
  pass := h.pass_none rfl
  genOff := h.genOff rfl
  thread := h.thread
  commanded := h.commanded
  store := h.store
  agenda := h.agenda

/-- The state in which a fault ends the work on the current contour: the condition raised, HOLD forced (R88). -/
def faulting (s : State) (f : FaultReason) : State :=
  let t := if f.raisesContourFault then s.raise .contourFault else s
  if f.forcesHold then t.forceHold else t

theorem faulting_stirs (s : State) (f : FaultReason) : s.Stirs (s.faulting f) := by
  have h : s.Stirs (if f.raisesContourFault then s.raise .contourFault else s) := by
    split
    · exact (raise_flags s _).toStirs
    · exact .refl s
  rw [faulting]
  split
  · exact h.trans (forceHold_stirs _)
  · exact h

theorem faulting_raised {f : FaultReason} (hf : f.raisesContourFault = true) :
    ((s.faulting f).cond .contourFault).latch = (s.faulting f).raisedLatch .contourFault := by
  rw [faulting, if_pos hf]
  have h : ((s.raise .contourFault).cond .contourFault).latch = (s.raise .contourFault).raisedLatch .contourFault :=
    (raise_raised .contourFault rfl).trans ((raise_flags s .contourFault).raised _).symm
  split
  · exact (forceHold_stirs _).latch_eq h
  · exact h

/-- A fault of the current contour, no contour waiting: it has left, and CONTOUR_FAULT has been raised (R88, R89). -/
theorem faultCurrent_left {i : Slot} {f : FaultReason} (hc : s.job.current = some i)
    (hn : (s.onContour i fun c => { c with state := f.leaves, fault := some f }).NoneWaiting) :
    ∃ m j, ((s.faulting f).left i (fun c => { c with state := f.leaves, fault := some f }) m j).Stirs (s.faultCurrent f) ∧
      (s.thread = none → m = (s.faulting f).modes) := by
  have h := s.faulting_stirs f
  have hn' : ((s.faulting f).onContour i fun c => { c with state := f.leaves, fault := some f }).NoneWaiting := by
    intro k c hk
    refine hn k c ?_
    rwa [contour, onContour, setContour, withContours_contours, h.contours, h.contour] at hk
  obtain ⟨m, j, hl, hm⟩ := leave_stirs (s.faulting f) i _ hn'
  have e : s.faultCurrent f = (((((s.faulting f).endWork i).changeContour i fun c =>
      { c with state := f.leaves, fault := some f }).dropCurrent).choose) := by
    rw [faultCurrent, hc]
    rfl
  exact ⟨m, j, e ▸ hl, fun ht => hm (.inl (h.thread.trans ht))⟩

/-! ## The pull that ends a stage times out (R81, R104) -/

theorem timing_eq {h : Threading} {st : ThreadStep} (ht : s.thread = some h) (hs : h.step = st) (htm : h.timer.isSome = true)
    (hh : h.held = false) : s.timing st = true := by
  simp [timing, ht, hs, htm, hh]

theorem pullTimedOut_eq (h : s.timing .unthreadPull = true) (hm : s.modes.mode = .run) :
    s.pullTimedOut = (s.withThread none).report .pullTimedOut := by
  obtain ⟨m, e, hsame⟩ := parkIfDue_eq (s.threadIdle.report .pullTimedOut)
  have hm' : m = s.modes := hsame (.inr (by show s.modes.mode ≠ .hold; rw [hm]; decide))
  rw [pullTimedOut, if_pos h, e, hm']
  rfl

end Sys2Proof.Machine.State

namespace Sys2Proof.Machine

/-- The timeout of the pull at a stage's end faults the contour (R81, R88, R104). -/
theorem pullTimeout_faults (h : Threading) (i : Slot) (c : Contour) (s : State) (hs : s.Steady) (ht : s.thread = some h)
    (hh : h.held = false) (hst : h.step = .unthreadPull) (htm : h.timer.isSome = true) (hm : s.modes.mode = .run)
    (hc : s.job.current = some i) (hci : s.contour i = some c) (hen : (s.cond .contourFault).enable = true)
    (hn : s.NoneWaiting) :
    ∃ u : State, exec .pullTimeoutExpiry s = .next u ∧
      u.contour i = some { c with state := .faulted, fault := some .unthreadFailed } ∧
      (∀ j, j ≠ i → u.contour j = s.contour j) ∧ u.modes.mode = .hold ∧ u.thread = none ∧
      (u.cond .contourFault).latch = true ∧ u.job.state = .complete ∧ u.job.current = none ∧
      u.store = s.store ∧ u.path.commanded = s.path.commanded := by
  have hn' : ((s.withThread none).onContour i fun c =>
      { c with state := .faulted, fault := some .unthreadFailed }).NoneWaiting :=
    State.noneWaiting_onContour (s := s.withThread none) hn i fun _ => ⟨nofun, nofun⟩
  obtain ⟨m, j, hl, hmode⟩ := State.faultCurrent_left (s := s.withThread none) (f := .unthreadFailed) hc hn'
  have hf := (s.withThread none).faulting_stirs .unthreadFailed
  have hraised := hl.latch_eq (c := .contourFault) ((s.withThread none).faulting_raised (f := .unthreadFailed) rfl)
  have henable := (hl.enable .contourFault).trans ((hf.enable .contourFault).trans hen)
  have hmodes : ((s.withThread none).faulting .unthreadFailed).modes.mode = .hold := by
    have hr : ((s.withThread none).raise .contourFault).modes.mode = .run := by
      show ((s.withThread none).latch .contourFault).modes.mode = .run
      rw [State.latch_modes _ _ (by show s.modes.mode ≠ .park; rw [hm]; decide)]
      exact hm
    show (((s.withThread none).raise .contourFault).forceHold).modes.mode = .hold
    rw [State.forceHold_mode hr]
  have hleft := hl.hasLeft
  have hend := hl.modes_of_hold (by show m.mode = .hold; rw [hmode rfl, hmodes])
  have e : s.event State.pullTimedOut = ((s.withThread none).faultCurrent .unthreadFailed).arbitrate := by
    rw [State.event_eq hs, State.pullTimedOut_eq (State.timing_eq ht hst htm hh) hm]
    exact State.finish_report (s := s.withThread none) (r := .pullTimedOut) hs.1 hleft.agenda
  generalize (s.withThread none).faultCurrent .unthreadFailed = w at hleft e hraised henable hend
  have ha := w.arbitrate_sends
  refine ⟨w.arbitrate, congrArg _ e, ?_, fun j hj => ?_, ?_, ha.thread.trans hleft.thread, ?_, ?_, ?_, ?_, ?_⟩
  · rw [ha.contour, hleft.contour, hf.contour]
    exact congrArg (Option.map _) hci
  · rw [ha.contour, hleft.others j hj, hf.contour]
    rfl
  · rw [ha.modes, hend]
    exact (congrArg ModeUnit.mode (hmode rfl)).trans hmodes
  · rw [ha.latch, hraised, State.raisedLatch, henable]
    simp
  · rw [ha.job, hleft.job.1]
  · rw [ha.job, hleft.job.2]
  · rw [ha.store, hleft.store, hf.store]
    rfl
  · rw [ha.commanded, hleft.commanded, hf.commanded]
    rfl

end Sys2Proof.Machine
end

section
/-! SUPPORT. The end of a stage (R81, R104, R36): the line that ends the pull, the contour's change, the chains freed and
the choice. -/

set_option Elab.async false

namespace Sys2Proof.Machine.State

variable {s t : State}

/-! ## LOWER_DETECT ends the pull (R104, R150) -/

theorem matches_eq (p : Polarity) (b : Bool) : p.matches b = (decide (p = .activeHigh) == b) := by
  cases p <;> cases b <;> rfl

/-- The end of a running hold gives the line its new active value, and the blocks that read it take the change (R150). -/
theorem filterExpiry_turns {l : Line} {v : Bool} (h : s.Turns l v) : s.filterExpiry l = (s.turned l v).lineChanged l := by
  obtain ⟨hhold, hact, hm⟩ := h
  rw [← matches_eq] at hm
  have hne : ¬ v = s.active l := by
    rw [active, hact]
    cases v <;> decide
  rw [filterExpiry, if_pos hhold, takeLevel, putLine, hm]
  dsimp only
  rw [if_neg hne]
  rfl

theorem turned_active (s : State) (l : Line) (v : Bool) : (s.turned l v).active l = v := by
  rw [active, turned, lineRec_setLine_same]

/-- The pull is complete: the unit is IDLE, and a deferred PARK may be entered. -/
theorem lowerDetect_endsPull {h : Threading} (ht : s.thread = some h) (hh : h.held = false) (hs : h.step = .unthreadPull)
    (htm : h.timer.isSome = true) (hl : s.active .lowerDetect = false) :
    ∃ m, s.threadLowerDetect = ((s.withThread none).withModes m).report .withdrawn := by
  have hp : s.timing .unthreadPull = true := timing_eq ht hs htm hh
  have hf : s.timing .feed = false := by simp [timing, ht, hs]
  obtain ⟨m, e, -⟩ := parkIfDue_eq s.pullComplete
  refine ⟨m, ?_⟩
  rw [threadLowerDetect, hf, hp, hl]
  exact e

/-! ## The contour's change at the end of a stage (R81) -/

/-- The change of the contour that a stage's end makes: BRIDGED with the watch disarmed where its SEVER pass is to come,
DONE otherwise. -/
def stageState (s : State) (i : Slot) (c : Contour) : State :=
  if c.defn.bridge.isSome && !onSever c then
    ((s.changeContour i fun c => { c with state := .bridged }).setRetention i .bridged).disarmWatch
  else s.changeContour i fun c => { c with state := .done }

/-- What a state keeps in which only the record of one contour has changed, flags, journal and link apart. -/
structure Rewrites (i : Slot) (k : Option Contour) (s t : State) : Prop where
  contour : t.contour i = k
  others : ∀ j, j ≠ i → t.contour j = s.contour j
  job : t.job = { s.job with lastChanged := t.job.lastChanged }
  store : t.store = s.store
  thread : t.thread = s.thread
  agenda : t.agenda = s.agenda

theorem changeContour_rewrites {i : Slot} {c : Contour} (hc : s.contour i = some c) (f : Contour → Contour) :
    Rewrites i (some (f c)) s (s.changeContour i f) := by
  have h : Stirs _ (s.changeContour i f) := (contourChanged_flags (s.onContour i f) i).toStirs
  refine ⟨?_, fun j hj => ?_, by rw [h.job]; rfl, h.store, h.thread, h.agenda⟩
  · exact (h.contour i).trans ((contour_onContour_same s i f).trans (by rw [hc]; rfl))
  · exact (h.contour j).trans (contour_onContour_ne s hj f)

theorem stageState_bridged {i : Slot} {c : Contour} (hc : s.contour i = some c) (hb : (c.defn.bridge.isSome && !onSever c) = true) :
    Rewrites i (some { c with state := .bridged, retention := .bridged }) s (s.stageState i c) ∧
      (s.stageState i c).slug.watch = none := by
  have h := changeContour_rewrites hc fun c => { c with state := .bridged }
  rw [stageState, if_pos hb]
  generalize s.changeContour i (fun c => { c with state := .bridged }) = u at h
  refine ⟨⟨?_, fun j hj => ?_, h.job, h.store, h.thread, h.agenda⟩, rfl⟩
  · exact (contour_onContour_same u i _).trans (by rw [h.contour]; rfl)
  · exact (contour_onContour_ne u hj _).trans (h.others j hj)

theorem stageState_done {i : Slot} {c : Contour} (hc : s.contour i = some c) (hb : (c.defn.bridge.isSome && !onSever c) = false) :
    Rewrites i (some { c with state := .done }) s (s.stageState i c) := by
  rw [stageState, if_neg (by rw [hb]; decide)]
  exact changeContour_rewrites hc fun c => { c with state := .done }

/-! ## The stage is over -/

/-- The part at the end of a stage, before the choice. -/
def stageOver (s : State) (i : Slot) (c : Contour) : State :=
  (((passesFrom s.job.stageFrom c.passIndex).foldl (fun u n => u.freePass i c n) (s.stageState i c)).onJob fun j =>
    { j with work := none, due := false }).dropCurrent

theorem curContour_eq {i : Slot} {c : Contour} (hi : s.job.current = some i) (hc : s.contour i = some c) :
    s.curContour = some c := by
  rw [curContour, hi]
  exact hc

theorem stageDone_eq {i : Slot} {c : Contour} (hi : s.job.current = some i) (hc : s.contour i = some c) :
    s.stageDone = (s.stageOver i c).choose := by
  rw [stageDone, curContour_eq hi hc, hi]
  rfl

theorem mem_passesFrom {a b n : Nat} : n ∈ passesFrom a b ↔ a ≤ n ∧ n ≤ b := by
  simp only [passesFrom, List.mem_map, List.mem_range]
  constructor
  · rintro ⟨m, hm, rfl⟩
    omega
  · rintro ⟨h1, h2⟩
    exact ⟨n - a, by omega, by omega⟩

/-- What the end of a stage leaves before the choice: the contour's new record, its chains freed, none current. -/
structure StageOver (i : Slot) (c : Contour) (k : Option Contour) (s t : State) : Prop where
  contour : t.contour i = k
  others : ∀ j, j ≠ i → t.contour j = s.contour j
  freed : StageFreed i c s t
  current : t.job.current = none
  thread : t.thread = s.thread
  agenda : t.agenda = s.agenda

theorem stageOver_over {i : Slot} {c : Contour} {k : Option Contour} (h : Rewrites i k s (s.stageState i c)) :
    StageOver i c k s (s.stageOver i c) ∧ (s.stageOver i c).slug = (s.stageState i c).slug := by
  have hf := foldl_freePass_frees i c (passesFrom s.job.stageFrom c.passIndex) (s.stageState i c)
  have hd : Stirs _ (s.stageOver i c) := (dropCurrent_flags _).toStirs
  generalize (passesFrom s.job.stageFrom c.passIndex).foldl (fun u n => u.freePass i c n) (s.stageState i c) = v at hf hd
  generalize s.stageOver i c = t at hd
  generalize s.stageState i c = u at h hf
  have hcon (j : Slot) : t.contour j = u.contour j := by
    rw [hd.contour]
    show v.contour j = _
    rw [hf.rest]
    rfl
  have hch (ch : ChainId) : t.chain ch = v.chain ch := hd.chain ch
  have hs (ch : ChainId) : u.chain ch = s.chain ch := by rw [State.chain, h.store, State.chain]
  have hbinds (n : Nat) (ch : ChainId) : c.Binds i u n ch ↔ c.Binds i s n ch := by rw [Contour.Binds, Contour.Binds, hs]
  refine ⟨⟨(hcon i).trans h.contour, fun j hj => (hcon j).trans (h.others j hj), ⟨fun n hn hn' q hq hb => ?_,
    fun ch hno => ?_, ?_⟩, by rw [hd.job]; rfl, ?_, ?_⟩, ?_⟩
  · exact (hch q.chain).trans (hf.freed q.chain ⟨n, mem_passesFrom.mpr ⟨hn', hn⟩, (hbinds n _).mpr ⟨q, hq, rfl, hb⟩⟩)
  · refine (hch ch).trans ((hf.kept ch fun n hn hb => ?_).trans (hs ch))
    obtain ⟨h1, h2⟩ := mem_passesFrom.mp hn
    obtain ⟨q, hq, hqc, hbd⟩ := (hbinds n ch).mp hb
    exact hno n h2 h1 q hq hqc hbd
  · rw [credit_eq, credit_eq, hd.store, ← h.store]
    exact hf.credit
  · rw [hd.thread, ← h.thread]
    show v.thread = _
    rw [hf.rest]
    rfl
  · rw [hd.agenda, ← h.agenda]
    show v.agenda = _
    rw [hf.rest]
    rfl
  · rw [hd.slug]
    show v.slug = _
    rw [hf.rest]
    rfl

/-! ## The choice, where one bridge waits for its release (R71) -/

theorem firstSlot_some {f : Contour → Bool} {i : Slot} {c : Contour} (h : s.contour i = some c) (hf : f c = true) :
    (s.firstSlot f).isSome = true := by
  rw [firstSlot, List.find?_isSome]
  exact ⟨i, List.mem_finRange i, by simp [h, hf]⟩

/-- The only contour with work is BRIDGED and may not yet be severed: the job waits (R71, R72). -/
theorem choose_wait {i : Slot} {c : Contour} (hc : s.contour i = some c) (hst : c.state = .bridged) (he : c.eligible = false)
    (hn : ∀ j k, j ≠ i → s.contour j = some k → k.state ≠ .queued ∧ k.state ≠ .bridged) :
    s.choose = s.setJobState .severWait := by
  have only {f : Contour → Bool} (hf : f c = false)
      (ho : ∀ k : Contour, k.state ≠ .queued → k.state ≠ .bridged → f k = false) : s.firstSlot f = none :=
    firstSlot_none fun j k hk => by
      by_cases hj : j = i
      · subst hj
        rw [← Option.some.inj (hc.symm.trans hk)]
        exact hf
      · exact ho k (hn j k hj hk).1 (hn j k hj hk).2
  have hq : (s.firstSlot fun c => decide (c.state = .queued)) = none :=
    only (by simp [hst]) fun k h1 _ => by simp [h1]
  have hel : s.firstSlot Contour.eligible = none := only he fun k _ h2 => by simp [Contour.eligible, h2]
  have hb : (s.firstSlot fun c => decide (c.state = .bridged)).isSome = true := firstSlot_some hc (by simp [hst])
  rw [choose, choice, hq, hel, hb]
  cases decide (s.job.state = .stageB) <;> rfl

/-! ## The end of the pull (R81, R104) -/

/-- The state in which the end of the pull is reported: the line turned, the threading unit IDLE. -/
def pulled (s : State) (m : ModeUnit) : State := ((s.turned .lowerDetect false).withThread none).withModes m

theorem pulled_handle (s : State) (m : ModeUnit) (hw : s.job.work = some .stageUnthread) :
    (s.pulled m).handle .withdrawn = (s.pulled m).stageDone := by
  show (s.pulled m).wireWithdrawn = _
  rw [wireWithdrawn, show (s.pulled m).job.work = some .stageUnthread from hw]

/-- The job has taken a state; the contours, the chains, the threading unit and the retention unit stand as they did. -/
structure JobTakes (js : JobState) (s t : State) : Prop where
  state : t.job.state = js
  current : t.job.current = s.job.current
  contours : t.contours = s.contours
  store : t.store = s.store
  thread : t.thread = s.thread
  slug : t.slug = s.slug
  agenda : t.agenda = s.agenda

theorem setJobState_takes (s : State) (js : JobState) : JobTakes js s (s.setJobState js) := by
  rw [setJobState]
  split
  · exact ⟨‹_›, rfl, rfl, rfl, rfl, rfl, rfl⟩
  · exact ⟨rfl, rfl, rfl, rfl, rfl, rfl, rfl⟩

theorem completeJob_takes (s : State) : JobTakes .complete s s.completeJob := by
  have h := (completeJob_flags s).toStirs
  exact ⟨by rw [h.job]; rfl, by rw [h.job]; rfl, h.contours, h.store, h.thread, h.slug, h.agenda⟩

/-- The stage is over, the job has taken its next state, and the transmitter has had its turn. -/
theorem StageOver.sent {i : Slot} {c : Contour} {k : Option Contour} {js : JobState} {u v : State} (h : StageOver i c k s u)
    (hj : JobTakes js u v) : v.arbitrate.contour i = k ∧ v.arbitrate.job.state = js ∧ v.arbitrate.slug = u.slug ∧
      StageFreed i c s v.arbitrate ∧ (∀ j, j ≠ i → v.arbitrate.contour j = s.contour j) ∧ v.arbitrate.job.current = none ∧
      v.arbitrate.thread = s.thread := by
  have ha := v.arbitrate_sends
  have hcon (j : Slot) : v.arbitrate.contour j = u.contour j := by
    rw [ha.contour, State.contour, hj.contours, State.contour]
  have hst : v.arbitrate.store = u.store := ha.store.trans hj.store
  have hch (ch : ChainId) : v.arbitrate.chain ch = u.chain ch := by rw [State.chain, hst, State.chain]
  obtain ⟨hfree, hkept, hcredit⟩ := h.freed
  refine ⟨(hcon i).trans h.contour, by rw [ha.job, hj.state], ha.slug.trans hj.slug,
    ⟨fun n hn hn' q hq hb => (hch _).trans (hfree n hn hn' q hq hb), fun ch hno => (hch ch).trans (hkept ch hno), ?_⟩,
    fun j hne => (hcon j).trans (h.others j hne), by rw [ha.job, hj.current, h.current],
    ha.thread.trans (hj.thread.trans h.thread)⟩
  rw [credit_eq, hst, ← credit_eq]
  exact hcredit

end Sys2Proof.Machine.State

namespace Sys2Proof.Machine

/-- The end of the line's hold, as an event that ends the stage. -/
theorem unthread_event {i : Slot} {c : Contour} {h : Threading} {s : State} (hs : s.Steady) (ht : s.thread = some h)
    (hh : h.held = false) (hst : h.step = .unthreadPull) (htm : h.timer.isSome = true) (hi : s.job.current = some i)
    (hc : s.contour i = some c) (hw : s.job.work = some .stageUnthread) (hturn : s.Turns .lowerDetect false) :
    ∃ m, (((s.pulled m).stageOver i c).choose.agenda = [] →
      exec (.lineFilterExpiry .lowerDetect) s = .next ((s.pulled m).stageOver i c).choose.arbitrate) := by
  obtain ⟨m, e⟩ := State.lowerDetect_endsPull (s := s.turned .lowerDetect false) ht hh hst htm (s.turned_active _ _)
  refine ⟨m, fun hag => ?_⟩
  have hdone := (s.pulled_handle m hw).trans (State.stageDone_eq (s := s.pulled m) hi hc)
  rw [← hdone] at hag ⊢
  have hev : s.event (fun t => t.filterExpiry .lowerDetect) = (((s.pulled m).report .withdrawn)).finish := by
    rw [State.event_eq hs, State.filterExpiry_turns hturn, State.lineChanged, e]
    rfl
  exact congrArg _ (hev.trans (State.finish_report (s := s.pulled m) hs.1 hag))

/-- The completion of the pull ends the stage (R36, R81, R104). -/
theorem unthreadEndsTheStage (i : Slot) (c : Contour) (h : Threading) (s : State) (hs : s.Steady) :
    UnthreadEndsTheStage i c h s := by
  intro ht hh hst htm hi hc hcs hw hturn hn
  obtain ⟨m, hev⟩ := unthread_event hs ht hh hst htm hi hc hw hturn
  have hci : (s.pulled m).contour i = some c := hc
  have hsever : (c.defn.bridge.isSome && !State.onSever c) = true ↔
      c.defn.bridge.isSome = true ∧ c.pass.map (·.role) ≠ some .sever := by
    simp [State.onSever]
  have hothers {k : Contour} (hover : State.StageOver i c (some k) (s.pulled m) ((s.pulled m).stageOver i c)) (j : Slot)
      (d : Contour) (hj : j ≠ i) (hd : ((s.pulled m).stageOver i c).contour j = some d) :
      d.state ≠ .queued ∧ d.state ≠ .bridged := hn j d ((hover.others j hj).symm.trans hd)
  refine ⟨fun hsv ⟨hatt, hrel⟩ => ?_, fun hsv => ?_⟩
  · obtain ⟨hrw, hwatch⟩ := State.stageState_bridged hci (hsever.mpr hsv)
    obtain ⟨hover, hslug⟩ := State.stageOver_over hrw
    have hel : ({ c with state := .bridged, retention := .bridged } : Contour).eligible = false := by
      rw [ContourDef.attended] at hatt
      rw [Contour.eligible]
      cases hb : c.defn.bridge with
      | none => simp
      | some b => simp [hb, hrel] at hatt ⊢; simp [hatt]
    have hch := State.choose_wait hover.contour rfl hel (hothers hover)
    have hj := State.setJobState_takes ((s.pulled m).stageOver i c) .severWait
    rw [← hch] at hj
    obtain ⟨hcon, hjs, hsl, hfr, hoth, hcur, hth⟩ := hover.sent hj
    exact ⟨_, hev (hj.agenda.trans (hover.agenda.trans hs.1)), hcon, hjs, by rw [hsl, hslug, hwatch], hfr, hoth, hcur, hth⟩
  · obtain ⟨hover, -⟩ := State.stageOver_over (State.stageState_done hci (Bool.eq_false_iff.mpr (mt hsever.mp hsv)))
    have hch : ((s.pulled m).stageOver i c).choose = ((s.pulled m).stageOver i c).completeJob :=
      State.choose_complete fun j d hd => by
        by_cases hj : j = i
        · subst hj
          obtain rfl := Option.some.inj (hover.contour.symm.trans hd)
          exact ⟨nofun, nofun⟩
        · exact hothers hover j d hj hd
    have hj := State.completeJob_takes ((s.pulled m).stageOver i c)
    rw [← hch] at hj
    obtain ⟨hcon, hjs, -, hfr, hoth, hcur, hth⟩ := hover.sent hj
    exact ⟨_, hev (hj.agenda.trans (hover.agenda.trans hs.1)), hcon, hjs, hfr, hoth, hcur, hth⟩

end Sys2Proof.Machine
end

section
/-! SUPPORT. A taken sample that carries s to the pass end (R52, R57): what the servo, the front, the checkpoint and the
level conditions keep, and the state in which the pass end is reported. -/

set_option Elab.async false

namespace Sys2Proof.Machine

/-! ## Room in the journal (R165) -/

/-- The journal writes the next records offered, up to a number of them, without a roll. -/
def Journal.Room (j : Journal) (n : Nat) : Prop :=
  j.active.isSome = true ∧ j.queue = [] ∧ j.blocked = false ∧ j.nextSlot + n < 128 ∧
    ∃ m, j.nextSeq = some m ∧ m + n ≤ Config.maxSequence

theorem State.JournalRoom.room {s : State} (h : s.JournalRoom) : s.journal.Room 2 := by
  obtain ⟨ha, hq, hb, hs, m, hm, hmax⟩ := h
  exact ⟨ha, hq, hb, by omega, m, hm, hmax⟩

theorem Journal.Room.mono {j : Journal} {n m : Nat} (h : j.Room n) (hm : m ≤ n) : j.Room m := by
  obtain ⟨ha, hq, hb, hs, k, hk, hmax⟩ := h
  exact ⟨ha, hq, hb, by omega, k, hk, by omega⟩

/-- An offer to a journal with room is written, and leaves room for one record less. -/
theorem Journal.Room.take {j : Journal} {n : Nat} (h : j.Room (n + 1)) (r : JRecord) : (j.take r).Room n := by
  obtain ⟨ha, hq, hb, hs, m, hm, hmax⟩ := h
  obtain ⟨p, hp⟩ := Option.isSome_iff_exists.mp ha
  have hne : m ≠ Config.maxSequence := by omega
  have hcan : (j.canWrite && j.queue.isEmpty) = true := by
    rw [Journal.canWrite, hp, hm, hq]
    simp only [Option.isSome_some, Bool.and_true, Bool.true_and, List.isEmpty_nil, decide_eq_true_eq]
    omega
  have hw : j.writeRecord r = { j with
      mem := slotWrite j.mem p j.nextSlot (recordBytes m r), nextSlot := j.nextSlot + 1, nextSeq := some (m + 1)
      writing := some (p, j.nextSlot) } := by
    simp only [Journal.writeRecord, hp, hm, Journal.seqAfter, if_neg hne]
  have happ : j.append r = j.writeRecord r := by
    rw [Journal.append]
    refine if_neg ?_
    rw [hw]
    dsimp only
    omega
  have hqueue : (j.writeRecord r).queue = [] := by rw [hw]; exact hq
  have hdrain : (j.writeRecord r).drain = { j.writeRecord r with blocked := false } := by
    rw [Journal.drain, hqueue]
    simp [Journal.drainGo, hqueue]
  rw [Journal.take, if_pos hcan, happ, hdrain]
  refine ⟨?_, hqueue, rfl, ?_, m + 1, ?_, by omega⟩
  · rw [hw]; exact ha
  · rw [hw]
    show j.nextSlot + 1 + n < 128
    omega
  · rw [hw]

namespace State

variable {s t u : State}

/-! ## Calm steps -/

/-- Between two states no condition has lost its enable, and where no cause of a hold stands and the journal has room for
the records offered in between, the mode is kept. -/
structure Calm (n : Nat) (s t : State) : Prop where
  raised : ∀ c, t.raisedLatch c = s.raisedLatch c
  calm : s.modes.mode ≠ .park → s.NoHoldCause → ∀ m, s.journal.Room (n + m) →
    t.modes = s.modes ∧ t.NoHoldCause ∧ t.journal.Room m

theorem Calm.trans {n m : Nat} (h : Calm n s t) (g : Calm m t u) : Calm (n + m) s u where
  raised c := (g.raised c).trans (h.raised c)
  calm hm hc k hr := by
    rw [Nat.add_assoc] at hr
    obtain ⟨h1, h2, h3⟩ := h.calm hm hc _ hr
    obtain ⟨g1, g2, g3⟩ := g.calm (h1 ▸ hm) h2 k h3
    exact ⟨g1.trans h1, g2, g3⟩

theorem Flags.calmly (h : s.Flags t) : Calm 0 s t where
  raised := h.raised
  calm hm hc k hr := by
    obtain ⟨h1, h2⟩ := h.calm hm hc
    rw [Nat.zero_add] at hr
    exact ⟨h1, h2, h.journal ▸ hr⟩

/-- Where neither conditions, mode, parameters, lines nor journal have changed. -/
theorem Calm.of_same (hc : t.conds = s.conds) (hm : t.modes = s.modes) (hp : t.params = s.params)
    (hs : t.sensors = s.sensors) (hj : t.journal = s.journal) : Calm 0 s t where
  raised c := by rw [raisedLatch, raisedLatch, cond, hc, hp, cond]
  calm _ h k hr := by
    rw [Nat.zero_add] at hr
    exact ⟨hm, h.congr (fun c _ => by rw [cond, hc, cond]) hs (by rw [hj]), hj ▸ hr⟩

theorem offer_calm (s : State) (r : JRecord) : Calm 1 s (s.offer r) where
  raised c := (offer_flags s r).raised c
  calm hm hc k hr := by
    rw [Nat.add_comm] at hr
    have hroom : (s.onJournal fun j => j.take r).journal.Room k := hr.take r
    have hb := hroom.2.2.1
    obtain ⟨h1, h2⟩ := (offer_flags s r).calm hm (hc.congr (fun _ _ => rfl) rfl (hb.trans hc.2.2.2.2.2.symm))
    exact ⟨h1, h2, (offer_flags s r).journal ▸ hroom⟩

/-! ## What stands during a sample -/

/-- The blocks that a sample leaves alone stand as they did. -/
structure Stays (n : Nat) (s t : State) : Prop extends Calm n s t where
  params : t.params = s.params
  job : t.job = s.job
  store : t.store = s.store
  thread : t.thread = s.thread
  slug : t.slug = s.slug
  holder : t.holder = s.holder
  sensors : t.sensors = s.sensors
  agenda : t.agenda = s.agenda
  genSetting : t.path.genSetting = s.path.genSetting

theorem Stays.trans {n m : Nat} (h : Stays n s t) (g : Stays m t u) : Stays (n + m) s u where
  toCalm := h.toCalm.trans g.toCalm
  params := g.params.trans h.params
  job := g.job.trans h.job
  store := g.store.trans h.store
  thread := g.thread.trans h.thread
  slug := g.slug.trans h.slug
  holder := g.holder.trans h.holder
  sensors := g.sensors.trans h.sensors
  agenda := g.agenda.trans h.agenda
  genSetting := g.genSetting.trans h.genSetting

theorem Stays.mono {n m : Nat} (h : Stays n s t) (hm : n ≤ m) : Stays m s t :=
  { h with calm := fun h1 h2 k hr => h.calm h1 h2 k (hr.mono (by omega)) }

theorem Stays.chain {n : Nat} (h : Stays n s t) (c : ChainId) : t.chain c = s.chain c := by
  rw [State.chain, h.store, State.chain]

theorem Stays.active {n : Nat} (h : Stays n s t) (l : Line) : t.active l = s.active l := by
  rw [State.active, lineRec, h.sensors, State.active, lineRec]

/-- Besides, the contours, the commanded position and, flags apart, the running pass stand as they did. -/
structure Still (n : Nat) (s t : State) : Prop extends Stays n s t where
  contours : t.contours = s.contours
  commanded : t.path.commanded = s.path.commanded
  pass : ∃ f : RunPass → RunPass, (∀ r : RunPass, (f r).chain = r.chain ∧ (f r).s = r.s ∧
    (f r).stuckCount ≤ r.stuckCount) ∧ t.path.pass = s.path.pass.map f

theorem Still.trans {n m : Nat} (h : Still n s t) (g : Still m t u) : Still (n + m) s u where
  toStays := h.toStays.trans g.toStays
  contours := g.contours.trans h.contours
  commanded := g.commanded.trans h.commanded
  pass := by
    obtain ⟨f, hf, e⟩ := h.pass
    obtain ⟨f', hf', e'⟩ := g.pass
    refine ⟨f' ∘ f, fun r => ?_, by rw [e', e, Option.map_map]⟩
    obtain ⟨h1, h2, h3⟩ := hf r
    obtain ⟨g1, g2, g3⟩ := hf' (f r)
    exact ⟨g1.trans h1, g2.trans h2, g3.trans h3⟩

theorem Still.contour {n : Nat} (h : Still n s t) (i : Slot) : t.contour i = s.contour i := by
  rw [State.contour, h.contours, State.contour]

theorem Still.curContour {n : Nat} (h : Still n s t) : t.curContour = s.curContour := by
  rw [State.curContour, h.job, State.curContour]
  cases s.job.current with
  | none => rfl
  | some i => exact h.contour i

theorem Still.pass_some {n : Nat} {r : RunPass} (h : Still n s t) (hp : s.path.pass = some r) :
    ∃ p, t.path.pass = some p ∧ p.chain = r.chain ∧ p.s = r.s ∧ p.stuckCount ≤ r.stuckCount := by
  obtain ⟨f, hf, e⟩ := h.pass
  obtain ⟨h1, h2, h3⟩ := hf r
  exact ⟨f r, by rw [e, hp]; rfl, h1, h2, h3⟩

theorem Flags.still (h : s.Flags t) : Still 0 s t where
  toCalm := h.calmly
  params := h.params
  job := h.job
  store := h.store
  thread := h.thread
  slug := h.slug
  holder := h.holder
  sensors := h.sensors
  agenda := h.agenda
  genSetting := h.genSetting
  contours := h.contours
  commanded := h.commanded
  pass := by
    obtain ⟨f, hf, e⟩ := h.pass
    exact ⟨f, fun r => ⟨by rw [(hf r).rest], by rw [(hf r).rest], (hf r).stuck⟩, e⟩

theorem stays_onPass (s : State) (f : RunPass → RunPass) : Stays 0 s (s.onPass f) :=
  ⟨.of_same rfl rfl rfl rfl rfl, rfl, rfl, rfl, rfl, rfl, rfl, rfl, rfl, rfl⟩

theorem still_onPass (s : State) {f : RunPass → RunPass} (hf : ∀ r, (f r).chain = r.chain ∧ (f r).s = r.s ∧
    (f r).stuckCount ≤ r.stuckCount) : Still 0 s (s.onPass f) := ⟨stays_onPass s f, rfl, rfl, f, hf, rfl⟩

theorem still_refl (s : State) : Still 0 s s := (Flags.refl s).still

theorem still_progress (s : State) : Still 0 s s.progress :=
  ⟨⟨.of_same rfl rfl rfl rfl rfl, rfl, rfl, rfl, rfl, rfl, rfl, rfl, rfl, rfl⟩, rfl, rfl, id,
    fun _ => ⟨rfl, rfl, le_refl _⟩, by rw [Option.map_id]; rfl⟩

theorem still_offer (s : State) (r : JRecord) : Still 1 s (s.offer r) := by
  have h := (offer_flags s r).still
  exact ⟨⟨offer_calm s r, h.params, h.job, h.store, h.thread, h.slug, h.holder, h.sensors, h.agenda, h.genSetting⟩,
    h.contours, h.commanded, h.pass⟩

theorem still_complete (s : State) (n : Nat) : Still 0 s (s.complete n) := by
  unfold complete
  split
  · exact still_refl s
  · dsimp only
    split
    · refine (still_onPass s ?_).trans (still_progress _)
      exact fun _ => ⟨rfl, rfl, le_refl _⟩
    · refine still_onPass s ?_
      exact fun _ => ⟨rfl, rfl, le_refl _⟩
  · exact still_refl s

theorem still_checkpoint (s : State) : Still 1 s s.checkpoint := by
  have hr : Still 1 s s := { still_refl s with toStays := (still_refl s).toStays.mono (Nat.zero_le 1) }
  unfold checkpoint
  split
  · split
    · refine (still_onPass s ?_).trans (still_offer _ _)
      exact fun _ => ⟨rfl, rfl, le_refl _⟩
    · exact hr
  · exact hr

theorem still_settlePosition (s : State) : Still 0 s s.settlePosition := by
  unfold settlePosition
  split
  · split
    · exact still_onPass s fun _ => ⟨rfl, rfl, le_refl _⟩
    · exact still_refl s
  · exact still_refl s

end State

end Sys2Proof.Machine
end

section
/-! SUPPORT. The sample that arrives at the pass end, from the servo's step to the report of the end (R52, R54 to R59). -/

set_option Elab.async false

namespace Sys2Proof.Machine

/-- The step of a taken sample, case by case, is the signed step of R55. -/
theorem sampleStep_eq (q : PassRec) (override voltage pulses shorts opens : Nat) :
    State.sampleStep q override (State.sampleCase q pulses shorts opens) voltage =
      stepOf q override voltage pulses shorts opens := by
  rw [State.sampleCase, stepOf]
  by_cases hs : q.shortLimit ≤ shorts
  · simp only [if_pos hs, State.sampleStep]
  · by_cases ho : opens = pulses
    · simp only [if_neg hs, if_pos ho, State.sampleStep, State.rawStep]
    · simp only [if_neg hs, if_neg ho, State.sampleStep, State.rawStep]

namespace State

variable {s t u : State}

/-- Reading slots without an error changes nothing (R41). -/
theorem readSlots_sound {ch : ChainId} {k : Chain} (hk : s.chain ch = some k) (hs : k.Sound) (l : List Nat) :
    readSlots ch l s = (s, true) := by
  induction l with
  | nil => rfl
  | cons n l ih =>
    simp only [readSlots, hk, Option.bind_some]
    cases hg : k.segs[n]? with
    | none => exact ih
    | some g =>
      simp only [hs g (List.mem_of_getElem? hg)]
      exact ih

/-! ## The counts and the floor report (R55 to R59) -/

theorem countSample_still (s : State) (r : RunPass) (c : SampleCase) (floor : Nat) :
    Still 0 (s.onPass fun q => { q with openCount := openAfter r c, stuckCount := stuckAfter r c floor })
      (s.countSample r c floor) := by
  simp only [countSample]
  split
  · exact ((raise_flags _ _).trans (decideGapOpen_flags _)).still
  · exact (decideGapOpen_flags _).still

theorem stuckAfter_le (r : RunPass) (c : SampleCase) (floor : Nat) : stuckAfter r c floor ≤ r.stuckCount + 1 := by
  rw [stuckAfter]
  split <;> omega

theorem reportClamp_still (s : State) (r : RunPass) (floor pos : Nat) : Still 0 s (s.reportClamp r floor pos false) := by
  simp only [reportClamp, Bool.false_and, Bool.false_eq_true, if_false]
  split
  · exact still_onPass s fun _ => ⟨rfl, rfl, le_refl _⟩
  · exact still_refl s

/-! ## The running pass takes a position (R57) -/

/-- The running pass has taken a position: s, the front and the commanded position. -/
structure MovedTo (n : Nat) (i : Slot) (c : Contour) (r : RunPass) (k : Chain) (pos : Nat) (s t : State) : Prop
    extends Stays n s t where
  contour : t.contour i = some { c with front := max c.front pos }
  others : ∀ j, j ≠ i → t.contour j = s.contour j
  commanded : t.path.commanded = k.point pos
  pass : ∃ p, t.path.pass = some p ∧ p.chain = r.chain ∧ p.s = pos ∧ p.stuckCount ≤ r.stuckCount

theorem stays_onContour (s : State) (i : Slot) (f : Contour → Contour) : Stays 0 s (s.onContour i f) :=
  ⟨.of_same rfl rfl rfl rfl rfl, rfl, rfl, rfl, rfl, rfl, rfl, rfl, rfl, rfl⟩

theorem stays_commanded (s : State) (p : Point) : Stays 0 s (s.onPath fun q => { q with commanded := p }) :=
  ⟨.of_same rfl rfl rfl rfl rfl, rfl, rfl, rfl, rfl, rfl, rfl, rfl, rfl, rfl⟩

/-- The front has risen to a position beyond it, with what R66 and R67 make of it, or the position does not lie beyond. -/
theorem raiseFront_moves {i : Slot} {c : Contour} {p : RunPass} (hi : s.job.current = some i) (hc : s.contour i = some c)
    (hp : s.path.pass = some p) (k : Chain) (pos : Nat) : Stays 1 s (s.raiseFront k pos) ∧
      (s.raiseFront k pos).contour i = some { c with front := max c.front pos } ∧
      (∀ j, j ≠ i → (s.raiseFront k pos).contour j = s.contour j) ∧
      ∃ q, (s.raiseFront k pos).path.pass = some q ∧ q.chain = p.chain ∧ q.s = p.s ∧ q.stuckCount ≤ p.stuckCount := by
  have hfront : s.front = c.front := by rw [front, curContour_eq hi hc]
  rw [raiseFront, hfront]
  by_cases h : c.front < pos
  · rw [if_pos h]
    have hcur : (s.onCur fun c => { c with front := pos }) = s.onContour i fun c => { c with front := pos } := by
      rw [onCur, hi]
    have hst := (still_complete (s.onContour i fun c => { c with front := pos })
      (completedBetween k.segs c.front pos)).trans (still_checkpoint _)
    rw [hcur]
    refine ⟨(stays_onContour s i _).trans hst.toStays, ?_, fun j hj => ?_, hst.pass_some hp⟩
    · rw [hst.contour, contour_onContour_same, hc, max_eq_right h.le]
      rfl
    · rw [hst.contour, contour_onContour_ne s hj]
  · rw [if_neg h]
    refine ⟨(still_refl s).toStays.mono (Nat.zero_le 1), ?_, fun _ _ => rfl, p, hp, rfl, rfl, le_refl _⟩
    rw [hc, max_eq_left (Nat.le_of_not_lt h)]

theorem movePass_moves {i : Slot} {c : Contour} {r : RunPass} (hi : s.job.current = some i) (hc : s.contour i = some c)
    (hp : s.path.pass = some r) (k : Chain) (pos : Nat) : MovedTo 1 i c r k pos s (s.movePass k pos) := by
  have hpos := stays_onPass s fun r => { r with s := pos }
  have hp' : (s.onPass fun r => { r with s := pos }).path.pass = some { r with s := pos } := by
    show s.path.pass.map _ = _
    rw [hp]
    rfl
  obtain ⟨hst, hcon, hoth, p, hpp, hch, hs, hstuck⟩ :=
    raiseFront_moves (s := s.onPass fun r => { r with s := pos }) hi hc hp' k pos
  rw [movePass]
  generalize (s.onPass fun r => { r with s := pos }).raiseFront k pos = w at hst hcon hoth hpp
  have hcmd := stays_commanded w (k.point pos)
  have hend := (still_settlePosition (w.onPath fun p => { p with commanded := k.point pos })).trans
    (refreshLevels_flags _).still
  obtain ⟨p', hpp', hch', hs', hstuck'⟩ := hend.pass_some hpp
  exact ⟨((hpos.trans hst).trans hcmd).trans hend.toStays, (hend.contour i).trans hcon,
    fun j hj => (hend.contour j).trans (hoth j hj), hend.commanded, p', hpp', hch'.trans hch, hs'.trans hs,
    hstuck'.trans hstuck⟩

/-! ## The arrival at the pass end (R52) -/

/-- The state in which the pass end is reported, the report taken from the agenda. -/
structure AtPassEnd (i : Slot) (c : Contour) (r : RunPass) (k : Chain) (s t : State) : Prop extends Stays 1 s t where
  contour : t.contour i = some { c with front := max c.front r.stopPoint }
  others : ∀ j, j ≠ i → t.contour j = s.contour j
  pass : ∃ p, t.path.pass = some p
  genOff : t.path.genOn = false
  commanded : t.path.commanded = k.point r.stopPoint

/-- The pass end is the candidate that stops motion there, where the engage point lies elsewhere (R51, R52). -/
theorem stopRow_passEnd {c : Contour} {k : Chain} {pos : Nat} (hk : k.state = .closed)
    (he : pos = c.defn.passEnd c.passIndex k.loaded)
    (hg : c.defn.method = .holder → c.passIndex = c.defn.closingPass → k.loaded - c.defn.engage.getD 0 ≠ pos) :
    s.stopRow c k pos = some .passEnd := by
  have hengage : s.engageCandidate c k pos ≠ some pos := by
    rw [engageCandidate, engagePoint]
    split
    · split
      · rename_i h
        have := hg h.1 h.2
        simp [Option.filter, this]
      · simp
    · nofun
  have hend : endCandidate c k pos = some pos := by
    rw [endCandidate, if_pos hk, ← he]
    simp
  rw [stopRow, if_neg hengage, if_pos hend]

/-- At the pass end its event alone is taken: the generator goes off and the end is reported. -/
theorem arrive_passEnd {c : Contour} {p : RunPass} {k : Chain} (hp : s.path.pass = some p) (hc : s.curContour = some c)
    (hk : s.chain p.chain = some k) (hrow : s.stopRow c k p.s = some .passEnd) (ha : s.agenda = []) :
    s.arrive.agenda = [.passEnd] ∧ Still 0 s (s.arrive.withAgenda []) ∧ (s.arrive.withAgenda []).path.genOn = false := by
  have e : s.arrive = (s.genOff.report .passEnd).refreshLevels := by
    rw [arrive, hp, hc]
    dsimp only
    rw [hk]
    dsimp only
    rw [hrow]
    rfl
  have hoff := genOff_flags s
  have hr := refreshLevels_flags (s.genOff.report .passEnd)
  have hback : (s.genOff.report .passEnd).withAgenda [] = s.genOff := by
    rw [← hoff.agenda.trans ha]
    rfl
  have hr' := hr.apart (apart_withAgenda [])
  rw [hback] at hr'
  rw [e]
  refine ⟨hr.agenda.trans ?_, (hoff.trans hr').still, hr'.genOff rfl⟩
  show s.genOff.agenda ++ [.passEnd] = _
  rw [hoff.agenda, ha]
  rfl

/-- What a sample at its arrival rests on: it is taken, and its step reaches the stop point. -/
theorem gapStep_taken {i : Slot} {c : Contour} {q : PassRec} {r : RunPass} {k : Chain} {voltage pulses shorts opens : Nat}
    (h : s.Arrives i c q r k voltage pulses shorts opens) : s.gapStep voltage pulses shorts opens =
      (s.countSample r (sampleCase q pulses shorts opens) (s.floorOf r)).applySample r k (s.floorOf r)
        (stepOf q s.params.override voltage pulses shorts opens) := by
  obtain ⟨⟨⟨hi, hc, hq, hp, hk, -⟩, hm, hg, hst, hsub, hmode⟩, hpulses, hsum, -⟩ := h
  have hrun : s.runChain = some (r, k) := by 
    rw [runChain, hp]
    exact congrArg (Option.map fun k => (r, k)) hk
  have hcur : s.curContour.bind Contour.pass = some q := by rw [curContour_eq hi hc]; exact hq
  have hcut : s.cutting = true := by
    rw [cutting, curContour_eq hi hc]
    rcases hst with h | h <;> simp [ContourState.isCutting, h]
  have hready : s.servoReady r k = true := by simp [servoReady, running, hm, hcut, hsub, hmode, hg]
  rw [gapStep, hrun, hcur]
  dsimp only
  rw [if_pos ⟨hready, by omega, hsum⟩, sampleStep_eq]

theorem gapStep_passEnd {i : Slot} {c : Contour} {q : PassRec} {r : RunPass} {k : Chain}
    {voltage pulses shorts opens : Nat} (ha : s.agenda = []) (h : s.Arrives i c q r k voltage pulses shorts opens)
    (hcl : k.state = .closed) (hend : r.stopPoint = c.defn.passEnd c.passIndex k.loaded)
    (hg : c.defn.method = .holder → c.passIndex = c.defn.closingPass → k.loaded - c.defn.engage.getD 0 ≠ r.stopPoint) :
    (s.gapStep voltage pulses shorts opens).agenda = [.passEnd] ∧
      AtPassEnd i c r k s ((s.gapStep voltage pulses shorts opens).withAgenda []) := by
  have htaken := gapStep_taken h
  obtain ⟨⟨⟨hi, hc, -, hp, hk, hsound⟩, -⟩, -, -, hstuck, hlt, hstop⟩ := h
  rw [htaken]
  generalize sampleCase q pulses shorts opens = sc
  generalize stepOf q s.params.override voltage pulses shorts opens = st at hstop
  have hcount := countSample_still s r sc (s.floorOf r)
  have hcounts : (s.onPass fun p => { p with openCount := openAfter r sc, stuckCount := stuckAfter r sc (s.floorOf r) }).path.pass =
      some { r with openCount := openAfter r sc, stuckCount := stuckAfter r sc (s.floorOf r) } := by
    show s.path.pass.map _ = _
    rw [hp]
    rfl
  have hclamp := hcount.trans (reportClamp_still (s.countSample r sc (s.floorOf r)) r (s.floorOf r) r.stopPoint)
  obtain ⟨p, hpp, hch, hps, hpst⟩ := hclamp.pass_some hcounts
  have hstay := (stays_onPass s _).trans hclamp.toStays
  have hmove := movePass_moves (k := k) (pos := r.stopPoint) (hstay.job ▸ hi) ((hclamp.contour i).trans hc) hpp
  generalize hcs : s.countSample r sc (s.floorOf r) = cs at hcount hclamp hpp hstay hmove
  have happ : cs.applySample r k (s.floorOf r) st =
      if (((cs.reportClamp r (s.floorOf r) r.stopPoint false).movePass k r.stopPoint).path.pass.map
        (·.stuckCount)).getD 0 < cs.params.stuckSamples then
        ((cs.reportClamp r (s.floorOf r) r.stopPoint false).movePass k r.stopPoint).arrive
      else ((cs.reportClamp r (s.floorOf r) r.stopPoint false).movePass k r.stopPoint).genOff.report .stuck := by
    simp only [applySample, newPosition, if_pos hstop, decide_eq_true hstop,
      readSlots_sound ((hcount.chain r.chain).trans hk) hsound, if_true, Bool.not_true, Bool.false_and]
  generalize (cs.reportClamp r (s.floorOf r) r.stopPoint false).movePass k r.stopPoint = u at hmove happ
  obtain ⟨p', hpp', hch', hps', hpst'⟩ := hmove.pass
  have hle := stuckAfter_le r sc (s.floorOf r)
  have hparams : cs.params = s.params := hcount.params
  have hnot : (u.path.pass.map (·.stuckCount)).getD 0 < cs.params.stuckSamples := by
    rw [hpp', hparams]
    show p'.stuckCount < _
    have : p.stuckCount ≤ stuckAfter r sc (s.floorOf r) := hpst
    omega
  have hkeep := hstay.trans hmove.toStays
  have hchain : u.chain p'.chain = some k := by
    rw [hkeep.chain, hch', hch]
    exact hk
  have hrow : u.stopRow { c with front := max c.front r.stopPoint } k p'.s = some .passEnd := by
    rw [hps']
    exact stopRow_passEnd hcl hend hg
  obtain ⟨hag, hstill, hoff⟩ := arrive_passEnd hpp' (curContour_eq (hkeep.job ▸ hi) hmove.contour) hchain hrow
    (hkeep.agenda.trans ha)
  rw [happ, if_pos hnot]
  obtain ⟨p'', hpp'', -⟩ := hstill.pass_some hpp'
  refine ⟨hag, ⟨(hkeep.trans hstill.toStays).mono (le_refl _), (hstill.contour i).trans hmove.contour, fun j hj => ?_,
    ⟨p'', hpp''⟩, hoff, hstill.commanded.trans hmove.commanded⟩⟩
  exact (hstill.contour j).trans ((hmove.others j hj).trans (hclamp.contour j))

end State

end Sys2Proof.Machine
end

section
/-! SUPPORT. What follows a pass end (R78 to R81, R126): the stage's UNTHREAD, the start of the next pass, and the slug-free
event. -/

set_option Elab.async false

namespace Sys2Proof.Machine

namespace State

variable {s t u : State}

/-! ## Reports worked off -/

theorem finish_one {r : Report} (ha : s.agenda = [r]) (h : ((s.withAgenda []).handle r).agenda = []) :
    s.finish = ((s.withAgenda []).handle r).arbitrate := by
  rw [finish, settle, Config.reportsPerStep, settleGo_cons _ ha, settleGo_nil _ h]

theorem finish_two {r q : Report} (ha : s.agenda = [r]) (h : ((s.withAgenda []).handle r).agenda = [q])
    (h' : ((((s.withAgenda []).handle r).withAgenda []).handle q).agenda = []) :
    s.finish = ((((s.withAgenda []).handle r).withAgenda []).handle q).arbitrate := by
  rw [finish, settle, Config.reportsPerStep, settleGo_cons _ ha, settleGo_cons _ h, settleGo_nil _ h']

/-! ## The pass discarded (R46) -/

theorem stays_clearPass (s : State) : Stays 0 s (s.onPath fun p => { p with pass := none }) :=
  ⟨.of_same rfl rfl rfl rfl rfl, rfl, rfl, rfl, rfl, rfl, rfl, rfl, rfl, rfl⟩

theorem discardPass_keeps (s : State) : Stays 0 s s.discardPass ∧ s.discardPass.contours = s.contours ∧
    s.discardPass.path.pass = none ∧ s.discardPass.path.genOn = false ∧
    s.discardPass.path.commanded = s.path.commanded := by
  have hoff := (genOff_flags s).still
  have hg := s.genOff_genOn
  rw [discardPass]
  generalize s.genOff = o at hoff hg
  have hr := refreshLevels_flags (o.onPath fun p => { p with pass := none })
  exact ⟨(hoff.toStays.trans (stays_clearPass o)).trans hr.still.toStays, hr.contours.trans hoff.contours, hr.pass_none rfl,
    hr.genOff hg, hr.commanded.trans hoff.commanded⟩

/-! ## The UNTHREAD of a stage's end (R81, R104) -/

/-- The operation record of the UNTHREAD, its step begun where the mode is RUN (R95, R104). -/
def unthreading (s : State) (i : Slot) : Threading :=
  ⟨.unthread, i, .unthreadCut, !s.running, 0, 0, none, none, none, if s.running then some s.params.tipTime else none, false⟩

theorem unthread_eq (s : State) (i : Slot) : s.unthread i = s.withThread (some (s.unthreading i)) := by
  rw [unthread, goStep, unthreading]
  simp only [enterStep, onThread, withThread_thread, Option.map_some, newOp]
  by_cases hr : s.running = true
  · refine (if_pos hr).trans ?_
    simp only [beginStep, withThread_thread, startTimer, onThread, Option.map_some, if_pos hr]
    rfl
  · refine (if_neg hr).trans ?_
    rw [if_neg hr]
    rfl

/-- The stage's UNTHREAD has fallen due: it is given in RUN (R81). -/
theorem askOrder_unthread {i : Slot} {c : Contour} (hi : s.job.current = some i) (hc : s.contour i = some c) :
    ∃ d v, s.askOrder .stageUnthread = (s.onJob fun j => { j with work := some .stageUnthread, due := d }).withThread v ∧
      (s.modes.mode = .run → v = some (s.unthreading i)) := by
  rw [askOrder]
  by_cases hr : s.running = true
  · rw [if_pos hr]
    refine ⟨false, some (s.unthreading i), ?_, fun _ => rfl⟩
    rw [order]
    dsimp only
    rw [curContour_eq hi hc, hi]
    exact unthread_eq _ i
  · rw [if_neg hr]
    exact ⟨true, s.thread, rfl, fun h => absurd (by simp [running, h]) hr⟩

/-- The contour is UNTHREADING, its pass discarded and its UNTHREAD ordered. -/
structure Unthreads (i : Slot) (c : Contour) (s t : State) : Prop where
  contour : t.contour i = some { c with state := .unthreading }
  others : ∀ j, j ≠ i → t.contour j = s.contour j
  pass : t.path.pass = none
  genOff : t.path.genOn = false
  commanded : t.path.commanded = s.path.commanded
  genSetting : t.path.genSetting = s.path.genSetting
  current : t.job.current = some i
  work : t.job.work = some .stageUnthread
  store : t.store = s.store
  slug : t.slug = s.slug
  agenda : t.agenda = s.agenda
  calm : s.modes.mode = .run → s.NoHoldCause → s.journal.Room 1 → t.modes = s.modes ∧ t.thread = some (s.unthreading i)

theorem endPass_unthreads {i : Slot} {c : Contour} (hi : s.job.current = some i) (hc : s.contour i = some c)
    (hn : nextRole c = none ∨ nextRole c = some .sever) : Unthreads i c s s.endPass := by
  obtain ⟨hkeep, hcon, hpass, hoff, hcmd⟩ := discardPass_keeps s
  have e : s.endPass =
      (s.discardPass.changeContour i fun c => { c with state := .unthreading }).askOrder .stageUnthread := by
    rw [endPass, hi, curContour_eq hi hc]
    dsimp only
    rcases hn with hn | hn <;> rw [hn]
  rw [e]
  generalize s.discardPass = d at hkeep hcon hpass hoff hcmd
  have hdc (j : Slot) : d.contour j = s.contour j := by rw [State.contour, hcon, State.contour]
  have hrw := changeContour_rewrites ((hdc i).trans hc) fun c => { c with state := .unthreading }
  have hst : Stirs _ (d.changeContour i fun c => { c with state := .unthreading }) :=
    (contourChanged_flags (d.onContour i fun c => { c with state := .unthreading }) i).toStirs
  have hcalm : Calm 1 d (d.changeContour i fun c => { c with state := .unthreading }) :=
    Calm.trans (m := 1) (Calm.of_same (t := (d.onContour i fun c => { c with state := .unthreading }).onJob
      fun j => { j with lastChanged := some i }) rfl rfl rfl rfl rfl)
      ((offer_calm _ _).trans (still_progress _).toCalm)
  generalize d.changeContour i (fun c => { c with state := .unthreading }) = w at hrw hst hcalm
  have hwi : w.job.current = some i := by rw [hrw.job]; exact hkeep.job ▸ hi
  obtain ⟨due, v, e, hv⟩ := askOrder_unthread hwi hrw.contour
  rw [e]
  refine ⟨hrw.contour, fun j hj => (hrw.others j hj).trans (hdc j), hst.pass_none hpass, hst.genOff hoff,
    hst.commanded.trans hcmd, hst.genSetting.trans hkeep.genSetting, hwi, rfl, hrw.store.trans hkeep.store,
    hst.slug.trans hkeep.slug, hrw.agenda.trans hkeep.agenda, fun hm hno hroom => ?_⟩
  obtain ⟨hm1, hno1, hroom1⟩ := hkeep.calm (by rw [hm]; decide) hno 1 hroom
  obtain ⟨hm2, -, -⟩ := hcalm.calm (by rw [hm1, hm]; decide) hno1 0 hroom1
  have hmodes : w.modes = s.modes := hm2.trans hm1
  refine ⟨hmodes, (hv (by rw [hmodes, hm])).trans (congrArg some ?_)⟩
  have hparams : w.params = s.params := hst.params.trans hkeep.params
  have hrun : w.running = s.running := by rw [running, running, hmodes]
  rw [unthreading, unthreading, hrun, hparams]

/-! ## A next pass (R78, R79) -/

/-- The pass index goes on, and the break point is forgotten (R79). -/
def nextPassOf (c : Contour) : Contour := { c with passIndex := c.passIndex + 1, breakPoint := none }

/-- The part once a pass has been discarded and the index has gone on. -/
def advanced (s : State) (i : Slot) : State := s.discardPass.onContour i nextPassOf

theorem endPass_starts {i : Slot} {c : Contour} (hi : s.job.current = some i) (hc : s.contour i = some c)
    (hn : nextRole c = some .rough ∨ nextRole c = some .skim) : s.endPass = (s.advanced i).startPass := by
  have hadv : (s.discardPass.onContour i fun c => { c with passIndex := c.passIndex + 1, breakPoint := none }) =
      s.advanced i := rfl
  have e : s.endPass = ((s.discardPass.onContour i fun c =>
      { c with passIndex := c.passIndex + 1, breakPoint := none })).startPass := by
    rw [endPass, hi, curContour_eq hi hc]
    generalize s.discardPass = d
    dsimp only
    rcases hn with hn | hn <;> rw [hn]
  rw [e, hadv]

/-- The pass before has been discarded, and the contour's record stands at the next one. -/
structure Advances (i : Slot) (c : Contour) (s t : State) : Prop extends Stays 0 s t where
  contour : t.contour i = some (nextPassOf c)
  others : ∀ j, j ≠ i → t.contour j = s.contour j
  pass : t.path.pass = none
  genOff : t.path.genOn = false
  commanded : t.path.commanded = s.path.commanded

theorem advanced_advances {i : Slot} {c : Contour} (hc : s.contour i = some c) : Advances i c s (s.advanced i) := by
  obtain ⟨hkeep, hcon, hpass, hoff, hcmd⟩ := discardPass_keeps s
  rw [advanced]
  generalize s.discardPass = d at hkeep hcon hpass hoff hcmd
  have hdc (j : Slot) : d.contour j = s.contour j := by rw [State.contour, hcon, State.contour]
  refine ⟨hkeep.trans (stays_onContour d i _), ?_, fun j hj => ?_, hpass, hoff, hcmd⟩
  · rw [contour_onContour_same, hdc, hc]
    rfl
  · rw [contour_onContour_ne d hj, hdc]

/-- A next pass whose chain begins elsewhere faults the contour with DISCONTINUOUS (R78, R88). -/
theorem startPass_discontinuous {i : Slot} {c : Contour} {p : PassRec} {k : Chain} (hi : s.job.current = some i)
    (hc : s.contour i = some c) (hp : c.pass = some p) (hk : s.chain p.chain = some k) (hst : k.state ≠ .corrupt)
    (hw : within 2 k.start s.path.commanded = false) :
    s.startPass = (s.raise .discontinuous).faultCurrent .discontinuous := by
  rw [startPass, curContour_eq hi hc]
  dsimp only
  rw [hp]
  dsimp only
  rw [hk]
  dsimp only
  rw [if_neg hst, if_pos hw]

theorem startPass_faults {i : Slot} {c : Contour} {p : PassRec} {k : Chain} (hi : s.job.current = some i)
    (hc : s.contour i = some c) (hp : c.pass = some p) (hk : s.chain p.chain = some k) (hst : k.state ≠ .corrupt)
    (hw : within 2 k.start s.path.commanded = false)
    (hn : (s.onContour i fun c => { c with state := .faulted, fault := some .discontinuous }).NoneWaiting) :
    HasLeft i (fun c => { c with state := .faulted, fault := some .discontinuous }) s s.startPass ∧
      (s.startPass.cond .discontinuous).latch = s.raisedLatch .discontinuous ∧
      (s.startPass.cond .contourFault).latch = s.raisedLatch .contourFault := by
  have hr := (raise_flags s .discontinuous).toStirs
  have hgroup : s.groupValid Cond.discontinuous.group = true := by
    show s.job.current.isSome = true
    rw [hi]
    rfl
  have hraised := (raise_raised .discontinuous hgroup).trans (hr.raised .discontinuous).symm
  rw [startPass_discontinuous hi hc hp hk hst hw]
  generalize s.raise .discontinuous = w at hr hraised
  have hn' : (w.onContour i fun c => { c with state := .faulted, fault := some .discontinuous }).NoneWaiting := by
    intro j d hd
    refine hn j d ?_
    rwa [contour, onContour, setContour, withContours_contours, hr.contours, hr.contour] at hd
  obtain ⟨m, j, hl, -⟩ := faultCurrent_left (f := .discontinuous) (hr.job ▸ hi) hn'
  have hf := w.faulting_stirs .discontinuous
  have hh := hl.hasLeft
  have hraise (d : Cond) : (w.faultCurrent .discontinuous).raisedLatch d = s.raisedLatch d :=
    (hl.raised d).trans ((hf.raised d).trans (hr.raised d))
  refine ⟨⟨?_, fun j hj => ?_, hh.job, hh.pass, hh.genOff, hh.thread, ?_, ?_, hh.agenda⟩, ?_, ?_⟩
  · rw [hh.contour, hf.contour, hr.contour]
    rfl
  · rw [hh.others j hj, hf.contour, hr.contour]
  · rw [hh.commanded, hf.commanded, hr.commanded]
  · rw [hh.store, hf.store, hr.store]
  · rw [hl.latch_eq (hf.latch_eq hraised), hraise]
  · rw [hl.latch_eq (w.faulting_raised rfl), hraise]

end State

end Sys2Proof.Machine
end

section
/-! SUPPORT. The start of the next pass on a chain of CUT segments (R46, R48, R51, R78). -/

set_option Elab.async false

namespace Sys2Proof.Machine

/-! ## A chain of CUT segments -/

theorem segmentAt_lt {segs : List Segment} (h : segs ≠ []) (pos : Nat) : segmentAt segs pos < segs.length := by
  have hle := (List.takeWhile_sublist (l := segs) fun g => decide (g.cumStart ≤ pos)).length_le
  have := List.length_pos_of_ne_nil h
  rw [segmentAt]
  omega

theorem Chain.SoundCut.sound {k : Chain} (h : k.SoundCut) : k.Sound := fun g hg => (h g hg).1

theorem modeAt_cut {k : Chain} (h : k.SoundCut) (hne : k.segs ≠ []) (pos : Nat) : k.modeAt pos = some .cut := by
  have hlt := segmentAt_lt hne pos
  rw [Chain.modeAt, List.getElem?_eq_getElem hlt]
  exact congrArg some (h _ (List.getElem_mem hlt)).2

/-- The run of CUT segments goes back to the first one. -/
theorem runStart_isSome {k : Chain} (h : k.SoundCut) (hne : k.segs ≠ []) (pos : Nat) :
    (State.runStart k pos).isSome = true := by
  have hall : ∀ g ∈ (k.segs.take (segmentAt k.segs pos + 1)).reverse, decide (g.mode = .cut) = true := fun g hg =>
    decide_eq_true (h g (List.mem_of_mem_take (List.mem_reverse.mp hg))).2
  have hlen : (k.segs.take (segmentAt k.segs pos + 1)).reverse ≠ [] := by
    rw [Ne, List.reverse_eq_nil_iff, List.take_eq_nil_iff]
    rintro (h | h)
    · exact Nat.succ_ne_zero _ h
    · exact hne h
  rw [State.runStart, Option.isSome_map, List.takeWhile_eq_self_iff.mpr hall, List.getLast?_isSome]
  exact hlen

theorem modeBoundary_none {k : Chain} (h : k.SoundCut) (pos : Nat) : State.modeBoundary k pos = none := by
  simp only [State.modeBoundary]
  cases hg : k.segs[segmentAt k.segs pos]? with
  | none => rfl
  | some g =>
    have hcut := (h g (List.mem_of_getElem? hg)).2
    have hnone : ((k.segs.drop (segmentAt k.segs pos)).find? fun d => decide (d.mode ≠ g.mode)) = none :=
      List.find?_eq_none.mpr fun d hd => by simp [hcut, (h d (List.mem_of_mem_drop hd)).2]
    exact congrArg (Option.map (·.cumStart)) hnone

namespace State

variable {s t u : State}

/-! ## The stop point of a new pass (R51) -/

/-- On a CLOSED chain of CUT segments, no tack span and no engage point before it, the stop point is the pass end. -/
theorem stopPointAt_passEnd {c : Contour} {k : Chain} (hcut : k.SoundCut) (hcl : k.state = .closed)
    (htack : s.tackSpans = []) (hg : c.passIndex ≠ c.defn.closingPass) :
    s.stopPointAt c k 0 = c.defn.passEnd c.passIndex k.loaded := by
  have hend : endCandidate c k 0 = some (c.defn.passEnd c.passIndex k.loaded) := by
    rw [endCandidate, if_pos hcl]
    rfl
  have hengage : s.engageCandidate c k 0 = none := by
    have hpoint : engagePoint c k.loaded = none := if_neg fun h => hg h.2
    rw [engageCandidate, hpoint]
    split <;> rfl
  have hlimit : limitCandidate c k 0 = none := by
    rw [limitCandidate, if_neg]
    rw [hcl]
    nofun
  have hspan : tackBoundary s.tackSpans 0 = none := by rw [htack]; rfl
  rw [stopPointAt, hend, modeBoundary_none hcut, hspan, hengage, hlimit]
  rfl

/-! ## The generator command, flags apart (R60, R61) -/

/-- What the generator command follows with: its state and its setting. -/
def generator (s : State) (on : Bool) (setting : Nat) : State :=
  s.onPath fun p => { p with genOn := on, genSetting := setting }

theorem refreshGen_stirs (s : State) : ∃ b g, (s.generator b g).Stirs s.refreshGen := by
  unfold refreshGen
  split
  · split
    · exact ⟨s.path.genOn, s.path.genSetting, .refl s⟩
    · obtain ⟨g, hg⟩ : ∃ g, s.chooseSetting.onPath (fun p => { p with genOn := true }) = s.generator true g := by
        unfold chooseSetting
        split
        · exact ⟨_, rfl⟩
        · exact ⟨s.path.genSetting, rfl⟩
      rw [hg]
      exact ⟨true, g, (decideGapOpen_flags _).toStirs⟩
  · exact ⟨s.path.genOn, s.path.genSetting, genOff_stirs s⟩

/-! ## The pass created and its stop point computed (R46, R51, R78) -/

/-- The running-pass record at its creation, its floor computed. -/
def createdPass (s : State) (ch : ChainId) (k : Chain) (sub : SubState) : RunPass :=
  { newPass ch k 0 sub with floor := s.floorOf (newPass ch k 0 sub), segIndex := segmentAt k.segs 0 }

theorem settlePosition_eq {r : RunPass} {k : Chain} (hp : s.path.pass = some r) (hk : s.chain r.chain = some k) :
    s.settlePosition = s.onPass fun q => { q with floor := s.floorOf q, segIndex := segmentAt k.segs q.s } := by
  rw [settlePosition, hp]
  dsimp only
  rw [hk]

theorem createPass_sound {ch : ChainId} {k : Chain} (hk : s.chain ch = some k) (hs : k.Sound) (sub : SubState) :
    s.createPass ch k 0 sub = (s.onPath fun p => { p with pass := some (s.createdPass ch k sub) }, true) := by
  rw [createPass, readSlots_sound hk hs]
  exact congrArg (·, true) (settlePosition_eq (s := s.onPath fun p => { p with pass := some (newPass ch k 0 sub) }) rfl hk)

/-- The mode boundary at s is none where a CUT run has been entered on a CUT segment (R52). -/
theorem takeModeBoundary_cut {r : RunPass} {k : Chain} (hp : s.path.pass = some r) (hm : k.modeAt r.s = some .cut)
    (hr : r.cutRunStart.isSome = true) : s.takeModeBoundary k = s := by
  obtain ⟨n, hn⟩ := Option.isSome_iff_exists.mp hr
  rw [takeModeBoundary, hp]
  dsimp only
  rw [hm, hn]

/-- A pass at its position 0 whose stop point lies beyond it: the generator command follows (R51, R61). -/
theorem recompute_beyond {c : Contour} {r : RunPass} {k : Chain} (hp : s.path.pass = some r) (hc : s.curContour = some c)
    (hk : s.chain r.chain = some k) (hs : k.Sound) (hm : k.modeAt r.s = some .cut) (hr : r.cutRunStart.isSome = true)
    (hne : s.settlePosition.stopPointAt c k r.s ≠ r.s) (hsub : r.sub ≠ .starved) : s.recompute =
      ((s.settlePosition.onPass fun q => { q with stopPoint := s.settlePosition.stopPointAt c k r.s }).refreshGen).refreshLevels := by
  rw [recompute, hp, hc]
  dsimp only
  rw [hk]
  dsimp only
  rw [readSlots_sound hk hs]
  dsimp only
  rw [if_pos rfl, takeModeBoundary_cut hp hm hr, if_neg hne, if_neg hsub]

/-- The next pass runs: its contour's front at 0, its record at its own position 0. -/
structure Started (i : Slot) (c : Contour) (ch : ChainId) (k : Chain) (s t : State) : Prop where
  contour : t.contour i = some { c with front := 0 }
  others : ∀ j, j ≠ i → t.contour j = s.contour j
  pass : ∃ v, t.path.pass = some v ∧ v.chain = ch ∧ v.s = 0 ∧ v.lastCheckpoint = 0 ∧
    v.stopPoint = c.defn.passEnd c.passIndex k.loaded
  commanded : t.path.commanded = k.start
  job : t.job = s.job
  store : t.store = s.store
  agenda : t.agenda = s.agenda

/-- The part when the next pass has been created and the position taken, before its stop point. -/
def atStart (s : State) (i : Slot) (ch : ChainId) (k : Chain) : State :=
  ((s.onPath fun p => { p with pass := some (s.createdPass ch k s.moveState) }).onContour i fun c =>
    { c with front := 0 }).onPath fun q => { q with commanded := k.start }

theorem startPass_eq {i : Slot} {c : Contour} {p : PassRec} {k : Chain} (hi : s.job.current = some i)
    (hc : s.contour i = some c) (hp : c.pass = some p) (hk : s.chain p.chain = some k) (hst : k.state ≠ .corrupt)
    (hs : k.Sound) (hw : within 2 k.start s.path.commanded = true) :
    s.startPass = (s.atStart i p.chain k).recompute := by
  have hcreate := createPass_sound hk hs s.moveState
  have hcur : (s.onPath fun q => { q with pass := some (s.createdPass p.chain k s.moveState) }).onCur
      (fun c => { c with front := 0 }) =
      (s.onPath fun q => { q with pass := some (s.createdPass p.chain k s.moveState) }).onContour i
        fun c => { c with front := 0 } := by
    rw [onCur, show (s.onPath _).job.current = some i from hi]
  rw [startPass, curContour_eq hi hc]
  dsimp only
  rw [hp]
  dsimp only
  rw [hk]
  dsimp only
  rw [if_neg hst, if_neg (by rw [hw]; decide), hcreate]
  dsimp only
  rw [if_pos rfl, hcur]
  rfl

theorem tackSpans_later {c : Contour} (hc : s.curContour = some c) (h : c.passIndex ≠ 0) : s.tackSpans = [] := by
  rw [tackSpans, hc]
  exact if_neg fun h' => h h'.1

theorem moveState_ne_starved (s : State) : s.moveState ≠ .starved := by
  rw [moveState]
  split <;> nofun

/-- A next pass on a chain that begins at the commanded position runs from its position 0 (R78). -/
theorem startPass_starts {i : Slot} {c : Contour} {p : PassRec} {k : Chain} (hi : s.job.current = some i)
    (hc : s.contour i = some c) (hp : c.pass = some p) (hk : s.chain p.chain = some k) (hcl : k.state = .closed)
    (hcut : k.SoundCut) (hne : k.segs ≠ []) (hw : within 2 k.start s.path.commanded = true) (h0 : c.passIndex ≠ 0)
    (hg : c.passIndex ≠ c.defn.closingPass) (hend : 0 < c.defn.passEnd c.passIndex k.loaded) :
    Started i c p.chain k s s.startPass := by
  rw [startPass_eq hi hc hp hk (by rw [hcl]; nofun) hcut.sound hw]
  have hcon : (s.atStart i p.chain k).contour i = some { c with front := 0 } :=
    (contour_onContour_same _ i _).trans (congrArg (Option.map _) hc)
  have hoth (j : Slot) (hj : j ≠ i) : (s.atStart i p.chain k).contour j = s.contour j := contour_onContour_ne _ hj _
  have hpass : (s.atStart i p.chain k).path.pass = some (s.createdPass p.chain k s.moveState) := rfl
  have hcmd : (s.atStart i p.chain k).path.commanded = k.start := rfl
  have hjob : (s.atStart i p.chain k).job = s.job := rfl
  have hstore : (s.atStart i p.chain k).store = s.store := rfl
  have hag : (s.atStart i p.chain k).agenda = s.agenda := rfl
  generalize s.atStart i p.chain k = a at hcon hoth hpass hcmd hjob hstore hag
  have hka : a.chain p.chain = some k := by rw [chain, hstore]; exact hk
  have hcur := curContour_eq (hjob ▸ hi) hcon
  have hsettle := still_settlePosition a
  have hstop : a.settlePosition.stopPointAt { c with front := 0 } k 0 = c.defn.passEnd c.passIndex k.loaded :=
    stopPointAt_passEnd hcut hcl (tackSpans_later (hsettle.curContour.trans hcur) h0) hg
  have hrec := recompute_beyond hpass hcur hka hcut.sound (modeAt_cut hcut hne 0) (runStart_isSome hcut hne 0)
    (show a.settlePosition.stopPointAt { c with front := 0 } k 0 ≠ 0 from by rw [hstop]; omega) s.moveState_ne_starved
  rw [hrec]
  rw [show a.settlePosition.stopPointAt { c with front := 0 } k (s.createdPass p.chain k s.moveState).s = _ from hstop]
  have hz : (a.settlePosition.onPass fun q => { q with stopPoint := c.defn.passEnd c.passIndex k.loaded }).path.pass =
      some { s.createdPass p.chain k s.moveState with
        floor := a.floorOf (s.createdPass p.chain k s.moveState), segIndex := segmentAt k.segs 0
        stopPoint := c.defn.passEnd c.passIndex k.loaded } := by
    rw [settlePosition_eq hpass hka]
    show (a.path.pass.map _).map _ = _
    rw [hpass]
    rfl
  have hzs := hsettle.toStays.trans (stays_onPass a.settlePosition
    fun q => { q with stopPoint := c.defn.passEnd c.passIndex k.loaded })
  have hzc : (a.settlePosition.onPass fun q => { q with stopPoint := c.defn.passEnd c.passIndex k.loaded }).contours =
      a.contours := hsettle.contours
  have hzm : (a.settlePosition.onPass fun q =>
      { q with stopPoint := c.defn.passEnd c.passIndex k.loaded }).path.commanded = a.path.commanded := hsettle.commanded
  generalize (a.settlePosition.onPass fun q => { q with stopPoint := c.defn.passEnd c.passIndex k.loaded }) = z at hz hzs hzc hzm
  obtain ⟨b, g, hst⟩ := z.refreshGen_stirs
  have hend := hst.trans (refreshLevels_flags z.refreshGen).toStirs
  obtain ⟨v, hv, hheld⟩ := hend.pass_some (s := z.generator b g) hz
  have hvc (j : Slot) : z.refreshGen.refreshLevels.contour j = a.contour j := by
    rw [hend.contour]
    show z.contour j = _
    rw [contour, hzc, contour]
  refine ⟨(hvc i).trans hcon, fun j hj => (hvc j).trans (hoth j hj), ⟨v, hv, ?_, ?_, ?_, ?_⟩,
    hend.commanded.trans (hzm.trans hcmd), hend.job.trans (hzs.job.trans hjob), hend.store.trans (hzs.store.trans hstore),
    hend.agenda.trans (hzs.agenda.trans hag)⟩
  · rw [hheld.rest]; rfl
  · rw [hheld.rest]; rfl
  · rw [hheld.rest]; rfl
  · rw [hheld.rest]

end State

end Sys2Proof.Machine
end

section
/-! The stage's end by its pass end, the slug-free event and the pull (R36, R78 to R81, R88, R104, R126, R127). -/

set_option Elab.async false

namespace Sys2Proof.Machine

namespace State

variable {s t u : State}

/-! ## The slug-free event (R126, R127) -/

/-- What the slug-free event leaves where the contour may proceed at once: its retention set, the proceeding reported. -/
structure Proceeds (i : Slot) (c : Contour) (s t : State) : Prop where
  contour : t.contour i = some { c with retention := slugFreeRetention s i c }
  others : ∀ j, j ≠ i → t.contour j = s.contour j
  genOff : t.path.genOn = s.path.genOn
  genSetting : t.path.genSetting = s.path.genSetting
  job : t.job = s.job
  store : t.store = s.store
  watch : t.slug.watch = none
  drop : t.slug.drop = .idle
  agenda : t.agenda = [.proceed]

/-- The drop wait begins (R127). -/
theorem startDrop_keeps (s : State) (i : Slot) : ∃ x, ((s.onPass fun r => { r with sub := .slugWait })).Stirs x ∧
    s.startDrop i = if s.active .slugPresent then (x.onSlug fun g => { g with dropContour := some i }).dropWaiting
      else (x.onSlug fun g => { g with dropContour := some i }).dropEnds .dropped := by
  have h := (refreshLevels_flags (s.onPass fun r => { r with sub := .slugWait })).toStirs
  rw [startDrop]
  generalize (s.onPass fun r => { r with sub := .slugWait }).refreshLevels = x at h
  have hact : (x.onSlug fun g => { g with dropContour := some i }).active .slugPresent = s.active .slugPresent :=
    h.active .slugPresent
  exact ⟨x, h, by rw [hact]⟩

theorem slugFree_drop {i : Slot} {c : Contour} (hi : s.job.current = some i) (hc : s.contour i = some c)
    (hm : c.defn.method = .drop) (hr : c.retention ≠ .droppedEarly) : s.slugFree = s.disarmWatch.startDrop i := by
  rw [slugFree, hi, curContour_eq hi hc]
  dsimp only
  rw [hm]
  exact if_neg hr

/-- A slug still present is waited for (R127). -/
theorem slugFree_waits {i : Slot} {c : Contour} {r : RunPass} (hi : s.job.current = some i) (hc : s.contour i = some c)
    (hm : c.defn.method = .drop) (hr : c.retention ≠ .droppedEarly) (hp : s.path.pass = some r)
    (hs : s.active .slugPresent = true) (hw : 0 < s.params.dropWait) :
    s.slugFree.contours = s.contours ∧ s.slugFree.path.pass.map (·.sub) = some .slugWait ∧
      s.slugFree.slug = ⟨none, .waiting, some i, some s.params.dropWait⟩ ∧
      (s.path.genOn = false → s.slugFree.path.genOn = false) ∧ s.slugFree.path.commanded = s.path.commanded ∧
      s.slugFree.job = s.job ∧ s.slugFree.store = s.store ∧ s.slugFree.agenda = s.agenda := by
  obtain ⟨x, hx, e⟩ := startDrop_keeps s.disarmWatch i
  rw [if_pos (show s.disarmWatch.active .slugPresent = true from hs)] at e
  have hpar : x.params = s.params := hx.params
  have hwait : (x.onSlug fun g => { g with dropContour := some i }).dropWaiting =
      x.onSlug fun g => { g with dropContour := some i, drop := .waiting, dropTimer := some s.params.dropWait } := by
    rw [dropWaiting, if_neg (by show x.params.dropWait ≠ 0; rw [hpar]; omega)]
    rw [← hpar]
    rfl
  obtain ⟨v, hv, hheld⟩ := hx.pass_some (r := { r with sub := .slugWait }) (by
    show s.path.pass.map _ = _
    rw [hp]
    rfl)
  have hsub : v.sub = .slugWait := by
    rcases hheld.sub with h | ⟨h, -⟩
    · exact h
    · cases h
  have hslug : x.slug = { s.slug with watch := none } := hx.slug
  rw [slugFree_drop hi hc hm hr, e, hwait]
  refine ⟨hx.contours, ?_, ?_, fun h => hx.genOff h, hx.commanded, hx.job, hx.store, hx.agenda⟩
  · show x.path.pass.map _ = _
    rw [hv]
    exact congrArg some hsub
  · show { x.slug with dropContour := some i, drop := .waiting, dropTimer := some s.params.dropWait } = _
    rw [hslug]

/-- The watch disarmed and the retention set, or left as it is, the contour may proceed. -/
theorem proceeds_of {i : Slot} {c : Contour} {b : Bool} {r : Retention} (hc : s.contour i = some c) (ha : s.agenda = [])
    (hd : s.slug.drop = .idle) (hr : slugFreeRetention s i c = if b then r else c.retention) :
    Proceeds i c s ((if b then s.disarmWatch.setRetention i r else s.disarmWatch).report .proceed) := by
  cases b with
  | false =>
    have hret : slugFreeRetention s i c = c.retention := hr
    refine ⟨?_, fun _ _ => rfl, rfl, rfl, rfl, rfl, rfl, hd, ?_⟩
    · rw [hret]
      exact hc
    · show s.agenda ++ [.proceed] = _
      rw [ha]
      rfl
  | true =>
    have hret : slugFreeRetention s i c = r := hr
    refine ⟨?_, fun j hj => contour_onContour_ne s.disarmWatch hj _, rfl, rfl, rfl, rfl, rfl, hd, ?_⟩
    · rw [hret]
      exact (contour_onContour_same s.disarmWatch i _).trans (congrArg (Option.map _) hc)
    · show s.agenda ++ [.proceed] = _
      rw [ha]
      rfl

/-- The slug has already gone: the drop wait ends as it begins (R127). -/
theorem slugFree_gone {i : Slot} {c : Contour} (hi : s.job.current = some i) (hc : s.contour i = some c) (ha : s.agenda = [])
    (hm : c.defn.method = .drop) (hr : c.retention ≠ .droppedEarly) (hs : s.active .slugPresent = false) :
    (s.path.genOn = false → Proceeds i c s s.slugFree) := by
  intro hoff
  obtain ⟨x, hx, e⟩ := startDrop_keeps s.disarmWatch i
  rw [if_neg (by show ¬ s.active .slugPresent = true; rw [hs]; decide)] at e
  have hends : (x.onSlug fun g => { g with dropContour := some i }).dropEnds .dropped =
      (((x.onSlug fun g => { g with dropContour := some i }).setRetention i .dropped).dropIdle).report .proceed := rfl
  have hret : slugFreeRetention s i c = .dropped := by
    rw [slugFreeRetention, hm]
    exact if_neg hr
  rw [slugFree_drop hi hc hm hr, e, hends]
  refine ⟨?_, fun j hj => ?_, (hx.genOff hoff).trans hoff.symm, hx.genSetting, hx.job, hx.store, ?_, rfl, ?_⟩
  · rw [hret]
    exact (contour_onContour_same (x.onSlug fun g => { g with dropContour := some i }) i _).trans
      (congrArg (Option.map _) ((hx.contour i).trans hc))
  · exact (contour_onContour_ne (x.onSlug fun g => { g with dropContour := some i }) hj _).trans (hx.contour j)
  · show x.slug.watch = none
    rw [hx.slug]
    rfl
  · show x.agenda ++ [.proceed] = _
    rw [hx.agenda, show (s.disarmWatch.onPass fun r => { r with sub := .slugWait }).agenda = s.agenda from rfl, ha]
    rfl

/-- With the slug gone, held or still tacked the contour proceeds at once (R126, R127). -/
theorem slugFree_proceeds {i : Slot} {c : Contour} (hi : s.job.current = some i) (hc : s.contour i = some c)
    (ha : s.agenda = []) (hd : s.slug.drop = .idle) (hoff : s.path.genOn = false)
    (hdrop : c.defn.method = .drop → c.retention = .droppedEarly ∨ s.active .slugPresent = false) :
    Proceeds i c s s.slugFree := by
  cases hm : c.defn.method with
  | drop =>
    by_cases hr : c.retention = .droppedEarly
    · have e : s.slugFree = (if false then s.disarmWatch.setRetention i .dropped else s.disarmWatch).report .proceed := by
        rw [slugFree, hi, curContour_eq hi hc]
        dsimp only
        rw [hm]
        exact if_pos hr
      rw [e]
      refine proceeds_of hc ha hd ?_
      rw [slugFreeRetention, hm]
      exact (if_pos hr).trans hr.symm
    · exact slugFree_gone hi hc ha hm hr ((hdrop hm).resolve_left hr) hoff
  | holder =>
    have e : s.slugFree = (if s.holdsForCurrent then s.disarmWatch.setRetention i .held else s.disarmWatch).report
        .proceed := by
      rw [slugFree, hi, curContour_eq hi hc]
      dsimp only
      rw [hm]
      rfl
    rw [e]
    refine proceeds_of hc ha hd ?_
    rw [slugFreeRetention, hm]
    simp only [holdsForCurrent, hi, Bool.and_eq_true, decide_eq_true_eq]
    by_cases hh : s.holder.state = .holding ∧ s.holder.owner = some i
    · rw [if_pos hh, if_pos ⟨⟨hh.1, by rw [hh.2]; rfl⟩, hh.2⟩]
    · rw [if_neg hh, if_neg fun h => hh ⟨h.1.1, h.2⟩]
  | tack =>
    have e : s.slugFree = (if decide (c.retention ≠ .droppedEarly) then s.disarmWatch.setRetention i .tacked
        else s.disarmWatch).report .proceed := by
      rw [slugFree, hi, curContour_eq hi hc]
      dsimp only
      rw [hm]
      by_cases hr : c.retention = .droppedEarly <;> simp [hr]
    rw [e]
    refine proceeds_of hc ha hd ?_
    rw [slugFreeRetention, hm]
    by_cases hr : c.retention = .droppedEarly <;> simp [hr]

/-! ## The sample at the pass end, as an event -/

theorem passEnded_eq {c : Contour} (hc : s.curContour = some c) :
    s.handle .passEnd = if c.passIndex = c.defn.closingPass then s.slugFree else s.endPass := by
  show s.passEnded = _
  rw [passEnded, hc]

theorem AtPassEnd.current {i : Slot} {c : Contour} {r : RunPass} {k : Chain} (h : AtPassEnd i c r k s t)
    (hi : s.job.current = some i) : t.job.current = some i := h.job ▸ hi

end State

/-- What a pass end that does not close the plan leads to is the end of the pass, sent. -/
theorem passEnd_event {i : Slot} {c : Contour} {q : PassRec} {r : RunPass} {k : Chain} {voltage pulses shorts opens : Nat}
    {s : State} (hs : s.Steady) (h : s.Arrives i c q r k voltage pulses shorts opens) (hcl : k.state = .closed)
    (hend : r.stopPoint = c.defn.passEnd c.passIndex k.loaded) (hne : c.passIndex ≠ c.defn.closingPass) :
    ∃ v, State.AtPassEnd i c r k s v ∧ (v.endPass.agenda = [] →
      exec (.gapSample voltage pulses shorts opens) s = .next v.endPass.arbitrate) := by
  obtain ⟨hag, hv⟩ := State.gapStep_passEnd hs.1 h hcl hend fun _ h' => absurd h' hne
  have hev : s.event (fun t => t.gapStep voltage pulses shorts opens) =
      (s.gapStep voltage pulses shorts opens).finish := State.event_eq hs _
  generalize s.gapStep voltage pulses shorts opens = w at hag hv hev
  have hhandle : (w.withAgenda []).handle .passEnd = (w.withAgenda []).endPass :=
    (State.passEnded_eq (State.curContour_eq (hv.current h.1.1.1) hv.contour)).trans (if_neg hne)
  refine ⟨_, hv, fun hnil => ?_⟩
  rw [← hhandle] at hnil ⊢
  have hfin := hev.trans (State.finish_one hag hnil)
  exact congrArg _ hfin

/-- The last pass of a stage ends: the contour is UNTHREADING (R81). -/
theorem passEnd_unthreads {i : Slot} {c : Contour} {q : PassRec} {r : RunPass} {k : Chain}
    {voltage pulses shorts opens : Nat} {s : State} (hs : s.Steady) (h : s.Arrives i c q r k voltage pulses shorts opens)
    (hcl : k.state = .closed) (hend : r.stopPoint = c.defn.passEnd c.passIndex k.loaded)
    (hne : c.passIndex ≠ c.defn.closingPass)
    (hn : State.nextRole c = none ∨ State.nextRole c = some .sever) : ∃ t : State,
      exec (.gapSample voltage pulses shorts opens) s = .next t ∧
      t.contour i = some { c with front := max c.front r.stopPoint, state := .unthreading } ∧
      (∀ j, j ≠ i → t.contour j = s.contour j) ∧ t.path.pass = none ∧ t.path.genOn = false ∧
      t.path.commanded = k.point r.stopPoint ∧ t.job.current = some i ∧ t.job.work = some .stageUnthread ∧
      t.store = s.store ∧
      (s.NoHoldCause → s.JournalRoom → t.modes = s.modes ∧ t.thread = some
        ⟨.unthread, i, .unthreadCut, false, 0, 0, none, none, none, some s.params.tipTime, false⟩) := by
  obtain ⟨v, hv, hev⟩ := passEnd_event hs h hcl hend hne
  have hu := State.endPass_unthreads (hv.current h.1.1.1) hv.contour hn
  have he := hev (hu.agenda.trans (hv.agenda.trans hs.1))
  have ha := v.endPass.arbitrate_sends
  have hmode : s.modes.mode = .run := h.1.2.1
  generalize v.endPass = w at hu he ha
  refine ⟨_, he, (ha.contour i).trans hu.contour, fun j hj => (ha.contour j).trans ((hu.others j hj).trans (hv.others j hj)),
    ha.pass_none hu.pass, ha.genOn.trans hu.genOff, ha.commanded.trans (hu.commanded.trans hv.commanded),
    by rw [ha.job, hu.current], by rw [ha.job, hu.work], ha.store.trans (hu.store.trans hv.store), fun hno hroom => ?_⟩
  obtain ⟨hm1, hno1, hroom1⟩ := hv.calm (by rw [hmode]; decide) hno 1 hroom.room
  obtain ⟨hm2, ht⟩ := hu.calm (by rw [hm1, hmode]) hno1 hroom1
  have hrun : v.running = true := by simp [State.running, hm1, hmode]
  refine ⟨ha.modes.trans (hm2.trans hm1), ha.thread.trans (ht.trans ?_)⟩
  rw [State.unthreading, hrun, hv.params]
  rfl

/-- A further pass of the stage starts at its own position 0 (R78, R79). -/
theorem passEnd_starts {i : Slot} {c : Contour} {q p : PassRec} {r : RunPass} {k kk : Chain}
    {voltage pulses shorts opens : Nat} {s : State} (hs : s.Steady) (h : s.Arrives i c q r k voltage pulses shorts opens)
    (hcl : k.state = .closed) (hend : r.stopPoint = c.defn.passEnd c.passIndex k.loaded)
    (hne : c.passIndex ≠ c.defn.closingPass) (hp : c.defn.passes[c.passIndex + 1]? = some p)
    (hrole : p.role = .rough ∨ p.role = .skim) (hkk : s.chain p.chain = some kk) (hkcl : kk.state = .closed)
    (hcut : kk.SoundCut) (hsegs : kk.segs ≠ []) (hw : within 2 kk.start (k.point r.stopPoint) = true)
    (hlt : c.passIndex + 1 < c.defn.closingPass) (hpos : 0 < c.defn.passEnd (c.passIndex + 1) kk.loaded) : ∃ t : State,
      exec (.gapSample voltage pulses shorts opens) s = .next t ∧
      t.contour i = some { c with passIndex := c.passIndex + 1, breakPoint := none, front := 0 } ∧
      (∀ j, j ≠ i → t.contour j = s.contour j) ∧
      (∃ v, t.path.pass = some v ∧ v.chain = p.chain ∧ v.s = 0 ∧ v.lastCheckpoint = 0 ∧
        v.stopPoint = c.defn.passEnd (c.passIndex + 1) kk.loaded) ∧
      t.path.commanded = kk.start ∧ t.job.current = some i ∧ t.store = s.store := by
  obtain ⟨v, hv, hev⟩ := passEnd_event hs h hcl hend hne
  have hcur := hv.current h.1.1.1
  have hnext : State.nextRole { c with front := max c.front r.stopPoint } = some p.role := by
    rw [State.nextRole, hp]
    rfl
  have hadv := State.advanced_advances hv.contour
  rw [State.endPass_starts hcur hv.contour (by rw [hnext]; rcases hrole with h | h <;> simp [h])] at hev
  generalize v.advanced i = y at hadv hev
  have hst := State.startPass_starts (hadv.job ▸ hcur) hadv.contour hp ((hadv.chain _).trans ((hv.chain _).trans hkk)) hkcl
    hcut hsegs (by rw [hadv.commanded, hv.commanded]; exact hw) (Nat.succ_ne_zero _) (Nat.ne_of_lt hlt) hpos
  have he := hev (hst.agenda.trans (hadv.agenda.trans (hv.agenda.trans hs.1)))
  have ha := y.startPass.arbitrate_sends
  obtain ⟨w, hw, hwc, hws, hwl, hwstop⟩ := hst.pass
  obtain ⟨n, hn⟩ := ha.pass_some hw
  refine ⟨_, he, (ha.contour i).trans hst.contour, fun j hj => ?_, ⟨_, hn, hwc, hws, hwl, hwstop⟩,
    ha.commanded.trans hst.commanded, ?_, ha.store.trans (hst.store.trans (hadv.store.trans hv.store))⟩
  · exact (ha.contour j).trans ((hst.others j hj).trans ((hadv.others j hj).trans (hv.others j hj)))
  · rw [ha.job, hst.job]
    exact hadv.job ▸ hcur

/-- A further pass whose chain begins elsewhere faults the contour (R78, R88). -/
theorem passEnd_faults {i : Slot} {c : Contour} {q p : PassRec} {r : RunPass} {k kk : Chain}
    {voltage pulses shorts opens : Nat} {s : State} (hs : s.Steady) (h : s.Arrives i c q r k voltage pulses shorts opens)
    (hcl : k.state = .closed) (hend : r.stopPoint = c.defn.passEnd c.passIndex k.loaded)
    (hne : c.passIndex ≠ c.defn.closingPass) (hp : c.defn.passes[c.passIndex + 1]? = some p)
    (hrole : p.role = .rough ∨ p.role = .skim) (hkk : s.chain p.chain = some kk) (hkst : kk.state ≠ .corrupt)
    (hw : within 2 kk.start (k.point r.stopPoint) = false) (hn : s.NoneWaiting) : ∃ t : State,
      exec (.gapSample voltage pulses shorts opens) s = .next t ∧
      t.contour i = some { c with
        front := max c.front r.stopPoint, passIndex := c.passIndex + 1, breakPoint := none
        state := .faulted, fault := some .discontinuous } ∧
      (∀ j, j ≠ i → t.contour j = s.contour j) ∧
      (t.cond .discontinuous).latch = s.raisedLatch .discontinuous ∧
      (t.cond .contourFault).latch = s.raisedLatch .contourFault ∧ t.path.pass = none ∧ t.path.genOn = false ∧
      t.path.commanded = k.point r.stopPoint ∧ t.job.current = none ∧ t.store = s.store := by
  obtain ⟨v, hv, hev⟩ := passEnd_event hs h hcl hend hne
  have hcur := hv.current h.1.1.1
  have hnext : State.nextRole { c with front := max c.front r.stopPoint } = some p.role := by
    rw [State.nextRole, hp]
    rfl
  have hadv := State.advanced_advances hv.contour
  rw [State.endPass_starts hcur hv.contour (by rw [hnext]; rcases hrole with h | h <;> simp [h])] at hev
  generalize v.advanced i = y at hadv hev
  have hnone : y.NoneWaiting := fun j d hd => by
    by_cases hj : j = i
    · subst hj
      obtain rfl := Option.some.inj (hadv.contour.symm.trans hd)
      exact hn j c h.1.1.2.1
    · exact hn j d ((hv.others j hj).symm.trans ((hadv.others j hj).symm.trans hd))
  obtain ⟨hleft, hdis, hfault⟩ := State.startPass_faults (hadv.job ▸ hcur) hadv.contour hp
    ((hadv.chain _).trans ((hv.chain _).trans hkk)) hkst (by rw [hadv.commanded, hv.commanded]; exact hw)
    (State.noneWaiting_onContour hnone i fun _ => ⟨nofun, nofun⟩)
  have he := hev hleft.agenda
  have ha := y.startPass.arbitrate_sends
  generalize y.startPass = w at hleft hdis hfault he ha
  have hraised (d : Cond) : y.raisedLatch d = s.raisedLatch d := (hadv.raised d).trans (hv.raised d)
  refine ⟨_, he, ?_, fun j hj => ?_, ?_, ?_, ha.pass_none hleft.pass, ha.genOn.trans hleft.genOff, ?_, ?_, ?_⟩
  · rw [ha.contour, hleft.contour, hadv.contour]
    rfl
  · exact (ha.contour j).trans ((hleft.others j hj).trans ((hadv.others j hj).trans (hv.others j hj)))
  · rw [ha.latch, hdis, hraised]
  · rw [ha.latch, hfault, hraised]
  · rw [ha.commanded, hleft.commanded, hadv.commanded, hv.commanded]
  · rw [ha.job, hleft.job.2]
  · rw [ha.store, hleft.store, hadv.store, hv.store]

theorem passEndLeadsOn (i : Slot) (c : Contour) (q : PassRec) (r : RunPass) (k : Chain)
    (voltage pulses shorts opens : Nat) (s : State) (hs : s.Steady) :
    PassEndLeadsOn i c q r k voltage pulses shorts opens s := fun h _ hcl hend hne =>
  ⟨passEnd_unthreads hs h hcl hend hne,
    fun _ _ hp hrole hkk _ hkcl hcut hsegs hw _ hlt hpos =>
      passEnd_starts hs h hcl hend hne hp hrole hkk hkcl hcut hsegs hw hlt hpos,
    fun _ _ hp hrole hkk hkst hw hn => passEnd_faults hs h hcl hend hne hp hrole hkk hkst hw hn⟩

/-- The retention of the slug-free event rests on the hold method, the retention before and the holder. -/
theorem slugFreeRetention_congr {s t : State} {i : Slot} {c d : Contour} (hh : t.holder = s.holder)
    (hm : d.defn = c.defn) (hr : d.retention = c.retention) : slugFreeRetention t i d = slugFreeRetention s i c := by
  rw [slugFreeRetention, slugFreeRetention, hh, hm, hr]

/-- The slug-free event on the closing pass (R80, R126, R127). -/
theorem slugFreeEvent (i : Slot) (c : Contour) (q : PassRec) (r : RunPass) (k : Chain)
    (voltage pulses shorts opens : Nat) (s : State) (hs : s.Steady) :
    SlugFreeEvent i c q r k voltage pulses shorts opens s := by
  intro h _ hcl hend hclosing hlast hengage hhold
  have hlen : r.stopPoint = k.loaded := by rw [hend, ContourDef.passEnd, hhold, Nat.sub_zero]
  have hlt : r.s < r.stopPoint := h.2.2.2.2.1
  obtain ⟨hag, hv⟩ := State.gapStep_passEnd hs.1 h hcl hend fun hm _ => by
    have := hengage hm
    omega
  have hev : s.event (fun t => t.gapStep voltage pulses shorts opens) =
      (s.gapStep voltage pulses shorts opens).finish := State.event_eq hs _
  generalize s.gapStep voltage pulses shorts opens = w at hag hv hev
  have hcur := hv.current h.1.1.1
  have hhandle : (w.withAgenda []).handle .passEnd = (w.withAgenda []).slugFree :=
    (State.passEnded_eq (State.curContour_eq hcur hv.contour)).trans (if_pos hclosing)
  have hfin := State.finish_one hag
  have hfin2 := State.finish_two (q := .proceed) hag
  rw [hhandle] at hfin hfin2
  have hnil : (w.withAgenda []).agenda = [] := rfl
  generalize w.withAgenda [] = v at hv hcur hfin hfin2 hnil
  refine ⟨fun hm hr hsl hdw => ?_, fun hdrop hidle => ?_⟩
  · obtain ⟨p, hp⟩ := hv.pass
    obtain ⟨hcon, hsub, hslug, hoff, hcmd, hjob, hstore, hagenda⟩ := State.slugFree_waits hcur hv.contour hm hr hp
      ((hv.active _).trans hsl) (by rw [hv.params]; exact hdw)
    have he := hev.trans (hfin (hagenda.trans hnil))
    have ha := v.slugFree.arbitrate_sends
    generalize v.slugFree = x at hcon hsub hslug hoff hcmd hjob hstore ha he
    obtain ⟨y, hy, hys⟩ := Option.map_eq_some_iff.mp hsub
    obtain ⟨n, hn⟩ := ha.pass_some hy
    refine ⟨x.arbitrate, congrArg _ he, ?_, ?_, ?_, ha.genOn.trans (hoff hv.genOff), ha.commanded.trans (hcmd.trans hv.commanded),
      ha.job.trans (hjob.trans hv.job), ha.store.trans (hstore.trans hv.store)⟩
    · rw [ha.contour, State.contour, hcon]
      exact hv.contour
    · rw [hn]
      exact congrArg some hys
    · rw [ha.slug, hslug, hv.params]
  · have hpro := State.slugFree_proceeds hcur hv.contour hnil (by rw [hv.slug]; exact hidle) hv.genOff fun hm => by
      rw [hv.active]
      exact hdrop hm
    have hret : slugFreeRetention v i { c with front := max c.front r.stopPoint } = slugFreeRetention s i c :=
      slugFreeRetention_congr hv.holder rfl rfl
    have hcon := hpro.contour
    rw [hret] at hcon
    have hfin2 := hfin2 hpro.agenda
    generalize v.slugFree = x at hpro hcon hfin2
    have hxcur : (x.withAgenda []).job.current = some i := hpro.job ▸ hcur
    have hxcon : (x.withAgenda []).contour i = some { c with
        front := max c.front r.stopPoint, retention := slugFreeRetention s i c } := hcon
    have hcut : (x.withAgenda []).cutting = true := by
      rw [State.cutting, State.curContour_eq hxcur hxcon]
      rcases h.1.2.2.2.1 with hst | hst <;> simp [ContourState.isCutting, hst]
    have hproceed : (x.withAgenda []).handle .proceed = (x.withAgenda []).endPass := by
      show (x.withAgenda []).proceed = _
      rw [State.proceed, if_pos hcut]
    have hnone : c.defn.passes[c.passIndex + 1]? = none := List.getElem?_eq_none (by omega)
    have hu := State.endPass_unthreads hxcur hxcon (.inl (by rw [State.nextRole, hnone]; rfl))
    rw [hproceed] at hfin2
    have he := hev.trans (hfin2 hu.agenda)
    have ha := (x.withAgenda []).endPass.arbitrate_sends
    have hxslug : (x.withAgenda []).slug = x.slug := rfl
    have hxset : (x.withAgenda []).path.genSetting = x.path.genSetting := rfl
    have hxstore : (x.withAgenda []).store = x.store := rfl
    generalize (x.withAgenda []).endPass = y at hu he ha
    refine ⟨y.arbitrate, congrArg _ he, (ha.contour i).trans hu.contour, ha.pass_none hu.pass, ?_, ?_,
      ha.genOn.trans hu.genOff, ?_, by rw [ha.job, hu.work], ?_⟩
    · rw [ha.slug, hu.slug, hxslug, hpro.watch]
    · rw [ha.slug, hu.slug, hxslug, hpro.drop]
    · rw [ha.genSetting, hu.genSetting, hxset, hpro.genSetting, hv.genSetting]
    · rw [ha.store, hu.store, hxstore, hpro.store, hv.store]

/-- Settles O59: the end of the pull ends the stage, the pass end leads on or is the slug-free event, and the timeout of
the pull faults the contour. -/
theorem pullTimeoutFaultsTheContour : Obligations.PullTimeoutFaultsTheContour :=
  ⟨fun i c h s hs => unthreadEndsTheStage i c h s hs,
    fun i c q r k voltage pulses shorts opens s hs =>
      ⟨passEndLeadsOn i c q r k voltage pulses shorts opens s hs, slugFreeEvent i c q r k voltage pulses shorts opens s hs⟩,
    fun t i c s hs ht hh hst htm hm hc hci _ hen hn => pullTimeout_faults t i c s hs ht hh hst htm hm hc hci hen hn⟩

end Sys2Proof.Machine
end

section
/-! The invariants of the segment store (R23, R24, R25, R33), the invariants at reset, and the part that idles (section
2.8). -/

set_option Elab.async false

namespace Sys2Proof.Machine

/-! ## The credit law and the chains' form, kept by every step -/

/-- What the store alone decides, and every change made to it keeps, is kept by every step, where it holds of the store
at reset. -/
theorem keepAll_store {Q : Store → Prop} (hmove : ∀ a b, StoreMove a b → Q a → Q b) (hreset : Q Store.reset) :
    KeepAll fun s : State => Q s.store where
  path _ _ h := h
  conds _ _ h := h
  modes _ _ h _ := h
  journal _ _ h _ := h
  contours _ _ h := h
  job _ _ h _ _ := h
  link _ _ h := h
  thread _ _ h := h
  slug _ _ h := h
  holder _ _ h := h
  agenda _ _ h := h
  store _ _ h hm := hmove _ _ hm h
  jobAny _ _ h := h
  params _ _ h := h
  sensors _ _ h := h
  free _ _ h := h
  pending _ _ h := h
  reset _ _ _ := hreset

theorem credits_iff (s : State) : s.Credits ↔ s.store.credit = Config.segmentSlots := by
  rw [State.Credits, State.credit_eq]

theorem credit_reset : Store.reset.credit = Config.segmentSlots := by
  simp [Store.credit, Store.reset, slotsIn]

theorem chainsFormed_reset : State.reset.ChainsFormed := by
  intro ch k hk
  have hnone : State.reset.chain ch = none := Vector.getElem_replicate ..
  rw [hnone] at hk
  cases hk

/-- Settles O25: a change made to the store keeps its credit and the form of its chains, and a step changes the store by
such changes and resets alone. -/
theorem storeCreditsAreKept : Obligations.StoreCreditsAreKept :=
  ⟨fun s t hs h => (credits_iff t).mpr (State.step_keep (keepAll_store (Q := fun t => t.credit = Config.segmentSlots)
      (fun _ _ hm hc => hm.credit.trans hc) credit_reset) ((credits_iff s).mp hs) h),
    fun _ _ hs h => State.step_keep (keepAll_store (Q := Store.Formed)
      (fun _ _ hm => hm.formed) chainsFormed_reset) hs h⟩

/-! ## Reset -/

/-- The storage and the append state with which the part comes out of reset have the journal's form (log entry 6). -/
theorem journal_form_reset : Journal.reset.Form where
  mem := by decide
  active := by rintro p ⟨⟩; decide
  slot := by decide
  erasing := nofun
  list := nofun
  once := by decide
  busy _ := rfl
  idle _ _ := ⟨rfl, rfl⟩
  first := nofun
  roll := nofun
  writing := nofun
  kept := by rintro p ⟨⟩; decide
  all := nofun

/-- Settles O60: the records of State.reset, one invariant after the other. -/
theorem resetMeetsTheInvariants : Obligations.ResetMeetsTheInvariants :=
  ⟨(credits_iff _).mpr credit_reset, chainsFormed_reset, fun _ => ⟨rfl, by decide, rfl⟩, rfl, rfl, ⟨nofun, nofun⟩,
    journal_form_reset⟩

/-! ## The idle part -/

/-- A chain apart from what the check information of its slots would find. -/
def Chain.checked (k : Chain) : Chain := { k with segs := k.segs.map fun g => { g with check := .unchanged } }

namespace State

/-- A change of check information alone. -/
theorem upset_checked (k : Chain) (i : Nat) (ok : Bool) :
    Chain.checked { k with segs := k.segs.modify i (upset ok) } = k.checked := by
  have hsegs : (k.segs.modify i (upset ok)).map (fun g : Segment => { g with check := .unchanged }) =
      k.segs.map fun g => { g with check := .unchanged } := by
    refine List.ext_getElem? fun n => ?_
    simp only [List.getElem?_map, List.getElem?_modify]
    cases k.segs[n]? with
    | none => rfl
    | some g => by_cases h : i = n <;> simp [h, upset]
  simp only [Chain.checked, hsegs]

theorem upsetSlot_checked (s : State) (c i : Nat) (ok : Bool) :
    s.upsetSlot c i ok = s.withStore { s.store with chains := (s.upsetSlot c i ok).store.chains } ∧
      ∀ d, ((s.upsetSlot c i ok).chain d).map Chain.checked = (s.chain d).map Chain.checked := by
  unfold upsetSlot
  split
  · rename_i ch _
    refine ⟨rfl, fun d => ?_⟩
    by_cases hd : d = ch
    · subst hd
      rw [chain_onChain_same, Option.map_map]
      exact congrArg (Option.map · _) (funext fun k => upset_checked k i ok)
    · rw [chain_onChain_ne s hd]
  · exact ⟨rfl, fun _ => rfl⟩

end State

/-- Settles O2: an idle step makes one use of a free value, which may set the check information of one slot. -/
theorem idlePartChangesOnlySlotChecks : Obligations.IdlePartChangesOnlySlotChecks := by
  intro s hp
  refine ⟨s.idle, by rw [step, hp], ?_⟩
  unfold State.idle
  split
  · exact s.nextFree.upsetSlot_checked _ _ _
  · exact ⟨rfl, fun _ => rfl⟩

end Sys2Proof.Machine
end

section
/-! SUPPORT. The fields of the requests of the segment store, and the checks against the work area, said as the rules say
them (R26, R31, R32, R39, R40). -/

set_option Elab.async false

namespace Sys2Proof.Machine

/-! ## Fields -/

theorem i32_drop {p r : Payload} {k : Nat} {v : Int} (h : p.drop k = intBytes v ++ r) (hv : fourBytes v) : i32 p k = v := by
  have e := i32_at v hv.1 hv.2 [] r
  rw [i32, uN] at e ⊢
  rw [h]
  exact e

/-- Four coordinates, one behind the other. -/
theorem i32_four {p a r : Payload} {x y z w : Int} (hx : fourBytes x) (hy : fourBytes y) (hz : fourBytes z)
    (hw : fourBytes w) (h : p = a ++ (intBytes x ++ (intBytes y ++ (intBytes z ++ (intBytes w ++ r))))) :
    i32 p a.length = x ∧ i32 p (a.length + 4) = y ∧ i32 p (a.length + 8) = z ∧ i32 p (a.length + 12) = w := by
  have h0 : p.drop a.length = intBytes x ++ (intBytes y ++ (intBytes z ++ (intBytes w ++ r))) := by
    rw [h, List.drop_left]
  have h1 := drop_field h0 (m := a.length + 4) (by rw [intBytes_len])
  have h2 := drop_field h1 (m := a.length + 8) (by rw [intBytes_len])
  have h3 := drop_field h2 (m := a.length + 12) (by rw [intBytes_len])
  exact ⟨i32_drop h0 hx, i32_drop h1 hy, i32_drop h2 hz, i32_drop h3 hw⟩

theorem pointAt_drop {p r : Payload} {k : Nat} {e : Point} (h : p.drop k = pointBytes e ++ r) (hx : fourBytes e.x)
    (hy : fourBytes e.y) : pointAt p k = e := by
  rw [pointBytes, List.append_assoc] at h
  rw [pointAt, i32_drop h hx, i32_drop (drop_field h (by rw [intBytes_len])) hy]

theorem chainOf_val (ch : ChainId) : chainOf ch.val = some ch := dif_pos ch.isLt

theorem chain_lt (ch : ChainId) : ch.val < 256 := lt_trans ch.isLt (by decide)

theorem withChain_byte (ch : ChainId) (p : Payload) (s : State) (f : ChainId → State → Answer) :
    withChain (byte ch.val :: p) s f = f ch s := by
  rw [withChain, u8_byte (chain_lt ch), chainOf_val]

theorem withChain_beyond {id : Byte} (h : 127 < id.toNat) (p : Payload) (s : State) (f : ChainId → State → Answer) :
    withChain (id :: p) s f = refuse s .badValue := by
  have hnone : chainOf (u8 (id :: p) 0) = none := dif_neg (by show ¬ id.toNat < 128; omega)
  rw [withChain, hnone]

/-- A chain id in its byte, or a byte that is none. -/
theorem chain_or_beyond (id : Byte) : (∃ ch : ChainId, id = byte ch.val) ∨ 127 < id.toNat := by
  by_cases h : id.toNat < 128
  · exact .inl ⟨⟨id.toNat, h⟩, by simp⟩
  · exact .inr (by omega)

/-! ## The work area -/

theorem coordOk_iff (v : Int) : coordOk v = true ↔ -4000000 ≤ v ∧ v ≤ 4000000 := decide_eq_true_iff

theorem inRange_iff (p : Point) :
    p.inRange = true ↔ (-4000000 ≤ p.x ∧ p.x ≤ 4000000) ∧ -4000000 ≤ p.y ∧ p.y ≤ 4000000 := by
  rw [Point.inRange, Bool.and_eq_true, coordOk_iff, coordOk_iff]

theorem holds_iff (q : Rect) (p : Point) :
    q.holds p = true ↔ q.xMin ≤ p.x ∧ p.x ≤ q.xMax ∧ q.yMin ≤ p.y ∧ p.y ≤ q.yMax := decide_eq_true_iff

/-- What is kept out is kept out by one of the four rectangles, enabled (R40). -/
theorem any_enabledKeepOuts (t : Store) (f : Rect → Bool) :
    t.enabledKeepOuts.any f = true ↔ ∃ n : Fin 4, t.keepOuts[n].enabled = true ∧ f t.keepOuts[n].rect = true := by
  simp only [Store.enabledKeepOuts, List.any_map, List.any_filter, List.any_eq_true, Vector.mem_toList_iff,
    Vector.mem_iff_getElem, Bool.and_eq_true, Function.comp_apply]
  constructor
  · rintro ⟨_, ⟨n, hn, rfl⟩, he, hf⟩
    exact ⟨⟨n, hn⟩, he, hf⟩
  · rintro ⟨n, he, hf⟩
    exact ⟨_, ⟨n.val, n.isLt, rfl⟩, he, hf⟩

theorem allFree_iff (s : State) : s.allFree = true ↔ ∀ ch, s.chain ch = none := by
  simp only [State.allFree, List.all_eq_true, Vector.mem_toList_iff, Vector.mem_iff_getElem, Option.isNone_iff_eq_none]
  constructor
  · exact fun h ch => h _ ⟨ch.val, ch.isLt, rfl⟩
  · rintro h _ ⟨n, hn, rfl⟩
    exact h ⟨n, hn⟩

/-- The first check of a rectangle that is sent (R39, R40). -/
def Rect.improper (q : Rect) : Bool :=
  !(coordOk q.xMin && coordOk q.xMax && coordOk q.yMin && coordOk q.yMax) || decide (q.xMax < q.xMin) ||
    decide (q.yMax < q.yMin)

theorem improper_iff (q : Rect) : q.improper = true ↔ ¬ q.Proper := by
  simp only [Rect.improper, Rect.Proper, Bool.or_eq_true, Bool.not_eq_true', ← Bool.not_eq_true,
    Bool.and_eq_true, coordOk_iff, decide_eq_true_eq, List.forall_mem_cons, List.not_mem_nil, false_implies,
    implies_true, and_true]
  omega

theorem improper_false {q : Rect} (h : q.Proper) : q.improper = false :=
  Bool.eq_false_iff.mpr fun hi => (improper_iff q).mp hi h

end Sys2Proof.Machine
end

section
/-! The work area as SET_PARAM writes it (R39, R40, R44), and the chains that are opened and dropped (R26, R36, R37). -/

set_option Elab.async false

namespace Sys2Proof.Machine

/-! ## The travel window (R39) -/

theorem takeSetParam_window {q : Rect} (h : q.Sendable) (s : State) : takeSetParam (23 :: windowBytes q) s =
    if q.improper then refuse s .badValue
    else if !s.allFree then refuse s .wrongState
    else if !q.holds s.path.commanded then refuse s .window
    else done (s.onStore fun t => { t with window := q }) := by
  simp only [Rect.Sendable, List.forall_mem_cons] at h
  obtain ⟨h1, h2, h3, h4, -⟩ := h
  obtain ⟨e1, e2, e3, e4⟩ := i32_four (p := 23 :: windowBytes q) (a := [23]) (r := []) h1 h2 h3 h4
    (by simp [windowBytes, List.append_assoc])
  have hw : takeSetParam (23 :: windowBytes q) s = takeTravelWindow (23 :: windowBytes q) s := rfl
  simp only [List.length_cons, List.length_nil] at e1 e2 e3 e4
  simp only [hw, takeTravelWindow, e1, e2, e3, e4, Rect.improper]
  rfl

/-- Settles O16: the checks are the branches of the request, each with its status. -/
theorem travelWindowIsCheckedInOrder : Obligations.TravelWindowIsCheckedInOrder := by
  intro tag s q hq hs
  have hlen : (23 :: windowBytes q).length ≤ 250 := by simp [windowBytes, intBytes_len]
  have hans : answerTo 0x05 (23 :: windowBytes q) s = _ := takeSetParam_window hs s
  refine ⟨fun hp => ?_, fun hp hf => ?_, fun hp hf hc => ?_, fun hp hf hc => ?_⟩
  · rw [(improper_iff q).mpr hp] at hans
    exact congrArg _ (State.request_refused hq hlen hans)
  · have hfree : s.allFree = false := Bool.eq_false_iff.mpr fun h => hf.elim fun ch hch => hch ((allFree_iff s).mp h ch)
    rw [improper_false hp, hfree] at hans
    exact congrArg _ (State.request_refused hq hlen hans)
  · have hhold : q.holds s.path.commanded = false := Bool.eq_false_iff.mpr fun h => hc ((holds_iff q _).mp h)
    rw [improper_false hp, (allFree_iff s).mpr hf, hhold] at hans
    exact congrArg _ (State.request_refused hq hlen hans)
  · rw [improper_false hp, (allFree_iff s).mpr hf, (holds_iff q _).mpr hc] at hans
    exact congrArg _ (State.request_is hq hlen hans rfl rfl rfl rfl)

/-! ## Keep-out rectangles and the corrected count (R40, R44) -/

theorem takeSetParam_keepOut (number enable : Byte) {q : Rect} (h : q.Sendable) (s : State) :
    takeSetParam (24 :: number :: enable :: (intBytes q.xMin ++ intBytes q.yMin ++ intBytes q.xMax ++ intBytes q.yMax)) s =
      if decide (3 < number.toNat) || decide (1 < enable.toNat) || q.improper then refuse s .badValue
      else if !s.allFree then refuse s .wrongState
      else done (s.onStore fun t => t.putKeepOut number.toNat ⟨decide (enable.toNat = 1), q⟩) := by
  simp only [Rect.Sendable, List.forall_mem_cons] at h
  obtain ⟨h1, h2, h3, h4, -⟩ := h
  generalize hp : 24 :: number :: enable :: (intBytes q.xMin ++ intBytes q.yMin ++ intBytes q.xMax ++ intBytes q.yMax) = p
  obtain ⟨e1, e2, e3, e4⟩ := i32_four (p := p) (a := [24, number, enable]) (r := []) h1 h3 h2 h4
    (by simp [← hp, List.append_assoc])
  have hw : takeSetParam p s = takeKeepOut p s := by rw [← hp]; rfl
  have hn : u8 p 1 = number.toNat := by rw [← hp]; rfl
  have he : u8 p 2 = enable.toNat := by rw [← hp]; rfl
  simp only [List.length_cons, List.length_nil] at e1 e2 e3 e4
  simp only [hw, takeKeepOut, e1, e2, e3, e4, hn, he, Rect.improper, Bool.or_assoc]

theorem toNat_eq_one (b : Byte) : decide (b.toNat = 1) = decide (b = 1) :=
  decide_eq_decide.mpr (BitVec.toNat_inj (y := 1#8))

theorem keepOutIsWritten (tag : Byte) (s : State) (hq : s.Quiet) (number enable : Byte) (q : Rect) (hs : q.Sendable) :
    let c := Instr.setParamKeepOut tag
      (24 :: number :: enable :: (intBytes q.xMin ++ intBytes q.yMin ++ intBytes q.xMax ++ intBytes q.yMax))
    (3 < number.toNat ∨ 1 < enable.toNat ∨ ¬ q.Proper → exec c s = .next (s.replied 0x05 tag .badValue [])) ∧
    (∀ n : Fin 4, number = byte n.val → enable.toNat ≤ 1 → q.Proper →
      ((∃ ch, s.chain ch ≠ none) → exec c s = .next (s.replied 0x05 tag .wrongState [])) ∧
      ((∀ ch, s.chain ch = none) → exec c s = .next ((s.onStore fun t =>
        { t with keepOuts := t.keepOuts.set n ⟨decide (enable = 1), q⟩ }).replied 0x05 tag .ok []))) := by
  have hlen : (24 :: number :: enable :: (intBytes q.xMin ++ intBytes q.yMin ++ intBytes q.xMax ++
    intBytes q.yMax)).length ≤ 250 := by simp [intBytes_len]
  have hans : answerTo 0x05 (24 :: number :: enable :: (intBytes q.xMin ++ intBytes q.yMin ++ intBytes q.xMax ++
    intBytes q.yMax)) s = _ := takeSetParam_keepOut number enable hs s
  refine ⟨fun hbad => ?_, fun n hn he hp => ?_⟩
  · have hb : (decide (3 < number.toNat) || decide (1 < enable.toNat) || q.improper) = true := by
      simpa only [Bool.or_eq_true, decide_eq_true_eq, improper_iff, or_assoc] using hbad
    rw [hb] at hans
    exact congrArg _ (State.request_refused hq hlen hans)
  · have hnum : number.toNat = n.val := by rw [hn, byte_toNat_of_lt (by omega)]
    have hb : (decide (3 < number.toNat) || decide (1 < enable.toNat) || q.improper) = false := by
      rw [improper_false hp, decide_eq_false (by omega), decide_eq_false (by omega)]
      rfl
    have hput : (fun t : Store => t.putKeepOut number.toNat ⟨decide (enable.toNat = 1), q⟩) =
        fun t => { t with keepOuts := t.keepOuts.set n ⟨decide (enable = 1), q⟩ } := by
      funext t
      rw [hnum, Store.putKeepOut, dif_pos n.isLt, toNat_eq_one]
    rw [hb, hput] at hans
    refine ⟨fun hf => ?_, fun hf => ?_⟩
    · have hfree : s.allFree = false := Bool.eq_false_iff.mpr fun h => hf.elim fun ch hch => hch ((allFree_iff s).mp h ch)
      rw [hfree] at hans
      exact congrArg _ (State.request_refused hq hlen hans)
    · rw [(allFree_iff s).mpr hf] at hans
      exact congrArg _ (State.request_is hq hlen hans rfl rfl rfl rfl)

/-- Settles O17: a rectangle is checked, and written while every chain is FREE; the corrected count takes 0 alone. -/
theorem keepOutsAndCorrectedCountAreWritten : Obligations.KeepOutsAndCorrectedCountAreWritten := by
  intro tag s hq
  refine ⟨fun number enable q hs => keepOutIsWritten tag s hq number enable q hs, ?_, fun v hv => ?_⟩
  · have hans : answerTo 0x05 [25, 0] s = done (s.onStore fun t => { t with corrected := 0 }) := rfl
    exact congrArg _ (State.request_is hq (by decide) hans rfl rfl rfl rfl)
  · have hans : answerTo 0x05 [25, v] s = refuse s .badValue :=
      if_neg fun h => hv (BitVec.toNat_inj.mp h)
    exact congrArg _ (State.request_refused hq (by simp) hans)

/-! ## OPEN_CHAIN (R26) -/

theorem takeOpenChain_open (ch : ChainId) {start : Point} (hx : fourBytes start.x) (hy : fourBytes start.y) (s : State) :
    takeOpenChain (byte ch.val :: pointBytes start) s =
      if !start.inRange then refuse s .badValue
      else if (s.chain ch).isSome then refuse s .wrongState
      else if !s.store.window.holds start then refuse s .window
      else if s.store.pointKeptOut start then refuse s .keepOut
      else done (s.setChain ch (some (newChain start))) := by
  have hp : pointAt (byte ch.val :: pointBytes start) 1 = start :=
    pointAt_drop (r := []) (by rw [List.append_nil]; rfl) hx hy
  rw [takeOpenChain, ofLength, if_pos (by rw [List.length_cons, pointBytes_len]), withChain_byte]
  simp only [hp]

/-- Settles O18: the checks are the branches of the request, each with its status. -/
theorem openChainChecksInOrder : Obligations.OpenChainChecksInOrder := by
  intro tag id start s hq hx hy
  have hlen : (id :: pointBytes start).length ≤ 250 := by rw [List.length_cons, pointBytes_len]; decide
  refine ⟨fun h => congrArg _ (State.request_refused hq hlen ?_), fun ch hch hr => ?_⟩
  · show takeOpenChain (id :: pointBytes start) s = _
    rcases chain_or_beyond id with ⟨ch, rfl⟩ | hid
    · have hr : start.inRange = false := Bool.eq_false_iff.mpr fun hin => h.elim
        (fun hb => by rw [byte_toNat_of_lt (chain_lt ch)] at hb; have := ch.isLt; omega)
        fun hn => hn ((inRange_iff start).mp hin)
      rw [takeOpenChain_open ch hx hy, hr]
      rfl
    · rw [takeOpenChain, ofLength, if_pos (by rw [List.length_cons, pointBytes_len]), withChain_beyond hid]
  · subst hch
    have hans : answerTo 0x10 (byte ch.val :: pointBytes start) s = _ := takeOpenChain_open ch hx hy s
    rw [(inRange_iff start).mpr hr] at hans
    have hkept : s.store.pointKeptOut start = true ↔ _ := any_enabledKeepOuts s.store (·.holds start)
    refine ⟨fun hsome => ?_, fun hnone hw => ?_, fun hnone hw hk => ?_, fun hnone hw hk => ?_⟩
    · rw [Option.isSome_iff_ne_none.mpr hsome] at hans
      exact congrArg _ (State.request_refused hq hlen hans)
    · rw [hnone, Bool.eq_false_iff.mpr fun h => hw ((holds_iff _ start).mp h)] at hans
      exact congrArg _ (State.request_refused hq hlen hans)
    · rw [hnone, (holds_iff _ start).mpr hw, hkept.mpr hk] at hans
      exact congrArg _ (State.request_refused hq hlen hans)
    · rw [hnone, (holds_iff _ start).mpr hw, Bool.eq_false_iff.mpr fun h => hk (hkept.mp h)] at hans
      exact congrArg _ (State.request_is hq hlen hans rfl rfl rfl rfl)

/-! ## DROP_CHAIN (R36, R37) -/

theorem isFinished_iff (c : ContourState) : c.isFinished = true ↔ c = .done ∨ c = .skipped ∨ c = .faulted := by
  cases c <;> simp [ContourState.isFinished]

theorem droppable_iff (s : State) (k : Chain) : s.droppable k = true ↔ ∀ i n, k.binding = some (i, n) →
    s.slotState i = .done ∨ s.slotState i = .skipped ∨ s.slotState i = .faulted := by
  rw [State.droppable]
  cases k.binding with
  | none => exact iff_of_true rfl nofun
  | some b =>
    refine (isFinished_iff _).trans ⟨fun h i n hb => ?_, fun h => h b.1 b.2 rfl⟩
    obtain rfl := Option.some.inj hb
    exact h

theorem takeDropChain_free {ch : ChainId} {s : State} (h : s.chain ch = none) :
    takeDropChain [byte ch.val] s = refuse s .notFound := by
  rw [takeDropChain, ofLength_one, withChain_byte, h]

theorem takeDropChain_held {ch : ChainId} {k : Chain} {s : State} (h : s.chain ch = some k) :
    takeDropChain [byte ch.val] s = if s.droppable k then done (s.freeChain ch) else refuse s .inUse := by
  rw [takeDropChain, ofLength_one, withChain_byte, h]

/-- Settles O22: a chain that is not FREE is freed where no contour still needs it. -/
theorem dropChainReturnsItsSlots : Obligations.DropChainReturnsItsSlots := by
  intro tag id s hq
  refine ⟨fun hid => congrArg _ (State.request_refused hq (by simp) ?_), fun ch hch => ?_⟩
  · show takeDropChain [id] s = _
    rw [takeDropChain, ofLength_one, withChain_beyond hid]
  · subst hch
    refine ⟨fun hn => congrArg _ (State.request_refused hq (by simp)
      (show answerTo 0x13 [byte ch.val] s = _ from takeDropChain_free hn)), fun k hk => ?_⟩
    have hans : answerTo 0x13 [byte ch.val] s = _ := takeDropChain_held hk
    refine ⟨fun hf => ?_, fun hf => ?_⟩
    · rw [if_neg fun h => hf ((droppable_iff s k).mp h)] at hans
      exact congrArg _ (State.request_refused hq (by simp) hans)
    · have hfree : s.freeChain ch = (s.setChain ch none).onStore fun t =>
          { t with freeSlots := t.freeSlots + k.segs.length } := by rw [State.freeChain, hk]
      rw [if_pos ((droppable_iff s k).mpr hf), hfree] at hans
      exact congrArg _ (State.request_is hq (by simp) hans rfl rfl rfl rfl)

end Sys2Proof.Machine
end

section
/-! SUPPORT. A request whose effect leaves reports between the blocks: they are worked off before its reply is formed (R173,
log entry 4); and slots that are read without an error (R41). -/

set_option Elab.async false

namespace Sys2Proof.Machine.State

variable {s t : State}

/-! ## A request on a quiet link -/

/-- On a quiet link the request is served as its frame arrives, and the transmitter, which is free, takes its reply. -/
theorem request_served (kind tag : Byte) (p : Payload) (h : s.Quiet) (hp : p.length ≤ 250) :
    s.request kind tag p = ((s.serve ⟨kind, tag, p⟩).arbitrate.collect []).finish := by
  obtain ⟨hsteady, hcollect, hqueue, hreplies, hsending, hdue, htaken⟩ := h
  have hready : (s.onLink fun l => { l with queue := l.queue ++ [(⟨kind, tag, p⟩ : Frame)] }).ready = true := by
    simp [ready, onLink, replying, hreplies, hsending, hdue, htaken]
  have hjoined : (s.onLink fun l => { l with queue := l.queue ++ [(⟨kind, tag, p⟩ : Frame)] }).link.queue =
      [⟨kind, tag, p⟩] := by simp [onLink, hqueue]
  have hback : (s.onLink fun l => { l with queue := l.queue ++ [(⟨kind, tag, p⟩ : Frame)] }).onLink
      (fun l => { l with queue := [] }) = s := by
    rw [onLink, onLink, withLink_link]
    simp only [← hqueue]
    rfl
  have hgood : s.goodFrame ⟨kind, tag, p⟩ = s.serve ⟨kind, tag, p⟩ := by
    rw [goodFrame, if_pos (by rw [hqueue]; decide), takeNext, if_pos hready, hjoined]
    exact congrArg (serve · ⟨kind, tag, p⟩) hback
  rw [request, event, begin_steady s hsteady, receive_frame s ⟨kind, tag, p⟩ hp hcollect, hgood]

/-- What a request comes to on a quiet link, where its reports leave the link as it was but for what is due or pending to be
sent unasked: the reply is in transmission. -/
theorem request_settles {kind tag : Byte} {p : Payload} {a : Answer} (h : s.Quiet) (hp : p.length ≤ 250)
    (e : answerTo kind p s = a) (hset : a.state.settle = t) (ha : t.agenda = [])
    (hc : t.link.collecting = s.link.collecting) (hr : t.link.replies = s.link.replies)
    (hs : t.link.sending = s.link.sending) :
    s.request kind tag p = t.replied kind tag a.status (a.extra t) := by
  have hserve : s.serve ⟨kind, tag, p⟩ = t.onLink fun l => { l with replies := l.replies ++ [replyFrame kind tag a t] } := by
    rw [serve, e, hset]
  rw [request_served kind tag p h hp, hserve]
  obtain ⟨-, hcollect, -, hreplies, hsending, -⟩ := h
  rw [hcollect] at hc
  rw [hreplies] at hr
  rw [hsending] at hs
  have hback : (t.onLink fun l => { l with replies := l.replies ++ [replyFrame kind tag a t] }).arbitrate.collect [] =
      t.replied kind tag a.status (a.extra t) := by
    have hfree : (t.onLink fun l => { l with replies := l.replies ++ [replyFrame kind tag a t] }).link.sending = none := hs
    have hone : (t.onLink fun l => { l with replies := l.replies ++ [replyFrame kind tag a t] }).link.replies =
        [replyFrame kind tag a t] := by simp [onLink, hr]
    rw [arbitrate, if_neg (by rw [hfree]; nofun), hone]
    simp only [collect, send, onLink, withLink, replied, replyFrame, ← hc, ← hr]
  rw [hback, finish, settle_nil _ (by exact ha), arbitrate_sending _ rfl]

/-- A single report is worked off. -/
theorem settle_one {r : Report} (ha : s.agenda = [r]) (h : ((s.withAgenda []).handle r).agenda = []) :
    s.settle = (s.withAgenda []).handle r := by
  rw [settle, Config.reportsPerStep, settleGo_cons _ ha, settleGo_nil _ h]

theorem settle_report {r : Report} (ha : s.agenda = []) (h : (s.handle r).agenda = []) : (s.report r).settle = s.handle r := by
  have he : (s.report r).agenda = [r] := by rw [report, withAgenda_agenda, ha]; rfl
  have hs : (s.report r).withAgenda [] = s := by rw [← ha]; rfl
  rw [settle_one he (by rw [hs]; exact h), hs]

/-! ## Slots read (R41) -/

theorem readSlots_unchanged {ch : ChainId} {k : Chain} (hk : s.chain ch = some k) {l : List Nat}
    (hl : ∀ n ∈ l, ∀ g, k.segs[n]? = some g → g.check = .unchanged) : readSlots ch l s = (s, true) := by
  induction l with
  | nil => rfl
  | cons n l ih =>
    have hrest := ih fun m hm => hl m (.tail n hm)
    simp only [readSlots, hk, Option.bind_some]
    cases hg : k.segs[n]? with
    | none => exact hrest
    | some g =>
      simp only [hl n (.head l) g hg]
      exact hrest

theorem readSlots_correctable {ch : ChainId} {k : Chain} {n : Nat} {g : Segment} (hk : s.chain ch = some k)
    (hg : k.segs[n]? = some g) (hc : g.check = .correctable) : readSlots ch [n] s = (s.correctSlot ch n, true) := by
  simp only [readSlots, hk, Option.bind_some, hg, hc]

theorem readSlots_uncorrectable {ch : ChainId} {k : Chain} {n : Nat} {g : Segment} (hk : s.chain ch = some k)
    (hg : k.segs[n]? = some g) (hc : g.check = .uncorrectable) : readSlots ch [n] s = (s.markCorrupt ch, false) := by
  simp only [readSlots, hk, Option.bind_some, hg, hc]

theorem raise_always {c : Cond} (h : c.group = .always) (s : State) : s.raise c = s.latch c := if_pos (by rw [h]; rfl)

/-- A slot restored: its content is written back, the count rises, STORE_CORRECTED is raised. -/
theorem correctSlot_eq {ch : ChainId} {k : Chain} {n : Nat} {g : Segment} (hk : s.chain ch = some k)
    (hg : k.segs[n]? = some g) : s.correctSlot ch n =
      (((s.setChain ch (some { k with segs := k.segs.set n { g with check := .unchanged } })).onStore fun t =>
        { t with corrected := min 255 (t.corrected + 1) }).latch .storeCorrected) := by
  obtain ⟨hn, rfl⟩ := List.getElem?_eq_some_iff.mp hg
  rw [correctSlot, raise_always rfl, onChain, hk, Option.map_some, List.modify_eq_set_get _ hn]
  rfl

/-- The chain of a slot that cannot be corrected, STORE_CORRUPT raised. -/
def corrupted (s : State) (ch : ChainId) (k : Chain) : State :=
  (s.setChain ch (some { k with state := .corrupt })).latch .storeCorrupt

theorem raise_storeCorrupt {ch : ChainId} {k : Chain} (hk : s.chain ch = some k) :
    (s.onChain ch fun k => { k with state := .corrupt }).raise .storeCorrupt = s.corrupted ch k := by
  rw [raise_always rfl, onChain, hk, Option.map_some, corrupted]

theorem markCorrupt_unbound {ch : ChainId} {k : Chain} (hk : s.chain ch = some k)
    (hb : ∀ i m, k.binding = some (i, m) → s.job.current ≠ some i) : s.markCorrupt ch = s.corrupted ch k := by
  have hnot : ((k.binding.map (·.1)).isSome && decide (k.binding.map (·.1) = s.job.current)) = false := by
    cases hkb : k.binding with
    | none => rfl
    | some b => simpa using fun e => hb b.1 b.2 hkb e.symm
  simp only [markCorrupt, hk, raise_storeCorrupt hk, hnot, Bool.false_eq_true, if_false]

theorem markCorrupt_current {ch : ChainId} {k : Chain} {i : Slot} {m : Nat} (hk : s.chain ch = some k)
    (hb : k.binding = some (i, m)) (hi : s.job.current = some i) :
    s.markCorrupt ch = (s.corrupted ch k).genOff.report .corrupt := by
  simp [markCorrupt, hk, raise_storeCorrupt hk, hb, hi]

end Sys2Proof.Machine.State
end

section
/-! QUERY_CHAIN (R38), with the errors that it finds in the slots it reads (R41, R42, R44). -/

set_option Elab.async false

namespace Sys2Proof.Machine

/-! ## The report -/

theorem takeQueryChain_eq (ch : ChainId) {first : Nat} (hf : first < 65536) (count : Byte) (s : State) :
    takeQueryChain (byte ch.val :: (leBytes 2 first ++ [count])) s =
      if 4095 < first ∨ 6 < count.toNat then refuse s .badValue
      else report (State.readSlots ch (queryReads (s.chain ch) first count.toNat) s).1 fun t =>
        chainBytes (t.chain ch) first count.toNat := by
  have hfirst : uN 2 (byte ch.val :: (leBytes 2 first ++ [count])) 1 = first := uN_drop (r := [count]) rfl hf
  rw [takeQueryChain, ofLength, if_pos (show (byte ch.val :: (leBytes 2 first ++ [count])).length = 4 from rfl), withChain_byte]
  simp only [hfirst]
  rfl

theorem query_length (ch : ChainId) (first : Nat) (count : Byte) :
    (byte ch.val :: (leBytes 2 first ++ [count])).length ≤ 250 := by
  simp [leBytes_length]

/-- Where the slots to be reported read unchanged, the query changes nothing (R38, R41). -/
theorem query_unchanged {tag : Byte} {ch : ChainId} {first : Nat} {count : Byte} {s : State} (hq : s.Quiet)
    (hf : first ≤ 4095) (hc : count.toNat ≤ 6)
    (hr : State.readSlots ch (queryReads (s.chain ch) first count.toNat) s = (s, true)) :
    exec (.queryChain tag (byte ch.val :: (leBytes 2 first ++ [count]))) s =
      .next (s.replied 0x14 tag .ok (chainBytes (s.chain ch) first count.toNat)) := by
  have hans : answerTo 0x14 (byte ch.val :: (leBytes 2 first ++ [count])) s = _ :=
    (takeQueryChain_eq ch (by omega) count s).trans (if_neg (by omega))
  rw [hr] at hans
  exact congrArg _ (State.request_is hq (query_length ch first count) hans rfl rfl rfl rfl)

theorem mem_rangeIn {segs : List Segment} {first count n : Nat} (h : n ∈ rangeIn segs first count) :
    ∃ m < count, n = first + m := by
  simp only [rangeIn, List.mem_map, List.mem_range] at h
  obtain ⟨m, hm, rfl⟩ := h
  exact ⟨m, by omega, by omega⟩

/-- A slot that a query reads is one of those it reports. -/
theorem mem_range_of_mem_rangeIn {segs : List Segment} {first count n : Nat} {g : Segment}
    (h : n ∈ rangeIn segs first count) (hg : segs[n]? = some g) : g ∈ (segs.drop first).take count := by
  obtain ⟨m, hm, rfl⟩ := mem_rangeIn h
  refine List.mem_of_getElem? (i := m) ?_
  rw [List.getElem?_take_of_lt hm, List.getElem?_drop, hg]

theorem chainStateCode_bytes {k : Chain} (h : k.state ≠ .corrupt) :
    byte (chainStateCode (some k.state)) = if k.state = .opened then 1 else 2 := by
  cases hst : k.state with
  | opened => rfl
  | closed => rfl
  | corrupt => exact (h hst).elim

/-- Settles O23: the record is the reply's contents, and the slots read for it change nothing where they are unchanged. -/
theorem queryChainReportsTheRecord : Obligations.QueryChainReportsTheRecord := by
  intro tag ch first count s hq hfirst
  refine ⟨fun h => ?_, fun hf hc => ⟨fun hn => ?_, fun k hk => ⟨fun hcor => ?_, fun hcor hu => ?_⟩⟩⟩
  · exact congrArg _ (State.request_refused hq (query_length ch first count)
      (show answerTo 0x14 _ s = _ from (takeQueryChain_eq ch hfirst count s).trans (if_pos h)))
  · rw [query_unchanged hq hf hc (by rw [hn]; rfl), hn]
    rfl
  · rw [query_unchanged hq hf hc (by rw [hk, queryReads, if_pos hcor]; rfl), hk, chainBytes, hcor]
    simp only [bindingBytes, if_true, List.append_nil]
    rfl
  · have hreads : queryReads (some k) first count.toNat = rangeIn k.segs first count.toNat := if_neg hcor
    have hread := State.readSlots_unchanged hk (l := rangeIn k.segs first count.toNat) fun n hn g hg =>
      hu g (mem_range_of_mem_rangeIn hn hg)
    rw [query_unchanged hq hf hc (by rw [hk, hreads, hread]), hk, chainBytes, if_neg hcor, chainStateCode_bytes hcor]
    simp only [bindingBytes, List.append_assoc, List.cons_append, List.nil_append]
    rfl

/-! ## One slot read -/

/-- The answer to a query of one slot. -/
theorem query_one {ch : ChainId} {k : Chain} {n : Nat} {g : Segment} {s : State} (hk : s.chain ch = some k)
    (hst : k.state ≠ .corrupt) (hn : n ≤ 4095) (hg : k.segs[n]? = some g) :
    takeQueryChain (byte ch.val :: (leBytes 2 n ++ [1])) s =
      report (State.readSlots ch [n] s).1 fun t => chainBytes (t.chain ch) n 1 := by
  have hlt := (List.getElem?_eq_some_iff.mp hg).1
  have hreads : queryReads (s.chain ch) n 1 = [n] := by
    rw [hk, queryReads, if_neg hst, rangeIn, Nat.min_eq_left (by omega)]
    simp
  rw [takeQueryChain_eq ch (by omega), if_neg (by simpa using hn)]
  show report (State.readSlots ch (queryReads (s.chain ch) n 1) s).1 _ = _
  rw [hreads]
  rfl

/-- A slot that cannot be corrected, in a chain of the current contour, faults that contour (R42, R88, R89). -/
theorem corruptSlotFaultsCurrent {tag : Byte} {ch : ChainId} {k : Chain} {n : Nat} {g : Segment} {s : State} (hq : s.Quiet)
    (hk : s.chain ch = some k) (hst : k.state ≠ .corrupt) (hn : n ≤ 4095) (hg : k.segs[n]? = some g) :
    CorruptSlotFaultsCurrent tag ch k n g s := by
  intro i m c hu hb hi hc hw
  have hans : answerTo 0x14 (byte ch.val :: (leBytes 2 n ++ [1])) s = _ := query_one hk hst hn hg
  rw [State.readSlots_uncorrectable hk hg hu, State.markCorrupt_current hk hb hi] at hans
  have hmark : (s.setChain ch (some { k with state := .corrupt })).Stirs (s.corrupted ch k) := State.latch_stirs _ _
  have hraised : ((s.corrupted ch k).cond .storeCorrupt).latch = (s.corrupted ch k).raisedLatch .storeCorrupt :=
    (State.latch_raised _ _).trans (hmark.raised _).symm
  have hoff := State.genOff_stirs (s.corrupted ch k)
  have h := hmark.trans hoff
  have hraised' := hoff.latch_eq hraised
  generalize (s.corrupted ch k).genOff = v at hans h hraised'
  have hwv : v.NoneWaiting := fun j d hd => hw j d (by rw [← hd, h.contour]; rfl)
  obtain ⟨m', j, hl, -⟩ := State.faultCurrent_left (s := v) (f := .corrupt) (by rw [h.job]; exact hi)
    (State.noneWaiting_onContour hwv i fun _ => ⟨nofun, nofun⟩)
  have hf := v.faulting_stirs .corrupt
  have hleft := hl.hasLeft
  have hag : v.agenda = [] := h.agenda.trans hq.1.1
  have hlink : (v.faultCurrent .corrupt).link = { s.link with progressPending := true } :=
    hl.link.trans (congrArg (fun l : Link => { l with progressPending := true }) (hf.link.trans h.link))
  have hraise (d : Cond) : (v.faultCurrent .corrupt).raisedLatch d = s.raisedLatch d :=
    (hl.raised d).trans ((hf.raised d).trans (h.raised d))
  have hchain (d : ChainId) : (v.faultCurrent .corrupt).chain d = (s.setChain ch (some { k with state := .corrupt })).chain d :=
    (hl.chain d).trans ((hf.chain d).trans (h.chain d))
  have hreq := State.request_settles (tag := tag) (t := v.faultCurrent .corrupt) hq (query_length ch n 1) hans
    (State.settle_report hag hleft.agenda) hleft.agenda (by rw [hlink]) (by rw [hlink]) (by rw [hlink])
  refine ⟨v.faultCurrent .corrupt, _, congrArg _ hreq, ?_, fun d hd => ?_, ?_, fun d hd => ?_, ?_, ?_, hleft.pass,
    hleft.genOff, hl.rapid, ?_, hleft.thread, hleft.job.2⟩
  · rw [hleft.contour, hf.contour, h.contour]
    exact congrArg (Option.map _) hc
  · rw [hleft.others d hd, hf.contour, h.contour]
    rfl
  · rw [hchain, State.chain_setChain_same]
  · rw [hchain, State.chain_setChain_ne s hd]
  · rw [hl.latch_eq (hf.latch_eq hraised'), hraise]
  · rw [hl.latch_eq (v.faulting_raised rfl), hraise]
  · rw [hleft.commanded, hf.commanded, h.commanded]
    rfl

/-- Settles O24: the slot is restored, or its chain is CORRUPT, and the current contour it is bound to FAULTED. -/
theorem slotErrorsAreCorrectedOrCorrupt : Obligations.SlotErrorsAreCorrectedOrCorrupt := by
  intro tag ch k n g s hq hk hst hn hg
  have hans : answerTo 0x14 (byte ch.val :: (leBytes 2 n ++ [1])) s = _ := query_one hk hst hn hg
  have hlen := query_length ch n 1
  refine ⟨corruptSlotFaultsCurrent hq hk hst hn hg, fun hc => ?_, fun hu hb => ?_⟩
  · rw [State.readSlots_correctable hk hg hc, State.correctSlot_eq hk hg] at hans
    have h := ((s.setChain ch (some { k with segs := k.segs.set n { g with check := .unchanged } })).onStore fun t =>
      { t with corrected := min 255 (t.corrected + 1) }).latch_stirs .storeCorrected
    exact ⟨_, congrArg _ (State.request_is hq hlen hans h.agenda (congrArg Link.collecting h.link)
      (congrArg Link.replies h.link) (congrArg Link.sending h.link))⟩
  · rw [State.readSlots_uncorrectable hk hg hu, State.markCorrupt_unbound hk hb] at hans
    have h := (s.setChain ch (some { k with state := .corrupt })).latch_stirs .storeCorrupt
    exact ⟨_, congrArg _ (State.request_is hq hlen hans h.agenda (congrArg Link.collecting h.link)
      (congrArg Link.replies h.link) (congrArg Link.sending h.link))⟩

end Sys2Proof.Machine
end

section
/-! SUPPORT. LOAD_SEGMENTS (R27, R28, R33): a message as its segments, the checks of the load as a whole, and what a load
that is refused and one that is taken come to where no pass runs the chain. -/

set_option Elab.async false

namespace Sys2Proof.Machine

/-! ## A message as its segments (R181) -/

theorem splitSegs_length {n : Nat} {p : Payload} {qs : List Payload} (h : splitSegs n p = some qs) : qs.length = n := by
  induction n generalizing p qs with
  | zero =>
    cases p with
    | nil => cases h; rfl
    | cons b bs => cases h
  | succ n ih =>
    cases p with
    | nil => cases h
    | cons b bs =>
      simp only [splitSegs] at h
      split at h
      · obtain ⟨rest, hrest, rfl⟩ := Option.map_eq_some_iff.mp h
        rw [List.length_cons, ih hrest]
      · cases h

/-- A payload is the bytes of one segment, as its first byte declares. -/
def Whole (q : Payload) : Prop := ∃ b bs, q = b :: bs ∧ q.length = segSize b

theorem splitSegs_whole {q : Payload} (h : Whole q) (n : Nat) (p : Payload) :
    splitSegs (n + 1) (q ++ p) = (splitSegs n p).map (q :: ·) := by
  obtain ⟨b, bs, rfl, hlen⟩ := h
  have hle : segSize b ≤ (b :: (bs ++ p)).length := by
    rw [← hlen]
    simp
  rw [List.cons_append, splitSegs, if_pos hle, ← hlen, ← List.cons_append, List.drop_left, List.take_left]

theorem splitSegs_flatten {segs : List Payload} (h : ∀ q ∈ segs, Whole q) :
    splitSegs segs.length segs.flatten = some segs := by
  induction segs with
  | nil => rfl
  | cons q qs ih =>
    rw [List.length_cons, List.flatten_cons, splitSegs_whole (h q (.head _)), ih fun r hr => h r (.tail _ hr),
      Option.map_some]

/-! ## Refusals of a segment (R28) -/

theorem checkSegment_ne_ok {t : Store} {start : Point} {n : Nat} {q : Payload} {st : Status}
    (h : checkSegment t start n q = .error st) : st ≠ .ok := by
  simp only [checkSegment, checkLine, checkArc] at h
  repeat' split at h
  all_goals cases h
  all_goals nofun

theorem checkSegments_ne_ok {t : Store} {start : Point} {n i j : Nat} {qs : List Payload} {st : Status}
    (h : checkSegments t start n i qs = .error (st, j)) : st ≠ .ok := by
  induction qs generalizing start n i with
  | nil => cases h
  | cons q qs ih =>
    simp only [checkSegments] at h
    split at h
    · cases h
      exact checkSegment_ne_ok ‹_›
    · split at h
      · cases h
        exact ih ‹_›
      · cases h

theorem checkSegments_one_refused {t : Store} {start : Point} {n : Nat} {q : Payload} {st : Status}
    (h : checkSegment t start n q = .error st) : checkSegments t start n 0 [q] = .error (st, 0) := by
  simp only [checkSegments, h]

theorem checkSegments_one_taken {t : Store} {start : Point} {n : Nat} {q : Payload} {g : Segment}
    (h : checkSegment t start n q = .ok g) : checkSegments t start n 0 [q] = .ok [g] := by
  simp only [checkSegments, h]

/-! ## The checks of the load as a whole (R27) -/

/-- What a load of segments, split as its count and kinds declare, comes to for a chain. -/
def loadSplit (qs : List Payload) (ch : ChainId) (s : State) : Answer :=
  if qs.length = 0 ∨ 12 < qs.length then refuse s .badValue
  else
    match s.chain ch with
    | none => refuse s .notFound
    | some k =>
      if k.state = .corrupt then refuse s .notFound
      else if k.state = .closed then refuse s .wrongState
      else if s.store.freeSlots < qs.length then refuse s .storeFull
      else
        match checkSegments s.store k.endPt k.loaded 0 qs with
        | .error (st, i) => refuseAt s st i
        | .ok gs => report (s.load ch k gs) fun _ => loadedBytes (k.append gs)

theorem takeLoadSegments_split {p : Payload} {qs : List Payload} (hp : 2 ≤ p.length)
    (hs : splitSegs (u8 p 1) (p.drop 2) = some qs) (s : State) : takeLoadSegments p s = withChain p s (loadSplit qs) := by
  rw [takeLoadSegments, if_neg (by omega), hs]
  rfl

section
variable {qs : List Payload} {ch : ChainId} {k : Chain} {s : State}

theorem loadSplit_count (h : qs.length = 0 ∨ 12 < qs.length) : loadSplit qs ch s = refuse s .badValue := if_pos h

section
variable (hn : ¬(qs.length = 0 ∨ 12 < qs.length))
include hn

theorem loadSplit_free (hk : s.chain ch = none) : loadSplit qs ch s = refuse s .notFound := by
  rw [loadSplit, if_neg hn, hk]

theorem loadSplit_corrupt (hk : s.chain ch = some k) (h : k.state = .corrupt) : loadSplit qs ch s = refuse s .notFound := by
  rw [loadSplit, if_neg hn, hk]
  exact if_pos h

theorem loadSplit_closed (hk : s.chain ch = some k) (h : k.state = .closed) : loadSplit qs ch s = refuse s .wrongState := by
  rw [loadSplit, if_neg hn, hk]
  dsimp only
  rw [if_neg (by rw [h]; nofun), if_pos h]

section
variable (hk : s.chain ch = some k) (hst : k.state = .opened)
include hk hst

theorem loadSplit_full (hf : s.store.freeSlots < qs.length) : loadSplit qs ch s = refuse s .storeFull := by
  rw [loadSplit, if_neg hn, hk]
  dsimp only
  rw [if_neg (by rw [hst]; nofun), if_neg (by rw [hst]; nofun), if_pos hf]

theorem loadSplit_refused (hf : qs.length ≤ s.store.freeSlots) {st : Status} {i : Nat}
    (hc : checkSegments s.store k.endPt k.loaded 0 qs = .error (st, i)) : loadSplit qs ch s = refuseAt s st i := by
  rw [loadSplit, if_neg hn, hk]
  dsimp only
  rw [if_neg (by rw [hst]; nofun), if_neg (by rw [hst]; nofun), if_neg (Nat.not_lt.mpr hf), hc]

theorem loadSplit_taken (hf : qs.length ≤ s.store.freeSlots) {gs : List Segment}
    (hc : checkSegments s.store k.endPt k.loaded 0 qs = .ok gs) :
    loadSplit qs ch s = report (s.load ch k gs) fun _ => loadedBytes (k.append gs) := by
  rw [loadSplit, if_neg hn, hk]
  dsimp only
  rw [if_neg (by rw [hst]; nofun), if_neg (by rw [hst]; nofun), if_neg (Nat.not_lt.mpr hf), hc]

end

end

/-- A load is refused with a status other than OK, or its segments have passed every check. -/
theorem loadSplit_cases (qs : List Payload) (ch : ChainId) (s : State) :
    (∃ st, st ≠ .ok ∧ (loadSplit qs ch s = refuse s st ∨ ∃ i, loadSplit qs ch s = refuseAt s st i)) ∨
    ∃ k gs, qs ≠ [] ∧ qs.length ≤ 12 ∧ s.chain ch = some k ∧ k.state = .opened ∧ qs.length ≤ s.store.freeSlots ∧
      checkSegments s.store k.endPt k.loaded 0 qs = .ok gs ∧
      loadSplit qs ch s = report (s.load ch k gs) fun _ => loadedBytes (k.append gs) := by
  by_cases hn : qs.length = 0 ∨ 12 < qs.length
  · exact .inl ⟨.badValue, nofun, .inl (loadSplit_count hn)⟩
  · cases hk : s.chain ch with
    | none => exact .inl ⟨.notFound, nofun, .inl (loadSplit_free hn hk)⟩
    | some k =>
      cases hst : k.state with
      | corrupt => exact .inl ⟨.notFound, nofun, .inl (loadSplit_corrupt hn hk hst)⟩
      | closed => exact .inl ⟨.wrongState, nofun, .inl (loadSplit_closed hn hk hst)⟩
      | opened =>
        rcases Nat.lt_or_ge s.store.freeSlots qs.length with hf | hf
        · exact .inl ⟨.storeFull, nofun, .inl (loadSplit_full hn hk hst hf)⟩
        · cases hc : checkSegments s.store k.endPt k.loaded 0 qs with
          | error e => exact .inl ⟨e.1, checkSegments_ne_ok hc, .inr ⟨e.2, loadSplit_refused hn hk hst hf hc⟩⟩
          | ok gs =>
            exact .inr ⟨k, gs, fun h => hn (.inl (congrArg List.length h)), by omega, rfl, hst, hf, hc,
              loadSplit_taken hn hk hst hf hc⟩

end

/-! ## A load refused, and one taken (R33) -/

namespace State

variable {s : State}

/-- A refused request that names an index has no effect but its reply. -/
theorem request_refusedAt {kind tag : Byte} {p : Payload} {st : Status} {i : Nat} (h : s.Quiet) (hp : p.length ≤ 250)
    (e : answerTo kind p s = refuseAt s st i) : s.request kind tag p = s.replied kind tag st [byte i] :=
  request_is (a := refuseAt s st i) h hp e rfl rfl rfl rfl

/-- The store once segments have been appended to a chain, and their slots taken (R23, R33). -/
def appended (s : State) (ch : ChainId) (k : Chain) (gs : List Segment) : State :=
  (s.setChain ch (some (k.append gs))).onStore fun t => { t with freeSlots := t.freeSlots - gs.length }

theorem load_eq (s : State) (ch : ChainId) (k : Chain) (gs : List Segment) :
    s.load ch k gs = (s.appended ch k gs).chainChanged ch := rfl

/-- A chain that no pass runs may be loaded or closed without more. -/
theorem chainChanged_idle {ch : ChainId} (h : ∀ r, s.path.pass = some r → r.chain ≠ ch) : s.chainChanged ch = s := by
  refine if_neg fun he => ?_
  obtain ⟨r, hr, hch⟩ := Option.map_eq_some_iff.mp he
  exact h r hr hch

/-- A load that is taken where no pass runs the chain. -/
theorem request_loaded {tag : Byte} {p : Payload} {ch : ChainId} {k : Chain} {gs : List Segment} (h : s.Quiet)
    (hp : p.length ≤ 250) (hrun : ∀ r, s.path.pass = some r → r.chain ≠ ch)
    (e : takeLoadSegments p s = Machine.report (s.load ch k gs) fun _ => loadedBytes (k.append gs)) :
    s.request 0x11 tag p = (s.appended ch k gs).replied 0x11 tag .ok (loadedBytes (k.append gs)) := by
  rw [load_eq, chainChanged_idle (s := s.appended ch k gs) hrun] at e
  exact request_is (kind := 0x11) h hp e rfl rfl rfl rfl

end State

theorem Chain.append_eq (k : Chain) {gs : List Segment} {last : Segment} (h : gs.getLast? = some last) :
    k.append gs = { k with segs := k.segs ++ gs, loaded := k.loaded + (gs.map (·.length)).sum, endPt := last.endPt } := by
  rw [Chain.append, h]
  rfl

theorem loadedBytes_append (k : Chain) (gs : List Segment) : loadedBytes (k.append gs) =
    leBytes 2 (k.segs.length + gs.length) ++ leBytes 4 (k.loaded + (gs.map (·.length)).sum) := by
  rw [loadedBytes, Chain.append, List.length_append]

/-- Settles O19: the checks either refuse the load or pass, and what they pass is appended and nothing else. -/
theorem loadIsTakenWholeOrNotAtAll : Obligations.LoadIsTakenWholeOrNotAtAll := by
  intro tag p s hq hp hrun
  have refused {st : Status} (hst : st ≠ .ok) (h : takeLoadSegments p s = refuse s st) :
      ∃ st extra, st ≠ .ok ∧ exec (.loadSegments tag p) s = .next (s.replied 0x11 tag st extra) :=
    ⟨st, [], hst, congrArg _ (State.request_refused (kind := 0x11) hq hp h)⟩
  by_cases hshort : p.length < 2
  · exact .inl (refused (st := .badLength) nofun (if_pos hshort))
  · cases hs : splitSegs (u8 p 1) (p.drop 2) with
    | none => exact .inl (refused (st := .badLength) nofun (by rw [takeLoadSegments, if_neg hshort, hs]))
    | some qs =>
      have htake := takeLoadSegments_split (by omega) hs s
      rw [withChain] at htake
      cases hch : chainOf (u8 p 0) with
      | none => exact .inl (refused (st := .badValue) nofun (by rw [htake, hch]))
      | some ch =>
        rw [hch] at htake
        have hid : u8 p 0 = ch.val := by
          rw [chainOf] at hch
          split at hch <;> cases hch
          rfl
        rcases loadSplit_cases qs ch s with ⟨st, hst, h | ⟨i, h⟩⟩ | ⟨k, gs, hne, h12, hk, hopen, hfree, hc, h⟩
        · exact .inl (refused hst (htake.trans h))
        · exact .inl ⟨st, _, hst, congrArg _ (State.request_refusedAt (kind := 0x11) hq hp (htake.trans h))⟩
        · have hlen := State.checkSegments_length hc
          have hgs : gs ≠ [] := fun e => hne (List.length_eq_zero_iff.mp (by rw [← hlen, e]; rfl))
          have hlast := List.getLast?_eq_some_getLast hgs
          refine .inr ⟨ch, k, gs, gs.getLast hgs, hid, ?_, hk, hopen, by omega, hlast, by omega, ?_⟩
          · rw [hlen, splitSegs_length hs]
          · rw [← Chain.append_eq k hlast, ← loadedBytes_append]
            exact congrArg _ (State.request_loaded hq hp (fun r hr he => hrun r hr (he ▸ hid)) (htake.trans h))

end Sys2Proof.Machine
end

section
/-! The checks of a load and of one segment, in their order (R27 to R32, R49). -/

set_option Elab.async false

namespace Sys2Proof.Machine

/-! ## The load as a whole (R27) -/

theorem segSize_line {b : Byte} (h : b = 0 ∨ b = 0x80) : segSize b = 9 := by
  rcases h with rfl | rfl <;> rfl

theorem whole_line {q : Payload} (h : q.length = 9 ∧ (q.getD 0 0 = 0 ∨ q.getD 0 0 = 0x80)) : Whole q := by
  obtain ⟨hlen, hb⟩ := h
  cases q with
  | nil => cases hlen
  | cons b bs => exact ⟨b, bs, rfl, hlen.trans (segSize_line hb).symm⟩

/-- A message of segments, as LOAD_SEGMENTS splits it. -/
theorem takeLoad_message {id : Byte} {segs : List Payload} (h : ∀ q ∈ segs, Whole q) (hl : segs.length < 256) (s : State) :
    takeLoadSegments (id :: byte segs.length :: segs.flatten) s =
      withChain (id :: byte segs.length :: segs.flatten) s (loadSplit segs) := by
  have hcount : u8 (id :: byte segs.length :: segs.flatten) 1 = segs.length := byte_toNat_of_lt hl
  exact takeLoadSegments_split (by simp) (by rw [hcount]; exact splitSegs_flatten h) s

theorem message_length {id : Byte} {segs : List Payload} (h : ∀ q ∈ segs, q.length = 9) (hl : segs.length ≤ 27) :
    (id :: byte segs.length :: segs.flatten).length ≤ 250 := by
  have hsum : segs.flatten.length = segs.length * 9 := by
    rw [List.length_flatten, List.map_congr_left h, List.map_const', List.sum_replicate, smul_eq_mul]
  simp only [List.length_cons, hsum]
  omega

theorem loadChecks (tag id : Byte) (segs : List Payload) (s : State) (hq : s.Quiet) (hl : segs.length ≤ 27)
    (hs : ∀ b ∈ segs, b.length = 9 ∧ (b.getD 0 0 = 0 ∨ b.getD 0 0 = 0x80)) : LoadChecks tag id segs s := by
  have hlen := message_length (id := id) (fun b hb => (hs b hb).1) hl
  have hans : answerTo 0x11 (id :: byte segs.length :: segs.flatten) s = _ :=
    takeLoad_message (id := id) (fun b hb => whole_line (hs b hb)) (by omega) s
  have refused {st : Status} (h : answerTo 0x11 (id :: byte segs.length :: segs.flatten) s = refuse s st) :
      exec (.loadSegments tag (id :: byte segs.length :: segs.flatten)) s = .next (s.replied 0x11 tag st []) :=
    congrArg _ (State.request_refused hq hlen h)
  refine ⟨fun h => refused (hans.trans ?_), fun ch hch hne h12 => ?_⟩
  · rcases chain_or_beyond id with ⟨ch, rfl⟩ | hid
    · rw [withChain_byte]
      refine loadSplit_count ?_
      rcases h with h | rfl | h
      · rw [byte_toNat_of_lt (chain_lt ch)] at h
        have := ch.isLt
        omega
      · exact .inl rfl
      · exact .inr h
    · exact withChain_beyond hid _ s _
  · subst hch
    rw [withChain_byte] at hans
    have hn : ¬(segs.length = 0 ∨ 12 < segs.length) := by
      have := List.length_pos_of_ne_nil hne
      omega
    refine ⟨fun h => refused (hans.trans ?_), fun k hk =>
      ⟨fun h => refused (hans.trans ?_), fun h hf => refused (hans.trans ?_)⟩⟩
    · rcases h with h | ⟨k, hk, h⟩
      · exact loadSplit_free hn h
      · exact loadSplit_corrupt hn hk h
    · exact loadSplit_closed hn hk h
    · exact loadSplit_full hn hk h hf

/-! ## One segment -/

/-- A load of one segment, where the chain takes loads and no pass runs it: the check of the segment decides. -/
structure LoadsOne (ch : ChainId) (k : Chain) (q : Payload) (s : State) : Prop where
  quiet : s.Quiet
  chain : s.chain ch = some k
  opened : k.state = .opened
  free : 1 ≤ s.store.freeSlots
  whole : Whole q
  short : q.length ≤ 17

section
variable {ch : ChainId} {k : Chain} {q : Payload} {s : State} (h : LoadsOne ch k q s) (tag : Byte)
include h

theorem LoadsOne.length : (byte ch.val :: 1 :: q : Payload).length ≤ 250 := by
  have := h.short
  simp only [List.length_cons]
  omega

theorem LoadsOne.split : takeLoadSegments (byte ch.val :: 1 :: q) s = loadSplit [q] ch s := by
  have hq : [q].flatten = q := by simp
  have := takeLoad_message (id := byte ch.val) (segs := [q]) (by simpa using h.whole) (by simp) s
  rwa [hq, withChain_byte] at this

/-- The load of a segment that fails a check is refused, and names index 0. -/
theorem LoadsOne.refused {st : Status} (hc : checkSegment s.store k.endPt k.loaded q = .error st) :
    exec (.loadSegments tag (byte ch.val :: 1 :: q)) s = .next (s.replied 0x11 tag st [0]) := by
  have hans := loadSplit_refused (qs := [q]) (by simp) h.chain h.opened h.free (checkSegments_one_refused hc)
  exact congrArg _ (State.request_refusedAt (kind := 0x11) h.quiet h.length (h.split.trans hans))

/-- The load of a segment that passes its checks, by the path unit's part in it. -/
theorem LoadsOne.answer {g : Segment} (hc : checkSegment s.store k.endPt k.loaded q = .ok g) :
    takeLoadSegments (byte ch.val :: 1 :: q) s = report (s.load ch k [g]) fun _ => loadedBytes (k.append [g]) :=
  h.split.trans (loadSplit_taken (qs := [q]) (by simp) h.chain h.opened h.free (checkSegments_one_taken hc))

theorem LoadsOne.taken (hrun : ∀ r, s.path.pass = some r → r.chain ≠ ch) {g : Segment}
    (hc : checkSegment s.store k.endPt k.loaded q = .ok g) :
    exec (.loadSegments tag (byte ch.val :: 1 :: q)) s =
      .next (((s.setChain ch (some { k with
        segs := k.segs ++ [g], loaded := k.loaded + g.length, endPt := g.endPt })).onStore fun t =>
          { t with freeSlots := t.freeSlots - 1 }).replied 0x11 tag .ok
        (leBytes 2 (k.segs.length + 1) ++ leBytes 4 (k.loaded + g.length))) := by
  have hreq := State.request_loaded (tag := tag) h.quiet h.length hrun (h.answer hc)
  rw [State.appended, loadedBytes_append, Chain.append_eq k (gs := [g]) rfl, List.map_singleton, List.sum_singleton] at hreq
  exact congrArg _ hreq

end

/-! ## A LINE (R28, R29, R31, R32) -/

/-- The bytes of a LINE. -/
def lineBytes (dry : Bool) (e : Point) : Payload := (if dry then 0x80 else 0) :: pointBytes e

theorem lineBytes_length (dry : Bool) (e : Point) : (lineBytes dry e).length = 9 := by
  rw [lineBytes, List.length_cons, pointBytes_len]

theorem lineBytes_whole (dry : Bool) (e : Point) : Whole (lineBytes dry e) :=
  ⟨_, _, rfl, (lineBytes_length dry e).trans (by cases dry <;> rfl)⟩

theorem checkSegment_line (t : Store) (start : Point) (n : Nat) (dry : Bool) {e : Point} (hx : fourBytes e.x)
    (hy : fourBytes e.y) : checkSegment t start n (lineBytes dry e) =
      if !e.inRange then .error .badValue else checkLine t start n (if dry then .dry else .cut) e := by
  have he : pointAt (lineBytes dry e) 1 = e := pointAt_drop (r := []) (by rw [List.append_nil]; rfl) hx hy
  have hkind : segKindOf ((lineBytes dry e).getD 0 0) = some .line := by
    show segKindOf (if dry then 0x80 else 0) = _
    cases dry <;> decide
  have hmode : segModeOf ((lineBytes dry e).getD 0 0) = if dry then .dry else .cut := by
    show segModeOf (if dry then 0x80 else 0) = _
    cases dry <;> decide
  simp only [checkSegment, he, hkind, hmode]

section
variable {t : Store} {start e : Point} {n : Nat} {mode : SegMode}

theorem checkLine_geometry (h : start = e) : checkLine t start n mode e = .error .geometry := if_pos h

variable (hne : start ≠ e)
include hne

theorem checkLine_window (h : ¬(t.window.holds start = true ∧ t.window.holds e = true)) :
    checkLine t start n mode e = .error .window := by
  rw [← Bool.and_eq_true, Bool.not_eq_true] at h
  rw [checkLine, if_neg hne, h]
  rfl

variable (hs : t.window.holds start = true) (he : t.window.holds e = true)
include hs he

theorem checkLine_keepOut (h : t.lineKeptOut start e = true) : checkLine t start n mode e = .error .keepOut := by
  rw [checkLine, if_neg hne, hs, he]
  exact if_pos h

theorem checkLine_long (h : t.lineKeptOut start e = false) (hl : 2147483647 < n + distance start e) :
    checkLine t start n mode e = .error .badValue := by
  rw [checkLine, if_neg hne, hs, he, h]
  exact if_pos hl

theorem checkLine_ok (h : t.lineKeptOut start e = false) (hl : n + distance start e ≤ 2147483647) :
    checkLine t start n mode e = .ok ⟨.line, mode, e, none, distance start e, none, n, .unchanged⟩ := by
  rw [checkLine, if_neg hne, hs, he, h]
  exact if_neg (Nat.not_lt.mpr hl)

end

/-! ## An arc (R28 to R32, R49) -/

/-- The bytes of an arc. -/
def arcBytes (dry ccw : Bool) (e o : Point) : Payload :=
  ((if dry then 0x80 else 0) ||| (if ccw then 2 else 1)) :: (pointBytes e ++ pointBytes o)

theorem arcBytes_length (dry ccw : Bool) (e o : Point) : (arcBytes dry ccw e o).length = 17 := by
  rw [arcBytes, List.length_cons, List.length_append, pointBytes_len, pointBytes_len]

theorem arcBytes_whole (dry ccw : Bool) (e o : Point) : Whole (arcBytes dry ccw e o) :=
  ⟨_, _, rfl, (arcBytes_length dry ccw e o).trans (by cases dry <;> cases ccw <;> rfl)⟩

/-- The kind of an arc by its sense. -/
def arcKind (ccw : Bool) : SegKind := if ccw then .arcCcw else .arcCw

theorem checkSegment_arc (t : Store) (start : Point) (n : Nat) (dry ccw : Bool) {e o : Point} (hex : fourBytes e.x)
    (hey : fourBytes e.y) (hox : fourBytes o.x) (hoy : fourBytes o.y) : checkSegment t start n (arcBytes dry ccw e o) =
      if !(e.inRange && o.inRange) then .error .badValue
      else checkArc t start n (arcKind ccw) (if dry then .dry else .cut) e o := by
  have hde : (arcBytes dry ccw e o).drop 1 = pointBytes e ++ (pointBytes o ++ []) := by rw [List.append_nil]; rfl
  have he : pointAt (arcBytes dry ccw e o) 1 = e := pointAt_drop hde hex hey
  have ho : pointAt (arcBytes dry ccw e o) 9 = o := pointAt_drop (drop_field hde (by rw [pointBytes_len])) hox hoy
  have hkind : segKindOf ((arcBytes dry ccw e o).getD 0 0) = some (arcKind ccw) := by
    show segKindOf ((if dry then 0x80 else 0) ||| (if ccw then 2 else 1)) = _
    cases dry <;> cases ccw <;> decide
  have hmode : segModeOf ((arcBytes dry ccw e o).getD 0 0) = if dry then .dry else .cut := by
    show segModeOf ((if dry then 0x80 else 0) ||| (if ccw then 2 else 1)) = _
    cases dry <;> cases ccw <;> decide
  simp only [checkSegment, he, ho, hkind, hmode]
  cases ccw <;> rfl

/-- An arc that passes the checks of its shape (R29, R49). -/
def arcShaped (kind : SegKind) (start e o : Point) : Bool :=
  arcDistances start e o && !noSweep start e o && !decide (arcLen kind start e o = 0)

theorem arcShaped_iff (kind : SegKind) (start e o : Point) : arcShaped kind start e o = true ↔
    distance start o ≤ distance e o + 2 ∧ distance e o ≤ distance start o + 2 ∧ 50 ≤ distance start o ∧
      ¬ (start ≠ e ∧ cross (o.to start) (o.to e) = 0 ∧ 0 < dot (o.to start) (o.to e)) ∧
      arcLen kind start e o ≠ 0 := by
  simp only [arcShaped, arcDistances, noSweep, Bool.and_eq_true, Bool.not_eq_true', decide_eq_true_eq, decide_eq_false_iff_not,
    Bool.and_eq_false_iff, and_assoc, not_and_or, or_assoc]

theorem inside_iff (q w : Rect) : q.inside w = true ↔
    w.xMin ≤ q.xMin ∧ q.xMax ≤ w.xMax ∧ w.yMin ≤ q.yMin ∧ q.yMax ≤ w.yMax := decide_eq_true_iff

theorem meets_comm (q w : Rect) : q.meets w = w.meets q :=
  decide_eq_decide.mpr ⟨fun ⟨h1, h2, h3, h4⟩ => ⟨h2, h1, h4, h3⟩, fun ⟨h1, h2, h3, h4⟩ => ⟨h2, h1, h4, h3⟩⟩

theorem boxKeptOut_iff (t : Store) (q : Rect) :
    t.boxKeptOut q = true ↔ ∃ n : Fin 4, t.keepOuts[n].enabled = true ∧ q.meets t.keepOuts[n].rect = true := by
  rw [Store.boxKeptOut, any_enabledKeepOuts]
  simp only [meets_comm q]

theorem checkArc_eq (t : Store) (start : Point) (n : Nat) (kind : SegKind) (mode : SegMode) (e o : Point) :
    checkArc t start n kind mode e o =
      if !arcShaped kind start e o then .error .geometry
      else if !(arcBox kind start e o (distance start o)).inside t.window then .error .window
      else if t.boxKeptOut (arcBox kind start e o (distance start o)) then .error .keepOut
      else if Config.maxLength < n + arcLen kind start e o then .error .badValue
      else .ok ⟨kind, mode, e, some o, arcLen kind start e o, some (distance start o), n, .unchanged⟩ := by
  simp only [checkArc, arcShaped, Bool.not_and, Bool.not_not]

/-! ## The load of one LINE, and of one arc -/

section
variable {tag : Byte} {ch : ChainId} {k : Chain} {s : State} (hq : s.Quiet) (hk : s.chain ch = some k)
  (hst : k.state = .opened) (hfree : 1 ≤ s.store.freeSlots)
include hq hk hst hfree

theorem loadsOne_line (dry : Bool) (e : Point) : LoadsOne ch k (lineBytes dry e) s :=
  ⟨hq, hk, hst, hfree, lineBytes_whole dry e, by rw [lineBytes_length]; decide⟩

theorem loadsOne_arc (dry ccw : Bool) (e o : Point) : LoadsOne ch k (arcBytes dry ccw e o) s :=
  ⟨hq, hk, hst, hfree, arcBytes_whole dry ccw e o, by rw [arcBytes_length]⟩

variable (hrun : ∀ r, s.path.pass = some r → r.chain ≠ ch) {e : Point} (hx : fourBytes e.x) (hy : fourBytes e.y)
include hrun hx hy

theorem arcIsCheckedAndAppended {o : Point} (hox : fourBytes o.x) (hoy : fourBytes o.y) (dry ccw : Bool) :
    ArcIsCheckedAndAppended tag ch k dry ccw e o s := by
  have h := loadsOne_arc hq hk hst hfree dry ccw e o
  have hc := checkSegment_arc s.store k.endPt k.loaded dry ccw hx hy hox hoy
  have hrange : (e.inRange && o.inRange) = true ↔ ∀ v ∈ [e.x, e.y, o.x, o.y], -4000000 ≤ v ∧ v ≤ 4000000 := by
    simp [inRange_iff, and_assoc]
  have hshape := arcShaped_iff (arcKind ccw) k.endPt e o
  have hinside := inside_iff (arcBox (arcKind ccw) k.endPt e o (distance k.endPt o)) s.store.window
  have hkept := boxKeptOut_iff s.store (arcBox (arcKind ccw) k.endPt e o (distance k.endPt o))
  refine ⟨fun hr => ?_, fun hr hs => ?_, fun hr hs hw => ?_, fun hr hs hw hm => ?_, fun hr hs hw hm => ?_⟩
  · rw [Bool.eq_false_iff.mpr fun hin => hr (hrange.mp hin)] at hc
    exact h.refused tag hc
  all_goals
    rw [hrange.mpr hr, checkArc_eq] at hc
    replace hc := hc.trans (if_neg nofun)
  · rw [Bool.eq_false_iff.mpr fun hin => hs (hshape.mp hin)] at hc
    exact h.refused tag hc
  all_goals
    rw [hshape.mpr hs] at hc
    replace hc := hc.trans (if_neg nofun)
  · rw [Bool.eq_false_iff.mpr fun hin => hw (hinside.mp hin)] at hc
    exact h.refused tag hc
  all_goals
    rw [hinside.mpr hw] at hc
    replace hc := hc.trans (if_neg nofun)
  · rw [hkept.mpr hm] at hc
    exact h.refused tag hc
  · rw [Bool.eq_false_iff.mpr fun hin => hm (hkept.mp hin)] at hc
    replace hc := hc.trans (if_neg nofun)
    exact ⟨fun hl => h.refused tag (hc.trans (if_pos hl)), fun hl => h.taken tag hrun (hc.trans (if_neg (Nat.not_lt.mpr hl)))⟩

end

end Sys2Proof.Machine
end

section
/-! SUPPORT. The stop point computed anew for a chain of CUT segments that a pass of a DROP contour runs in HOLD, after the
chain has been loaded or closed (R51 to R53, R61). -/

set_option Elab.async false

namespace Sys2Proof.Machine.State

variable {s t : State}

/-! ## The live values that a level condition takes (R153, R155) -/

theorem forceHold_live (s : State) {d : Cond} (hd : d ≠ .gapOpen) : (s.forceHold.cond d).live = (s.cond d).live := by
  unfold forceHold
  split
  · exact congrArg CondRec.live (cond_setCond_ne s hd _)
  · rfl

theorem setLive_live (s : State) (c d : Cond) (v : Bool) (hd : d ≠ .gapOpen) :
    ((s.setLive c v).cond d).live = if d = c then v else (s.cond d).live := by
  have hset : ((s.setCond c { s.cond c with live := v }).cond d).live = if d = c then v else (s.cond d).live := by
    by_cases h : d = c
    · rw [if_pos h, h, cond_setCond_same]
    · rw [if_neg h, cond_setCond_ne s h]
  simp only [setLive]
  split
  · rename_i h
    by_cases hdc : d = c
    · rw [if_pos hdc, hdc, h]
    · rw [if_neg hdc]
  · rw [← hset]
    repeat' split
    · rw [forceHold_live _ hd, latch_live]
    · rw [latch_live]
    · rfl

theorem foldl_setLive_live (v : Cond → Bool) {l : List Cond} (hg : .gapOpen ∉ l) (s : State) {d : Cond}
    (hd : d ≠ .gapOpen) : ((l.foldl (fun t c => t.setLive c (v c)) s).cond d).live = if d ∈ l then v d else (s.cond d).live := by
  induction l generalizing s with
  | nil => rfl
  | cons c l ih =>
    rw [List.foldl_cons, ih (fun h => hg (.tail c h)), setLive_live s c d _ hd]
    by_cases hl : d ∈ l
    · rw [if_pos hl, if_pos (.tail c hl)]
    · rw [if_neg hl]
      by_cases hc : d = c
      · rw [if_pos hc, if_pos (hc ▸ .head l), hc]
      · rw [if_neg hc, if_neg (by simp [hc, hl])]

/-- A level condition is live as its source says, while its group is valid. -/
theorem refreshLevels_live (s : State) {c : Cond} (hc : c ∈ Cond.levels) : (s.refreshLevels.cond c).live = s.levelValue c := by
  have hg : Cond.gapOpen ∉ Cond.levels := by decide
  rw [refreshLevels_eq, foldl_setLive_live s.levelValue hg s fun h => hg (h ▸ hc), if_pos hc]

/-! ## The stop point on a chain of CUT segments (R51) -/

theorem tackSpans_drop {c : Contour} (hc : s.curContour = some c) (h : c.defn.method = .drop) : s.tackSpans = [] := by
  rw [tackSpans, hc]
  exact if_neg fun h' => by rw [h] at h'; exact nomatch h'.2

section
variable {c : Contour} {k : Chain} {pos : Nat} (hcut : k.SoundCut) (htack : s.tackSpans = [])
include hcut htack

/-- On an OPEN chain the stop point is the open-chain limit. -/
theorem stopPointAt_opened (hk : k.state = .opened) (hpos : pos ≤ k.loaded - c.defn.reserve c.passIndex) :
    s.stopPointAt c k pos = k.loaded - c.defn.reserve c.passIndex := by
  have hend : endCandidate c k pos = none := if_neg (by rw [hk]; nofun)
  have hengage : s.engageCandidate c k pos = none := if_neg fun h => by rw [hk] at h; exact nomatch h.1
  have hlimit : limitCandidate c k pos = some (k.loaded - c.defn.reserve c.passIndex) := by
    rw [limitCandidate, if_pos hk, max_eq_right hpos]
  have hspan : tackBoundary s.tackSpans pos = none := by rw [htack]; rfl
  rw [stopPointAt, hend, modeBoundary_none hcut, hspan, hengage, hlimit]
  rfl

/-- On a CLOSED chain of a contour that is held by no holder the stop point is the pass end. -/
theorem stopPointAt_closed (hk : k.state = .closed) (hmethod : c.defn.method = .drop)
    (hpos : pos ≤ c.defn.passEnd c.passIndex k.loaded) : s.stopPointAt c k pos = c.defn.passEnd c.passIndex k.loaded := by
  have hend : endCandidate c k pos = some (c.defn.passEnd c.passIndex k.loaded) := by
    rw [endCandidate, if_pos hk]
    exact Option.filter_eq_some_iff.mpr ⟨rfl, decide_eq_true hpos⟩
  have hengage : s.engageCandidate c k pos = none := by
    have hpoint : engagePoint c k.loaded = none := if_neg fun h => by rw [hmethod] at h; exact nomatch h.1
    rw [engageCandidate, hpoint]
    split <;> rfl
  have hlimit : limitCandidate c k pos = none := if_neg (by rw [hk]; nofun)
  have hspan : tackBoundary s.tackSpans pos = none := by rw [htack]; rfl
  rw [stopPointAt, hend, modeBoundary_none hcut, hspan, hengage, hlimit]
  rfl

end

/-! ## The stop point computed anew (R51, R53) -/

/-- The generator has gone off, a report has been made, and the level conditions have followed. -/
theorem genOff_report_refresh {r : Report} (ha : s.agenda = []) : (s.genOff.report r).refreshLevels.agenda = [r] ∧
    s.Stirs ((s.genOff.report r).refreshLevels.withAgenda []) := by
  have hoff := genOff_stirs s
  have hr := (refreshLevels_flags (s.genOff.report r)).toStirs
  have hback : (s.genOff.report r).withAgenda [] = s.genOff := by
    rw [← hoff.agenda.trans ha]
    rfl
  have hr' := hr.apart (apart_withAgenda [])
  rw [hback] at hr'
  refine ⟨hr.agenda.trans ?_, hoff.trans hr'⟩
  rw [report, withAgenda_agenda, hoff.agenda, ha]
  rfl

/-- The part with a running-pass record. -/
def withPass (s : State) (v : RunPass) : State := s.onPath fun p => { p with pass := some v }

/-- The position of a pass is brought up to its chain: the boundary at s taken, floor and segment index settled, where the
segments are CUT. -/
theorem settle_onCut {r : RunPass} {k : Chain} (hp : s.path.pass = some r) (hk : s.chain r.chain = some k)
    (hcut : k.SoundCut) (hne : k.segs ≠ []) : ∃ v : RunPass, v.chain = r.chain ∧ v.s = r.s ∧ v.sub = r.sub ∧
      (s.takeModeBoundary k).settlePosition = s.withPass v := by
  have hmode := modeAt_cut hcut hne r.s
  obtain ⟨b, hb⟩ : ∃ b : RunPass, s.takeModeBoundary k = s.withPass b ∧ b.chain = r.chain ∧ b.s = r.s ∧
      b.sub = r.sub := by
    cases hr : r.cutRunStart with
    | some n =>
      refine ⟨r, ?_, rfl, rfl, rfl⟩
      rw [takeModeBoundary_cut hp hmode (by rw [hr]; rfl), withPass, onPath, ← hp]
      rfl
    | none =>
      refine ⟨{ r with cutRunStart := some r.s }, ?_, rfl, rfl, rfl⟩
      rw [takeModeBoundary, hp]
      dsimp only
      rw [hmode, hr]
      show (s.onPass fun q => { q with cutRunStart := some q.s }) = _
      rw [onPass, withPass, onPath, onPath, hp]
      rfl
  obtain ⟨e, hch, hs, hsub⟩ := hb
  have hset := settlePosition_eq (s := s.withPass b) (r := b) (k := k) rfl (by rw [hch]; exact hk)
  exact ⟨{ b with floor := (s.withPass b).floorOf b, segIndex := segmentAt k.segs b.s }, hch, hs, hsub, by
    rw [e, hset]; rfl⟩

theorem refreshGen_off (h : s.modes.mode ≠ .run) : s.refreshGen = s.genOff := by
  have hoff : s.genAllowed = false := by
    rw [genAllowed]
    cases s.path.pass with
    | none => rfl
    | some r => simp [running, h]
  rw [refreshGen, hoff]
  rfl

section
variable {c : Contour} {r : RunPass} {k : Chain} (hp : s.path.pass = some r) (hc : s.curContour = some c)
  (hk : s.chain r.chain = some k) (hcut : k.SoundCut) (hne : k.segs ≠ [])
include hp hc hk hcut hne

/-- A pass short of its stop point is PAUSED towards it in HOLD, the generator off (R53, R61). -/
theorem recompute_pauses (hm : s.modes.mode = .hold) (hsub : r.sub = .starved ∨ r.sub = .paused)
    (hlt : s.stopPointAt c k r.s ≠ r.s) : ∃ v : RunPass, v.chain = r.chain ∧ v.s = r.s ∧ v.sub = .paused ∧
      v.stopPoint = s.stopPointAt c k r.s ∧ s.recompute = (s.withPass v).genOff.refreshLevels := by
  obtain ⟨v, hch, hs, hv, e⟩ := settle_onCut hp hk hcut hne
  have hstop : (s.withPass v).stopPointAt c k r.s = s.stopPointAt c k r.s := rfl
  have hmode : s.moveState = .paused := if_neg (by rw [mode, hm]; nofun)
  refine ⟨{ v with stopPoint := s.stopPointAt c k r.s, sub := .paused }, hch, hs, rfl, rfl, ?_⟩
  rw [recompute, hp, hc]
  dsimp only
  rw [hk]
  dsimp only
  rw [readSlots_sound hk hcut.sound]
  dsimp only
  rw [if_pos rfl, e, hstop, if_neg hlt]
  rcases hsub with hsub | hsub
  · rw [if_pos hsub, refreshGen_off (by show s.modes.mode ≠ _; rw [hm]; nofun), liftSub]
    rw [show ((s.withPass v).onPass fun q => { q with stopPoint := s.stopPointAt c k r.s }).moveState = .paused from hmode]
    rfl
  · rw [if_neg (by rw [hsub]; nofun), refreshGen_off (by show s.modes.mode ≠ _; rw [hm]; nofun)]
    have hpaused : v.sub = .paused := hv.trans hsub
    rw [← hpaused]
    rfl

/-- What a pass that is PAUSED towards a new stop point leaves as it was, and what it changes (R51, R53, R61). -/
structure PausedTowards (r : RunPass) (k : Chain) (stop : Nat) (s t : State) : Prop where
  pass : ∃ v, t.path.pass = some v ∧ v.s = r.s ∧ v.sub = .paused ∧ v.stopPoint = stop
  genOff : t.path.genOn = false
  commanded : t.path.commanded = s.path.commanded
  store : t.store = s.store
  contours : t.contours = s.contours
  job : t.job = s.job
  modes : t.modes = s.modes
  agenda : t.agenda = s.agenda
  link : t.link = s.link
  notStarved : (t.cond .chainStarved).live = false
  notLow : k.state = .closed → (t.cond .chainLow).live = false

theorem recompute_pausedTowards (hm : s.modes.mode = .hold) (hsub : r.sub = .starved ∨ r.sub = .paused)
    (hlt : s.stopPointAt c k r.s ≠ r.s) : PausedTowards r k (s.stopPointAt c k r.s) s s.recompute := by
  obtain ⟨v, hch, hs, hv, hstop, e⟩ := recompute_pauses hp hc hk hcut hne hm hsub hlt
  have hoff := genOff_stirs (s.withPass v)
  have hlevels := (refreshLevels_flags (s.withPass v).genOff).toStirs
  have hgen := hlevels.genOff rfl
  have hlive {d : Cond} (hd : d ∈ Cond.levels) : 
      ((s.withPass v).genOff.refreshLevels.cond d).live = (s.withPass v).levelValue d :=
    (refreshLevels_live _ hd).trans (hoff.levelValue hd)
  rw [← e] at hlevels hgen hlive
  have h := hoff.trans hlevels
  obtain ⟨w, hw, hheld⟩ := h.pass_some (r := v) rfl
  have hwsub : w.sub = .paused := hheld.sub.elim (·.trans hv) (·.2)
  refine ⟨⟨w, hw, by rw [hheld.rest]; exact hs, hwsub, by rw [hheld.rest]; exact hstop⟩, hgen, h.commanded, h.store,
    h.contours, h.job, h.modes_of_hold hm, h.agenda, h.link, ?_, fun hcl => ?_⟩
  · have hsource : (s.withPass v).chainStarvedSource = false := by
      show ((s.withPass v).cutting && decide (v.sub = .starved)) = false
      rw [hv]
      exact Bool.and_false _
    rw [hlive (by decide), levelValue]
    exact (congrArg (_ && ·) hsource).trans (Bool.and_false _)
  · have hsource : (s.withPass v).chainLowSource = false := by
      have hkv : (s.withPass v).chain v.chain = some k := by rw [hch]; exact hk
      rw [chainLowSource, show (s.withPass v).path.pass = some v from rfl]
      dsimp only
      rw [hkv]
      dsimp only
      rw [hcl]
      rfl
    rw [hlive (by decide), levelValue]
    exact (congrArg (_ && ·) hsource).trans (Bool.and_false _)

/-- A pass that stands at its pass end takes the pass-end event (R52). -/
theorem recompute_ends (hcl : k.state = .closed) (hmethod : c.defn.method = .drop)
    (hend : r.s = c.defn.passEnd c.passIndex k.loaded) :
    ∃ v : RunPass, s.recompute = ((s.withPass v).genOff.report .passEnd).refreshLevels := by
  obtain ⟨v, -, -, -, e⟩ := settle_onCut hp hk hcut hne
  have hstop : (s.withPass v).stopPointAt c k r.s = r.s :=
    (stopPointAt_closed hcut (tackSpans_drop (s := s.withPass v) hc hmethod) hcl hmethod (by rw [hend])).trans hend.symm
  refine ⟨{ v with stopPoint := r.s }, ?_⟩
  have hrow : (s.withPass { v with stopPoint := r.s }).stopRow c k r.s = some .passEnd :=
    stopRow_passEnd hcl hend fun h => by rw [hmethod] at h; cases h
  rw [recompute, hp, hc]
  dsimp only
  rw [hk]
  dsimp only
  rw [readSlots_sound hk hcut.sound]
  dsimp only
  rw [if_pos rfl, e, hstop, if_pos rfl]
  rw [show ((s.withPass v).onPass fun q => { q with stopPoint := r.s }) = s.withPass { v with stopPoint := r.s } from rfl, hrow]
  rfl

end

end Sys2Proof.Machine.State
end

section
/-! The load and the close of the chain that the current contour runs (R33, R34, R51 to R53, R79), and CLOSE_CHAIN. -/

set_option Elab.async false

namespace Sys2Proof.Machine

namespace State

variable {s : State}

/-- The chain of a pass that runs has been loaded or closed: the stop point is computed anew (R51). -/
theorem chainChanged_running {i : Slot} {c : Contour} {r : RunPass} (hi : s.job.current = some i) (hc : s.contour i = some c)
    (hp : s.path.pass = some r) (hst : c.state = .cutting ∨ c.state = .severing) : s.chainChanged r.chain = s.recompute := by
  have hcut : s.cutting = true := by
    rw [cutting, curContour_eq hi hc]
    rcases hst with h | h <;> simp [ContourState.isCutting, h]
  rw [chainChanged, if_pos (by rw [hp]; rfl), if_pos hcut]

end State

/-! ## The running chain is loaded (R33, R51, R53) -/

theorem Chain.SoundCut.append {k : Chain} (h : k.SoundCut) {g : Segment} (hc : g.check = .unchanged) (hm : g.mode = .cut) :
    (k.append [g]).SoundCut := by
  intro d hd
  rcases List.mem_append.mp hd with hd | hd
  · exact h d hd
  · obtain rfl := List.mem_singleton.mp hd
    exact ⟨hc, hm⟩

theorem runningChainIsLoaded (tag : Byte) (i : Slot) (c : Contour) (q : PassRec) (r : RunPass) (k : Chain) (e : Point)
    (s : State) (hq : s.Quiet) : RunningChainIsLoaded tag i c q r k e s := by
  intro hon hst hm hmethod hopen hcut hne hsub hfree hrange hend hstart hhold hkept hlong hlt
  obtain ⟨hi, hc, -, hp, hk, -⟩ := hon
  have hload := loadsOne_line hq hk hopen hfree false e
  have hcheck := checkSegment_line s.store k.endPt k.loaded false (e := e) ⟨by omega, by omega⟩ ⟨by omega, by omega⟩
  rw [(inRange_iff e).mpr hrange] at hcheck
  replace hcheck := (hcheck.trans (if_neg nofun)).trans (checkLine_ok hend hstart hhold hkept hlong)
  generalize hg : (⟨.line, if false then .dry else .cut, e, none, distance k.endPt e, none, k.loaded, .unchanged⟩ :
    Segment) = g at hcheck
  have hlen : g.length = distance k.endPt e := by rw [← hg]
  have hans : answerTo 0x11 (byte r.chain.val :: 1 :: lineBytes false e) s = _ := hload.answer hcheck
  have htotal : (k.append [g]).loaded = k.loaded + distance k.endPt e := by rw [← hlen]; rfl
  have hchain : (s.appended r.chain k [g]).chain r.chain = some (k.append [g]) := s.chain_setChain_same r.chain _
  have hcut' : (k.append [g]).SoundCut := hcut.append (by rw [← hg]) (by rw [← hg]; rfl)
  rw [State.load_eq, State.chainChanged_running (s := s.appended r.chain k [g]) hi hc hp hst] at hans
  have hcur := State.curContour_eq (s := s.appended r.chain k [g]) hi hc
  have hstop : (s.appended r.chain k [g]).stopPointAt c (k.append [g]) r.s =
      k.loaded + distance k.endPt e - c.defn.reserve c.passIndex := by
    rw [← htotal]
    exact State.stopPointAt_opened hcut' (State.tackSpans_drop hcur hmethod) hopen (by rw [htotal]; exact hlt.le)
  have h := State.recompute_pausedTowards (s := s.appended r.chain k [g]) hp hcur hchain hcut' (by simp [Chain.append]) hm hsub
    (by rw [hstop]; omega)
  rw [hstop] at h
  have hreq := State.request_is (tag := tag) hq hload.length hans h.agenda (congrArg Link.collecting h.link)
    (congrArg Link.replies h.link) (congrArg Link.sending h.link)
  refine ⟨(s.appended r.chain k [g]).recompute, congrArg _ (hreq.trans (congrArg _ ?_)), ?_, h.pass, h.genOff, h.commanded,
    h.contours, h.job, h.modes⟩
  · rw [← htotal]
    exact loadedBytes_append k [g]
  · rw [State.chain, h.store]
    exact (congrArg (Option.map (·.loaded)) hchain).trans (congrArg some htotal)

/-- Settles O20: the checks of the load, of a LINE and of an arc, each with what passes them, and the load of the running
chain. -/
theorem lineIsCheckedAndAppended : Obligations.LineIsCheckedAndAppended := by
  refine ⟨loadChecks, runningChainIsLoaded, fun tag ch k dry e s hq hk hst hfree hrun hx hy => ?_⟩
  have h := loadsOne_line hq hk hst hfree dry e
  have hc := checkSegment_line s.store k.endPt k.loaded dry hx hy
  refine ⟨fun hr => ?_, fun hr hg => ?_, fun hr hne => ?_,
    fun ccw o hox hoy => arcIsCheckedAndAppended hq hk hst hfree hrun hx hy hox hoy dry ccw⟩
  · rw [Bool.eq_false_iff.mpr fun hin => hr ((inRange_iff e).mp hin)] at hc
    exact h.refused tag hc
  all_goals
    rw [(inRange_iff e).mpr hr] at hc
    replace hc := hc.trans (if_neg nofun)
  · exact h.refused tag (hc.trans (checkLine_geometry hg))
  · refine ⟨fun hw => h.refused tag (hc.trans (checkLine_window hne hw)), fun hs he =>
      ⟨fun hkept => ?_, fun hkept => ?_⟩⟩
    · exact h.refused tag (hc.trans (checkLine_keepOut hne hs he ((any_enabledKeepOuts _ _).mpr hkept)))
    · have hno : s.store.lineKeptOut k.endPt e = false := Bool.eq_false_iff.mpr fun hm => by
        obtain ⟨n, hen, hmeets⟩ := (any_enabledKeepOuts _ _).mp hm
        rw [hkept n hen] at hmeets
        cases hmeets
      exact ⟨fun hl => h.refused tag (hc.trans (checkLine_long hne hs he hno hl)),
        fun hl => h.taken tag hrun (hc.trans (checkLine_ok hne hs he hno hl))⟩

/-! ## CLOSE_CHAIN (R34) -/

theorem boundReserve_iff (s : State) (k : Chain) (R : Nat) : s.boundReserve k = some R ↔
    ∃ i n d, k.binding = some (i, n) ∧ s.contour i = some d ∧ d.defn.reserve n = R := by
  simp only [State.boundReserve, Option.bind_eq_some_iff, Option.map_eq_some_iff, Prod.exists]
  constructor
  · rintro ⟨i, n, hb, d, hd, hr⟩
    exact ⟨i, n, d, hb, hd, hr⟩
  · rintro ⟨i, n, d, hb, hd, hr⟩
    exact ⟨i, n, hb, d, hd, hr⟩

section
variable {ch : ChainId} {k : Chain} {s : State}

theorem takeClose_free (hk : s.chain ch = none) : takeCloseChain [byte ch.val] s = refuse s .notFound := by
  rw [takeCloseChain, ofLength_one, withChain_byte, hk]

variable (hk : s.chain ch = some k)
include hk

theorem takeClose_corrupt (h : k.state = .corrupt) : takeCloseChain [byte ch.val] s = refuse s .notFound := by
  rw [takeCloseChain, ofLength_one, withChain_byte, hk]
  exact if_pos h

theorem takeClose_closed (h : k.state = .closed) : takeCloseChain [byte ch.val] s = refuse s .wrongState := by
  rw [takeCloseChain, ofLength_one, withChain_byte, hk]
  dsimp only
  rw [if_neg (by rw [h]; nofun), if_pos h]

variable (h : k.state = .opened)
include h

theorem takeClose_empty (hs : k.segs = []) : takeCloseChain [byte ch.val] s = refuse s .badValue := by
  rw [takeCloseChain, ofLength_one, withChain_byte, hk]
  dsimp only
  rw [if_neg (by rw [h]; nofun), if_neg (by rw [h]; nofun), hs]
  rfl

variable (hs : k.segs ≠ [])
include hs

theorem takeClose_barred {R : Nat} (hb : s.boundReserve k = some R) (hR : k.loaded ≤ R) :
    takeCloseChain [byte ch.val] s = refuse s .badValue := by
  rw [takeCloseChain, ofLength_one, withChain_byte, hk]
  dsimp only
  rw [if_neg (by rw [h]; nofun), if_neg (by rw [h]; nofun), if_neg (fun e => hs (List.length_eq_zero_iff.mp e)), hb]
  exact if_pos (decide_eq_true hR)

theorem takeClose_taken (hb : ∀ R, s.boundReserve k = some R → R < k.loaded) : takeCloseChain [byte ch.val] s =
    report ((s.setChain ch (some { k with state := .closed })).chainChanged ch) fun _ => leBytes 4 k.loaded := by
  rw [takeCloseChain, ofLength_one, withChain_byte, hk]
  dsimp only
  rw [if_neg (by rw [h]; nofun), if_neg (by rw [h]; nofun), if_neg (fun e => hs (List.length_eq_zero_iff.mp e))]
  cases hr : s.boundReserve k with
  | none => rfl
  | some R => exact if_neg (by simpa using hb R hr)

end

/-! ## The running chain is closed (R34, R51 to R53, R79) -/

namespace State

variable {s : State}

/-- The stage's UNTHREAD that a pass end leads to falls due in HOLD (R79, R81). -/
theorem endPass_inHold {i : Slot} {c : Contour} (hi : s.job.current = some i) (hc : s.contour i = some c)
    (hn : nextRole c = none ∨ nextRole c = some .sever) (hm : s.modes.mode = .hold) : Unthreads i c s s.endPass ∧
      s.endPass.job.due = true ∧ s.endPass.modes = s.modes ∧ s.endPass.link = { s.link with progressPending := true } := by
  refine ⟨endPass_unthreads hi hc hn, ?_⟩
  obtain ⟨j, h⟩ := ((discardPass_stirs s).apart
    (apart_onContour i fun c => { c with state := .unthreading })).contourChanged i
  have e : s.endPass =
      (s.discardPass.changeContour i fun c => { c with state := .unthreading }).askOrder .stageUnthread := by
    rw [endPass, hi, curContour_eq hi hc]
    dsimp only
    rcases hn with hn | hn <;> rw [hn]
  rw [e]
  rw [← changeContour] at h
  generalize s.discardPass.changeContour i (fun c => { c with state := .unthreading }) = w at h
  have hmodes : w.modes = s.modes := h.modes_of_hold hm
  have hwait : w.askOrder .stageUnthread = w.onJob fun j => { j with work := some .stageUnthread, due := true } :=
    if_neg (by simp [running, hmodes, hm])
  rw [hwait]
  exact ⟨rfl, hmodes, h.link⟩

/-- In HOLD, the stop point computed anew at the pass end of a pass that is not the closing one and has no further
pass in its stage leads to the stage's UNTHREAD (R52, R79). -/
theorem recompute_unthreads {i : Slot} {c : Contour} {r : RunPass} {k : Chain} (ha : s.agenda = []) (hp : s.path.pass = some r)
    (hi : s.job.current = some i) (hc : s.contour i = some c) (hk : s.chain r.chain = some k) (hcut : k.SoundCut)
    (hne : k.segs ≠ []) (hcl : k.state = .closed) (hmethod : c.defn.method = .drop)
    (hend : r.s = c.defn.passEnd c.passIndex k.loaded) (hclosing : c.passIndex ≠ c.defn.closingPass)
    (hn : nextRole c = none ∨ nextRole c = some .sever) (hm : s.modes.mode = .hold) :
    Unthreads i c s s.recompute.settle ∧ s.recompute.settle.job.due = true ∧ s.recompute.settle.modes = s.modes ∧
      s.recompute.settle.link = { s.link with progressPending := true } := by
  obtain ⟨v, hrec⟩ := recompute_ends hp (curContour_eq hi hc) hk hcut hne hcl hmethod hend
  obtain ⟨hag, h⟩ := genOff_report_refresh (s := s.withPass v) (r := .passEnd) ha
  rw [← hrec] at hag h
  generalize s.recompute = x at hag h
  have hxi : (x.withAgenda []).job.current = some i := by rw [h.job]; exact hi
  have hxc : (x.withAgenda []).contour i = some c := (h.contour i).trans hc
  have hxm : (x.withAgenda []).modes = s.modes := h.modes_of_hold hm
  have hhandle : (x.withAgenda []).handle .passEnd = (x.withAgenda []).endPass := by
    show (x.withAgenda []).passEnded = _
    rw [passEnded, curContour_eq hxi hxc]
    exact if_neg hclosing
  obtain ⟨hu, hdue, hum, hul⟩ := endPass_inHold hxi hxc hn (hxm ▸ hm)
  rw [settle_one hag (by rw [hhandle]; exact hu.agenda), hhandle]
  exact ⟨⟨hu.contour, fun j hj => (hu.others j hj).trans (h.contour j), hu.pass, hu.genOff, hu.commanded.trans h.commanded,
    hu.genSetting.trans h.genSetting, hu.current, hu.work, hu.store.trans h.store, hu.slug.trans h.slug,
    hu.agenda.trans ha.symm, fun hrun => by rw [hm] at hrun; cases hrun⟩, hdue, hum.trans hxm,
    hul.trans (congrArg (fun l : Link => { l with progressPending := true }) h.link)⟩

end State

theorem runningChainIsClosed (tag : Byte) (i : Slot) (c : Contour) (q : PassRec) (r : RunPass) (k : Chain) (s : State)
    (hq : s.Quiet) : RunningChainIsClosed tag i c q r k s := by
  intro hon hst hm hmethod hopen hcut hne hbind hres hsub
  obtain ⟨hi, hc, -, hp, hk, -⟩ := hon
  have hans : answerTo 0x12 [byte r.chain.val] s = _ := takeClose_taken hk hopen hne fun R hR => by
    obtain ⟨j, n, d, hb, hd, rfl⟩ := (boundReserve_iff s k R).mp hR
    obtain ⟨rfl, rfl⟩ := Prod.mk.inj (Option.some.inj (hbind.symm.trans hb))
    obtain rfl := Option.some.inj (hc.symm.trans hd)
    exact hres
  rw [State.chainChanged_running (s := s.setChain r.chain (some { k with state := .closed })) hi hc hp hst] at hans
  have hchain := s.chain_setChain_same r.chain (some { k with state := .closed })
  have hothers (d : ChainId) (hd : d ≠ r.chain) := s.chain_setChain_ne hd (some { k with state := .closed })
  have hrest : s.setChain r.chain (some { k with state := .closed }) =
      s.withStore (s.setChain r.chain (some { k with state := .closed })).store := rfl
  generalize s.setChain r.chain (some { k with state := .closed }) = a at hans hchain hothers hrest
  have hag : a.agenda = s.agenda := by rw [hrest]; rfl
  have hlink : a.link = s.link := by rw [hrest]; rfl
  have hcommanded : a.path.commanded = s.path.commanded := by rw [hrest]; rfl
  have hcontours : a.contours = s.contours := by rw [hrest]; rfl
  have hjob : a.job = s.job := by rw [hrest]; rfl
  have hmodes : a.modes = s.modes := by rw [hrest]; rfl
  have hpa : a.path.pass = some r := by rw [hrest]; exact hp
  have hca : a.contour i = some c := by rw [hrest]; exact hc
  have hcur := State.curContour_eq (hjob ▸ hi) hca
  refine ⟨fun hlt => ?_, fun hend hclosing hn => ?_⟩
  · have hstop := State.stopPointAt_closed (s := a) (k := { k with state := .closed }) hcut (State.tackSpans_drop hcur hmethod)
      rfl hmethod hlt.le
    have h := State.recompute_pausedTowards hpa hcur hchain hcut hne (hmodes ▸ hm) hsub (by rw [hstop]; exact hlt.ne')
    rw [hstop] at h
    have hul := h.link.trans hlink
    exact ⟨a.recompute, congrArg _ (State.request_is hq (by simp) hans (h.agenda.trans hag) (congrArg Link.collecting hul)
      (congrArg Link.replies hul) (congrArg Link.sending hul)), by rw [State.chain, h.store]; exact hchain,
      fun d hd => by rw [State.chain, h.store]; exact hothers d hd, h.pass, h.genOff, h.commanded.trans hcommanded, h.notLow rfl,
      h.notStarved, h.contours.trans hcontours, h.job.trans hjob, h.modes.trans hmodes⟩
  · obtain ⟨hu, hdue, hum, hul⟩ := State.recompute_unthreads (hag.trans hq.1.1) hpa (hjob ▸ hi) hca hchain hcut hne rfl
      hmethod hend hclosing hn (hmodes ▸ hm)
    rw [hlink] at hul
    have hreq := State.request_settles (tag := tag) (t := a.recompute.settle) hq (by simp) hans rfl
      (hu.agenda.trans (hag.trans hq.1.1)) (by rw [hul]) (by rw [hul]) (by rw [hul])
    exact ⟨a.recompute.settle, congrArg _ hreq, by rw [State.chain, hu.store]; exact hchain, hu.contour,
      fun j hj => (hu.others j hj).trans (congrArg (·[j]) hcontours), hu.pass, hu.genOff, hu.commanded.trans hcommanded,
      hu.current, hu.work, hdue, hum.trans hmodes⟩

/-- Settles O21: the checks in their order, the chain that no pass runs, and the running one. -/
theorem closeChainFixesTheLength : Obligations.CloseChainFixesTheLength := by
  refine ⟨fun tag id s hq hid => congrArg _ (State.request_refused hq (by simp) ?_), runningChainIsClosed,
    fun tag ch s hq hrun => ?_⟩
  · show takeCloseChain [id] s = _
    rw [takeCloseChain, ofLength_one, withChain_beyond hid]
  · have refused {st : Status} (h : takeCloseChain [byte ch.val] s = refuse s st) :
        exec (.closeChain tag [byte ch.val]) s = .next (s.replied 0x12 tag st []) :=
      congrArg _ (State.request_refused (kind := 0x12) hq (by simp) h)
    refine ⟨fun hk => refused (takeClose_free hk), fun k hk => ⟨fun h => refused (takeClose_corrupt hk h),
      fun h => refused (takeClose_closed hk h), fun h hs => refused (takeClose_empty hk h hs), fun h hs =>
      ⟨fun i n d hb hd hR => refused (takeClose_barred hk h hs ((boundReserve_iff s k _).mpr ⟨i, n, d, hb, hd, rfl⟩) hR),
        fun hR => ?_⟩⟩⟩
    have htaken := takeClose_taken hk h hs fun R hb => by
      obtain ⟨i, n, d, hbind, hd, rfl⟩ := (boundReserve_iff s k R).mp hb
      exact hR i n d hbind hd
    rw [State.chainChanged_idle (s := s.setChain ch (some { k with state := .closed })) hrun] at htaken
    exact congrArg _ (State.request_is (kind := 0x12) hq (by simp) htaken rfl rfl rfl rfl)

end Sys2Proof.Machine
end

section
/-! SUPPORT. What a latching, a live value, a hold and a reported change leave of the latches (R154 to R156), and that
outside PARK they write nothing but condition records where no cause of a hold stands. -/

set_option Elab.async false

namespace Sys2Proof.Machine

/-! ## Groups and wakes (R146, R154) -/

theorem mem_gap (c : Cond) : c ∈ [Cond.shortRetract, .retraceExhausted, .gapOpen] ↔ c.group = .gap := by
  cases c <;> decide

theorem mem_path (c : Cond) :
    c ∈ [Cond.chainLow, .chainStarved, .wireBreak, .breakLimit, .discontinuous] ↔ c.group = .path := by
  cases c <;> decide

theorem mem_thread (c : Cond) : c ∈ [Cond.threadRetry, .threadFailed, .ingapFailed] ↔ c.group = .thread := by
  cases c <;> decide

theorem mem_wakes (c : Cond) :
    c ∈ [Cond.slugChange, .holderLost, .doorOpen, .genFault, .axisFault] ↔ c.wakes = true := by
  cases c <;> decide

namespace State

variable {s t : State}

/-- A condition is out of force where its group is not valid (R154). -/
theorem outOfForce_iff (s : State) (c : Cond) : s.OutOfForce c ↔ s.groupValid c.group = false := by
  rw [OutOfForce, mem_gap, mem_path, mem_thread]
  cases c.group <;> simp [groupValid]

/-! ## Latches that are left as they were -/

theorem latch_latch_ne (s : State) {c d : Cond} (h : d ≠ c) : (s.latch c).cond d = s.cond d := by
  rw [latch_cond, if_neg fun h' => h h'.1, if_neg fun h' => h h'.1]

theorem raise_latch_ne (s : State) {c d : Cond} (h : d ≠ c) : (s.raise c).cond d = s.cond d := by
  unfold raise
  split
  · exact latch_latch_ne s h
  · rfl

theorem genOff_latch (s : State) (d : Cond) : (s.genOff.cond d).latch = (s.cond d).latch := by
  show ((s.setCond .gapOpen { s.cond .gapOpen with live := false }).cond d).latch = _
  by_cases h : d = .gapOpen
  · rw [h, cond_setCond_same]
  · rw [cond_setCond_ne s h]

theorem forceHold_latch (s : State) (d : Cond) : (s.forceHold.cond d).latch = (s.cond d).latch := by
  unfold forceHold
  split
  · exact genOff_latch s d
  · rfl

/-- A live value latches nothing but the condition that rises. -/
theorem setLive_latch (s : State) {c d : Cond} {v : Bool} (h : d = c → v = false) :
    ((s.setLive c v).cond d).latch = (s.cond d).latch := by
  have hset : ((s.setCond c { s.cond c with live := v }).cond d).latch = (s.cond d).latch := by
    by_cases hd : d = c
    · rw [hd, cond_setCond_same]
    · rw [cond_setCond_ne s hd]
  simp only [setLive]
  split
  · rfl
  · split
    · rename_i hv
      have hd : d ≠ c := fun e => by rw [h e] at hv; cases hv
      split
      · rw [forceHold_latch, latch_latch_ne _ hd, hset]
      · rw [latch_latch_ne _ hd, hset]
    · exact hset

/-- The level conditions latch at a rise alone. -/
theorem refreshLevels_latch (s : State) {d : Cond} (h : d ∈ Cond.levels → s.levelValue d = false) :
    (s.refreshLevels.cond d).latch = (s.cond d).latch := by
  have hl (l : List Cond) (hl : l ⊆ Cond.levels) (t : State) :
      ((l.foldl (fun t c => t.setLive c (s.levelValue c)) t).cond d).latch = (t.cond d).latch := by
    induction l generalizing t with
    | nil => rfl
    | cons c l ih =>
      rw [List.foldl_cons, ih fun e he => hl (.tail c he)]
      exact setLive_latch t fun e => e ▸ h (e ▸ hl (.head l))
  rw [refreshLevels_eq]
  exact hl _ (fun _ h => h) s

end State
end Sys2Proof.Machine
end

section
/-! The restricted parameters, the table of latching and the gap samples that the servo does not take (R54, R68, R111, R154
to R157). -/

set_option Elab.async false

namespace Sys2Proof.Machine

/-! ## Restricted parameters (R68, R90, R111) -/

theorem writeParam_barred {id width v w : Nat} {s : State} (ht : paramTaken id v = some w) (hb : paramBarred s id w = true) :
    writeParam id width v s = refuse s .wrongState := by
  rw [writeParam, ht]
  exact if_pos hb

theorem setParam_retraceDepth {v : Nat} (hv : v < 2 ^ 32) (s : State) :
    answerTo 0x05 (1 :: leBytes 4 v) s = writeParam 1 4 v s := by
  have h : uN 4 (1 :: leBytes 4 v) 1 = v := uN_drop (r := []) (by rw [List.append_nil]; rfl) hv
  exact congrArg (writeParam 1 4 · s) h

theorem setParam_breakLimit {v : Nat} (hv : v < 256) (s : State) : answerTo 0x05 [18, byte v] s = writeParam 18 1 v s := by
  have h : uN 1 [18, byte v] 1 = v := uN_drop (n := 1) (r := []) (by
    rw [leBytes, leBytes]
    rfl) hv
  exact congrArg (writeParam 18 1 · s) h

theorem breakLimit_taken {v : Nat} (hv : v ≤ 15) : paramTaken 18 v = some v := if_pos ⟨Nat.zero_le v, hv⟩

theorem breakCountAbove_of {s : State} {i : Slot} {c : Contour} {v : Nat} (hc : s.contour i = some c)
    (hf : c.state ≠ .faulted) (hv : v < c.breakCount) : breakCountAbove s v = true := by
  refine List.any_eq_true.mpr ⟨some c, ?_, by simp [hf, hv]⟩
  rw [← hc]
  exact Vector.mem_toList_iff.mpr (Vector.getElem_mem i.isLt)

/-- Settles O14: each write is barred by the restriction that stands against it. -/
theorem restrictedParametersAreRefused : Obligations.RestrictedParametersAreRefused := by
  intro tag s hq
  have refused {p : Payload} {id width v w : Nat} (hp : p.length ≤ 250) (ha : answerTo 0x05 p s = writeParam id width v s)
      (ht : paramTaken id v = some w) (hb : paramBarred s id w = true) :
      exec (.setParam tag p) s = .next (s.replied 0x05 tag .wrongState []) :=
    congrArg _ (State.request_refused hq hp (ha.trans (writeParam_barred ht hb)))
  refine ⟨fun hcur => ⟨fun v hv => ?_, fun v hv => ?_⟩, fun v hv i c hc hf hlt => ?_⟩
  · refine refused ?_ (setParam_retraceDepth hv s) rfl ?_
    · rw [List.length_cons, leBytes_length]
      decide
    · simp [paramBarred, hcur]
  · refine refused (by simp) (setParam_breakLimit (by omega) s) (breakLimit_taken hv) ?_
    simp [paramBarred, hcur]
  · refine refused (by simp) (setParam_breakLimit (by omega) s) (breakLimit_taken hv) ?_
    simp [paramBarred, breakCountAbove_of hc hf hlt]

/-! ## Latching (R154 to R156) -/

namespace State

/-- What a latching does to the mode unit: an enabled condition that wakes does wake a parked cell (R146). -/
theorem latch_modes_eq (s : State) (c : Cond) : (s.latch c).modes =
    if (s.cond c).latch = false ∧ (s.cond c).enable = true ∧ s.modes.mode = .park ∧ c.wakes = true then
      { s.modes with mode := .waking, pump := true, settle := some s.params.wakeSettle } else s.modes := by
  have hwake (t : State) : t.wakeCell.modes = if t.modes.mode = .park then
      { t.modes with mode := .waking, pump := true, settle := some t.params.wakeSettle } else t.modes := by
    unfold wakeCell
    split <;> rename_i h
    · exact (if_pos h).symm
    · exact (if_neg h).symm
  simp only [State.latch]
  cases (s.cond c).latch with
  | true => simp
  | false =>
    cases he : (s.cond c).enable with
    | false => by_cases hd : s.params.latchDisabled = true <;> simp [hd, setCond]
    | true =>
      cases hw : c.wakes with
      | false => simp [setCond]
      | true =>
        refine (hwake _).trans ?_
        by_cases hm : s.modes.mode = .park <;> simp [hm, setCond]

/-- A latching writes condition records and the mode unit alone. -/
theorem latch_rest (s : State) (c : Cond) : s.latch c = { s with conds := (s.latch c).conds, modes := (s.latch c).modes } := by
  have hwake (t : State) : t.wakeCell = t.withModes t.wakeCell.modes := by
    unfold wakeCell
    split <;> rfl
  simp only [State.latch]
  repeat' split
  · rfl
  · rw [hwake]
    rfl
  · rfl
  · rfl
  · rfl

end State

/-- Settles O49: the latching branch by branch, and the groups by their validity. -/
theorem latchingFollowsItsTable : Obligations.LatchingFollowsItsTable := by
  intro c s r
  refine ⟨fun h => ?_, fun h => ?_, fun hcur hc => ?_, ⟨?_, s.genOff_latch c⟩, ?_, fun d hd => s.latch_latch_ne hd, ?_,
    s.latch_rest c⟩
  · rw [State.raise, (s.outOfForce_iff c).mp h]
    rfl
  · rw [State.raise, if_pos (by simpa using mt (s.outOfForce_iff c).mpr h)]
  · have hvalue : s.levelValue c = false := by
      rcases hc with rfl | rfl <;> simp [State.levelValue, Cond.group, State.groupValid, hcur]
    have hmem : c ∈ Cond.levels := by rcases hc with rfl | rfl <;> decide
    exact ⟨(s.refreshLevels_live hmem).trans hvalue, s.refreshLevels_latch fun _ => hvalue⟩
  · show ((s.setCond .gapOpen { s.cond .gapOpen with live := false }).cond .gapOpen).live = false
    rw [State.cond_setCond_same]
  · rw [State.latch_cond]
    cases (s.cond c).latch with
    | true => simp [r]
    | false =>
      cases he : (s.cond c).enable with
      | true => simp [r, he]
      | false => simp [r, he]
  · rw [State.latch_modes_eq]
    simp only [mem_wakes, r]

/-! ## Samples that are not taken (R54) -/

/-- Settles O55: wherever one of the conditions fails, the servo makes no step. -/
theorem ignoredSamplesChangeNothing : Obligations.IgnoredSamplesChangeNothing := by
  intro voltage pulses shorts opens s hs h
  have hstep : s.gapStep voltage pulses shorts opens = s := by
    rw [State.gapStep]
    split
    · rename_i r k q hrun hq
      have hp : s.path.pass = some r ∧ s.chain r.chain = some k := by
        rw [State.runChain] at hrun
        cases hp : s.path.pass with
        | none => rw [hp] at hrun; cases hrun
        | some r' =>
          rw [hp] at hrun
          obtain ⟨k', hk, e⟩ := Option.map_eq_some_iff.mp hrun
          cases e
          exact ⟨rfl, hk⟩
      refine if_neg fun ⟨hready, hpulses, hsum⟩ => ?_
      simp only [State.servoReady, State.running, Bool.and_eq_true, decide_eq_true_eq] at hready
      obtain ⟨⟨⟨⟨hm, hcut⟩, hsub⟩, hmode⟩, hg⟩ := hready
      rcases h with h | h | h | h | h | h | h | h
      · exact h hm
      · rw [hg] at h; cases h
      · rw [hp.1] at h; cases h
      · exact h r hp.1 hsub
      · exact h r k hp.1 hp.2 hmode
      · rw [State.cutting, State.curContour] at hcut
        cases hi : s.job.current with
        | none => simp [hi] at hcut
        | some i =>
          cases hc : s.contour i with
          | none => simp [hi, hc] at hcut
          | some c =>
            have := h i c hi hc
            simp only [hi, hc, Option.bind_some] at hcut
            cases hst : c.state <;> simp_all [ContourState.isCutting]
      · exact hpulses h
      · omega
    · rfl
  show Host.Outcome.next (s.event fun t => t.gapStep voltage pulses shorts opens) = _
  rw [State.event_eq hs, hstep, State.finish, State.settle_nil s hs.1]

end Sys2Proof.Machine
end

section
/-! The taken sample (R55 to R59): a state with a PARK pending in RUN, which no step makes (ModeTimers), but which the
statement does not leave out. -/

set_option Elab.async false

namespace Sys2Proof.Machine

namespace StuckWhileParkPends

/-- A pass record with ShortLimit 8. -/
def passRec : PassRec := ⟨.rough, 7, 5, 60, 40, 300, 40, 8⟩

/-- An unbridged DROP contour in CUTTING. -/
def contour : Contour :=
  ⟨⟨⟨0, 0⟩, 1200, true, .drop, none, none, none, [passRec]⟩, .cutting, 0, 0, none, 0, 0, .attached, none, false⟩

/-- A CLOSED chain of one CUT line of 20,000 ticks. -/
def chain : Chain :=
  ⟨.closed, ⟨0, 0⟩, [⟨.line, .cut, ⟨20000, 0⟩, none, 20000, none, 0, .unchanged⟩], 20000, ⟨20000, 0⟩, some (5, 0)⟩

/-- The pass stands at its floor, one short sample away from the STUCK fault. -/
def pass : RunPass := ⟨7, 1000, 1000, some 1000, 20000, .moving, 0, none, 0, 65535, false, 0, 0⟩

/-- RUN with a PARK pending and a threading operation, and every condition disabled. -/
def state : State :=
  { State.reset with
    contours := (Vector.replicate 64 none).set 5 (some contour)
    job := { Job.reset with state := .stageA, current := some 5 }
    store := { Store.reset with chains := (Vector.replicate 128 none).set 7 (some chain) }
    path := { PathUnit.reset with pass := some pass, commanded := ⟨1000, 0⟩, genOn := true }
    thread := some ⟨.unthread, 5, .unthreadPull, true, 0, 0, none, none, none, none, false⟩
    modes := ⟨.run, true, none, true⟩
    conds := Vector.replicate 28 (CondRec.reset false)
    link := { Link.reset with startupDue := false } }

/-- The mode after the short sample that brings the stuck count to StuckSamples. -/
def modeAfter : Option Mode :=
  match exec (.gapSample 0 30 8 0) state with
  | .next t => some t.modes.mode
  | _ => none

theorem park : modeAfter = some .park := by decide +kernel

end StuckWhileParkPends

/-- Refutes O56: SampleSticks asks for HOLD after the STUCK fault, and leaves out neither a PARK that pends in RUN nor a
threading operation under way. The end of that operation enters the deferred PARK (R144), and with no enabled latch the
mode is PARK (R145). Only states that break ModeTimers are such. -/
theorem not_takenSampleMovesWithinFloorAndStop : ¬ Obligations.TakenSampleMovesWithinFloorAndStop := by
  intro h
  obtain ⟨⟨-, -, -, -, hsticks⟩, -⟩ := h 0 30 8 0 5 StuckWhileParkPends.contour StuckWhileParkPends.passRec
    StuckWhileParkPends.pass StuckWhileParkPends.chain StuckWhileParkPends.state ⟨rfl, rfl⟩
  have hone : ∀ j k, StuckWhileParkPends.state.contour j = some k → k = StuckWhileParkPends.contour := by
    intro j k hk
    have e : ((Vector.replicate 64 none).set 5 (some StuckWhileParkPends.contour))[j] = some k := hk
    rw [Fin.getElem_fin, Vector.getElem_set] at e
    split at e
    · exact (Option.some.inj e).symm
    · rw [Vector.getElem_replicate] at e
      cases e
  obtain ⟨t, ht, -, -, -, -, -, -, hmode, -⟩ := hsticks
    ⟨⟨rfl, rfl, rfl, rfl, rfl, by simp [Chain.Sound, StuckWhileParkPends.chain]⟩, rfl, rfl, .inl rfl, rfl, rfl⟩
    (by decide) (by decide) (by decide) (by decide) (by decide) (by decide)
    (fun j k hk => by rw [hone j k hk]; exact ⟨nofun, nofun⟩)
    ⟨by decide, by decide, by decide, rfl, rfl, rfl⟩ ⟨rfl, rfl, rfl, by decide, 1, rfl, by decide⟩
  have hpark := StuckWhileParkPends.park
  rw [StuckWhileParkPends.modeAfter, ht] at hpark
  rw [Option.some.inj hpark] at hmode
  cases hmode

end Sys2Proof.Machine
end

section
/-! SUPPORT. A cell in which no cause of a hold stands (R142, R145, R146): outside PARK the flags write condition records
alone, so that the work of a step can be said exactly. -/

set_option Elab.async false

namespace Sys2Proof.Machine.State

variable {s t u : State}

/-! ## Condition records alone -/

/-- Flags have written condition records, and nothing else. -/
structure Signals (s t : State) : Prop extends Flags s t where
  only : t = s.withConds t.conds

theorem Signals.refl (s : State) : s.Signals s := ⟨.refl s, rfl⟩

theorem Signals.trans (h : s.Signals t) (g : t.Signals u) : s.Signals u :=
  ⟨h.toFlags.trans g.toFlags, by rw [g.only, h.only]; rfl⟩

theorem Signals.samePath (h : s.Signals t) : t.path = s.path := by rw [h.only]; rfl

theorem Signals.sameModes (h : s.Signals t) : t.modes = s.modes := by rw [h.only]; rfl

theorem Signals.noHold (h : s.Signals t) (hm : s.modes.mode ≠ .park) (hc : s.NoHoldCause) : t.NoHoldCause :=
  (h.calm hm hc).2

theorem latch_signals (hm : s.modes.mode ≠ .park) (c : Cond) : s.Signals (s.latch c) := by
  refine ⟨latch_flags s c, ?_⟩
  conv_lhs => rw [latch_rest, latch_modes s c hm]
  rfl

theorem raise_signals (hm : s.modes.mode ≠ .park) (c : Cond) : s.Signals (s.raise c) := by
  unfold raise
  split
  · exact latch_signals hm c
  · exact .refl s

theorem setLive_signals (hm : s.modes.mode ≠ .park) {c : Cond} {v : Bool} (hv : c.forcesHold = true → v = false) :
    s.Signals (s.setLive c v) := by
  refine ⟨setLive_flags fun h _ => hv h, ?_⟩
  simp only [setLive]
  split
  · rfl
  · split
    · rename_i hne hrise
      have hf : c.forcesHold = false := Bool.eq_false_iff.mpr fun h => by rw [hv h] at hrise; cases hrise
      have h := (latch_signals (s := s.setCond c { s.cond c with live := v }) hm c).only
      rw [hf]
      exact h
    · rfl

theorem refreshLevels_signals (hm : s.modes.mode ≠ .park) (hc : s.NoHoldCause) : s.Signals s.refreshLevels := by
  unfold refreshLevels
  generalize Cond.levels = l
  induction l generalizing s with
  | nil => exact .refl s
  | cons c l ih =>
    have h : s.Signals (s.setLive c (s.groupValid c.group && s.source c)) :=
      setLive_signals hm fun hf => by rw [hc.source hf, Bool.and_false]
    exact h.trans (ih (h.sameModes ▸ hm) (h.noHold hm hc))

theorem decideGapOpen_signals (hm : s.modes.mode ≠ .park) : s.Signals s.decideGapOpen := by
  unfold decideGapOpen
  split
  · exact setLive_signals hm nofun
  · exact .refl s

/-! ## Offers to a journal with room (R165) -/

/-- An offer that is written raises nothing. -/
theorem offer_signals (hm : s.modes.mode ≠ .park) (hc : s.NoHoldCause) {n : Nat} (hr : s.journal.Room (n + 1)) (r : JRecord) :
    (s.withJournal (s.journal.take r)).Signals (s.offer r) ∧ (s.offer r).journal.Room n ∧ (s.offer r).NoHoldCause := by
  have hroom := hr.take r
  have hblocked : (s.journal.take r).blocked = false := hroom.2.2.1
  have h : (s.withJournal (s.journal.take r)).Signals (s.offer r) :=
    setLive_signals (s := s.withJournal (s.journal.take r)) hm fun _ => hblocked
  have hno : (s.withJournal (s.journal.take r)).NoHoldCause :=
    hc.congr (fun _ _ => rfl) rfl (hblocked.trans hc.2.2.2.2.2.symm)
  exact ⟨h, h.journal ▸ hroom, h.noHold hm hno⟩

/-- A contour's change where the journal has room: its record, the last-changed contour, the STATE record written and
PROGRESS pending (R11, R91). -/
theorem changeContour_signals (hm : s.modes.mode ≠ .park) (hc : s.NoHoldCause) {n : Nat} (hr : s.journal.Room (n + 1))
    (i : Slot) (f : Contour → Contour) : ∃ j : Journal, j.Room n ∧
      ((s.onContour i f).changed i j).Signals (s.changeContour i f) ∧ (s.changeContour i f).NoHoldCause := by
  have h := offer_signals (s := (s.onContour i f).onJob fun b => { b with lastChanged := some i }) hm
    ((apart_onJob _).noHoldCause _ |>.mpr (((apart_onContour i f).noHoldCause s).mpr hc)) hr
    (((s.onContour i f).onJob fun b => { b with lastChanged := some i }).stateRecord i)
  obtain ⟨hs, hroom, hno⟩ := h
  refine ⟨_, hr.take _, ⟨hs.toFlags.apart apart_progress, ?_⟩, (apart_progress.noHoldCause _).mpr hno⟩
  exact congrArg progress hs.only

end Sys2Proof.Machine.State
end

section
/-! SUPPORT. The stop point computed anew in RUN, for a pass that goes on towards it (R51, R60, R61), and the taking up of
cutting (R117). -/

set_option Elab.async false

namespace Sys2Proof.Machine.State

variable {s t u : State}

/-! ## The generator command of a pass that cuts (R60, R61) -/

/-- The generator follows WIRE_INTACT: the running pass as it was but for its counts, and the setting chosen where the
generator comes on. -/
structure Generates (r : RunPass) (s t : State) : Prop where
  rest : t = (s.withPath t.path).withConds t.conds
  path : t.path = { s.path with pass := t.path.pass, genOn := s.active .wireIntact, genSetting := t.path.genSetting }
  pass : ∃ o n, t.path.pass = some { r with openCount := o, stuckCount := n }
  setting : s.path.genOn = false → s.active .wireIntact = true → t.path.genSetting = s.settingAt r.s
  kept : s.path.genOn = true → t.path.genSetting = s.path.genSetting

theorem genAllowed_cutting {r : RunPass} (hp : s.path.pass = some r) (hm : s.modes.mode = .run) (hcut : s.cutting = true)
    (hsub : r.sub = .moving) (hr : r.cutRunStart.isSome = true) : s.genAllowed = s.active .wireIntact := by
  rw [genAllowed, hp]
  simp [running, hm, hcut, hsub, hr]

theorem refreshGen_generates {r : RunPass} (hp : s.path.pass = some r) (hm : s.modes.mode = .run) (hcut : s.cutting = true)
    (hsub : r.sub = .moving) (hr : r.cutRunStart.isSome = true) : Generates r s s.refreshGen ∧
      (s.NoHoldCause → s.refreshGen.NoHoldCause) := by
  have hpark : s.modes.mode ≠ .park := by rw [hm]; decide
  rw [refreshGen, genAllowed_cutting hp hm hcut hsub hr]
  cases hw : s.active .wireIntact with
  | false =>
    have hpass : s.genOff.path.pass = some { r with openCount := 0, stuckCount := 0 } := by
      show s.path.pass.map _ = _
      rw [hp]
      rfl
    exact ⟨⟨rfl, by rw [hw]; rfl, ⟨0, 0, hpass⟩, fun _ h => absurd (hw.symm.trans h) (by decide), fun _ => rfl⟩,
      fun hc => ((genOff_flags s).calm hpark hc).2⟩
  | true =>
    rw [if_pos rfl]
    cases hg : s.path.genOn with
    | true =>
      rw [if_pos rfl]
      exact ⟨⟨rfl, by rw [hw, ← hg], ⟨r.openCount, r.stuckCount, hp⟩, fun h => absurd (hg.symm.trans h) (by decide),
        fun _ => rfl⟩, id⟩
    | false =>
      have hon : s.chooseSetting.onPath (fun p => { p with genOn := true }) = s.generator true (s.settingAt r.s) := by
        rw [chooseSetting, hp]
        rfl
      have h := decideGapOpen_signals (s := s.generator true (s.settingAt r.s)) hpark
      rw [if_neg (by decide), hon]
      refine ⟨⟨?_, ?_, ⟨r.openCount, r.stuckCount, ?_⟩, fun _ _ => ?_, fun h => absurd (hg.symm.trans h) (by decide)⟩, fun hc =>
        h.noHold hpark (hc.congr (fun _ _ => rfl) rfl rfl)⟩
      · conv_lhs => rw [h.only]
        rw [h.samePath]
        rfl
      · rw [h.samePath, hw]
        rfl
      · rw [h.samePath]
        exact hp
      · rw [h.samePath]
        rfl

/-! ## The stop point computed anew (R51) -/

/-- The running pass goes on towards a stop point: its floor, segment index and stop point settled, the generator following
WIRE_INTACT, and nothing else changed but condition records. -/
structure Towards (r : RunPass) (stop : Nat) (s t : State) : Prop where
  rest : t = (s.withPath t.path).withConds t.conds
  path : t.path = { s.path with pass := t.path.pass, genOn := s.active .wireIntact, genSetting := t.path.genSetting }
  pass : ∃ f g o n, t.path.pass =
    some { r with floor := f, segIndex := g, stopPoint := stop, openCount := o, stuckCount := n }
  setting : s.path.genOn = false → s.active .wireIntact = true → t.path.genSetting = s.settingAt r.s
  kept : s.path.genOn = true → t.path.genSetting = s.path.genSetting

theorem cutting_of {i : Slot} {c : Contour} (hi : s.job.current = some i) (hc : s.contour i = some c)
    (hst : c.state = .cutting ∨ c.state = .severing) : s.cutting = true := by
  rw [cutting, curContour_eq hi hc]
  rcases hst with h | h <;> simp [ContourState.isCutting, h]

section
variable {i : Slot} {c : Contour} {r : RunPass} {k : Chain} (hm : s.modes.mode = .run) (hno : s.NoHoldCause)
  (hi : s.job.current = some i) (hc : s.contour i = some c) (hst : c.state = .cutting ∨ c.state = .severing)
  (hp : s.path.pass = some r) (hk : s.chain r.chain = some k) (hs : k.Sound) (hcut : k.modeAt r.s = some .cut)
  (hr : r.cutRunStart.isSome = true) (hsub : r.sub = .moving) (hstop : s.stopPointAt c k r.s ≠ r.s)
include hm hno hi hc hst hp hk hs hcut hr hsub hstop

theorem recompute_towards : Towards r (s.stopPointAt c k r.s) s s.recompute := by
  have hset := settlePosition_eq hp hk
  have hsame : s.settlePosition.stopPointAt c k r.s = s.stopPointAt c k r.s := by rw [hset]; rfl
  have hrec := recompute_beyond hp (curContour_eq hi hc) hk hs hcut hr (by rw [hsame]; exact hstop)
    (by rw [hsub]; nofun)
  rw [hsame] at hrec
  have hw : s.settlePosition.onPass (fun q => { q with stopPoint := s.stopPointAt c k r.s }) = s.withPass
      { r with floor := s.floorOf r, segIndex := segmentAt k.segs r.s, stopPoint := s.stopPointAt c k r.s } := by
    rw [hset, onPass, onPass, withPass, onPath, onPath, onPath, hp]
    rfl
  rw [hw] at hrec
  generalize hv : ({ r with floor := s.floorOf r, segIndex := segmentAt k.segs r.s
                            stopPoint := s.stopPointAt c k r.s } : RunPass) = v at hrec
  obtain ⟨hg, hgno⟩ := refreshGen_generates (s := s.withPass v) (r := v) rfl hm
    (cutting_of (s := s.withPass v) hi hc hst) (by rw [← hv]; exact hsub) (by rw [← hv]; exact hr)
  have hgm : (s.withPass v).refreshGen.modes.mode ≠ .park := by
    rw [hg.rest]
    show s.modes.mode ≠ _
    rw [hm]
    decide
  have hl := refreshLevels_signals hgm (hgno (hno.congr (fun _ _ => rfl) rfl rfl))
  rw [← hrec] at hl
  obtain ⟨o, n, hpass⟩ := hg.pass
  refine ⟨?_, ?_, ⟨s.floorOf r, segmentAt k.segs r.s, o, n, ?_⟩, fun h1 h2 => ?_, fun h => ?_⟩
  · conv_lhs => rw [hl.only, hg.rest]
    rw [hl.samePath]
    rfl
  · rw [hl.samePath]
    exact hg.path
  · rw [hl.samePath, hpass, ← hv]
  · rw [hl.samePath, hg.setting h1 h2, ← hv]
    rfl
  · rw [hl.samePath, hg.kept h]
    rfl

end

/-! ## Cutting is taken up (R117) -/

theorem cutState_eq {c : Contour} {q : PassRec} (hq : c.pass = some q) :
    cutState c = if q.role = .sever then .severing else .cutting := by
  simp [cutState, onSever, hq]

theorem cutState_cuts (c : Contour) : cutState c = .cutting ∨ cutState c = .severing := by
  rw [cutState]
  split
  · exact .inr rfl
  · exact .inl rfl

/-- The running-pass record at the taking up of cutting, before its stop point. -/
def takenUpPass (r : RunPass) (k : Chain) : RunPass :=
  { r with approach := none, floorReported := false, cutRunStart := runStart k r.s, sub := .moving }

/-- The job's registers at the taking up of cutting: no threading work is left (R117). -/
def takenUpJob (j : Job) : Job :=
  { j with work := none, due := false, wire := none, resume := none, keptHolding := false, keptProceed := false }

/-- What the taking up of cutting leaves, besides what CutTakenUp says of it. -/
structure TakesUp (i : Slot) (c : Contour) (q : PassRec) (r : RunPass) (k : Chain) (s t : State) : Prop where
  taken : CutTakenUp i c q r k s t
  thread : t.thread = s.thread
  agenda : t.agenda = s.agenda

theorem takeUp_takesUp {i : Slot} {c : Contour} {q : PassRec} {r : RunPass} {k : Chain} (h : s.OnPass i c q r k)
    (hm : s.modes.mode = .run) (hno : s.NoHoldCause) (hroom : s.journal.Room 1) (hres : s.job.resume = none)
    (hmethod : c.defn.method = .drop) (hcl : k.state = .closed) (hcut : k.SoundCut) (hne : k.segs ≠ [])
    (hlt : r.s < c.defn.passEnd c.passIndex k.loaded) (hsub : r.sub = .moving ∨ r.sub = .paused ∨ r.sub = .starved) :
    TakesUp i c q r k s s.takeUp := by
  obtain ⟨hi, hc, hq, hp, hk, hs⟩ := h
  have hpark : s.modes.mode ≠ .park := by rw [hm]; decide
  obtain ⟨j, -, hch, hchno⟩ := changeContour_signals hpark hno hroom i fun c => { c with state := cutState c }
  have hrun : s.runChain = some (r, k) := by
    rw [runChain, hp]
    exact congrArg (Option.map fun k => (r, k)) hk
  have hslug : r.sub ≠ .slugWait := by rcases hsub with h | h | h <;> rw [h] <;> nofun
  have hhold : ¬ (r.sub = .waitHolder ∧ s.job.keptHolding = false) := fun h' => by
    rcases hsub with h | h | h <;> rw [h] at h' <;> cases h'.1
  have e : s.takeUp = ((((((s.changeContour i fun c => { c with state := cutState c }).onJob takenUpJob).onPass
        fun q => { q with approach := none, floorReported := false, cutRunStart := runStart k r.s }).onPath fun p =>
          { p with commanded := k.point r.s }).liftSub).recompute) := by
    generalize hch' : s.changeContour i (fun c => { c with state := cutState c }) = x at hch
    have hread : readSlots r.chain (runReads k r.s) (x.onJob takenUpJob) = (_, true) :=
      readSlots_sound (s := x.onJob takenUpJob) ((hch.chain r.chain).trans hk) hs _
    unfold takenUpJob at hread
    rw [takeUp, hi, curContour_eq hi hc, hrun]
    simp only [hres, Option.isSome_none, Bool.false_and, Bool.false_eq_true, if_false, hch', hread, if_true, if_neg hslug,
      if_neg hhold]
    rfl
  rw [e]
  generalize s.changeContour i (fun c => { c with state := cutState c }) = x at hch hchno
  have hxm : x.modes = s.modes := hch.sameModes
  have hxp : x.path = s.path := hch.samePath
  have hcon : x.contour i = some { c with state := cutState c } :=
    (hch.contour i).trans ((contour_onContour_same s i _).trans (congrArg (Option.map _) hc))
  have ha : ((((x.onJob takenUpJob).onPass fun q =>
      { q with approach := none, floorReported := false, cutRunStart := runStart k r.s }).onPath fun p =>
        { p with commanded := k.point r.s }).liftSub) =
      ((x.onJob takenUpJob).withPath { s.path with pass := some (takenUpPass r k), commanded := k.point r.s }) := by
    simp only [liftSub, moveState, mode, onPass, onPath, onJob, withPath, withJob, hxm, hm, hxp, hp, if_true, Option.map_some,
      takenUpPass]
  rw [ha]
  have hjob : x.job = { s.job with lastChanged := some i } := hch.job
  generalize ha' : (x.onJob takenUpJob).withPath
      { s.path with pass := some (takenUpPass r k), commanded := k.point r.s } = a
  have hact (l : Line) : a.active l = s.active l := by rw [← ha']; exact hch.active l
  have hai : a.job.current = some i := by
    rw [← ha']
    show x.job.current = _
    rw [hjob]
    exact hi
  have hac : a.contour i = some { c with state := cutState c } := by rw [← ha']; exact hcon
  have hap : a.path = { s.path with pass := some (takenUpPass r k), commanded := k.point r.s } := by rw [← ha']; rfl
  have hstop : a.stopPointAt { c with state := cutState c } k r.s = c.defn.passEnd c.passIndex k.loaded :=
    stopPointAt_closed hcut (tackSpans_drop (curContour_eq hai hac) hmethod) hcl hmethod hlt.le
  have hto := recompute_towards (s := a) (r := takenUpPass r k) (by rw [← ha']; exact (congrArg ModeUnit.mode hxm).trans hm)
    (by rw [← ha']; exact hchno.congr (fun _ _ => rfl) rfl rfl) hai hac (cutState_cuts c) (by rw [hap])
    (by rw [← ha']; exact (hch.chain r.chain).trans hk) hs (modeAt_cut hcut hne r.s) (runStart_isSome hcut hne r.s) rfl
    (by
      show a.stopPointAt _ k r.s ≠ r.s
      rw [hstop]
      exact hlt.ne')
  rw [show a.stopPointAt _ k (takenUpPass r k).s = _ from hstop] at hto
  obtain ⟨f, g, o, n, hpass⟩ := hto.pass
  refine ⟨⟨?_, ⟨_, hpass, rfl, rfl, rfl, rfl, rfl⟩, ?_, ?_, ?_, ?_⟩, ?_, ?_⟩
  · rw [hto.rest, ← cutState_eq hq]
    exact hac
  · rw [hto.path, hap]
  · rw [hto.path, hact]
  · rw [hto.rest, ← ha']
    rfl
  · rw [hto.rest, ← ha']
    exact hch.store
  · rw [hto.rest, ← ha']
    exact hch.thread
  · rw [hto.rest, ← ha']
    exact hch.agenda

end Sys2Proof.Machine.State
end

section
/-! The drive update (R62 to R65): rapid, dry and approach steps, and the commanded position that is supplied. -/

set_option Elab.async false

namespace Sys2Proof.Machine

namespace State

variable {s t : State}

/-! ## The event of a drive update -/

/-- A drive update whose step is settled supplies the commanded position (R62). -/
theorem driveUpdate_settled (hs : s.Steady) (hset : s.motionStep.settle = t) (ha : t.agenda = []) :
    exec .driveUpdate s = .next t.supply.arbitrate := by
  have e : exec .driveUpdate s = .next (s.event fun s => s.motionStep.settle.supply) := rfl
  rw [e, event_eq hs, hset, finish, settle_nil t.supply ha]

theorem driveUpdate_unreported (hs : s.Steady) (hstep : s.motionStep = t) (ha : t.agenda = []) :
    exec .driveUpdate s = .next t.supply.arbitrate :=
  driveUpdate_settled hs (by rw [hstep, settle_nil t ha]) ha

theorem driveUpdate_still (hs : s.Steady) (hstep : s.motionStep = s) :
    exec .driveUpdate s = .next (s.onPath fun p => { p with supplied := p.commanded }).arbitrate :=
  driveUpdate_unreported hs hstep hs.1

/-! ## Which step is made (R62) -/

theorem running_of_run (hm : s.modes.mode = .run) : s.running = true := by rw [running, hm]; rfl

theorem motionStep_outsideRun (hm : s.modes.mode ≠ .run) : s.motionStep = s := by
  rw [motionStep, if_neg (by simp [running, hm])]

theorem motionStep_rapid {m : Rapid} (hm : s.modes.mode = .run) (hr : s.path.rapid = some m) :
    s.motionStep = s.rapidStep m := by
  rw [motionStep, if_pos (running_of_run hm), hr]

theorem approaching_none (h : s.job.work ≠ some .approach) : s.approaching = none := if_neg h

theorem runChain_eq {r : RunPass} {k : Chain} (hp : s.path.pass = some r) (hk : s.chain r.chain = some k) :
    s.runChain = some (r, k) := by
  rw [runChain, hp]
  exact congrArg (Option.map fun k => (r, k)) hk

/-- A pass that does not move makes no step. -/
theorem motionStep_waits {r : RunPass} (hr : s.path.rapid = none) (hw : s.job.work ≠ some .approach)
    (hp : s.path.pass = some r) (hsub : r.sub ≠ .moving) : s.motionStep = s := by
  rw [motionStep]
  split
  · rw [hr, approaching_none hw]
    have hrun : s.runChain = (s.chain r.chain).map fun k => (r, k) := by rw [runChain, hp]
    rw [hrun]
    cases s.chain r.chain with
    | none => rfl
    | some k => exact if_neg (by simp [hsub])
  · rfl

theorem motionStep_dry {i : Slot} {c : Contour} {q : PassRec} {r : RunPass} {k : Chain} (h : s.Dry i c q r k) :
    s.motionStep = s.dryStep r k := by
  obtain ⟨⟨hi, hc, -, hp, hk, -⟩, hm, hr, hw, hst, hsub, hdry⟩ := h
  rw [motionStep, if_pos (running_of_run hm), hr, approaching_none hw, runChain_eq hp hk]
  exact if_pos (by simp [cutting_of hi hc hst, hsub, hdry])

theorem motionStep_approach {i : Slot} {c : Contour} {q : PassRec} {r : RunPass} {k : Chain} {a : Nat}
    (h : s.Approaches i c q r k a) : s.motionStep = s.approachStep r k a := by
  obtain ⟨⟨-, -, -, hp, hk, -⟩, hm, hr, hw, ha⟩ := h
  have happ : s.approaching = some a := by
    rw [approaching, if_pos hw, hp]
    exact ha
  rw [motionStep, if_pos (running_of_run hm), hr, happ, runChain_eq hp hk]

/-! ## Rapid steps (R65) -/

theorem rapidStep_short {m : Rapid} (h : m.done + s.params.rapidStep < m.length) : s.rapidStep m =
    s.onPath fun p => { p with
      commanded := linePoint m.origin m.target m.length (m.done + s.params.rapidStep)
      rapid := some { m with done := m.done + s.params.rapidStep } } := by
  have hmin : min s.params.rapidStep (m.length - m.done) = s.params.rapidStep := by omega
  simp only [rapidStep, hmin, if_neg h.ne]

theorem rapidStep_last {m : Rapid} (hd : m.done ≤ m.length) (h : m.length ≤ m.done + s.params.rapidStep) : s.rapidStep m =
    (s.onPath fun p => { p with commanded := m.target, rapid := none }).report (.moveDone m.owner) := by
  have hmin : m.done + min s.params.rapidStep (m.length - m.done) = m.length := by omega
  simp only [rapidStep, hmin, if_true]

/-- In RUN a step that is entered begins at once (R95). -/
theorem goStep_running {h : Threading} (ht : s.thread = some h) (hm : s.modes.mode = .run) (st : ThreadStep) :
    s.goStep st = (s.withThread (some { h with step := st, timer := none, held := false })).beginStep := by
  have hrun := running_of_run hm
  have e : s.enterStep st = s.withThread (some { h with step := st, timer := none, held := false }) := by
    rw [enterStep, onThread, ht, hrun]
    rfl
  rw [goStep, e]
  exact if_pos hrun

theorem goStep_tipCut {h : Threading} (ht : s.thread = some h) (hm : s.modes.mode = .run) : s.goStep .tipCut =
    s.withThread (some { h with step := .tipCut, timer := some s.params.tipTime, held := false }) :=
  goStep_running ht hm .tipCut

/-! ## Dry steps (R63) -/

theorem dryStep_eq {r : RunPass} {k : Chain} (hk : s.chain r.chain = some k) (hs : k.Sound) : s.dryStep r k =
    if r.s + min s.params.dryStep (r.stopPoint - r.s) = r.stopPoint then
      (s.movePass k (r.s + min s.params.dryStep (r.stopPoint - r.s))).arrive
    else s.movePass k (r.s + min s.params.dryStep (r.stopPoint - r.s)) := by
  simp only [dryStep, readSlots_sound hk hs, if_true]

theorem dryStep_short {r : RunPass} {k : Chain} (hk : s.chain r.chain = some k) (hs : k.Sound)
    (h : r.s + s.params.dryStep < r.stopPoint) : s.dryStep r k = s.movePass k (r.s + s.params.dryStep) := by
  have hmin : min s.params.dryStep (r.stopPoint - r.s) = s.params.dryStep := by omega
  rw [dryStep_eq hk hs, hmin, if_neg h.ne]

theorem dryStep_reaches {r : RunPass} {k : Chain} (hk : s.chain r.chain = some k) (hs : k.Sound)
    (hlt : r.s < r.stopPoint) (h : r.stopPoint ≤ r.s + s.params.dryStep) :
    s.dryStep r k = (s.movePass k r.stopPoint).arrive := by
  have hmin : r.s + min s.params.dryStep (r.stopPoint - r.s) = r.stopPoint := by omega
  rw [dryStep_eq hk hs, hmin, if_pos rfl]

/-- What is said of a pass after a move of it holds of the state in which the position is supplied, too. -/
theorem MovedTo.supplied {i : Slot} {c : Contour} {r : RunPass} {k : Chain} {pos : Nat} (h : MovedTo 1 i c r k pos s t) :
    t.supply.arbitrate.path.pass.map (·.s) = some pos ∧
      t.supply.arbitrate.contour i = some { c with front := max c.front pos } ∧
      (∀ j, j ≠ i → t.supply.arbitrate.contour j = s.contour j) ∧ t.supply.arbitrate.path.commanded = k.point pos ∧
      t.supply.arbitrate.path.supplied = k.point pos ∧ t.supply.arbitrate.job = s.job ∧
      t.supply.arbitrate.store = s.store ∧ t.supply.arbitrate.thread = s.thread ∧ t.supply.arbitrate.holder = s.holder ∧
      t.supply.arbitrate.slug = s.slug ∧ t.supply.arbitrate.params = s.params := by
  have ha := t.supply.arbitrate_sends
  obtain ⟨p, hp, -, hpos, -⟩ := h.pass
  obtain ⟨n, hn⟩ := ha.pass_some (r := p) hp
  refine ⟨?_, (ha.contour i).trans h.contour, fun j hj => (ha.contour j).trans (h.others j hj),
    ha.commanded.trans h.commanded, ?_, ha.job.trans h.job, ha.store.trans h.store, ha.thread.trans h.thread,
    ha.holder.trans h.holder, ha.slug.trans h.slug, ha.params.trans h.params⟩
  · rw [hn]
    exact congrArg some hpos
  · rw [ha.path]
    exact h.commanded

/-! ## The arrival at the boundary to a CUT segment (R52, R60) -/

/-- A running pass goes on in its CUT run, or out of it, and in its sub-state. -/
def GoesOn (r p : RunPass) : Prop := p.cutRunStart = r.cutRunStart ∧ p.sub = r.sub

theorem complete_goesOn {r : RunPass} (hp : s.path.pass = some r) (n : Nat) :
    ∃ p, (s.complete n).path.pass = some p ∧ GoesOn r p := by
  have hcount (m : Nat) : (s.onPass fun q => { q with segsCompleted := m }).path.pass = some { r with segsCompleted := m } :=
    congrArg (Option.map _) hp
  cases n with
  | zero => exact ⟨r, hp, rfl, rfl⟩
  | succ n =>
    have e : s.complete (n + 1) =
        if 0 < s.params.progressEvery ∧ s.params.progressEvery ≤ min 255 (r.segsCompleted + (n + 1)) then
          (s.onPass fun q => { q with segsCompleted := min 255 (r.segsCompleted + (n + 1)) }).progress
        else s.onPass fun q => { q with segsCompleted := min 255 (r.segsCompleted + (n + 1)) } := by simp only [complete, hp]
    rw [e]
    split
    · exact ⟨_, hcount _, rfl, rfl⟩
    · exact ⟨_, hcount _, rfl, rfl⟩

theorem checkpoint_goesOn {r : RunPass} (hm : s.modes.mode ≠ .park) (hc : s.NoHoldCause) (hr : s.journal.Room 1)
    (hp : s.path.pass = some r) : ∃ p, s.checkpoint.path.pass = some p ∧ GoesOn r p := by
  unfold checkpoint
  split
  · rename_i r' i c _ _ _
    split
    · have h := (offer_signals (s := s.onPass fun q => { q with lastCheckpoint := c.front }) hm
        (hc.congr (fun _ _ => rfl) rfl rfl) hr (s.contourRecord .position i c)).1
      exact ⟨{ r with lastCheckpoint := c.front }, by rw [h.samePath]; exact congrArg (Option.map _) hp, rfl, rfl⟩
    · exact ⟨r, hp, rfl, rfl⟩
  · exact ⟨r, hp, rfl, rfl⟩

theorem GoesOn.trans {r p q : RunPass} (h : GoesOn r p) (g : GoesOn p q) : GoesOn r q :=
  ⟨g.1.trans h.1, g.2.trans h.2⟩

theorem raiseFront_goesOn {i : Slot} {r : RunPass} (hi : s.job.current = some i) (hm : s.modes.mode ≠ .park)
    (hc : s.NoHoldCause) (hr : s.journal.Room 1) (hp : s.path.pass = some r) (k : Chain) (pos : Nat) :
    ∃ p, (s.raiseFront k pos).path.pass = some p ∧ GoesOn r p := by
  rw [raiseFront]
  split
  · have hcur : (s.onCur fun c => { c with front := pos }) = s.onContour i fun c => { c with front := pos } := by
      rw [onCur, hi]
    rw [hcur]
    generalize completedBetween k.segs s.front pos = n
    have hst := (stays_onContour s i fun c => { c with front := pos }).trans (still_complete _ n).toStays
    obtain ⟨p, hpp, hgo⟩ := complete_goesOn (s := s.onContour i fun c => { c with front := pos }) hp n
    generalize (s.onContour i fun c => { c with front := pos }).complete n = u at hst hpp
    obtain ⟨hum, huc, hur⟩ := hst.calm hm hc 1 hr
    obtain ⟨v, hv, hgo'⟩ := checkpoint_goesOn (hum ▸ hm) huc hur hpp
    exact ⟨v, hv, hgo.trans hgo'⟩
  · exact ⟨r, hp, rfl, rfl⟩

theorem movePass_goesOn {i : Slot} {c : Contour} {r : RunPass} {k : Chain} (hi : s.job.current = some i)
    (hc : s.contour i = some c) (hm : s.modes.mode ≠ .park) (hno : s.NoHoldCause) (hr : s.journal.Room 1)
    (hp : s.path.pass = some r) (hk : s.chain r.chain = some k) (pos : Nat) :
    ∃ p, (s.movePass k pos).path.pass = some p ∧ GoesOn r p := by
  have hp' : (s.onPass fun r => { r with s := pos }).path.pass = some { r with s := pos } := congrArg (Option.map _) hp
  have hno' : (s.onPass fun r => { r with s := pos }).NoHoldCause := hno.congr (fun _ _ => rfl) rfl rfl
  obtain ⟨p, hpp, hgo⟩ := raiseFront_goesOn (s := s.onPass fun r => { r with s := pos }) hi hm hno' hr hp' k pos
  obtain ⟨hst, -, -, v, hv, hch, -⟩ :=
    raiseFront_moves (s := s.onPass fun r => { r with s := pos }) hi hc hp' k pos
  obtain rfl := Option.some.inj (hpp.symm.trans hv)
  rw [movePass]
  generalize (s.onPass fun r => { r with s := pos }).raiseFront k pos = u at hst hpp
  obtain ⟨hum, huc, -⟩ := hst.calm hm hno' 0 hr
  have hku : u.chain p.chain = some k := by rw [hst.chain, hch]; exact hk
  have hset := settlePosition_eq (s := u.onPath fun q => { q with commanded := k.point pos }) (r := p) hpp hku
  have hl := refreshLevels_signals (s := (u.onPath fun q => { q with commanded := k.point pos }).settlePosition)
    (by rw [hset]; exact hum ▸ hm) (by rw [hset]; exact huc.congr (fun _ _ => rfl) rfl rfl)
  refine ⟨{ p with floor := (u.onPath fun q => { q with commanded := k.point pos }).floorOf p
                   segIndex := segmentAt k.segs p.s }, ?_, hgo⟩
  rw [hl.samePath, hset]
  exact congrArg (Option.map _) hpp

end State

/-- The cumulative starts of a chain as its loads have formed it do not fall (R25). -/
theorem Chain.Formed.cumStart_le {k : Chain} (h : k.Formed) {m n : Nat} {f g : Segment} (hmn : m ≤ n)
    (hf : k.segs[m]? = some f) (hg : k.segs[n]? = some g) : f.cumStart ≤ g.cumStart := by
  rw [h.starts m f hf, h.starts n g hg]
  exact ((List.take_sublist_take_left hmn).map _).sum_le_sum fun _ _ => Nat.zero_le _

/-- The segments after the one at a position start beyond it (R25). -/
theorem Chain.Formed.beyond {k : Chain} (h : k.Formed) {pos n : Nat} {g : Segment} (hn : segmentAt k.segs pos < n)
    (hg : k.segs[n]? = some g) : pos < g.cumStart := by
  by_contra hle
  obtain ⟨hlen, -⟩ := List.getElem?_eq_some_iff.mp hg
  have hall : ∀ f ∈ k.segs.take (n + 1), decide (f.cumStart ≤ pos) = true := fun f hf => by
    obtain ⟨m, hm⟩ := List.mem_iff_getElem?.mp hf
    obtain ⟨hmlt, -⟩ := List.getElem?_eq_some_iff.mp hm
    rw [List.length_take] at hmlt
    rw [List.getElem?_take_of_lt (by omega)] at hm
    have := h.cumStart_le (by omega) hm hg
    exact decide_eq_true (by omega)
  have hsplit := List.takeWhile_append_of_pos (l₂ := k.segs.drop (n + 1)) hall
  rw [List.take_append_drop] at hsplit
  have hlong : segmentAt k.segs pos = (k.segs.takeWhile fun g => decide (g.cumStart ≤ pos)).length - 1 := rfl
  rw [hsplit, List.length_append, List.length_take] at hlong
  omega

namespace State

variable {s t : State}

/-- A mode boundary lies beyond the position it is looked for at (R51). -/
theorem modeBoundary_beyond {k : Chain} (h : k.Formed) {pos b : Nat} (hb : modeBoundary k pos = some b) : pos < b := by
  rw [modeBoundary] at hb
  cases hg : k.segs[segmentAt k.segs pos]? with
  | none => rw [hg] at hb; cases hb
  | some g =>
    rw [hg] at hb
    obtain ⟨f, hf, rfl⟩ := Option.map_eq_some_iff.mp hb
    have hne : f.mode ≠ g.mode := by simpa using List.find?_some hf
    obtain ⟨m, hm⟩ := List.mem_iff_getElem?.mp (List.mem_of_find?_eq_some hf)
    rw [List.getElem?_drop] at hm
    cases m with
    | zero =>
      obtain rfl := Option.some.inj (hg.symm.trans hm)
      exact absurd rfl hne
    | succ m => exact h.beyond (by omega) hm

section
variable {c : Contour} {k : Chain} {pos : Nat}

theorem endCandidate_before (hk : k.state = .closed) (hpos : pos ≤ c.defn.passEnd c.passIndex k.loaded) :
    endCandidate c k pos = some (c.defn.passEnd c.passIndex k.loaded) := by
  rw [endCandidate, if_pos hk]
  exact Option.filter_eq_some_iff.mpr ⟨rfl, decide_eq_true hpos⟩

theorem engageCandidate_drop (h : c.defn.method = .drop) : s.engageCandidate c k pos = none := by
  have hpoint : engagePoint c k.loaded = none := if_neg fun h' => by rw [h] at h'; exact nomatch h'.1
  rw [engageCandidate, hpoint]
  split <;> rfl

theorem limitCandidate_closed (hk : k.state = .closed) : limitCandidate c k pos = none := if_neg (by rw [hk]; nofun)

variable (hk : k.state = .closed) (hmethod : c.defn.method = .drop) (hpos : pos < c.defn.passEnd c.passIndex k.loaded)
include hk hmethod hpos

/-- The stop point lies beyond a position short of the pass end (R51). -/
theorem stopPointAt_beyond (h : k.Formed) (htack : s.tackSpans = []) : s.stopPointAt c k pos ≠ pos := by
  have hspan : tackBoundary s.tackSpans pos = none := by rw [htack]; rfl
  rw [stopPointAt, endCandidate_before hk hpos.le, hspan, engageCandidate_drop hmethod, limitCandidate_closed hk]
  cases hb : modeBoundary k pos with
  | none => exact hpos.ne'
  | some b => exact (lt_min hpos (modeBoundary_beyond h hb)).ne'

/-- No candidate stops motion short of the pass end (R52). -/
theorem stopRow_none : s.stopRow c k pos = none := by
  rw [stopRow, engageCandidate_drop hmethod, endCandidate_before hk hpos.le, limitCandidate_closed hk, if_neg nofun,
    if_neg (by simpa using hpos.ne'), if_neg nofun]

end

/-- The pass has entered a CUT run at its position, and goes on in it. -/
structure EntersCut (p : RunPass) (s t : State) : Prop where
  contours : t.contours = s.contours
  agenda : t.agenda = s.agenda
  path : t.path = { s.path with pass := t.path.pass, genOn := s.active .wireIntact, genSetting := t.path.genSetting }
  pass : ∃ v, t.path.pass = some v ∧ v.s = p.s ∧ v.cutRunStart = some p.s ∧ v.sub = .moving

section
variable {i : Slot} {c : Contour} {p : RunPass} {k : Chain} (hm : s.modes.mode = .run) (hno : s.NoHoldCause)
  (hi : s.job.current = some i) (hc : s.contour i = some c) (hst : c.state = .cutting ∨ c.state = .severing)
  (hp : s.path.pass = some p) (hk : s.chain p.chain = some k) (hs : k.Sound) (hcut : k.modeAt p.s = some .cut)
  (hr : p.cutRunStart = none) (hsub : p.sub = .moving) (hf : k.Formed) (hcl : k.state = .closed)
  (hmethod : c.defn.method = .drop) (hlt : p.s < c.defn.passEnd c.passIndex k.loaded)
include hm hno hi hc hst hp hk hs hcut hr hsub hf hcl hmethod hlt

theorem arrive_entersCut : EntersCut p s s.arrive := by
  generalize hv : ({ p with cutRunStart := some p.s } : RunPass) = v
  have hvr : v.cutRunStart = some p.s := by rw [← hv]
  have hvs : v.s = p.s := by rw [← hv]
  have hvsub : v.sub = .moving := by rw [← hv]; exact hsub
  have htake : s.takeModeBoundary k = s.withPass v := by
    rw [takeModeBoundary, hp]
    dsimp only
    rw [hcut, hr]
    show (s.onPass fun q => { q with cutRunStart := some q.s }) = _
    rw [onPass, withPass, onPath, onPath, hp, ← hv]
    rfl
  obtain ⟨hg, hgno⟩ := refreshGen_generates (s := s.withPass v) (r := v) rfl hm (cutting_of (s := s.withPass v) hi hc hst)
    hvsub (by rw [hvr]; rfl)
  replace hgno := hgno (hno.congr (fun _ _ => rfl) rfl rfl)
  have e : s.arrive = (s.withPass v).refreshGen.recompute := by
    have htack : (s.withPass v).refreshGen.tackSpans = [] := by
      refine tackSpans_drop (c := c) ?_ hmethod
      rw [hg.rest]
      exact curContour_eq hi hc
    rw [arrive, hp, curContour_eq hi hc]
    dsimp only
    rw [hk]
    dsimp only
    rw [stopRow_none hcl hmethod hlt]
    dsimp only
    rw [takeBoundaries, htake, takeTackBoundary, htack]
    rfl
  obtain ⟨o, n, hpass⟩ := hg.pass
  rw [e]
  generalize (s.withPass v).refreshGen = x at hg hgno hpass
  have hxi : x.job.current = some i := by rw [hg.rest]; exact hi
  have hxc : x.contour i = some c := by rw [hg.rest]; exact hc
  have hxk : x.chain v.chain = some k := by
    rw [hg.rest, ← hv]
    exact hk
  have hto := recompute_towards (s := x) (r := { v with openCount := o, stuckCount := n }) (by rw [hg.rest]; exact hm) hgno hxi
    hxc hst hpass hxk hs (by rw [← hvs] at hcut; exact hcut) (by rw [hvr]; rfl) hvsub
    (stopPointAt_beyond hcl hmethod (by rw [← hvs] at hlt; exact hlt) hf (tackSpans_drop (curContour_eq hxi hxc) hmethod))
  obtain ⟨f, g, o', n', hend⟩ := hto.pass
  have hact : x.active .wireIntact = s.active .wireIntact := by rw [hg.rest]; rfl
  refine ⟨?_, ?_, ?_, ⟨_, hend, hvs, hvr, hvsub⟩⟩
  · rw [hto.rest, hg.rest]
    rfl
  · rw [hto.rest, hg.rest]
    rfl
  · rw [hto.path, hg.path, hact]
    rfl

end

/-! ## Approach steps (R64) -/

theorem approachStep_eq {r : RunPass} {k : Chain} (hk : s.chain r.chain = some k) (hs : k.Sound) (a : Nat) :
    s.approachStep r k a =
      if a + min s.params.dryStep (r.s - a) = r.s then
        ((s.onPath fun p => { p with commanded := k.point (a + min s.params.dryStep (r.s - a)) }).onPass fun q =>
          { q with approach := none }).report .approachDone
      else (s.onPath fun p => { p with commanded := k.point (a + min s.params.dryStep (r.s - a)) }).onPass fun q =>
        { q with approach := some (a + min s.params.dryStep (r.s - a)) } := by
  simp only [approachStep, readSlots_sound hk hs, if_true]

/-- The approach position stands at s, and the approach is over. -/
def approached (s : State) (r : RunPass) (k : Chain) : State :=
  s.onPath fun p => { p with pass := some { r with approach := none }, commanded := k.point r.s }

theorem approachStep_last {r : RunPass} {k : Chain} {a : Nat} (hp : s.path.pass = some r) (hk : s.chain r.chain = some k)
    (hs : k.Sound) (ha : a ≤ r.s) (h : r.s ≤ a + s.params.dryStep) :
    s.approachStep r k a = (s.approached r k).report .approachDone := by
  have hmin : a + min s.params.dryStep (r.s - a) = r.s := by omega
  rw [approachStep_eq hk hs, hmin, if_pos rfl, approached]
  simp only [onPass, onPath, withPath_path, hp, Option.map_some]
  rfl

theorem approachStep_short {r : RunPass} {k : Chain} {a : Nat} (hp : s.path.pass = some r) (hk : s.chain r.chain = some k)
    (hs : k.Sound) (h : a + s.params.dryStep < r.s) : s.approachStep r k a = s.onPath fun p => { p with
      pass := some { r with approach := some (a + s.params.dryStep) }, commanded := k.point (a + s.params.dryStep) } := by
  have hmin : min s.params.dryStep (r.s - a) = s.params.dryStep := by omega
  rw [approachStep_eq hk hs, hmin, if_neg h.ne]
  simp only [onPass, onPath, withPath_path, hp, Option.map_some]
  rfl

end State

/-! ## The parts of the obligation -/

section
variable {s : State} (hs : s.Steady)
include hs

theorem dryStepAdvances (i : Slot) (c : Contour) (q : PassRec) (r : RunPass) (k : Chain) : DryStepAdvances i c q r k s := by
  intro h hlt
  have hstep := State.motionStep_dry h
  obtain ⟨⟨hi, hc, -, hp, hk, hsound⟩, -⟩ := h
  have hmove := State.movePass_moves hi hc hp k (r.s + s.params.dryStep)
  exact ⟨_, State.driveUpdate_unreported hs (hstep.trans (State.dryStep_short hk hsound hlt)) (hmove.agenda.trans hs.1),
    hmove.supplied⟩

theorem dryStepReachesCut (i : Slot) (c : Contour) (q : PassRec) (r : RunPass) (k : Chain) :
    DryStepReachesCut i c q r k s := by
  intro h hf hbefore hreach hrun hcl hmethod hend hcut hno hroom
  have hstep := State.motionStep_dry h
  obtain ⟨⟨hi, hc, -, hp, hk, hsound⟩, hm, -, -, hst, hsub, -⟩ := h
  have hpark : s.modes.mode ≠ .park := by rw [hm]; decide
  have hroom1 := hroom.room.mono (m := 1) (by decide)
  have hmove := State.movePass_moves hi hc hp k r.stopPoint
  obtain ⟨p, hpp, hgo⟩ := State.movePass_goesOn hi hc hpark hno hroom1 hp hk r.stopPoint
  replace hstep := hstep.trans (State.dryStep_reaches hk hsound hbefore hreach)
  generalize s.movePass k r.stopPoint = u at hmove hpp hstep
  obtain ⟨hum, huno, -⟩ := hmove.calm hpark hno 0 hroom1
  obtain ⟨p', hpp', hch, hpos, -⟩ := hmove.pass
  obtain rfl := Option.some.inj (hpp.symm.trans hpp')
  have h := State.arrive_entersCut (s := u) (c := { c with front := max c.front r.stopPoint }) (p := p) (k := k)
    (by rw [hum]; exact hm) huno (hmove.job ▸ hi) hmove.contour hst hpp (by rw [hmove.chain, hch]; exact hk) hsound
    (by rw [hpos]; exact hcut) (hgo.1.trans hrun) (hgo.2.trans hsub) hf hcl hmethod (by rw [hpos]; exact hend)
  rw [← hstep] at h
  have hag := h.agenda.trans (hmove.agenda.trans hs.1)
  have hev := State.driveUpdate_unreported hs rfl hag
  have ha := s.motionStep.supply.arbitrate_sends
  obtain ⟨v, hv, hvs, hvr, hvsub⟩ := h.pass
  obtain ⟨n, hn⟩ := ha.pass_some (r := v) hv
  have hcmd : s.motionStep.path.commanded = k.point r.stopPoint := by
    rw [h.path]
    exact hmove.commanded
  refine ⟨_, hev, ⟨?_, ?_, ha.commanded.trans hcmd⟩, ?_, ?_, ?_, ?_⟩
  · rw [hn, ← hpos, ← hvs]
    rfl
  · rw [ha.contour, ← hmove.contour]
    exact congrArg (·[i]) h.contours
  · rw [ha.path]
    exact hcmd
  · rw [hn, ← hpos]
    exact congrArg some hvr
  · rw [hn]
    exact congrArg some hvsub
  · rw [ha.genOn, ← hmove.active]
    show s.motionStep.path.genOn = _
    rw [h.path]

theorem approachStepAdvances (i : Slot) (c : Contour) (q : PassRec) (r : RunPass) (k : Chain) (a : Nat) :
    ApproachStepAdvances i c q r k a s := by
  intro h hlt
  have hstep := State.motionStep_approach h
  obtain ⟨⟨-, -, -, hp, hk, hsound⟩, -⟩ := h
  exact State.driveUpdate_unreported hs (hstep.trans (State.approachStep_short hp hk hsound hlt)) hs.1

theorem approachEndsInCutting (i : Slot) (c : Contour) (q : PassRec) (r : RunPass) (k : Chain) (a : Nat) :
    ApproachEndsInCutting i c q r k a s := by
  intro h hle hreach _ hres hmethod hcl hcut hne hlt hsub hno hroom
  have hstep := State.motionStep_approach h
  obtain ⟨⟨hi, hc, hq, hp, hk, hsound⟩, hm, -⟩ := h
  replace hstep := hstep.trans (State.approachStep_last hp hk hsound hle hreach)
  have htake := State.takeUp_takesUp (s := s.approached r k) (r := { r with approach := none }) ⟨hi, hc, hq, rfl, hk, hsound⟩
    hm (hno.congr (fun _ _ => rfl) rfl rfl) (hroom.room.mono (m := 1) (by decide)) hres hmethod hcl hcut hne hlt hsub
  have hag : (s.approached r k).takeUp.agenda = [] := htake.agenda.trans hs.1
  have hev := State.driveUpdate_settled hs (t := (s.approached r k).takeUp)
    (by rw [hstep]; exact State.settle_report (s := s.approached r k) hs.1 hag) hag
  obtain ⟨hcon, ⟨v, hv, hvs, hva, hvsub, hvf, hvstop⟩, hcmd, hgen, hwork, hstore⟩ := htake.taken
  generalize (s.approached r k).takeUp = t at hev hcon hv hcmd hgen hwork hstore
  have ha := t.supply.arbitrate_sends
  obtain ⟨n, hn⟩ := ha.pass_some (r := v) hv
  refine ⟨_, hev, ⟨(ha.contour i).trans hcon, ⟨_, hn, hvs, hva, hvsub, hvf, hvstop⟩, ha.commanded.trans hcmd,
    ha.genOn.trans hgen, by rw [ha.job]; exact hwork, ha.store.trans hstore⟩, ?_⟩
  rw [ha.path]
  exact hcmd

theorem rapidMoveEnds (m : Rapid) (t : Threading) : RapidMoveEnds m t s := by
  intro hm hr hle hreach hown ht
  have hstep := (State.motionStep_rapid hm hr).trans (State.rapidStep_last hle hreach)
  generalize hu : (s.onPath fun p => { p with commanded := m.target, rapid := none }) = u at hstep
  have hmoved : u.handle (.moveDone m.owner) =
      u.withThread (some { t with step := .tipCut, timer := some s.params.tipTime, held := false }) := by
    rw [hown]
    show u.searchMoved = _
    rw [State.searchMoved, if_pos (by rw [← hu]; exact Option.isSome_iff_exists.mpr ⟨t, ht⟩),
      State.goStep_tipCut (by rw [← hu]; exact ht) (by rw [← hu]; exact hm), ← hu]
    rfl
  have hag : u.agenda = [] := by rw [← hu]; exact hs.1
  have hev := State.driveUpdate_settled hs (t := u.handle (.moveDone m.owner))
    (by rw [hstep]; exact State.settle_report hag (by rw [hmoved]; exact hag)) (by rw [hmoved]; exact hag)
  rw [hev, hmoved, ← hu]
  rfl

end

/-- Settles O57: the step made by kind, and the commanded position supplied after it. -/
theorem driveUpdateSuppliesThePosition : Obligations.DriveUpdateSuppliesThePosition := by
  refine ⟨fun i c q r k s hs => ⟨dryStepAdvances hs i c q r k, dryStepReachesCut hs i c q r k, fun a =>
    ⟨approachStepAdvances hs i c q r k a, approachEndsInCutting hs i c q r k a⟩⟩, fun m t s hs => rapidMoveEnds hs m t,
    fun s hs => ⟨fun hm => ?_, fun m hm hr hlt => ?_, fun r hm hr hw hp hsub => ?_⟩⟩
  · exact State.driveUpdate_still hs (State.motionStep_outsideRun hm)
  · exact State.driveUpdate_unreported hs ((State.motionStep_rapid hm hr).trans (State.rapidStep_short hlt)) hs.1
  · exact State.driveUpdate_still hs (State.motionStep_waits hr hw hp hsub)

end Sys2Proof.Machine
end

section
/-! SUPPORT. The steps of a threading operation (R95 to R104): the step entered in RUN, the attempt that fails, and the
next one. -/

set_option Elab.async false

namespace Sys2Proof.Machine.State

variable {s t : State}

/-! ## Signals behind other updates -/

theorem Signals.apart (h : s.Signals t) {f : State → State} (hf : Apart f) : (f s).Signals (f t) := by
  refine ⟨h.toFlags.apart hf, ?_⟩
  have e := hf.comm s s.path t.conds s.modes
  rw [show s.reflag s.path t.conds s.modes = t from h.only.symm] at e
  rw [hf.conds]
  conv_lhs => rw [e]
  rw [← hf.path s, ← hf.modes s]
  rfl

theorem apart_startTimer (ms : Nat) : Apart fun s => s.startTimer ms :=
  ⟨fun _ _ _ _ => rfl, fun _ => rfl, fun _ => rfl, fun _ => rfl, fun _ => rfl, fun _ => rfl, fun _ => rfl⟩

/-! ## The transmitter that has nothing to say of the pass (R66, R174) -/

/-- No PROGRESS waits for a transmitter that is free. -/
def NoProgressDue (s : State) : Prop := s.link.sending = none → s.link.progressPending = false

theorem NoProgressDue.congr (h : s.NoProgressDue) (hl : t.link = s.link) : t.NoProgressDue := by
  rw [NoProgressDue, hl]
  exact h

theorem LinkSettled.noProgress (h : s.LinkSettled) : s.NoProgressDue := fun hs => (h hs).2.2

/-- Where no PROGRESS waits, the transmitter leaves the path unit as it is. -/
theorem arbitrate_path (h : s.NoProgressDue) : s.arbitrate.path = s.path := by
  unfold arbitrate
  split
  · rfl
  · rename_i hs
    rw [Option.not_isSome_iff_eq_none] at hs
    split
    · rfl
    · split
      · rfl
      · rw [h hs]
        simp only [Bool.false_eq_true, if_false]
        split <;> rfl

/-! ## A step is entered and ended -/

/-- A deferred PARK is entered in HOLD alone (R144). -/
theorem parkIfDue_running (hm : s.modes.mode = .run) : s.parkIfDue = s := by
  obtain ⟨m, e, hsame⟩ := parkIfDue_eq s
  rw [e, hsame (.inr (by rw [hm]; decide))]
  rfl

theorem timing_false {st : ThreadStep} (h : ∀ t, s.thread = some t → t.step ≠ st ∨ t.held = true ∨ t.timer = none) :
    s.timing st = false := by
  rw [timing]
  cases ht : s.thread with
  | none => rfl
  | some t => rcases h t ht with h | h | h <;> simp [h]

/-- Outside RUN a step is entered held, without a timer (R95). -/
theorem goStep_held {h : Threading} (ht : s.thread = some h) (hm : s.modes.mode ≠ .run) (st : ThreadStep) :
    s.goStep st = s.withThread (some { h with step := st, timer := none, held := true }) := by
  have hrun : s.running = false := by simp [running, hm]
  have e : s.enterStep st = s.withThread (some { h with step := st, timer := none, held := true }) := by
    rw [enterStep, onThread, ht, hrun]
    rfl
  rw [goStep, e]
  exact if_neg fun h' => Bool.false_ne_true (hrun.symm.trans h')

/-! ## The attempt that fails (R97, R101) -/

theorem nextOffset_isSome {p : Point} {ring k : Nat} : (s.nextOffset p ring k).isSome = true ↔
    ∃ n : Fin 9, k ≤ n.val ∧ s.store.window.holds (searchOffset p ring n.val) = true := by
  rw [nextOffset, List.find?_isSome]
  simp only [List.mem_range, Bool.and_eq_true, decide_eq_true_eq]
  exact ⟨fun ⟨n, hn, h⟩ => ⟨⟨n, hn⟩, h⟩, fun ⟨n, h⟩ => ⟨n.val, n.isLt, h⟩⟩

/-- The decision of R101 is whether attempts are left. -/
theorem attemptFollows_iff (s : State) (h : Threading) : s.attemptFollows h = true ↔ s.AttemptsLeft h := by
  rw [attemptFollows, AttemptsLeft, Bool.and_eq_true, decide_eq_true_eq]
  refine and_congr_right fun _ => ?_
  cases hop : h.op with
  | atHole =>
    cases hc : h.centre with
    | none => simp
    | some p => simp [nextOffset_isSome]
  | inGap => simp
  | unthread => simp

/-- RETRACT is entered after a failed attempt. -/
def retracting (s : State) (h : Threading) : Threading :=
  { h with again := s.attemptFollows h, step := .retract, timer := some s.params.retractTime, held := false }

/-- What a failed attempt leaves, flags apart (R101). -/
theorem failAttempt_signals {h : Threading} (ht : s.thread = some h) (hm : s.modes.mode = .run) :
    (s.withThread (some (s.retracting h))).Signals s.failAttempt ∧
      (s.AttemptsLeft h → (s.failAttempt.cond .threadRetry).latch = s.raisedLatch .threadRetry) ∧
      (¬ s.AttemptsLeft h → (s.failAttempt.cond .threadRetry).latch = (s.cond .threadRetry).latch) := by
  have hrun := running_of_run hm
  have hpark : s.modes.mode ≠ .park := by rw [hm]; decide
  generalize hu : s.withThread (some { s.retracting h with timer := none }) = u
  have hum : u.modes.mode = .run := by rw [← hu]; exact hm
  have henter : (s.onThread fun t => { t with again := s.attemptFollows h }).enterStep .retract = u := by
    rw [enterStep, onThread, onThread, ht, ← hu]
    show s.withThread (some { h with again := s.attemptFollows h, step := .retract, timer := none, held := !s.running }) = _
    rw [hrun]
    rfl
  have hcond (c : Cond) : u.cond c = s.cond c := by rw [← hu]; rfl
  have hraised : u.raisedLatch .threadRetry = s.raisedLatch .threadRetry := by rw [← hu]; rfl
  have hgroup : u.groupValid Cond.threadRetry.group = true := by rw [← hu]; rfl
  have e : s.failAttempt = (if s.attemptFollows h then u.raise .threadRetry else u).startTimer s.params.retractTime := by
    have hsig : u.Signals (if s.attemptFollows h then u.raise .threadRetry else u) := by
      split
      · exact raise_signals (by rw [hum]; decide) _
      · exact .refl u
    have hpar : (if s.attemptFollows h then u.raise .threadRetry else u).params = s.params := by
      rw [hsig.params, ← hu]
      rfl
    simp only [failAttempt, ht, henter]
    rw [if_pos (running_of_run (by rw [hsig.sameModes]; exact hum)), hpar]
  have htimer : u.startTimer s.params.retractTime = s.withThread (some (s.retracting h)) := by rw [← hu]; rfl
  rw [e, ← htimer, ← attemptFollows_iff]
  cases s.attemptFollows h with
  | false => exact ⟨.refl _, nofun, fun _ => congrArg CondRec.latch (hcond .threadRetry)⟩
  | true =>
    have hsig := raise_signals (s := u) (by rw [hum]; decide) .threadRetry
    exact ⟨hsig.apart (apart_startTimer _), fun _ => (raise_raised .threadRetry hgroup).trans hraised,
      fun h' => absurd rfl h'⟩

theorem failAttempt_fails {h : Threading} (ht : s.thread = some h) (hh : h.held = false) (hm : s.modes.mode = .run) :
    AttemptFailed s s.failAttempt h := by
  obtain ⟨hsig, hretry, hnone⟩ := failAttempt_signals ht hm
  refine ⟨⟨s.attemptFollows h, attemptFollows_iff s h, ?_⟩, hretry, hnone, hsig.sameModes, hsig.contours, hsig.job,
    hsig.samePath, hsig.store⟩
  rw [hsig.thread, hh]
  rfl

/-- What is said of an attempt that failed holds once the transmitter has had its turn. -/
theorem failed_sent {u : State} {h : Threading} (hf : AttemptFailed s u h) (hl : u.NoProgressDue) :
    AttemptFailed s u.arbitrate h := by
  obtain ⟨⟨again, hagain, hthread⟩, hretry, hnone, hmodes, hcontours, hjob, hpath, hstore⟩ := hf
  have ha := u.arbitrate_sends
  refine ⟨⟨again, hagain, ha.thread.trans hthread⟩, fun h' => (ha.latch _).trans (hretry h'),
    fun h' => (ha.latch _).trans (hnone h'), ha.modes.trans hmodes, ?_, ha.job.trans hjob, (arbitrate_path hl).trans hpath,
    ha.store.trans hstore⟩
  rw [ha.rest]
  exact hcontours

/-! ## Rapid moves and the next attempt (R65, R98, R103) -/

theorem orderRapid_begins {owner : MoveOwner} {target : Point} (hne : s.path.commanded ≠ target)
    (hk : s.store.lineKeptOut s.path.commanded target = false) : s.orderRapid owner target =
      s.onPath fun p => { p with rapid := some ⟨s.path.commanded, target, distance s.path.commanded target, 0, owner⟩ } := by
  simp only [orderRapid, if_neg hne.symm, hk, Bool.false_eq_true, if_false]

theorem orderRapid_refused {owner : MoveOwner} {target : Point} (hne : s.path.commanded ≠ target)
    (hk : s.store.lineKeptOut s.path.commanded target = true) :
    s.orderRapid owner target = s.report (.moveRefused owner) := by
  simp only [orderRapid, if_neg hne.symm, hk, if_true]

/-- The part with one more attempt counted (log entry 20). -/
def attempting (s : State) (h : Threading) : State :=
  (s.withThread (some h)).onContour h.contour fun c => { c with attemptsUsed := min 255 (c.attemptsUsed + 1) }

theorem beginGapAttempt_eq {h : Threading} (ht : s.thread = some h) (hm : s.modes.mode = .run) : s.beginGapAttempt =
    s.attempting { h with step := .tipCut, made := h.made + 1, timer := some s.params.tipTime, held := false } := by
  have e : s.beginGapAttempt = (s.attempting { h with made := h.made + 1 }).goStep .tipCut := by
    rw [beginGapAttempt, ht]
    dsimp only
    rw [onThread, ht]
    rfl
  rw [e, goStep_tipCut (s := s.attempting _) rfl hm]
  rfl

theorem beginHoleAttempt_eq {h : Threading} {p target : Point} {n : Nat} (ht : s.thread = some h) (hm : s.modes.mode = .run)
    (hc : h.centre = some p) {k : Nat} (hn : s.nextOffset p (h.ring.getD 0) k = some n)
    (htarget : searchOffset p (h.ring.getD 0) n = target) (hne : s.path.commanded ≠ target)
    (hk : s.store.lineKeptOut s.path.commanded target = false) : s.beginHoleAttempt k =
      (s.attempting { h with step := .searchMove, made := h.made + 1, search := some n, timer := none
                             held := false }).onPath fun p =>
        { p with rapid := some ⟨s.path.commanded, target, distance s.path.commanded target, 0, .search⟩ } := by
  have e : s.beginHoleAttempt k = (s.attempting { h with made := h.made + 1, search := some n }).goStep .searchMove := by
    rw [beginHoleAttempt, ht]
    dsimp only
    rw [show s.nextOffset (h.centre.getD ⟨0, 0⟩) (h.ring.getD 0) k = some n by rw [hc]; exact hn, onThread, ht]
    rfl
  rw [e, goStep_running (s := s.attempting _) rfl hm]
  have hmove : moveTarget { h with step := .searchMove, made := h.made + 1, search := some n, timer := none, held := false } =
      target := by
    rw [moveTarget, hc]
    exact htarget
  have hbegin : (s.attempting { h with step := .searchMove, made := h.made + 1, search := some n, timer := none
                                       held := false }).beginStep = _ :=
    (congrArg _ hmove).trans (orderRapid_begins (s := s.attempting _) (owner := .search) hne hk)
  exact hbegin

/-! ## Events whose part is one step, or one step and its report -/

theorem event_settled (hs : s.Steady) {f : State → State} (e : f s = t) (ha : t.agenda = []) : s.event f = t.arbitrate := by
  rw [event_eq hs, e, finish, settle_nil t ha]

theorem event_reports (hs : s.Steady) {f : State → State} {r : Report} (e : f s = t.report r) (ha : t.agenda = [])
    (h : (t.handle r).agenda = []) : s.event f = (t.handle r).arbitrate := by
  rw [event_eq hs, e, finish_report ha h]

end Sys2Proof.Machine.State
end

section
/-! The timers of the threading unit that end a step, and those that end none (R99 to R101, R103, R104). -/

set_option Elab.async false

namespace Sys2Proof.Machine

variable {s : State} {t : Threading} {c : Contour} (hs : s.Steady)
include hs

/-- An expiry in another step, in a held one or in IDLE changes nothing (log entry 16). -/
theorem otherTimersEndNothing : ∀ row ∈ threadTimers,
    (∀ t, s.thread = some t → t.step ≠ row.2 ∨ t.held = true ∨ t.timer = none) → exec row.1 s = .next s.arbitrate := by
  intro row hrow h
  have hno := State.timing_false h
  simp only [threadTimers, List.mem_cons, List.not_mem_nil, or_false] at hrow
  rcases hrow with rfl | rfl | rfl | rfl | rfl
  · exact congrArg _ (State.event_settled hs (f := State.tipCutDone) (if_neg (Bool.eq_false_iff.mp hno)) hs.1)
  · exact congrArg _ (State.event_settled hs (f := State.feedTimedOut) (if_neg (Bool.eq_false_iff.mp hno)) hs.1)
  · exact congrArg _ (State.event_settled hs (f := State.retractDone) (if_neg (Bool.eq_false_iff.mp hno)) hs.1)
  · exact congrArg _ (State.event_settled hs (f := State.unthreadCutDone) (if_neg (Bool.eq_false_iff.mp hno)) hs.1)
  · exact congrArg _ (State.event_settled hs (f := State.pullTimedOut) (if_neg (Bool.eq_false_iff.mp hno)) hs.1)

theorem tipCutEnds (hl : s.LinkSettled) : TipCutEnds t c s := by
  have hev : exec .tipCutExpiry s = .next (s.event State.tipCutDone) := rfl
  refine ⟨fun ⟨ht, hh, htm, hst, _, hm⟩ hlow => ?_, fun ht hh htm hst hm hpark => ?_⟩
  · have hstep : s.tipCutDone = (s.withThread (some { t with step := .feed, timer := none, held := false })).beginFeed.parkIfDue := by
      rw [State.tipCutDone, if_pos (State.timing_eq ht hst htm hh), State.goStep_running ht hm]
      rfl
    generalize hu : s.withThread (some { t with step := .feed, timer := none, held := false }) = u at hstep
    have hum : u.modes.mode = .run := by rw [← hu]; exact hm
    have huag : u.agenda = [] := by rw [← hu]; exact hs.1
    have hulow : u.active .lowerDetect = false := by rw [← hu]; exact hlow
    have huwire : u.active .wireIntact = s.active .wireIntact := by rw [← hu]; rfl
    rw [State.beginFeed, hulow, huwire] at hstep
    refine ⟨fun hw => ?_, fun hw => ?_⟩
    · rw [hw] at hstep
      have hend : s.tipCutDone = u.startTimer u.params.feedTimeout :=
        hstep.trans (State.parkIfDue_running (s := u.startTimer _) hum)
      rw [hev, State.event_settled hs hend huag, ← hu, ← hh]
      rfl
    · rw [hw] at hstep
      have hut : u.thread = some { t with step := .feed, timer := none, held := false } := by rw [← hu]; rfl
      have hsig := (State.failAttempt_signals hut hum).1
      have hend : s.tipCutDone = u.failAttempt :=
        hstep.trans (State.parkIfDue_running (s := u.failAttempt) (by rw [hsig.sameModes]; exact hum))
      have hfail := State.failed_sent (State.failAttempt_fails hut rfl hum)
        (hl.noProgress.congr (hsig.link.trans (by rw [← hu]; rfl)))
      refine ⟨_, hev.trans (congrArg _ (State.event_settled hs hend (hsig.agenda.trans huag))), ?_⟩
      rw [← hu, ← hh] at hfail ⊢
      exact hfail
  · have hstep := State.goStep_held ht (by rw [hm]; decide) .feed
    obtain ⟨m, e, hsame⟩ := (s.withThread (some { t with step := .feed, timer := none, held := true })).parkIfDue_eq
    have hend : s.tipCutDone = s.withThread (some { t with step := .feed, timer := none, held := true }) := by
      rw [State.tipCutDone, if_pos (State.timing_eq ht hst htm hh), hstep, e, hsame (.inl hpark)]
      rfl
    rw [hev, State.event_settled hs hend hs.1]

theorem feedTimesOut (hl : s.LinkSettled) : FeedTimesOut t c s := by
  intro ⟨ht, hh, htm, hst, _, hm⟩
  have hev : exec .feedTimeoutExpiry s = .next (s.event State.feedTimedOut) := rfl
  have hsig := (State.failAttempt_signals ht hm).1
  have hend : s.feedTimedOut = s.failAttempt := by
    rw [State.feedTimedOut, if_pos (State.timing_eq ht hst htm hh),
      State.parkIfDue_running (by rw [hsig.sameModes]; exact hm)]
  exact ⟨_, hev.trans (congrArg _ (State.event_settled hs hend (hsig.agenda.trans hs.1))),
    State.failed_sent (State.failAttempt_fails ht hh hm) (hl.noProgress.congr hsig.link)⟩

theorem unthreadCutEnds : UnthreadCutEnds t c s := by
  intro ⟨ht, hh, htm, hst, _, hm⟩ hlow
  have hev : exec .unthreadCutExpiry s = .next (s.event State.unthreadCutDone) := rfl
  have hend : s.unthreadCutDone =
      s.withThread (some { t with step := .unthreadPull, timer := some s.params.pullTimeout, held := false }) := by
    have hbegin : (s.withThread (some { t with step := .unthreadPull, timer := none, held := false })).beginStep =
        s.withThread (some { t with step := .unthreadPull, timer := some s.params.pullTimeout, held := false }) :=
      if_pos hlow
    rw [State.unthreadCutDone, if_pos (State.timing_eq ht hst htm hh), State.goStep_running ht hm, hbegin]
    exact State.parkIfDue_running hm
  rw [hev, State.event_settled hs hend hs.1, ← hh]

/-! ## RETRACT ends -/

omit hs

/-- What the end of a running RETRACT comes to, by the operation and the decision of R101. -/
theorem State.Timed.retractDone_eq (h : s.Timed t .retract c) : s.retractDone =
    (if t.op = .atHole then
      if t.again then s.beginHoleAttempt (t.search.getD 0 + 1) else (s.raise .threadFailed).threadIdle.report .exhausted
    else if t.again then s.beginGapAttempt else (s.raise .ingapFailed).threadIdle.report .gapFailed).parkIfDue := by
  obtain ⟨ht, hh, htm, hst, -, -⟩ := h
  rw [State.retractDone, if_pos (State.timing_eq ht hst htm hh), ht]
  dsimp only
  cases t.op <;> cases t.again <;> rfl

/-- What an attempt that begins leaves, once the transmitter has had its turn (R101; log entry 20). -/
theorem attempting_sent {h : Threading} (p : PathUnit) (hl : s.LinkSettled) (hc : s.contour h.contour = some c) :
    ((s.attempting h).withPath p).arbitrate.thread = some h ∧
      ((s.attempting h).withPath p).arbitrate.contour h.contour =
        some { c with attemptsUsed := min 255 (c.attemptsUsed + 1) } ∧
      (∀ j, j ≠ h.contour → ((s.attempting h).withPath p).arbitrate.contour j = s.contour j) ∧
      ((s.attempting h).withPath p).arbitrate.modes = s.modes ∧ ((s.attempting h).withPath p).arbitrate.job = s.job ∧
      ((s.attempting h).withPath p).arbitrate.path = p := by
  have ha := ((s.attempting h).withPath p).arbitrate_sends
  refine ⟨ha.thread, (ha.contour _).trans ?_, fun j hj => (ha.contour j).trans ?_, ha.modes, ha.job,
    State.arbitrate_path (s := (s.attempting h).withPath p) hl.noProgress⟩
  · exact (State.contour_onContour_same (s.withThread (some h)) h.contour _).trans (congrArg (Option.map _) hc)
  · exact State.contour_onContour_ne (s.withThread (some h)) hj _

include hs

theorem retractBeginsAttempt (hl : s.LinkSettled) : RetractBeginsAttempt t c s := by
  intro h hag
  have hev : exec .retractExpiry s = .next (s.event State.retractDone) := rfl
  obtain ⟨ht, hh, -, -, hc, hm⟩ := id h
  refine ⟨fun hop => ?_, fun p n hop hcen hn hfirst hin hne hkept => ?_⟩
  · have hend := h.retractDone_eq
    rw [if_neg (by rw [hop]; nofun), if_pos hag, State.beginGapAttempt_eq ht hm, State.parkIfDue_running (by exact hm), ← hh] at hend
    exact ⟨_, hev.trans (congrArg _ (State.event_settled hs hend hs.1)), attempting_sent s.path hl hc⟩
  · have hnext : s.nextOffset p (t.ring.getD 0) (t.search.getD 0 + 1) = some n.val := by
      refine List.find?_range_eq_some.mpr ⟨?_, List.mem_range.mpr n.isLt, fun j hj => ?_⟩
      · simpa using ⟨hn, hin⟩
      · have hj9 : j < 9 := hj.trans n.isLt
        cases hle : decide (t.search.getD 0 + 1 ≤ j) with
        | false => simp
        | true => simp [hfirst ⟨j, hj9⟩ (of_decide_eq_true hle) hj]
    have hend := h.retractDone_eq
    rw [if_pos hop, if_pos hag, State.beginHoleAttempt_eq ht hm hcen hnext rfl hne hkept,
      State.parkIfDue_running (by exact hm), ← hh] at hend
    exact ⟨_, hev.trans (congrArg _ (State.event_settled hs hend hs.1)), attempting_sent _ hl hc⟩

end Sys2Proof.Machine
end

section
/-! SUPPORT. The current contour faulted by a report of the threading unit (R88, R89, R115): what stands once it has left, and
the latches that its leaving keeps. -/

set_option Elab.async false

namespace Sys2Proof.Machine.State

variable {s t : State}

/-! ## Latches that the end of the work keeps -/

theorem endThread_conds (s : State) : s.endThread.conds = s.conds := by
  unfold endThread
  split
  · obtain ⟨m, e, -⟩ := parkIfDue_eq s.endRapid.threadIdle
    rw [e]
    rfl
  · rfl

section
variable {d : Cond} (hd : d ∉ Cond.levels)
include hd

theorem refreshLevels_keepsLatch (s : State) : (s.refreshLevels.cond d).latch = (s.cond d).latch :=
  refreshLevels_latch s fun h => absurd h hd

theorem offer_keepsLatch (s : State) (r : JRecord) : ((s.offer r).cond d).latch = (s.cond d).latch :=
  setLive_latch (s.onJournal fun j => j.take r) fun h => absurd (h ▸ (by decide : Cond.journalBlocked ∈ Cond.levels)) hd

theorem changeContour_keepsLatch (s : State) (i : Slot) (f : Contour → Contour) :
    ((s.changeContour i f).cond d).latch = (s.cond d).latch := offer_keepsLatch hd _ _

theorem discardPass_keepsLatch (s : State) : (s.discardPass.cond d).latch = (s.cond d).latch :=
  (refreshLevels_keepsLatch hd _).trans (genOff_latch s d)

theorem retentionLeft_keepsLatch (s : State) (i : Slot) : ((s.retentionLeft i).cond d).latch = (s.cond d).latch := by
  refine (refreshLevels_keepsLatch hd _).trans ?_
  show ((if s.disarmWatch.slug.dropContour = some i then s.disarmWatch.dropIdle else s.disarmWatch).cond d).latch = _
  split <;> rfl

theorem endWork_keepsLatch (s : State) (i : Slot) : ((s.endWork i).cond d).latch = (s.cond d).latch := by
  have hrest (u : State) (g : Job → Job) : ((u.onJob g).withAgenda []).cond d = u.cond d := rfl
  rw [endWork, hrest, retentionLeft_keepsLatch hd, discardPass_keepsLatch hd, cond, endThread_conds]
  exact genOff_latch s d

theorem completeJob_keepsLatch (hj : d ≠ .jobComplete) (s : State) : (s.completeJob.cond d).latch = (s.cond d).latch := by
  have hset : (s.setJobState .complete).conds = s.conds := by
    unfold setJobState
    split <;> rfl
  refine (congrArg CondRec.latch (raise_latch_ne _ hj)).trans ((offer_keepsLatch hd _ _).trans ?_)
  rw [cond, hset, cond]

/-- The current contour leaves for good, no contour waiting, and a condition that is no level condition keeps its latch. -/
theorem leave_keepsLatch (hj : d ≠ .jobComplete) (s : State) (i : Slot) (f : Contour → Contour)
    (hn : (s.onContour i f).NoneWaiting) :
    ((((s.endWork i).changeContour i f).dropCurrent.choose).cond d).latch = (s.cond d).latch := by
  obtain ⟨m, h, -⟩ := endWork_stirs s i
  obtain ⟨j, h1⟩ := (h.apart (apart_onContour i f)).contourChanged i
  have h2 : Stirs _ ((s.endWork i).changeContour i f).dropCurrent :=
    (h1.apart (apart_onJob _)).trans (dropCurrent_flags _).toStirs
  have hc := h2.contours.trans (noCurrent_contours s i f m j)
  have hnone : ((s.endWork i).changeContour i f).dropCurrent.NoneWaiting := fun k c hk => hn k c (by rwa [contour, ← hc])
  have hdrop (u : State) (g : Job → Job) : (u.onJob g).cond d = u.cond d := rfl
  rw [choose_complete hnone, completeJob_keepsLatch hd hj, dropCurrent, refreshLevels_keepsLatch hd, hdrop,
    changeContour_keepsLatch hd, endWork_keepsLatch hd]

end

/-! ## A fault reported by the threading unit -/

/-- The current contour has been faulted for good, no contour waiting, and the transmitter has had its turn. -/
structure FaultSent (i : Slot) (c : Contour) (f : FaultReason) (s t : State) : Prop where
  contour : t.contour i = some { c with state := f.leaves, fault := some f }
  others : ∀ j, j ≠ i → t.contour j = s.contour j
  current : t.job.current = none
  pass : t.path.pass = none
  rapid : t.path.rapid = none
  commanded : t.path.commanded = s.path.commanded
  thread : t.thread = none
  store : t.store = s.store
  raised : ∀ d, (s.cond d).latch = s.raisedLatch d → (t.cond d).latch = s.raisedLatch d
  contourFault : (t.cond .contourFault).latch =
    if f.raisesContourFault then s.raisedLatch .contourFault else (s.cond .contourFault).latch

theorem faultCurrent_sent {i : Slot} {c : Contour} (f : FaultReason) (hi : s.job.current = some i) (hc : s.contour i = some c)
    (hn : s.NoneWaiting) : (s.faultCurrent f).agenda = [] ∧ FaultSent i c f s (s.faultCurrent f).arbitrate := by
  have hn' : (s.onContour i fun c => { c with state := f.leaves, fault := some f }).NoneWaiting :=
    noneWaiting_onContour hn i fun _ => by cases f <;> exact ⟨nofun, nofun⟩
  obtain ⟨m, j, hl, -⟩ := faultCurrent_left (f := f) hi hn'
  have hf := s.faulting_stirs f
  have hh := hl.hasLeft
  have ha := (s.faultCurrent f).arbitrate_sends
  have hraise (d : Cond) : (s.faultCurrent f).raisedLatch d = s.raisedLatch d := (hl.raised d).trans (hf.raised d)
  refine ⟨hh.agenda, ⟨?_, fun j hj => ?_, ?_, ha.pass_none hh.pass, ?_, ?_, ?_, ?_, fun d hd => ?_, ?_⟩⟩
  · rw [ha.contour, hh.contour, hf.contour, hc]
    rfl
  · rw [ha.contour, hh.others j hj, hf.contour]
  · rw [ha.job]
    exact hh.job.2
  · rw [ha.path]
    exact hl.rapid
  · rw [ha.commanded, hh.commanded, hf.commanded]
  · rw [ha.thread, hh.thread]
  · rw [ha.store, hh.store, hf.store]
  · rw [ha.latch, hl.latch_eq (hf.latch_eq hd), hraise]
  · rw [ha.latch]
    split
    · rename_i hr
      rw [hl.latch_eq (s.faulting_raised hr), hraise]
    · rename_i hr
      have e : s.faultCurrent f = (((s.faulting f).endWork i).changeContour i fun c =>
          { c with state := f.leaves, fault := some f }).dropCurrent.choose := by
        rw [faultCurrent, hi]
        rfl
      have hnone : ((s.faulting f).onContour i fun c => { c with state := f.leaves, fault := some f }).NoneWaiting := by
        intro k d hk
        refine hn' k d ?_
        rwa [State.contour, onContour, setContour, withContours_contours, hf.contours, hf.contour] at hk
      rw [e, leave_keepsLatch (by decide) (by decide) _ i _ hnone, faulting, if_neg hr]
      split
      · exact forceHold_latch s _
      · rfl

end Sys2Proof.Machine.State
end

section
/-! The last RETRACT of an operation (R75, R101, R103, R113 to R115). -/

set_option Elab.async false

namespace Sys2Proof.Machine

namespace State

variable {s : State}

/-- The part once a condition of the Thread group has been raised and the unit is IDLE. -/
def idledWith (s : State) (d : Cond) : State := (s.raise d).withThread none

/-- What stands when the end of an operation is reported: its condition raised, and nothing else changed. -/
theorem idledWith_signals {d : Cond} (hm : s.modes.mode = .run) : (s.withThread none).Signals (s.idledWith d) :=
  (raise_signals (by rw [hm]; decide) d).apart (apart_withThread none)

theorem idledWith_raised {d : Cond} {t : Threading} (ht : s.thread = some t) (hd : d.group = .thread) :
    ((s.idledWith d).cond d).latch = s.raisedLatch d := by
  have hgroup : s.groupValid d.group = true := by
    rw [hd]
    exact Option.isSome_iff_exists.mpr ⟨t, ht⟩
  exact raise_raised d hgroup

theorem report_alone {r : Report} (ha : s.agenda = []) : (s.report r).agenda = [r] ∧ (s.report r).withAgenda [] = s := by
  refine ⟨by rw [report, withAgenda_agenda, ha]; rfl, ?_⟩
  rw [← ha]
  rfl

/-- Two reports, the second made for the first, are worked off in turn. -/
theorem settle_twoReports {v : State} {r q : Report} (ha : s.agenda = []) (h : s.handle r = v.report q) (hv : v.agenda = [])
    (h' : (v.handle q).agenda = []) : (s.report r).settle = v.handle q := by
  obtain ⟨hs1, hs2⟩ := report_alone (r := r) ha
  obtain ⟨hv1, hv2⟩ := report_alone (r := q) hv
  rw [settle, Config.reportsPerStep, settleGo_cons _ hs1, hs2, h, settleGo_cons _ hv1, hv2, settleGo_nil _ h']

theorem event_twoReports {u v : State} (hs : s.Steady) {f : State → State} {r q : Report} (e : f s = u.report r)
    (hu : u.agenda = []) (h : u.handle r = v.report q) (hv : v.agenda = []) (h' : (v.handle q).agenda = []) :
    s.event f = (v.handle q).arbitrate := by
  rw [event_eq hs, e, finish, settle_twoReports hu h hv h']

/-- The failure of threading in the gap on pass 0 asks for the move to the start hole (R113). -/
theorem gapFailed_firstPass {i : Slot} {c : Contour} (hm : s.modes.mode = .run) (hi : s.job.current = some i)
    (hc : s.contour i = some c) (h0 : c.passIndex = 0) : s.gapFailed =
      (s.onJob fun j => { j with work := some .holeRapid, due := false }).orderRapid .contourTable c.defn.centre := by
  rw [gapFailed, curContour_eq hi hc]
  dsimp only
  rw [if_pos h0, askOrder, if_pos (running_of_run hm), order]
  dsimp only
  rw [curContour_eq hi hc, hi]

/-- The part once the rapid move to a start hole has begun. -/
def holeMove (s : State) (p : Point) : State :=
  (s.onJob fun j => { j with work := some .holeRapid, due := false }).onPath fun q =>
    { q with rapid := some ⟨s.path.commanded, p, distance s.path.commanded p, 0, .contourTable⟩ }

/-- On a later pass the contour waits for the operator in HOLD (R114, R118). -/
theorem gapFailed_laterPass {i : Slot} {c : Contour} (hi : s.job.current = some i) (hc : s.contour i = some c)
    (h0 : c.passIndex ≠ 0) : s.gapFailed = ((s.changeContour i fun c => { c with state := .reentryWait }).onJob fun j =>
      { j with work := none, due := false }).forceHold := by
  rw [gapFailed, curContour_eq hi hc]
  dsimp only
  rw [if_neg h0, enterReentryWait, hi]

/-- In RUN a reported change that may force HOLD, and HOLD forced after it, come to HOLD once. -/
theorem forceHold_afterStirs {u v : State} (h : s.Stirs u) (hm : s.modes.mode = .run) (hv : v.modes = u.modes) :
    v.forceHold.modes = { s.modes with mode := .hold } := by
  rcases h.modes with e | ⟨-, e⟩ | ⟨e, -⟩
  · rw [forceHold_mode (by rw [hv, e]; exact hm), hv, e]
  · rw [forceHold_of_ne (by rw [hv, e]; nofun), hv, e]
  · rw [hm] at e
    cases e

end State

variable {s : State} {t : Threading} {c : Contour} (hs : s.Steady)
include hs

theorem retractExhaustsHole : RetractExhaustsHole t c s := by
  intro h hag hop hi hn hst
  have hev : exec .retractExpiry s = .next (s.event State.retractDone) := rfl
  obtain ⟨ht, -, -, -, hc, hm⟩ := id h
  have hsig := State.idledWith_signals (d := .threadFailed) hm
  have hraised := State.idledWith_raised (s := s) (d := .threadFailed) ht rfl
  have hend : s.retractDone = (s.idledWith .threadFailed).report .exhausted :=
    (h.retractDone_eq.trans (by rw [if_pos hop, hag]; rfl)).trans
      (State.parkIfDue_running (s := (s.idledWith .threadFailed).report .exhausted)
        (by show (s.idledWith .threadFailed).modes.mode = _; rw [hsig.sameModes]; exact hm))
  have hfault : ((s.idledWith .threadFailed).cond .contourFault).latch = (s.cond .contourFault).latch :=
    congrArg CondRec.latch (State.raise_latch_ne s (by decide))
  generalize s.idledWith .threadFailed = w at hsig hraised hend hfault
  have hwi : w.job.current = some t.contour := by rw [hsig.job]; exact hi
  have hwc : w.contour t.contour = some c := (hsig.contour _).trans hc
  have hwn : w.NoneWaiting := fun j d hd => hn j d (by rw [← hd, hsig.contour]; rfl)
  have hwr (d : Cond) : w.raisedLatch d = s.raisedLatch d := hsig.raised d
  obtain ⟨f, hf, hreason⟩ : ∃ f : FaultReason, w.holeExhausted = w.faultCurrent f ∧
      (c.state = .threading → f = .threadExhausted) ∧ (c.state = .reentry → f = .reentryFailed) := by
    rw [State.holeExhausted, State.curContour_eq hwi hwc]
    rcases hst with hst | hst
    · exact ⟨.threadExhausted, if_pos hst, fun _ => rfl, fun h' => absurd (hst.symm.trans h') nofun⟩
    · exact ⟨.reentryFailed, if_neg (by rw [hst]; nofun), fun h' => absurd (hst.symm.trans h') nofun, fun _ => rfl⟩
  obtain ⟨hag', hsent⟩ := State.faultCurrent_sent f hwi hwc hwn
  have hhandle : w.handle .exhausted = w.faultCurrent f := hf
  rw [← hhandle] at hag' hsent
  refine ⟨_, hev.trans (congrArg _ (State.event_reports hs hend (hsig.agenda.trans hs.1) hag')), hsent.thread, ?_,
    fun hth => ?_, fun hre => ?_, fun j hj => (hsent.others j hj).trans (hsig.contour j), hsent.current, hsent.pass,
    hsent.commanded.trans hsig.commanded, hsent.store.trans hsig.store⟩
  · rw [hsent.raised .threadFailed (hraised.trans (hwr _).symm), hwr]
  · have hcf := hsent.contourFault
    have hcon := hsent.contour
    rw [hreason.1 hth] at hcf hcon
    exact ⟨hcon, hcf.trans hfault⟩
  · have hcf := hsent.contourFault
    have hcon := hsent.contour
    rw [hreason.2 hre] at hcf hcon
    exact ⟨hcon, hcf.trans (hwr _)⟩

/-- What stands when the failure of threading in the gap is reported. -/
structure GapFailing (t : Threading) (s w : State) : Prop extends (s.withThread none).Signals w where
  event : s.retractDone = w.report .gapFailed
  latched : (w.cond .ingapFailed).latch = s.raisedLatch .ingapFailed

omit hs in
theorem gapFailing (h : s.Timed t .retract c) (hop : t.op = .inGap) (hag : t.again = false) :
    GapFailing t s (s.idledWith .ingapFailed) := by
  obtain ⟨ht, -, -, -, -, hm⟩ := id h
  have hsig := State.idledWith_signals (d := .ingapFailed) hm
  refine ⟨hsig, (h.retractDone_eq.trans (by rw [if_neg (by rw [hop]; nofun), hag]; rfl)).trans
    (State.parkIfDue_running (s := (s.idledWith .ingapFailed).report .gapFailed) ?_), State.idledWith_raised ht rfl⟩
  show (s.idledWith .ingapFailed).modes.mode = _
  rw [hsig.sameModes]
  exact hm

theorem retractFailsInGap (hl : s.LinkSettled) : RetractFailsInGap t c s := by
  intro h hag hop hi hst hp
  have hev : exec .retractExpiry s = .next (s.event State.retractDone) := rfl
  have hw := gapFailing h hop hag
  obtain ⟨ht, -, -, -, hc, hm⟩ := id h
  generalize s.idledWith .ingapFailed = w at hw
  have hwi : w.job.current = some t.contour := by rw [hw.job]; exact hi
  have hwc : w.contour t.contour = some c := (hw.contour _).trans hc
  have hwm : w.modes.mode = .run := by rw [hw.sameModes]; exact hm
  have hwag : w.agenda = [] := hw.agenda.trans hs.1
  have hcmd : w.path.commanded = s.path.commanded := hw.commanded
  have hst' : w.store = s.store := hw.store
  refine ⟨fun h0 hne hk => ?_, fun h0 hne hk hn => ?_, fun h0 => ?_⟩
  · have hg : w.handle .gapFailed = w.holeMove c.defn.centre := (State.gapFailed_firstPass hwm hwi hwc h0).trans
      (State.orderRapid_begins (s := w.onJob fun j => { j with work := some .holeRapid, due := false })
        (by show w.path.commanded ≠ _; rw [hcmd]; exact hne)
        (by show w.store.lineKeptOut w.path.commanded _ = _; rw [hcmd, hst']; exact hk))
    have hend := State.event_reports hs hw.event hwag (by rw [hg]; exact hwag)
    rw [hg] at hend
    have ha := (w.holeMove c.defn.centre).arbitrate_sends
    refine ⟨_, hev.trans (congrArg _ hend), ha.thread.trans hw.thread, (ha.latch _).trans hw.latched, ?_,
      ha.modes.trans hw.sameModes, ?_, ?_, ha.store.trans hst'⟩
    · rw [ha.rest]
      exact hw.contours
    · rw [ha.job, ← show w.job = s.job from hw.job]
      rfl
    · rw [State.arbitrate_path (s := w.holeMove c.defn.centre) (hl.noProgress.congr hw.link),
        ← show w.path = s.path from hw.samePath]
      rfl
  · have hg := (State.gapFailed_firstPass hwm hwi hwc h0).trans
      (State.orderRapid_refused (s := w.onJob fun j => { j with work := some .holeRapid, due := false })
        (by show w.path.commanded ≠ _; rw [hcmd]; exact hne)
        (by show w.store.lineKeptOut w.path.commanded _ = _; rw [hcmd, hst']; exact hk))
    have hwn : w.NoneWaiting := fun j d hd => hn j d (by rw [← hd, hw.contour]; rfl)
    have hwr (d : Cond) : w.raisedLatch d = s.raisedLatch d := hw.raised d
    obtain ⟨hag', hsent⟩ := State.faultCurrent_sent
      (s := w.onJob fun j => { j with work := some .holeRapid, due := false }) .keepOut hwi hwc hwn
    refine ⟨_, hev.trans (congrArg _ (State.event_twoReports hs hw.event hwag hg hwag hag')), hsent.contour,
      fun j hj => (hsent.others j hj).trans (hw.contour j), ?_, hsent.contourFault.trans (hwr _), hsent.thread, hsent.pass,
      hsent.rapid, hsent.commanded.trans hcmd, hsent.current, hsent.store.trans hst'⟩
    exact (hsent.raised .ingapFailed (hw.latched.trans (hwr _).symm)).trans (hwr _)
  · have hg := State.gapFailed_laterPass hwi hwc h0
    have hrw := State.changeContour_rewrites hwc fun c => { c with state := .reentryWait }
    have hchange := (State.contourChanged_flags (w.onContour t.contour fun c => { c with state := .reentryWait })
      t.contour).toStirs
    have hlatch := State.changeContour_keepsLatch (d := .ingapFailed) (by decide) w t.contour
      fun c => { c with state := .reentryWait }
    rw [← State.changeContour] at hchange
    generalize w.changeContour t.contour (fun c => { c with state := .reentryWait }) = x at hg hrw hchange hlatch
    have hx := State.forceHold_stirs (x.onJob fun j => { j with work := none, due := false })
    have hmodes := State.forceHold_afterStirs (v := x.onJob fun j => { j with work := none, due := false }) hchange hwm rfl
    have hxl := State.forceHold_latch (x.onJob fun j => { j with work := none, due := false }) .ingapFailed
    have hhandle : w.handle .gapFailed = _ := hg
    generalize (x.onJob fun j => { j with work := none, due := false }).forceHold = v at hx hmodes hxl hhandle
    have hvag : v.agenda = [] := hx.agenda.trans (hrw.agenda.trans hwag)
    have hend := State.event_reports hs hw.event hwag (by rw [hhandle]; exact hvag)
    rw [hhandle] at hend
    have ha := v.arbitrate_sends
    refine ⟨_, hev.trans (congrArg _ hend), ha.thread.trans (hx.thread.trans (hrw.thread.trans hw.thread)), ?_, ?_,
      fun j hj => ?_, ?_, ?_, ha.store.trans (hx.store.trans (hrw.store.trans hst'))⟩
    · rw [ha.latch, hxl]
      exact hlatch.trans hw.latched
    · rw [ha.contour, hx.contour]
      exact hrw.contour
    · rw [ha.contour, hx.contour]
      exact (hrw.others j hj).trans (hw.contour j)
    · rw [ha.modes, hmodes]
      exact congrArg (fun m : ModeUnit => { m with mode := .hold }) hw.sameModes
    · have hjob : x.job = { w.job with lastChanged := some t.contour } := hchange.job
      rw [ha.job, hx.job, ← show w.job = s.job from hw.job]
      show { x.job with work := none, due := false } = _
      rw [hjob]

end Sys2Proof.Machine
end

section
/-! LOWER_DETECT becoming active in a running FEED (R100, R102, R103, R113, R114). -/

set_option Elab.async false

namespace Sys2Proof.Machine

namespace State

variable {s : State}

theorem turned_active_ne {l m : Line} (h : m ≠ l) (v : Bool) : (s.turned l v).active m = s.active m := by
  rw [active, turned, lineRec_setLine_ne _ h, active]

/-- The wire lines are no cause of a hold. -/
theorem turned_noHoldCause (h : s.NoHoldCause) (v : Bool) : (s.turned .lowerDetect v).NoHoldCause := by
  obtain ⟨hrun, hdoor, htank, haxis, hgen, hjournal⟩ := h
  exact ⟨hrun, (turned_active_ne (by decide) v).trans hdoor, (turned_active_ne (by decide) v).trans htank, haxis, hgen,
    hjournal⟩

/-- LOWER_DETECT ends a running FEED (R100). -/
theorem threadLowerDetect_endsFeed {t : Threading} (ht : s.thread = some t) (hh : t.held = false) (hst : t.step = .feed)
    (htm : t.timer.isSome = true) (hl : s.active .lowerDetect = true) :
    s.threadLowerDetect = s.feedSucceeded.parkIfDue := by
  rw [threadLowerDetect, timing_eq ht hst htm hh, hl]
  rfl

theorem feedSucceeded_atHole {t : Threading} {p : Point} (ht : s.thread = some t) (hop : t.op = .atHole)
    (hc : t.centre = some p) (hm : s.modes.mode = .run) (hne : s.path.commanded ≠ p)
    (hk : s.store.lineKeptOut s.path.commanded p = false) : s.feedSucceeded =
      (s.withThread (some { t with step := .centreMove, timer := none, held := false })).onPath fun q =>
        { q with rapid := some ⟨s.path.commanded, p, distance s.path.commanded p, 0, .centre⟩ } := by
  have hrun := running_of_run hm
  have henter : s.enterStep .centreMove = s.withThread (some { t with step := .centreMove, timer := none, held := false }) := by
    rw [enterStep, onThread, ht, hrun]
    rfl
  have hmove : moveTarget { t with step := .centreMove, timer := none, held := false } = p := by
    rw [moveTarget, hc]
  have e : s.feedSucceeded = (s.withThread (some { t with step := .centreMove, timer := none, held := false })).beginCentre := by
    simp only [feedSucceeded, ht, hop, henter]
    exact if_pos hrun
  have hbegin : (s.withThread (some { t with step := .centreMove, timer := none, held := false })).beginCentre = _ :=
    (congrArg _ hmove).trans
      (orderRapid_begins (s := s.withThread (some { t with step := .centreMove, timer := none, held := false })) hne hk)
  rw [e]
  exact hbegin

theorem feedSucceeded_inGap {t : Threading} (ht : s.thread = some t) (hop : t.op = .inGap) :
    s.feedSucceeded = (s.withThread none).report .gapThreaded := by
  rw [feedSucceeded, ht]
  dsimp only
  rw [hop]
  rfl

theorem beginApproach_before {r : RunPass} {a : Nat} (hp : s.path.pass = some r) (ha : a < r.s) : s.beginApproach a =
    (s.onJob fun j => { j with work := some .approach, due := false }).onPass fun q => { q with approach := some a } := by
  rw [beginApproach, hp]
  exact if_neg (Nat.not_le.mpr ha)

/-- What an approach that begins leaves, once the transmitter has had its turn (R116). -/
theorem approach_sent {r : RunPass} {a : Nat} {u : State} (hp : s.path.pass = some r)
    (hu : u = (s.onJob fun j => { j with work := some .approach, due := false }).onPass fun q => { q with approach := some a }) :
    u.arbitrate.path.pass.map (·.approach) = some (some a) ∧ u.arbitrate.path.pass.map (·.s) = some r.s ∧
      u.arbitrate.job = { s.job with work := some .approach, due := false } ∧
      u.arbitrate.path.commanded = s.path.commanded ∧ u.arbitrate.contours = s.contours ∧ u.arbitrate.modes = s.modes ∧
      u.arbitrate.store = s.store ∧ u.arbitrate.thread = s.thread := by
  have ha := u.arbitrate_sends
  obtain ⟨n, hn⟩ := ha.pass_some (r := { r with approach := some a }) (by rw [hu]; exact congrArg (Option.map _) hp)
  rw [hn, ha.job, ha.commanded, ha.modes, ha.store, ha.thread, ha.rest, hu]
  exact ⟨rfl, rfl, rfl, rfl, rfl, rfl, rfl, rfl⟩

end State

/-- What is said of the taking up of cutting holds once the transmitter has had its turn. -/
theorem CutTakenUp.sent {i : Slot} {c : Contour} {q : PassRec} {r : RunPass} {k : Chain} {s u : State}
    (h : CutTakenUp i c q r k s u) : CutTakenUp i c q r k s u.arbitrate := by
  obtain ⟨hcon, ⟨v, hv, hvs⟩, hcmd, hgen, hwork, hstore⟩ := h
  have ha := u.arbitrate_sends
  obtain ⟨n, hn⟩ := ha.pass_some hv
  exact ⟨(ha.contour i).trans hcon, ⟨_, hn, hvs⟩, ha.commanded.trans hcmd, ha.genOn.trans hgen, by rw [ha.job]; exact hwork,
    ha.store.trans hstore⟩

theorem feedSucceeds {s : State} (hs : s.Steady) (t : Threading) (c : Contour) : FeedSucceeds t c s := by
  intro ⟨ht, hh, htm, hst, hc, hm⟩ hturn
  have hev : exec (.lineFilterExpiry .lowerDetect) s = .next (s.event fun u => u.filterExpiry .lowerDetect) := rfl
  have hstep : s.filterExpiry .lowerDetect = (s.turned .lowerDetect true).feedSucceeded.parkIfDue :=
    (State.filterExpiry_turns hturn).trans (State.threadLowerDetect_endsFeed ht hh hst htm (s.turned_active _ _))
  refine ⟨fun p hop hcen hne hk => ?_, fun q r k hop hon hre => ?_⟩
  · rw [State.feedSucceeded_atHole (s := s.turned .lowerDetect true) ht hop hcen hm hne hk] at hstep
    have hend := hstep.trans (State.parkIfDue_running (by exact hm))
    refine ⟨_, hev.trans (congrArg _ (State.event_settled hs (f := fun u => u.filterExpiry .lowerDetect) hend hs.1)), ?_⟩
    generalize hu : ((s.turned .lowerDetect true).withThread
      (some { t with step := .centreMove, timer := none, held := false })).onPath _ = u
    have ha := u.arbitrate_sends
    rw [ha.thread, ha.commanded, ha.modes, ha.job, ha.store, ha.path, ha.rest, ← hu, ← hh]
    exact ⟨rfl, rfl, rfl, rfl, rfl, rfl, rfl⟩
  · rw [State.feedSucceeded_inGap (s := s.turned .lowerDetect true) ht hop] at hstep
    have hend := hstep.trans (State.parkIfDue_running (by exact hm))
    obtain ⟨hi, -, hq, hp, hkc, hsound⟩ := hon
    generalize hx : (s.turned .lowerDetect true).withThread none = x at hend
    have hxi : x.job.current = some t.contour := by rw [← hx]; exact hi
    have hxc : x.contour t.contour = some c := by rw [← hx]; exact hc
    have hxp : x.path.pass = some r := by rw [← hx]; exact hp
    have hxag : x.agenda = [] := by rw [← hx]; exact hs.1
    have hhandle : x.handle .gapThreaded =
        if c.passIndex = 0 then x.beginApproach (x.job.wire.getD r.s) else x.takeUp := by
      show x.gapThreaded = _
      rw [State.gapThreaded, State.curContour_eq hxi hxc, hxp]
    refine ⟨fun w h0 hw hlt => ?_, fun h0 hres hmethod hcl hcut hne hlt hsub hno hroom => ?_⟩
    · have hwire : x.job.wire.getD r.s = w := by rw [← hx]; exact congrArg (Option.getD · r.s) hw
      rw [if_pos h0, hwire, State.beginApproach_before hxp hlt] at hhandle
      have hfin := State.event_reports hs (f := fun u => u.filterExpiry .lowerDetect) hend hxag (by rw [hhandle]; exact hxag)
      obtain ⟨happ, hpos, hjob, hcmd, hcon, hmod, hsto, hthr⟩ := State.approach_sent hxp hhandle
      rw [← hx] at hjob hcmd hcon hmod hsto hthr hfin happ hpos
      exact ⟨_, hev.trans (congrArg _ hfin), hthr, happ, hpos, hjob, hcmd, hcon, hmod, hsto⟩
    · rw [if_neg h0] at hhandle
      have htake := State.takeUp_takesUp (s := x) (i := t.contour) (c := c) (q := q) (r := r) (k := k)
        ⟨hxi, hxc, hq, hxp, by rw [← hx]; exact hkc, hsound⟩ (by rw [← hx]; exact hm)
        (by rw [← hx]; exact State.turned_noHoldCause hno true) (by rw [← hx]; exact hroom.room.mono (m := 1) (by decide))
        (by rw [← hx]; exact hres) hmethod hcl hcut hne hlt hsub
      rw [← hhandle] at htake
      have hfin := State.event_reports hs (f := fun u => u.filterExpiry .lowerDetect) hend hxag (htake.agenda.trans hxag)
      have hact : x.active .wireIntact = s.active .wireIntact := by rw [← hx]; exact State.turned_active_ne (by decide) true
      have hxs : x.store = s.store := by rw [← hx]; rfl
      obtain ⟨hcon, hpass, hcmd, hgen, hwork, hstore⟩ := htake.taken.sent
      refine ⟨_, hev.trans (congrArg _ hfin), ?_, hcon, hpass, hcmd, hgen.trans hact, hwork, hstore.trans hxs⟩
      rw [(x.handle .gapThreaded).arbitrate_sends.thread, htake.thread, ← hx]
      rfl

end Sys2Proof.Machine
end

section
/-! The end of the centre move (R65, R75, R78, R102, R115, R116, R124), and the timers of the threading unit together. -/

set_option Elab.async false

namespace Sys2Proof.Machine

namespace State

variable {s : State}

/-! ## The move's last step -/

/-- The commanded position stands at the target of a rapid move, which is over (R65). -/
def arrived (s : State) (m : Rapid) : State := s.onPath fun p => { p with commanded := m.target, rapid := none }

/-- What the drive update that ends a centre move settles and supplies. -/
theorem driveUpdate_centre {t : State} {m : Rapid} (hs : s.Steady) (hm : s.modes.mode = .run) (hr : s.path.rapid = some m)
    (hle : m.done ≤ m.length) (hreach : m.length ≤ m.done + s.params.rapidStep) (hown : m.owner = .centre)
    (hset : ((s.arrived m).report (.moveDone .centre)).settle = t) (ha : t.agenda = []) :
    exec .driveUpdate s = .next t.supply.arbitrate := by
  have hstep := (motionStep_rapid hm hr).trans (rapidStep_last hle hreach)
  rw [hown] at hstep
  exact driveUpdate_settled hs (by rw [hstep]; exact hset) ha

theorem centreMoved_fails {t : Threading} (ht : s.thread = some t)
    (h : s.active .lowerDetect = false ∨ s.active .wireIntact = false) : s.centreMoved = s.failAttempt := by
  rw [centreMoved, if_pos (by rw [ht]; rfl), if_neg]
  rcases h with h | h <;> rw [h] <;> simp

theorem centreMoved_threads {t : Threading} (ht : s.thread = some t) (hl : s.active .lowerDetect = true)
    (hw : s.active .wireIntact = true) : s.centreMoved = (s.withThread none).report .threaded := by
  rw [centreMoved, if_pos (by rw [ht]; rfl), if_pos (by rw [hl, hw]; rfl)]
  rfl

/-! ## The threaded contour starts its pass (R75, R78, R124) -/

/-- The slug watch armed, with the slug there or its line masked (R124). -/
theorem armWatch_present {i : Slot} (h : s.active .slugPresent = true ∨ (s.lineRec .slugPresent).mask = true) :
    s.armWatch i = s.onSlug fun g => { g with watch := some i } := if_pos (Bool.or_eq_true_iff.mpr h)

/-- The part when the threaded contour has become CUTTING or SEVERING, before its pass starts. -/
structure Threaded (i : Slot) (c : Contour) (s t : State) : Prop where
  contour : t.contour i = some { c with state := cutState c }
  others : ∀ j, j ≠ i → t.contour j = s.contour j
  current : t.job.current = some i
  work : t.job.work = none
  watch : t.slug.watch = some i
  path : t.path = s.path
  modes : t.modes = s.modes
  store : t.store = s.store
  thread : t.thread = s.thread
  agenda : t.agenda = s.agenda
  sensors : t.sensors = s.sensors
  calm : t.NoHoldCause
  raised : ∀ d, t.raisedLatch d = s.raisedLatch d

theorem holeThreaded_threads {i : Slot} {c : Contour} (hm : s.modes.mode = .run) (hno : s.NoHoldCause)
    (hroom : s.journal.Room 1) (hi : s.job.current = some i) (hc : s.contour i = some c) (hst : c.state = .threading)
    (hslug : s.active .slugPresent = true ∨ (s.lineRec .slugPresent).mask = true) :
    ∃ t, Threaded i c s t ∧ s.holeThreaded = t.startPass := by
  have hpark : s.modes.mode ≠ .park := by rw [hm]; decide
  have e : s.holeThreaded = (((s.onSlug fun g => { g with watch := some i }).changeContour i fun c =>
      { c with state := cutState c }).onJob fun j => { j with work := none, due := false }).startPass := by
    rw [holeThreaded, hi, curContour_eq hi hc]
    dsimp only
    rw [if_pos hst, armWatch_present hslug]
  obtain ⟨j, -, hch, hchno⟩ := changeContour_signals (s := s.onSlug fun g => { g with watch := some i }) hpark
    (hno.congr (fun _ _ => rfl) rfl rfl) hroom i fun c => { c with state := cutState c }
  rw [e]
  generalize (s.onSlug fun g => { g with watch := some i }).changeContour i (fun c => { c with state := cutState c }) = x
    at hch hchno
  have hslug' : x.slug = { s.slug with watch := some i } := hch.slug
  have hjob : x.job = { s.job with lastChanged := some i } := hch.job
  refine ⟨x.onJob fun j => { j with work := none, due := false }, ⟨?_, fun k hk => ?_, ?_, rfl, ?_, hch.samePath, hch.sameModes,
    hch.store, hch.thread, hch.agenda, hch.sensors, hchno.congr (fun _ _ => rfl) rfl rfl, hch.raised⟩, rfl⟩
  · refine (hch.contour i).trans ?_
    exact (contour_onContour_same (s.onSlug fun g => { g with watch := some i }) i _).trans (congrArg (Option.map _) hc)
  · exact (hch.contour k).trans (contour_onContour_ne (s.onSlug fun g => { g with watch := some i }) hk _)
  · show x.job.current = _
    rw [hjob]
    exact hi
  · show x.slug.watch = _
    rw [hslug']

/-- A pass starts in RUN at its own position 0, towards its end, with the generator on. -/
structure PassRuns (i : Slot) (c : Contour) (q : PassRec) (k : Chain) (s t : State) : Prop where
  contour : t.contour i = some { c with front := 0 }
  others : ∀ j, j ≠ i → t.contour j = s.contour j
  pass : ∃ v, t.path.pass = some v ∧ v.chain = q.chain ∧ v.s = 0 ∧ v.sub = .moving ∧ v.lastCheckpoint = 0 ∧
    v.stopPoint = c.defn.passEnd c.passIndex k.loaded
  commanded : t.path.commanded = k.start
  genOn : t.path.genOn = true
  genSetting : t.path.genSetting = q.setting
  job : t.job = s.job
  slug : t.slug = s.slug
  modes : t.modes = s.modes
  store : t.store = s.store
  thread : t.thread = s.thread
  agenda : t.agenda = s.agenda

/-- Off a tack span the generator takes the setting of the pass (R60). -/
theorem settingAt_drop {c : Contour} {q : PassRec} (hc : s.curContour = some c) (hq : c.pass = some q)
    (htack : s.tackSpans = []) (pos : Nat) : s.settingAt pos = q.setting := by
  simp only [settingAt, htack, inSpan, List.any_nil, Bool.false_eq_true, if_false, hc, Option.bind_some, hq]

theorem startPass_runs {i : Slot} {c : Contour} {q : PassRec} {k : Chain} (hm : s.modes.mode = .run) (hno : s.NoHoldCause)
    (hi : s.job.current = some i) (hc : s.contour i = some c) (hst : c.state = .cutting ∨ c.state = .severing)
    (hq : c.pass = some q) (hk : s.chain q.chain = some k) (hcl : k.state = .closed) (hcut : k.SoundCut) (hne : k.segs ≠ [])
    (hmethod : c.defn.method = .drop) (hend : 0 < c.defn.passEnd c.passIndex k.loaded)
    (hw : within 2 k.start s.path.commanded = true) (hg : s.path.genOn = false) (hwire : s.active .wireIntact = true) :
    PassRuns i c q k s s.startPass := by
  rw [startPass_eq hi hc hq hk (by rw [hcl]; nofun) hcut.sound hw]
  have hmove : s.moveState = .moving := if_pos hm
  have hcon : (s.atStart i q.chain k).contour i = some { c with front := 0 } :=
    (contour_onContour_same _ i _).trans (congrArg (Option.map _) hc)
  have hoth (j : Slot) (hj : j ≠ i) : (s.atStart i q.chain k).contour j = s.contour j := contour_onContour_ne _ hj _
  have hpass : (s.atStart i q.chain k).path.pass = some (s.createdPass q.chain k s.moveState) := rfl
  have hrest : s.atStart i q.chain k = (s.withPath (s.atStart i q.chain k).path).withContours (s.atStart i q.chain k).contours := rfl
  have hpath : (s.atStart i q.chain k).path =
      { s.path with pass := some (s.createdPass q.chain k s.moveState), commanded := k.start } := rfl
  generalize s.atStart i q.chain k = a at hcon hoth hpass hrest hpath
  have hai : a.job.current = some i := by rw [hrest]; exact hi
  have htack : a.tackSpans = [] := tackSpans_drop (curContour_eq hai hcon) hmethod
  have hstop : a.stopPointAt { c with front := 0 } k 0 = c.defn.passEnd c.passIndex k.loaded :=
    stopPointAt_closed hcut htack hcl hmethod hend.le
  have hto := recompute_towards (s := a) (r := s.createdPass q.chain k s.moveState) (by rw [hrest]; exact hm)
    (by rw [hrest]; exact hno.congr (fun _ _ => rfl) rfl rfl) hai hcon hst hpass (by rw [hrest]; exact hk) hcut.sound
    (modeAt_cut hcut hne 0) (runStart_isSome hcut hne 0) hmove
    (by show a.stopPointAt { c with front := 0 } k 0 ≠ 0; rw [hstop]; exact hend.ne')
  rw [show a.stopPointAt _ k (s.createdPass q.chain k s.moveState).s = _ from hstop] at hto
  obtain ⟨f, g, o, n, hv⟩ := hto.pass
  have hact : a.active .wireIntact = true := by rw [hrest]; exact hwire
  have hset := hto.setting (by rw [hpath]; exact hg) hact
  refine ⟨?_, fun j hj => ?_, ⟨_, hv, rfl, rfl, hmove, rfl, rfl⟩, ?_, ?_, ?_, ?_, ?_, ?_, ?_, ?_, ?_⟩
  · rw [hto.rest]
    exact hcon
  · rw [hto.rest]
    exact hoth j hj
  · rw [hto.path, hpath]
  · rw [hto.path, hact]
  · exact hset.trans (settingAt_drop (curContour_eq hai hcon) hq htack 0)
  all_goals
    rw [hto.rest, hrest]
    rfl

end State

theorem centreMoveEnds {s : State} (hs : s.Steady) (hl : s.LinkSettled) (m : Rapid) (t : Threading) (c : Contour) :
    CentreMoveEnds m t c s := by
  intro hm hr hle hreach hown ht hh hc
  have hev {u : State} := State.driveUpdate_centre (t := u) hs hm hr hle hreach hown
  have hpark : s.modes.mode ≠ .park := by rw [hm]; decide
  refine ⟨fun hlines => ?_, fun hlow hwire hi => ⟨fun q k hst hq hk hcl hcut hne hmethod hend hslug hno hroom => ?_,
    fun q r k hst hon hpos => ?_⟩⟩
  · have hfail := State.failAttempt_fails (s := s.arrived m) ht hh hm
    have hsig := (State.failAttempt_signals (s := s.arrived m) ht hm).1
    have hhandle : (s.arrived m).handle (.moveDone .centre) = (s.arrived m).failAttempt :=
      State.centreMoved_fails (s := s.arrived m) ht hlines
    have hag := hsig.agenda.trans hs.1
    have hset := State.settle_report (s := s.arrived m) (r := .moveDone .centre) hs.1 (by rw [hhandle]; exact hag)
    refine ⟨_, hev (hset.trans hhandle) hag, State.failed_sent ?_ (hl.noProgress.congr hsig.link)⟩
    obtain ⟨hthread, hretry, hnone, hmodes, hcontours, hjob, hpath, hstore⟩ := hfail
    refine ⟨hthread, hretry, hnone, hmodes, hcontours, hjob, ?_, hstore⟩
    show { (s.arrived m).failAttempt.path with supplied := (s.arrived m).failAttempt.path.commanded } = _
    rw [hpath]
    rfl
  all_goals
    have hfirst : (s.arrived m).handle (.moveDone .centre) = ((s.arrived m).withThread none).report .threaded :=
      State.centreMoved_threads (s := s.arrived m) ht hlow hwire
    have hset (hag : (((s.arrived m).withThread none).handle .threaded).agenda = []) :=
      hev (State.settle_twoReports (s := s.arrived m) (v := (s.arrived m).withThread none) hs.1 hfirst hs.1 hag) hag
  · obtain ⟨x, hx, hhandle⟩ := State.holeThreaded_threads (s := (s.arrived m).withThread none) hm
      (hno.congr (fun _ _ => rfl) rfl rfl) (hroom.room.mono (m := 1) (by decide)) hi hc hst hslug
    replace hhandle : ((s.arrived m).withThread none).handle .threaded = x.startPass := hhandle
    rw [hhandle] at hset
    have hxk : x.chain q.chain = some k := by rw [State.chain, hx.store]; exact hk
    have hcmd : x.path.commanded = m.target := by rw [hx.path]; rfl
    refine ⟨fun hw hg => ?_, fun hw hothers => ?_⟩
    · have h := State.startPass_runs (s := x) (c := { c with state := State.cutState c }) (by rw [hx.modes]; exact hm) hx.calm
        hx.current hx.contour (State.cutState_cuts c) hq hxk hcl hcut hne hmethod hend (by rw [hcmd]; exact hw)
        (by rw [hx.path]; exact hg) (by rw [State.active, State.lineRec, hx.sensors]; exact hwire)
      generalize x.startPass = u at h hset
      have ha := u.supply.arbitrate_sends
      obtain ⟨v, hv, hvs⟩ := h.pass
      obtain ⟨n, hn⟩ := ha.pass_some (r := v) hv
      have hxc := hx.contour
      rw [State.cutState_eq hq] at hxc
      refine ⟨_, hset (h.agenda.trans (hx.agenda.trans hs.1)), ha.thread.trans (h.thread.trans hx.thread), ?_, fun j hj => ?_,
        ?_, ⟨_, hn, hvs⟩, ha.commanded.trans h.commanded, ?_, ha.genOn.trans h.genOn, ha.genSetting.trans h.genSetting, ?_, ?_,
        ha.modes.trans (h.modes.trans hx.modes), ha.store.trans (h.store.trans hx.store)⟩
      · rw [← State.cutState_eq hq]
        exact (ha.contour _).trans h.contour
      · exact (ha.contour j).trans ((h.others j hj).trans (hx.others j hj))
      · rw [ha.slug]
        show u.slug.watch = _
        rw [h.slug, hx.watch]
      · rw [ha.path]
        exact h.commanded
      · rw [ha.job]
        show u.job.work = _
        rw [h.job, hx.work]
      · rw [ha.job]
        show u.job.current = _
        rw [h.job, hx.current]
    · have hn : (x.onContour t.contour fun c => { c with state := .faulted, fault := some .discontinuous }).NoneWaiting := by
        intro j d hd
        by_cases hj : j = t.contour
        · rw [hj, State.contour_onContour_same, hx.contour] at hd
          obtain rfl := Option.some.inj hd
          exact ⟨nofun, nofun⟩
        · rw [State.contour_onContour_ne x hj, hx.others j hj] at hd
          exact hothers j d hj hd
      obtain ⟨hleft, hdis, hfault⟩ := State.startPass_faults hx.current hx.contour hq hxk (by rw [hcl]; nofun)
        (by rw [hcmd]; exact hw) hn
      have ha := x.startPass.supply.arbitrate_sends
      refine ⟨_, hset hleft.agenda, ha.thread.trans hleft.thread, ?_, fun j hj => ?_, ?_, ?_, ha.pass_none hleft.pass,
        ha.commanded.trans (hleft.commanded.trans hcmd), ?_, ha.store.trans (hleft.store.trans hx.store)⟩
      · rw [ha.contour]
        exact hleft.contour.trans (congrArg (Option.map _) hx.contour)
      · exact (ha.contour j).trans ((hleft.others j hj).trans (hx.others j hj))
      · exact (ha.latch _).trans (hdis.trans (hx.raised _))
      · exact (ha.latch _).trans (hfault.trans (hx.raised _))
      · rw [ha.job]
        exact hleft.job.2
  · obtain ⟨-, -, -, hp, -⟩ := hon
    have hhandle : ((s.arrived m).withThread none).handle .threaded = ((s.arrived m).withThread none).beginApproach 0 := by
      show ((s.arrived m).withThread none).holeThreaded = _
      have hcur : ((s.arrived m).withThread none).curContour = some c := State.curContour_eq hi hc
      rw [State.holeThreaded, show ((s.arrived m).withThread none).job.current = _ from hi, hcur]
      exact if_neg (by rw [hst]; nofun)
    rw [State.beginApproach_before (s := (s.arrived m).withThread none) hp hpos] at hhandle
    rw [hhandle] at hset
    obtain ⟨happ, hpos', hjob, hcmd, hcon, hmod, hsto, hthr⟩ :=
      State.approach_sent (s := ((s.arrived m).withThread none).supply) (r := r) (a := 0) hp rfl
    exact ⟨_, hset hs.1, hthr, happ, hpos', hjob, hcmd, hcon, hmod, hsto⟩

/-- Settles O58: the expiries that end no step, the timers that end their own, the line that ends FEED and the end of the
centre move. -/
theorem threadTimersEndTheirSteps : Obligations.ThreadTimersEndTheirSteps := by
  refine fun s hs => ⟨otherTimersEndNothing hs, fun hl t c => ⟨⟨tipCutEnds hs hl, feedTimesOut hs hl,
    retractBeginsAttempt hs hl, retractExhaustsHole hs, retractFailsInGap hs hl, unthreadCutEnds hs⟩, feedSucceeds hs t c,
    fun m => centreMoveEnds hs hl m t c⟩⟩

end Sys2Proof.Machine
end

section
/-! START_JOB with a resume point (R46, R51, R104, R120 to R122). -/

set_option Elab.async false

namespace Sys2Proof.Machine

/-! ## The checks (R120) -/

/-- The payload of a resumed start. -/
def resumePayload (i : Slot) (n : Fin 8) (pos len : Nat) : Payload :=
  byte i.val :: byte n.val :: (leBytes 4 pos ++ leBytes 4 len)

theorem resumePayload_length (i : Slot) (n : Fin 8) (pos len : Nat) : (resumePayload i n pos len).length = 10 := by
  simp [resumePayload, leBytes_length]

/-- A resumed start is refused outside HOLD, and otherwise, no job being under way, as its checks say. -/
theorem takeStartJob_resumed (i : Slot) (n : Fin 8) {pos len : Nat} (hpos : pos < 2 ^ 32) (hlen : len < 2 ^ 32) (s : State) :
    takeStartJob (resumePayload i n pos len) s =
      if s.mode ≠ .hold ∨ s.job.state.atRest = false ∨ s.mayRun = false then refuse s .wrongState
      else (resumeFault s i n.val pos len).elim (done (s.startResumed i n.val pos)) (refuse s) := by
  have h1 : u8 (resumePayload i n pos len) 1 = n.val := u8_drop (r := leBytes 4 pos ++ leBytes 4 len) rfl (by omega)
  have h2 : uN 4 (resumePayload i n pos len) 2 = pos := uN_drop (r := leBytes 4 len) rfl hpos
  have h3 : uN 4 (resumePayload i n pos len) 6 = len := uN_drop (r := [])
    (drop_field (k := 2) (a := leBytes 4 pos) (by rw [List.append_nil]; rfl) (by rw [leBytes_length])) hlen
  have hslot : takeStartResumed (resumePayload i n pos len) s = _ := withSlot_byte i _ s _
  rw [takeStartJob, if_neg (by rw [resumePayload_length]; decide), ofLength, if_pos (resumePayload_length i n pos len), hslot]
  simp only [h1, h2, h3]
  rw [if_neg (by omega)]
  cases resumeFault s i n.val pos len <;> rfl

theorem atRest_of {j : JobState} (h : j = .idle ∨ j = .complete ∨ j = .aborted) : j.atRest = true := by
  rcases h with rfl | rfl | rfl <;> rfl

section
variable {s : State} {i : Slot} {n : Nat} {c : Contour} {q : PassRec} {k : Chain} (hc : s.contour i = some c)
  (hst : c.state = .queued ∨ c.state = .stopped) (hq : c.defn.passes[n]? = some q) (hk : s.chain q.chain = some k)
  (hb : k.binding = some (i, n)) (hcl : k.state = .closed)
include hc hst hq hk hb hcl

/-- What the last three checks find where the ones before them pass. -/
theorem resumeFault_eq (pos len : Nat) : resumeFault s i n pos len =
    if len ≠ k.loaded then some .mismatch
    else if c.defn.passEnd n k.loaded ≤ pos then some .badValue
    else if stoppedAtEnd s c then some .wrongState
    else none := by
  have hchain : resumeChain s i c n = .ok k := by
    simp only [resumeChain, hq, hk, hb, hcl]
    simp
  have hcount : ¬ c.passCount ≤ n := Nat.not_le.mpr (List.getElem?_eq_some_iff.mp hq).1
  have hstate : ¬ (c.state ≠ .queued ∧ c.state ≠ .stopped) := by tauto
  simp only [resumeFault, hc, if_neg hstate, if_neg hcount, hchain]

end

namespace State

variable {s : State}

/-! ## The mode becomes RUN with nothing under way (R121, R143) -/

theorem onPass_none (hp : s.path.pass = none) (f : RunPass → RunPass) : s.onPass f = s := by
  rw [onPass, onPath, hp, Option.map_none, ← hp]
  rfl

theorem genOff_noPass (hp : s.path.pass = none) :
    s.genOff = (s.onPath fun p => { p with genOn := false }).withConds s.genOff.conds := by
  conv_lhs => rw [genOff, onPass_none (s := s.onPath fun p => { p with genOn := false }) hp]
  rw [genOff, onPass_none (s := s.onPath fun p => { p with genOn := false }) hp]
  rfl

theorem refreshGen_noPass (hp : s.path.pass = none) : s.refreshGen = s.genOff := by
  have hoff : s.genAllowed = false := by rw [genAllowed, hp]
  rw [refreshGen, hoff]
  rfl

theorem toRun_idle (hp : s.path.pass = none) (ht : s.thread = none) (hd : s.job.due = false) (hdrop : s.slug.drop = .idle)
    (hreq : s.holder.request = none) :
    s.toRun = (s.onModes fun m => { m with mode := .run, parkPending := false }).genOff := by
  generalize hu : (s.onModes fun m => { m with mode := .run, parkPending := false }) = u
  have hresume : u.resumePass = u.genOff := by
    have hup : u.path.pass = none := by rw [← hu]; exact hp
    rw [resumePass, onPass_none hup, refreshGen_noPass hup]
  have hbegin : u.genOff.beginHeld = u.genOff := by
    have : u.genOff.thread = none := by rw [← hu]; exact ht
    rw [beginHeld, this]
  have hgive : u.genOff.giveDue = u.genOff := by
    have : u.genOff.job.due = false := by rw [← hu]; exact hd
    rw [giveDue, if_neg (by rw [this, Bool.and_false]; decide)]
  have hrestart : u.genOff.restartDrop = u.genOff := if_pos (by rw [← hu]; exact hdrop)
  have htimed : u.genOff.takeUpTimedOut = u.genOff := by
    have : u.genOff.holder.request = none := by rw [← hu]; exact hreq
    rw [takeUpTimedOut, this]
  rw [toRun, hu, hresume, hbegin, hgive, hrestart, htimed]

theorem clearJobAndPath_conds (s : State) : s.clearJobAndPath = s.withConds s.clearJobAndPath.conds ∧
    ∀ c, (s.clearJobAndPath.cond c).live = (s.cond c).live := by
  unfold clearJobAndPath
  generalize Cond.jobOrPath = l
  induction l generalizing s with
  | nil => exact ⟨rfl, fun _ => rfl⟩
  | cons d l ih =>
    obtain ⟨h1, h2⟩ := ih (s.clearLatch d)
    refine ⟨h1, fun c => (h2 c).trans ?_⟩
    by_cases hc : c = d
    · rw [hc, clearLatch, cond_setCond_same]
    · rw [clearLatch, cond_setCond_ne s hc]

/-- The part when a resumed start has set the mode to RUN, before it takes the contour. -/
structure ReadyToResume (p : ResumePoint) (s t : State) : Prop where
  rest : t = { s with
    job := { s.job with resume := some p }, path := { s.path with genOn := false }
    modes := { s.modes with mode := .run, parkPending := false }, conds := t.conds, journal := t.journal }
  calm : t.NoHoldCause
  room : t.journal.Room 1

theorem resume_ready {p : ResumePoint} (hm : s.modes.mode = .hold) (hidle : s.NothingUnderWay) (hno : s.NoHoldCause)
    (hroom : s.journal.Room 2) (rec : JRecord) :
    ReadyToResume p s ((s.clearJobAndPath.onJob fun j => { j with resume := some p }).offer rec).toRun := by
  obtain ⟨-, hdue, hpass, -, hthread, hdrop, hreq⟩ := hidle
  obtain ⟨hclear, hlive⟩ := s.clearJobAndPath_conds
  generalize s.clearJobAndPath = a at hclear hlive
  have ham : (a.onJob fun j => { j with resume := some p }).modes.mode ≠ .park := by
    rw [hclear]
    show s.modes.mode ≠ _
    rw [hm]
    decide
  have hano : (a.onJob fun j => { j with resume := some p }).NoHoldCause :=
    hno.congr (fun c _ => hlive c) (by rw [hclear]; rfl) (by rw [hclear]; rfl)
  obtain ⟨hsig, hroom', hno'⟩ := offer_signals (n := 1) ham hano (by rw [hclear]; exact hroom) rec
  generalize (a.onJob fun j => { j with resume := some p }).offer rec = o at hsig hroom' hno'
  have ho : o = { s with job := { s.job with resume := some p }, conds := o.conds, journal := o.journal } := by
    conv_lhs => rw [hsig.only]
    rw [hsig.journal, hclear]
    rfl
  have hrun := toRun_idle (s := o) (by rw [ho]; exact hpass) (by rw [ho]; exact hthread) (by rw [ho]; exact hdue)
    (by rw [ho]; exact hdrop) (by rw [ho]; exact hreq)
  have hcalm := (genOff_flags (o.onModes fun m => { m with mode := .run, parkPending := false })).calm (by nofun)
    (hno'.congr (fun _ _ => rfl) rfl rfl)
  rw [← hrun] at hcalm
  refine ⟨?_, hcalm.2, by rw [hrun]; exact hroom'⟩
  conv_lhs => rw [hrun, genOff_noPass (s := o.onModes fun m => { m with mode := .run, parkPending := false })
    (by rw [ho]; exact hpass), ho]
  rw [hrun, genOff_noPass (s := o.onModes fun m => { m with mode := .run, parkPending := false }) (by rw [ho]; exact hpass), ho]
  rfl

/-! ## The contour named by the resume point is taken (R46, R51, R121, R122) -/

theorem setJobState_eq (s : State) (js : JobState) : ∃ b, s.setJobState js =
    (s.onJob fun j => { j with state := js }).onLink fun l => { l with progressPending := b } := by
  rw [setJobState]
  split
  · rename_i h
    refine ⟨s.link.progressPending, ?_⟩
    rw [← h]
    rfl
  · exact ⟨true, rfl⟩

/-- The running-pass record at its creation at a position, its floor computed. -/
def createdAt (s : State) (ch : ChainId) (k : Chain) (pos : Nat) : RunPass :=
  { newPass ch k pos .moving with floor := s.floorOf (newPass ch k pos .moving), segIndex := segmentAt k.segs pos }

theorem createPass_at {ch : ChainId} {k : Chain} (hk : s.chain ch = some k) (hs : k.Sound) (pos : Nat) :
    s.createPass ch k pos .moving = (s.withPass (s.createdAt ch k pos), true) := by
  rw [createPass, readSlots_sound hk hs]
  exact congrArg (·, true)
    (settlePosition_eq (s := s.onPath fun p => { p with pass := some (newPass ch k pos .moving) }) rfl hk)

theorem findStop_sound {c : Contour} {r : RunPass} {k : Chain} (hp : s.path.pass = some r) (hc : s.curContour = some c)
    (hk : s.chain r.chain = some k) (hs : k.Sound) : s.findStop = (s.withPass { r with
      stopPoint := s.stopPointAt c k r.s, floor := s.floorOf r, segIndex := segmentAt k.segs r.s }, true) := by
  rw [findStop, hp, hc]
  dsimp only
  rw [hk]
  dsimp only
  rw [readSlots_sound hk hs]
  dsimp only
  rw [if_pos rfl]
  have hpass : (s.onPass fun q => { q with stopPoint := s.stopPointAt c k r.s }).path.pass =
      some { r with stopPoint := s.stopPointAt c k r.s } := congrArg (Option.map _) hp
  refine congrArg (·, true) ((settlePosition_eq hpass hk).trans ?_)
  simp only [onPass, onPath, withPass, withPath_path, hp, Option.map_some]
  rfl

/-- A resumed contour away from its resume position, with the wire through the plate, is unthreaded first (R122). -/
theorem orderResumed_unthreads {i : Slot} {c : Contour} {r : RunPass} {k : Chain} (hm : s.modes.mode = .run)
    (hi : s.job.current = some i) (hc : s.contour i = some c) (hp : s.path.pass = some r) (hk : s.chain r.chain = some k)
    (hd : s.job.due = true) (hw : s.job.work = some .firstOrder) (hlow : s.active .lowerDetect = true)
    (haway : within 2 s.path.commanded (k.point r.s) = false) : s.orderResumed =
      (s.onJob fun j => { j with work := some .openingUnthread, due := false }).withThread
        (some ⟨.unthread, i, .unthreadCut, false, 0, 0, none, none, none, some s.params.tipTime, false⟩) := by
  have hrun := running_of_run hm
  have hat : s.threadedAt (k.point r.s) = false := by rw [threadedAt, haway, Bool.and_false]
  have horder : s.order .openingUnthread =
      (s.onJob fun j => { j with work := some .openingUnthread, due := false }).unthread i := by
    rw [order]
    dsimp only
    rw [curContour_eq hi hc, hi]
  rw [orderResumed, runChain_eq hp hk]
  dsimp only
  rw [hat, if_neg (by decide), giveDue, if_pos (by rw [hrun, hd]; rfl), hw]
  dsimp only
  rw [firstOrder, if_pos hlow, horder, unthread_eq]
  have hun : (s.onJob fun j => { j with work := some .openingUnthread, due := false }).unthreading i =
      ⟨.unthread, i, .unthreadCut, false, 0, 0, none, none, none, some s.params.tipTime, false⟩ := by
    have : (s.onJob fun j => { j with work := some .openingUnthread, due := false }).running = true := hrun
    rw [unthreading, this]
    rfl
  rw [hun]

/-- The contour has been taken at its resume point, its running-pass record made and its UNTHREAD ordered. -/
structure ResumeTaken (i : Slot) (c : Contour) (n pos : Nat) (q : PassRec) (k : Chain) (js : JobState) (s t : State) :
    Prop where
  state : t.job.state = js
  current : t.job.current = some i
  resume : t.job.resume = some ⟨i, n, pos⟩
  contour : t.contour i = some (resumedContour n pos c)
  others : ∀ j, j ≠ i → t.contour j = s.contour j
  modes : t.modes = s.modes
  pass : ∃ r, t.path.pass = some r ∧ r.chain = q.chain ∧ r.s = pos ∧ r.lastCheckpoint = pos ∧ r.sub = .moving ∧
    (k.SoundCut → k.segs ≠ [] → c.defn.method = .drop → r.stopPoint = c.defn.passEnd n k.loaded)
  commanded : t.path.commanded = s.path.commanded
  genOn : t.path.genOn = s.path.genOn
  store : t.store = s.store
  thread : t.thread = some ⟨.unthread, i, .unthreadCut, false, 0, 0, none, none, none, some s.params.tipTime, false⟩
  agenda : t.agenda = s.agenda
  link : ∃ b, t.link = { s.link with progressPending := b }

/-- The job's registers as a resumed start leaves them at first (R121). -/
def resumedJob (i : Slot) (n pos : Nat) (js : JobState) (j : Job) : Job :=
  { j with
    state := js, current := some i, resume := some ⟨i, n, pos⟩, work := some .firstOrder, due := true, wire := none
    keptHolding := false, keptProceed := false, stageFrom := n }

/-- The part when the contour named has become current at its resume point, before its running-pass record. -/
def atResume (s : State) (i : Slot) (n pos : Nat) (js : JobState) : State :=
  (((s.setJobState js).onJob fun j => { j with
    current := some i, resume := some ⟨i, n, pos⟩, work := some .firstOrder, due := true, wire := none
    keptHolding := false, keptProceed := false, stageFrom := n }).changeContour i (resumedContour n pos)).refreshLevels

/-- What stands then. -/
structure AtResume (i : Slot) (c : Contour) (n pos : Nat) (js : JobState) (s t : State) : Prop where
  job : t.job = { resumedJob i n pos js s.job with lastChanged := some i }
  contour : t.contour i = some (resumedContour n pos c)
  others : ∀ j, j ≠ i → t.contour j = s.contour j
  modes : t.modes = s.modes
  path : t.path = s.path
  store : t.store = s.store
  sensors : t.sensors = s.sensors
  params : t.params = s.params
  agenda : t.agenda = s.agenda
  link : ∃ b, t.link = { s.link with progressPending := b }

theorem atResume_stands {i : Slot} {c : Contour} {n pos : Nat} (hm : s.modes.mode = .run) (hno : s.NoHoldCause)
    (hroom : s.journal.Room 1) (hc : s.contour i = some c) (js : JobState) :
    AtResume i c n pos js s (s.atResume i n pos js) := by
  obtain ⟨b, hset⟩ := s.setJobState_eq js
  have hjob : (s.setJobState js).onJob (fun j => { j with
      current := some i, resume := some ⟨i, n, pos⟩, work := some .firstOrder, due := true, wire := none
      keptHolding := false, keptProceed := false, stageFrom := n }) =
      (s.onJob (resumedJob i n pos js)).onLink fun l => { l with progressPending := b } := by
    rw [hset]
    rfl
  rw [atResume, hjob]
  generalize hx : (s.onJob (resumedJob i n pos js)).onLink (fun l => { l with progressPending := b }) = x
  have hpark : x.modes.mode ≠ .park := by
    rw [← hx]
    show s.modes.mode ≠ _
    rw [hm]
    decide
  obtain ⟨j, -, hch, hchno⟩ := changeContour_signals hpark (by rw [← hx]; exact hno.congr (fun _ _ => rfl) rfl rfl)
    (by rw [← hx]; exact hroom) i (resumedContour n pos)
  have h := hch.trans (refreshLevels_signals (by rw [hch.sameModes]; exact hpark) hchno)
  generalize (x.changeContour i (resumedContour n pos)).refreshLevels = y at h
  have hcon : (x.onContour i (resumedContour n pos)).contour i = some (resumedContour n pos c) := by
    refine (contour_onContour_same x i _).trans ?_
    rw [← hx]
    exact congrArg (Option.map (resumedContour n pos)) hc
  have hoth (d : Slot) (hd : d ≠ i) : (x.onContour i (resumedContour n pos)).contour d = s.contour d := by
    rw [contour_onContour_ne x hd, ← hx]
    rfl
  refine ⟨?_, (h.contour i).trans hcon, fun d hd => (h.contour d).trans (hoth d hd), ?_, ?_, ?_, ?_, ?_, ?_, true, ?_⟩
  · rw [h.job, ← hx]
    rfl
  · rw [h.sameModes, ← hx]
    rfl
  · rw [h.samePath, ← hx]
    rfl
  · rw [h.store, ← hx]
    rfl
  · rw [h.sensors, ← hx]
    rfl
  · rw [h.params, ← hx]
    rfl
  · rw [h.agenda, ← hx]
    rfl
  · rw [h.link, ← hx]
    rfl

section
variable {i : Slot} {c : Contour} {n pos : Nat} {q : PassRec} {k : Chain} (hm : s.modes.mode = .run)
  (hq : c.defn.passes[n]? = some q) (hk : s.chain q.chain = some k)
  (hs : k.Sound) (hcl : k.state = .closed) (hpos : pos < c.defn.passEnd n k.loaded) (hlow : s.active .lowerDetect = true)
  (haway : within 2 s.path.commanded (k.point pos) = false)
include hm hq hk hs hcl hpos hlow haway

theorem takeResumed_takes {js : JobState} (h : AtResume i c n pos js s (s.atResume i n pos js)) :
    ResumeTaken i c n pos q k js s (s.takeResumed i n pos js) := by
  obtain ⟨hjob, hcon, hoth, hmodes, hpath, hstore, hsens, hpar, hag, hlink⟩ := h
  generalize hy : s.atResume i n pos js = y at hjob hcon hoth hmodes hpath hstore hsens hpar hag hlink
  have hyi : y.job.current = some i := by rw [hjob]; rfl
  have hyk : y.chain q.chain = some k := by rw [State.chain, hstore]; exact hk
  have hyq : (resumedContour n pos c).pass = some q := hq
  generalize hr : y.createdAt q.chain k pos = r
  have hrs : r.s = pos := by rw [← hr]; rfl
  have hrch : r.chain = q.chain := by rw [← hr]; rfl
  have hfind := findStop_sound (s := y.withPass r) rfl (curContour_eq (s := y.withPass r) hyi hcon)
    (by rw [hrch]; exact hyk) hs
  generalize hv : ({ r with
    stopPoint := (y.withPass r).stopPointAt (resumedContour n pos c) k r.s, floor := (y.withPass r).floorOf r
    segIndex := segmentAt k.segs r.s } : RunPass) = v at hfind
  have hvs : v.s = pos := by rw [← hv]; exact hrs
  have hvch : v.chain = q.chain := by rw [← hv]; exact hrch
  have horder := orderResumed_unthreads (s := y.withPass v) (r := v) (k := k) (hmodes ▸ hm) hyi hcon rfl
    (by rw [hvch]; exact hyk) (by show y.job.due = _; rw [hjob]; rfl) (by show y.job.work = _; rw [hjob]; rfl)
    (by show y.active _ = _; rw [active, lineRec, hsens]; exact hlow)
    (by show within 2 y.path.commanded _ = _; rw [hpath, hvs]; exact haway)
  have e : s.takeResumed i n pos js = (y.withPass v).orderResumed := by
    rw [atResume] at hy
    rw [takeResumed]
    dsimp only
    rw [hy, curContour_eq hyi hcon]
    dsimp only [Option.bind_some]
    rw [hyq]
    dsimp only
    rw [hyk]
    dsimp only
    rw [createPass_at hyk hs, hr]
    dsimp only
    rw [if_pos rfl, hfind]
    dsimp only
    rw [if_pos rfl]
    rfl
  rw [e, horder]
  refine ⟨?_, ?_, ?_, hcon, hoth, hmodes, ⟨v, rfl, hvch, hvs, ?_, ?_, fun hcut hne hmethod => ?_⟩, ?_, ?_, hstore, ?_, hag,
    hlink⟩
  · show y.job.state = _
    rw [hjob]
    rfl
  · exact hyi
  · show y.job.resume = _
    rw [hjob]
    rfl
  · rw [← hv, ← hr]
    rfl
  · rw [← hv, ← hr]
    rfl
  · rw [← hv]
    show (y.withPass r).stopPointAt (resumedContour n pos c) k r.s = _
    rw [hrs]
    exact stopPointAt_closed hcut (tackSpans_drop (curContour_eq (s := y.withPass r) hyi hcon) hmethod) hcl hmethod hpos.le
  · show y.path.commanded = _
    rw [hpath]
  · show y.path.genOn = _
    rw [hpath]
  · rw [← hpar]
    rfl

end

end State

/-- Settles O31: the refusals of the resumed start, and what it leaves where it is taken. -/
theorem resumedStartTakesTheNamedContour : Obligations.ResumedStartTakesTheNamedContour := by
  intro tag i n pos len s hq hpos hlen
  have hans := takeStartJob_resumed i n hpos hlen s
  have hlength : (resumePayload i n pos len).length ≤ 250 := by rw [resumePayload_length]; decide
  refine ⟨fun hm => ?_, fun c q k hm hjob hrun hc hst hpass hk hb hcl => ?_⟩
  · exact congrArg _ (State.request_refused (kind := 0x30) hq hlength (hans.trans (if_pos (.inl hm))))
  · rw [if_neg (by simp [State.mode, hm, atRest_of hjob, hrun]), resumeFault_eq hc hst hpass hk hb hcl] at hans
    refine ⟨fun hne => ?_, fun heq hlt hqueued hs hno hidle hroom hlow haway => ?_⟩
    · rw [if_pos hne] at hans
      exact congrArg _ (State.request_refused (kind := 0x30) hq hlength hans)
    · have hend : stoppedAtEnd s c = false := by rw [stoppedAtEnd, hqueued]; rfl
      rw [if_neg (not_not.mpr heq), if_neg (Nat.not_le.mpr hlt), hend, if_neg (by decide)] at hans
      have hstart : s.startResumed i n.val pos =
          ((((s.clearJobAndPath.onJob fun j => { j with resume := some ⟨i, n.val, pos⟩ }).offer
            (State.jobRecord (resumeStage c n.val) (some i))).toRun).takeResumed i n.val pos (resumeStage c n.val)) := by
        rw [State.startResumed, hc]
      have hready := State.resume_ready (p := ⟨i, n.val, pos⟩) hm hidle hno hroom.room
        (State.jobRecord (resumeStage c n.val) (some i))
      generalize (((s.clearJobAndPath.onJob fun j => { j with resume := some ⟨i, n.val, pos⟩ }).offer
        (State.jobRecord (resumeStage c n.val) (some i))).toRun) = x at hready hstart
      obtain ⟨hrest, hxno, hxroom⟩ := hready
      have hxm : x.modes.mode = .run := by rw [hrest]
      have hxc : x.contour i = some c := by rw [hrest]; exact hc
      have h := State.takeResumed_takes hxm hpass (by rw [hrest]; exact hk) hs hcl hlt (by rw [hrest]; exact hlow)
        (by rw [hrest]; exact haway) (State.atResume_stands hxm hxno hxroom hxc (resumeStage c n.val))
      rw [← hstart] at h
      have hstage : resumeStage c n.val = if q.role = .sever then .stageB else .stageA := by
        rw [resumeStage, hpass]
        simp
      obtain ⟨b, hlink⟩ := h.link
      have hxl : x.link = s.link := by rw [hrest]
      rw [hxl] at hlink
      have hreq := State.request_is (kind := 0x30) (tag := tag) hq hlength hans
        (h.agenda.trans (by rw [hrest])) (show (s.startResumed i n.val pos).link.collecting = _ by rw [hlink])
        (show (s.startResumed i n.val pos).link.replies = _ by rw [hlink])
        (show (s.startResumed i n.val pos).link.sending = _ by rw [hlink])
      refine ⟨s.startResumed i n.val pos, congrArg _ hreq, h.state.trans hstage, h.current, h.resume, ?_, fun j hj => ?_, ?_,
        h.pass, h.commanded.trans (by rw [hrest]), h.genOn.trans (by rw [hrest]), h.store.trans (by rw [hrest]), ?_⟩
      · rw [h.contour, resumedContour, hpass]
        simp
      · rw [h.others j hj, hrest]
        rfl
      · rw [h.modes]
        exact hxm
      · rw [h.thread, hrest]

end Sys2Proof.Machine
end

section
/-! SUPPORT. What a step can do to the job state and the current contour: they change where a contour is taken or leaves,
and where a job is started, aborted or reset, and nowhere else. A property that these changes keep is kept by every step. -/

set_option Elab.async false

namespace Sys2Proof.Machine

/-- A property kept by the work of the blocks, and by the choice made once the current contour has left (R71, R89). -/
structure KeepTable (P : State → Prop) : Prop extends KeepWork P where
  leave : ∀ s, P s → P s.dropCurrent.choose

namespace State

variable {P : State → Prop} {s : State}

/-! ## Orders of the contour table: the job state and the current contour stay -/

section
variable (K : KeepWork P) (h : P s)
include K h

theorem rapidToPass_keepWork : P s.rapidToPass := by
  simp only [rapidToPass]
  repeat' split
  · exact orderRapid_keep K (readSlots_keep K h _ _) _ _
  · exact readSlots_keep K h _ _
  · exact h
  · exact h

theorem order_keepWork (w : Work) : P (s.order w) := by
  have ht : P (s.onJob fun j => { j with work := some w, due := false }) := onJob_keep K h _ rfl rfl
  simp only [order]
  split
  · cases w
    case openingUnthread => exact unthread_keep K ht _
    case stageUnthread => exact unthread_keep K ht _
    case holeRapid => exact orderRapid_keep K ht _ _
    case holeThread => exact threadAtHole_keep K ht _ _
    case gapThread => exact threadInGap_keep K ht _
    case pointRapid => exact rapidToPass_keepWork K ht
    case firstOrder => exact ht
    case approach => exact ht
  · exact ht

theorem askOrder_keepWork (w : Work) : P (s.askOrder w) := by
  unfold askOrder
  split
  · exact order_keepWork K h w
  · exact onJob_keep K h _ rfl rfl

theorem enterReentryWait_keepWork : P s.enterReentryWait := by
  unfold enterReentryWait
  split
  · exact forceHold_keep K.toKeepFlags (onJob_keep K (changeContour_keep K.toKeepChange h _ _) _ rfl rfl)
  · exact h

theorem laterPassChoice_keepWork (c : Contour) : P (s.laterPassChoice c) := by
  simp only [laterPassChoice]
  split
  · have ht := readSlots_keep K h
    repeat' split
    · exact askOrder_keepWork K (ht _ _) _
    · exact askOrder_keepWork K (ht _ _) _
    · exact enterReentryWait_keepWork K (ht _ _)
    · exact ht _ _
  · exact h

theorem keepWire_keepWork (k : Chain) (w : Nat) : P (s.keepWire k w) := by
  unfold keepWire
  split
  · exact h
  · exact onJob_keep K h _ rfl rfl

theorem reentryChoice_keepWork : P s.reentryChoice := by
  simp only [reentryChoice]
  have ht := readSlots_keep K h
  repeat' split
  · exact askOrder_keepWork K (keepWire_keepWork K (ht _ _) _ _) _
  · exact askOrder_keepWork K (keepWire_keepWork K (ht _ _) _ _) _
  · exact ht _ _
  · exact askOrder_keepWork K h _
  · exact laterPassChoice_keepWork K h _
  · exact h

theorem towardsHole_keepWork : P s.towardsHole := by
  unfold towardsHole
  repeat' split
  · exact laterPassChoice_keepWork K h _
  · exact askOrder_keepWork K h _
  · exact h

theorem giveDue_keepWork : P s.giveDue := by
  unfold giveDue firstOrder
  repeat' split
  · exact order_keepWork K h _
  · exact towardsHole_keepWork K h
  · exact order_keepWork K h _
  · exact h
  · exact h

theorem endWork_keepWork (i : Slot) : P (s.endWork i) := by
  have ht := retentionLeft_keep K (discardPass_keep K (endThread_keep K (endRapid_keep K (genOff_keep K.toKeepFlags h)))) i
  unfold endWork
  generalize s.genOff.endRapid.endThread.discardPass.retentionLeft i = t at ht ⊢
  exact K.agenda _ _ (onJob_keep K ht _ rfl rfl)

theorem beginApproach_keepWork (a : Nat) : P (s.beginApproach a) := by
  have ht : P (s.onJob fun j => { j with work := some .approach, due := false }) := onJob_keep K h _ rfl rfl
  simp only [beginApproach]
  repeat' split
  · exact report_keep K (onPass_keep K.toKeepFlags ht _) _
  · exact onPass_keep K.toKeepFlags ht _
  · exact h

theorem freePass_keepWork (i : Slot) (c : Contour) (k : Nat) : P (s.freePass i c k) := by
  unfold freePass
  repeat' split
  · exact freeChain_keep K h _
  · exact h
  · exact h

theorem gapFailed_keepWork : P s.gapFailed := by
  unfold gapFailed
  repeat' split
  · exact askOrder_keepWork K h _
  · exact enterReentryWait_keepWork K h
  · exact h

theorem tableMoveDone_keepWork : P s.tableMoveDone := by
  unfold tableMoveDone
  repeat' split
  · exact askOrder_keepWork K h _
  · exact laterPassChoice_keepWork K h _
  · exact h
  · exact h

theorem holderHolds_keepWork : P s.holderHolds := by
  simp only [holderHolds]
  repeat' split
  · exact recompute_keep K (liftSub_keep K h)
  · exact recompute_keep K h
  · exact onJob_keep K h _ rfl rfl
  · exact h

theorem toRun_keepWork (hm : s.mode = .hold) : P s.toRun :=
  takeUpTimedOut_keep K <| restartDrop_keep K <| giveDue_keepWork K <| beginHeld_keep K <| refreshGen_keep K <|
    onPass_keep K.toKeepFlags (K.modes _ _ h (.run _ hm)) _

end

/-! ## Passes, stages, faults and breaks: the current contour may leave -/

section
variable (K : KeepTable P) (h : P s)
include K h

theorem faultCurrent_keepTable (f : FaultReason) : P (s.faultCurrent f) := by
  have ht : P (if f.raisesContourFault then s.raise .contourFault else s) := by
    split
    · exact raise_keep K.toKeepFlags h _
    · exact h
  simp only [faultCurrent]
  generalize (if f.raisesContourFault then s.raise .contourFault else s) = t at ht ⊢
  split
  · refine K.leave _ (changeContour_keep K.toKeepChange (endWork_keepWork K.toKeepWork ?_ _) _ _)
    split
    · exact forceHold_keep K.toKeepFlags ht
    · exact ht
  · exact h

theorem skipCurrent_keepTable (i : Slot) : P (s.skipCurrent i) :=
  K.leave _ (changeContour_keep K.toKeepChange (endWork_keepWork K.toKeepWork h _) _ _)

theorem startPass_keepTable : P s.startPass := by
  simp only [startPass]
  repeat' split
  · exact faultCurrent_keepTable K h _
  · exact faultCurrent_keepTable K (raise_keep K.toKeepFlags h _) _
  · exact recompute_keep K.toKeepWork (onPath_keep K.toKeepFlags (onCur_keep K.toKeepChange
      (createPass_keep K.toKeepWork h _ _ _ _) _) _)
  · exact createPass_keep K.toKeepWork h _ _ _ _
  · exact h
  · exact h
  · exact h

theorem endPass_keepTable : P s.endPass := by
  have ht := discardPass_keep K.toKeepWork h
  simp only [endPass]
  repeat' split
  · exact startPass_keepTable K (onContour_keep K.toKeepChange ht _ _)
  · exact startPass_keepTable K (onContour_keep K.toKeepChange ht _ _)
  · exact askOrder_keepWork K.toKeepWork (changeContour_keep K.toKeepChange ht _ _) _
  · exact askOrder_keepWork K.toKeepWork (changeContour_keep K.toKeepChange ht _ _) _
  · exact h

theorem stageDone_keepTable : P s.stageDone := by
  simp only [stageDone]
  split
  · refine K.leave _ (onJob_keep K.toKeepWork ?_ _ rfl rfl)
    refine foldl_keep (P := P) (fun u k => u.freePass _ _ k)
      (fun u k hu => freePass_keepWork K.toKeepWork hu _ _ _) _ ?_
    split
    · exact disarmWatch_keep K.toKeepWork (setRetention_keep K.toKeepWork (changeContour_keep K.toKeepChange h _ _) _ _)
    · exact changeContour_keep K.toKeepChange h _ _
  · exact h

theorem takeBreak_keepTable : P s.takeBreak := by
  simp only [takeBreak]
  split
  · rename_i i c r _ _ _
    have ht : P ((s.genOff.endRapid.onContour i fun c =>
        { c with breakPoint := some (c.passIndex, r.s) }).raise .wireBreak) :=
      raise_keep K.toKeepFlags (onContour_keep K.toKeepChange (endRapid_keep K.toKeepWork
        (genOff_keep K.toKeepFlags h)) _ _) _
    have hu := onJob_keep K.toKeepWork ht (fun j => { j with wire := s.breakWire r, work := none, due := false }) rfl rfl
    split
    · exact faultCurrent_keepTable K (raise_keep K.toKeepFlags ht _) _
    · refine reentryChoice_keepWork K.toKeepWork ?_
      split
      · exact refreshLevels_keep K.toKeepFlags (changeContour_keep K.toKeepChange hu _ _)
      · exact onContour_keep K.toKeepChange hu _ _
  · exact h

theorem takeUp_keepTable : P s.takeUp := by
  simp only [takeUp]
  split
  · rename_i i c r k _ _ _
    have ht : P (if (s.job.resume.isSome && decide (c.passIndex ≤ c.defn.closingPass)) = true then s.armWatch i else s) := by
      split
      · exact armWatch_keep K.toKeepWork h _
      · exact h
    generalize (if (s.job.resume.isSome && decide (c.passIndex ≤ c.defn.closingPass)) = true then s.armWatch i else s) = t
      at ht ⊢
    have hu := onJob_keep K.toKeepWork (changeContour_keep K.toKeepChange ht i fun c => { c with state := cutState c })
      (fun j => { j with work := none, due := false, wire := none, resume := none, keptHolding := false, keptProceed := false })
      rfl rfl
    have hv := readSlots_keep K.toKeepWork hu r.chain (runReads k r.s)
    have hw := onPath_keep K.toKeepFlags (onPass_keep K.toKeepFlags hv fun q =>
      { q with approach := none, floorReported := false, cutRunStart := runStart k r.s }) fun p =>
        { p with commanded := k.point r.s }
    repeat' split
    · exact endPass_keepTable K hw
    · exact recomputeQuietly_keep K.toKeepWork hw
    · exact recomputeQuietly_keep K.toKeepWork hw
    · exact engageRequest_keep K.toKeepWork (recomputeQuietly_keep K.toKeepWork (onPass_keep K.toKeepFlags hw _)) _
    · exact recompute_keep K.toKeepWork (liftSub_keep K.toKeepWork hw)
    · exact hv
  · exact h

theorem holeThreaded_keepTable : P s.holeThreaded := by
  unfold holeThreaded
  repeat' split
  · exact startPass_keepTable K (onJob_keep K.toKeepWork (changeContour_keep K.toKeepChange
      (armWatch_keep K.toKeepWork h _) _ _) _ rfl rfl)
  · exact beginApproach_keepWork K.toKeepWork h _
  · exact h

/-- What a block makes of a report (log entry 4). -/
theorem handle_keepTable (r : Report) : P (s.handle r) := by
  cases r with
  | moveDone o =>
    cases o with
    | contourTable => exact tableMoveDone_keepWork K.toKeepWork h
    | search => exact searchMoved_keep K.toKeepWork h
    | centre => exact centreMoved_keep K.toKeepWork h
  | moveRefused o =>
    cases o with
    | contourTable => exact faultCurrent_keepTable K h _
    | search => exact threadMoveRefused_keep K.toKeepWork h
    | centre => exact threadMoveRefused_keep K.toKeepWork h
  | engageReached =>
    simp only [handle]
    split
    · exact engageRequest_keep K.toKeepWork h _
    · exact h
  | passEnd =>
    simp only [handle, passEnded]
    repeat' split
    · exact slugFree_keep K.toKeepWork h
    · exact endPass_keepTable K h
    · exact h
  | approachDone => exact takeUp_keepTable K h
  | stuck => exact faultCurrent_keepTable K h _
  | corrupt => exact faultCurrent_keepTable K h _
  | threaded => exact holeThreaded_keepTable K h
  | exhausted =>
    simp only [handle, holeExhausted]
    repeat' split
    · exact faultCurrent_keepTable K h _
    · exact faultCurrent_keepTable K h _
    · exact h
  | threadKeepOut => exact faultCurrent_keepTable K h _
  | gapThreaded =>
    simp only [handle, gapThreaded]
    repeat' split
    · exact beginApproach_keepWork K.toKeepWork h _
    · exact takeUp_keepTable K h
    · exact h
  | gapFailed => exact gapFailed_keepWork K.toKeepWork h
  | withdrawn =>
    simp only [handle, wireWithdrawn]
    split
    · exact towardsHole_keepWork K.toKeepWork h
    · exact stageDone_keepTable K h
    · exact h
  | pullTimedOut => exact faultCurrent_keepTable K h _
  | holderHolding => exact holderHolds_keepWork K.toKeepWork h
  | proceed =>
    simp only [handle, proceed]
    repeat' split
    · exact endPass_keepTable K h
    · exact onJob_keep K.toKeepWork h _ rfl rfl
    · exact h

theorem settle_keepTable : P s.settle := by
  unfold settle
  generalize Config.reportsPerStep = n
  induction n generalizing s with
  | zero => exact h
  | succ n ih =>
    simp only [settleGo]
    split
    · exact h
    · exact ih (handle_keepTable K (K.agenda _ _ h) _)

theorem lineChanged_keepTable (l : Line) : P (s.lineChanged l) := by
  cases l with
  | wireIntact =>
    simp only [lineChanged, wireLine]
    repeat' split
    · exact refreshGen_keep K.toKeepWork h
    · exact h
    · exact threadWireLost_keep K.toKeepWork h
    · exact takeBreak_keepTable K h
    · exact h
    · exact h
  | lowerDetect => exact threadLowerDetect_keep K.toKeepWork h
  | slugPresent =>
    simp only [lineChanged, slugLine]
    repeat' split
    · exact h
    · exact slugGone_keep K.toKeepWork h
    · exact raise_keep K.toKeepFlags h _
    · exact slugGone_keep K.toKeepWork (raise_keep K.toKeepFlags h _)
  | holderEngaged => exact holderLine_keep K.toKeepWork h
  | doorClosed => exact refreshLevels_keep K.toKeepFlags h
  | tankFull => exact refreshLevels_keep K.toKeepFlags h
  | aux0 => exact refreshLevels_keep K.toKeepFlags h
  | aux1 => exact refreshLevels_keep K.toKeepFlags h

end
end State
end Sys2Proof.Machine
end

section
/-! A contour is current in STAGE_A and STAGE_B and in no other job state (R70), after every step. -/

set_option Elab.async false

namespace Sys2Proof.Machine

namespace State

variable {s t : State}

/-! ## Where the job state and the current contour change (R70 to R73, R86, R121) -/

/-- The job state is a stage exactly where a contour is current. -/
theorem stageHasCurrent_iff (s : State) : s.StageHasCurrent ↔
    (s.job.current.isSome = true ↔ s.job.state = .stageA ∨ s.job.state = .stageB) := by
  rw [StageHasCurrent, Bool.eq_iff_iff, decide_eq_true_iff]

theorem StageHasCurrent.congr (h : s.StageHasCurrent) (hs : t.job.state = s.job.state)
    (hc : t.job.current = s.job.current) : t.StageHasCurrent := by
  rwa [StageHasCurrent, hs, hc]

/-- Where no contour is current, the job state is not a stage. -/
theorem StageHasCurrent.none (h : s.StageHasCurrent) (hj : s.job.state ≠ .stageA) (hk : s.job.state ≠ .stageB) :
    s.job.current = none := by
  have := (stageHasCurrent_iff s).mp h
  cases hc : s.job.current with
  | none => rfl
  | some i => rw [hc] at this; simp [hj, hk] at this

theorem keepWork_stage : KeepWork StageHasCurrent where
  path _ _ h := h
  conds _ _ h := h
  modes _ _ h _ := h
  journal _ _ h _ := h
  contours _ _ h := h
  job _ _ h hs hc := h.congr hs hc
  link _ _ h := h
  thread _ _ h := h
  slug _ _ h := h
  holder _ _ h := h
  agenda _ _ h := h
  store _ _ h _ := h

/-- No contour is current. -/
def NoCurrent (s : State) : Prop := s.job.current = none

theorem keepWork_noCurrent : KeepWork NoCurrent where
  path _ _ h := h
  conds _ _ h := h
  modes _ _ h _ := h
  journal _ _ h _ := h
  contours _ _ h := h
  job _ _ h _ hc := hc.trans h
  link _ _ h := h
  thread _ _ h := h
  slug _ _ h := h
  holder _ _ h := h
  agenda _ _ h := h
  store _ _ h _ := h

@[simp] theorem setJobState_state (s : State) (js : JobState) : (s.setJobState js).job.state = js := by
  unfold setJobState
  split
  · assumption
  · rfl

@[simp] theorem setJobState_current (s : State) (js : JobState) : (s.setJobState js).job.current = s.job.current := by
  unfold setJobState
  split <;> rfl

/-- A choice takes a contour into a stage. -/
theorem choice_stage {i : Slot} {js : JobState} (h : s.choice = .take i js) : js = .stageA ∨ js = .stageB := by
  simp only [choice] at h
  repeat' split at h
  all_goals cases h
  all_goals simp

/-- A contour is made current, and the job state a stage. -/
theorem onJob_stage {f : Job → Job} (hj : (f s.job).state = .stageA ∨ (f s.job).state = .stageB)
    (hc : (f s.job).current.isSome = true) : (s.onJob f).StageHasCurrent :=
  (stageHasCurrent_iff _).mpr ⟨fun _ => hj, fun _ => hc⟩

theorem takeContour_stage (s : State) (i : Slot) {js : JobState} (hj : js = .stageA ∨ js = .stageB) :
    (s.takeContour i js).StageHasCurrent := by
  have K := keepWork_stage
  unfold takeContour
  refine giveDue_keepWork K (refreshLevels_keep K.toKeepFlags (onJob_keep K (changeContour_keep K.toKeepChange ?_ i _) _ rfl rfl))
  refine onJob_stage ?_ rfl
  simpa using hj

theorem completeJob_stage (h : s.job.current = none) : s.completeJob.StageHasCurrent := by
  have K := keepWork_stage
  unfold completeJob
  refine progress_keep K.toKeepChange (raise_keep K.toKeepFlags (offer_keep K.toKeepOffer ?_ _) _)
  simp [stageHasCurrent_iff, h]

/-- A choice made with no current contour agrees with the job state it leads to (R71 to R73). -/
theorem applyChoice_stage (h : s.job.current = none) {c : Choice}
    (hc : ∀ i js, c = .take i js → js = .stageA ∨ js = .stageB) : (s.applyChoice c).StageHasCurrent := by
  unfold applyChoice
  cases c with
  | take i js => exact takeContour_stage s i (hc i js rfl)
  | wait => simp [stageHasCurrent_iff, h]
  | complete => exact completeJob_stage h

theorem choose_stage (h : s.job.current = none) : s.choose.StageHasCurrent :=
  applyChoice_stage h fun _ _ => choice_stage

theorem dropCurrent_noCurrent (s : State) : s.dropCurrent.NoCurrent := by
  rw [NoCurrent, (dropCurrent_flags s).toStirs.job]
  rfl

theorem keepTable_stage : KeepTable StageHasCurrent where
  toKeepWork := keepWork_stage
  leave s _ := choose_stage (dropCurrent_noCurrent s)

/-- In SEVER_WAIT no contour is current, and the choice may be made (R72). -/
theorem choose_severWait_stage (h : s.StageHasCurrent) (hw : s.job.state = .severWait) : s.choose.StageHasCurrent :=
  choose_stage (h.none (by simp [hw]) (by simp [hw]))

theorem abort_stage (s : State) : s.abort.StageHasCurrent := by
  have hc (t : State) (h : t.job.current = none) : (t.setJobState .aborted).StageHasCurrent := by
    simp [stageHasCurrent_iff, h]
  unfold abort
  refine forceHold_keep keepWork_stage.toKeepFlags (offer_keep keepWork_stage.toKeepOffer (hc _ ?_) _)
  split
  · exact dropCurrent_noCurrent _
  · assumption

theorem atRest_ne {j : JobState} (h : j.atRest = true) : j ≠ .stageA ∧ j ≠ .stageB := by
  cases j <;> simp_all [JobState.atRest]

theorem start_stage (h : s.StageHasCurrent) (hm : s.mode = .hold) (hr : s.job.state.atRest = true) :
    s.start.StageHasCurrent := by
  have K := keepWork_noCurrent
  have hj : s.NoCurrent := h.none (atRest_ne hr).1 (atRest_ne hr).2
  have ht := toRun_keepWork K (clearJobAndPath_keep K.toKeepFlags hj) (by simpa [mode, clearJobAndPath_modes] using hm)
  exact applyChoice_stage (offer_keep K.toKeepOffer ht _) fun _ _ => choice_stage

theorem takeResumed_stage (s : State) (i : Slot) (n pos : Nat) {js : JobState} (hj : js = .stageA ∨ js = .stageB) :
    (s.takeResumed i n pos js).StageHasCurrent := by
  have K := keepWork_stage
  have horder {w : State} (hw : w.StageHasCurrent) : w.orderResumed.StageHasCurrent := by
    unfold orderResumed
    repeat' split
    · exact takeUp_keepTable keepTable_stage hw
    · exact giveDue_keepWork K hw
    · exact hw
  simp only [takeResumed]
  have hu : (((s.setJobState js).onJob fun j => { j with
      current := some i, resume := some ⟨i, n, pos⟩, work := some .firstOrder, due := true, wire := none
      keptHolding := false, keptProceed := false, stageFrom := n }).changeContour i
        (resumedContour n pos)).refreshLevels.StageHasCurrent := by
    refine refreshLevels_keep K.toKeepFlags (changeContour_keep K.toKeepChange (onJob_stage ?_ rfl) i _)
    simpa using hj
  split
  · split
    · have hv := createPass_keep K hu
      repeat' split
      · exact horder (findStop_keep K (hv _ _ _ _))
      · exact findStop_keep K (hv _ _ _ _)
      · exact hv _ _ _ _
    · exact hu
  · exact hu

theorem startResumed_stage (h : s.StageHasCurrent) (i : Slot) (n pos : Nat) : (s.startResumed i n pos).StageHasCurrent := by
  unfold startResumed
  split
  · refine takeResumed_stage _ i n pos ?_
    unfold resumeStage
    split <;> simp
  · exact h

end State
end Sys2Proof.Machine
end

section
/-! The stages and the current contour agree after every step (R70): lines, requests, the link and the events. -/

set_option Elab.async false

namespace Sys2Proof.Machine

namespace State

variable {s : State}

/-! ## Lines (R149 to R152) -/

theorem putLine_stage (h : s.StageHasCurrent) (l : Line) (r : LineRec) : (s.putLine l r).StageHasCurrent := by
  simp only [putLine]
  split
  · exact h
  · exact lineChanged_keepTable keepTable_stage (s := s.setLine l r) h l

theorem takeLevel_stage (h : s.StageHasCurrent) (l : Line) : (s.takeLevel l).StageHasCurrent := putLine_stage h l _

theorem follow_stage (h : s.StageHasCurrent) (l : Line) : (s.follow l).StageHasCurrent := by
  simp only [follow]
  repeat' split
  · exact h
  · exact takeLevel_stage h l
  · exact h

theorem inputChange_stage (h : s.StageHasCurrent) (l : Line) (high : Bool) : (s.inputChange l high).StageHasCurrent := by
  simp only [inputChange]
  split
  · exact h
  · exact follow_stage (s := s.setLine l _) h l

theorem filterExpiry_stage (h : s.StageHasCurrent) (l : Line) : (s.filterExpiry l).StageHasCurrent := by
  unfold filterExpiry
  split
  · exact takeLevel_stage h l
  · exact h

theorem configure_stage (h : s.StageHasCurrent) (l : Line) (p : Polarity) (f : Nat) (mask : Bool) :
    (s.configure l p f mask).StageHasCurrent := by
  have hrewrite {t : State} (ht : t.StageHasCurrent) : (t.rewrite l p f).StageHasCurrent := by
    have hu := fun r => settle_keepTable keepTable_stage (putLine_stage ht l r)
    simp only [rewrite]
    repeat' split
    · exact ht
    · exact takeLevel_stage (s := nextFree _) (hu _) l
    · exact hu _
    · exact hu _
  have hunmask {t : State} (ht : t.StageHasCurrent) : (t.unmask l).StageHasCurrent :=
    follow_stage (settle_keepTable keepTable_stage (putLine_stage ht l _)) l
  simp only [configure]
  repeat' split
  · exact hunmask (hrewrite (t := s.freeze l) h)
  · exact hunmask (hrewrite h)
  · exact hrewrite (t := s.freeze l) h
  · exact hrewrite h

/-! ## Requests (R173) -/

section
variable {P : State → Prop} {p : Payload}

theorem ofLength_keeps {n : Nat} {f : Payload → State → Answer} (h : P s) (hf : P (f p s).state) :
    P (ofLength n p s f).state := by
  unfold ofLength
  split
  · exact hf
  · exact h

theorem withSlot_keeps {f : Slot → State → Answer} (h : P s) (hf : ∀ i, P (f i s).state) : P (withSlot p s f).state := by
  unfold withSlot
  split
  · exact hf _
  · exact h

theorem withChain_keeps {f : ChainId → State → Answer} (h : P s) (hf : ∀ c, P (f c s).state) :
    P (withChain p s f).state := by
  unfold withChain
  split
  · exact hf _
  · exact h

end

section
variable (h : s.StageHasCurrent) (p : Payload)
include h

theorem writeParam_stage (id width v : Nat) : (writeParam id width v s).state.StageHasCurrent := by
  simp only [writeParam]
  split
  · split
    · exact h
    · rename_i w _ _
      have ht : (if id = 8 then (s.onParams fun q => q.put id w).refreshLevels
          else s.onParams fun q => q.put id w).StageHasCurrent := by
        split
        · exact refreshLevels_keep keepWork_stage.toKeepFlags (s := s.onParams _) h
        · exact h
      split <;> exact ht
  · exact h

theorem takeSetParam_stage : (takeSetParam p s).state.StageHasCurrent := by
  unfold takeSetParam
  split
  · exact h
  · repeat' split
    · simp only [takeTravelWindow]
      repeat' split
      all_goals exact h
    · simp only [takeKeepOut]
      repeat' split
      all_goals exact h
    · unfold takeCorrectedCount
      split <;> exact h
    · exact writeParam_stage h _ _ _
    · exact h
    · exact h

theorem takeGetParam_stage : (takeGetParam p s).state.StageHasCurrent := by
  simp only [takeGetParam]
  repeat' split
  all_goals exact h

theorem chainChanged_stage (c : ChainId) : (s.chainChanged c).StageHasCurrent := by
  unfold chainChanged
  repeat' split
  · exact recompute_keep keepWork_stage h
  · exact refreshLevels_keep keepWork_stage.toKeepFlags (settlePosition_keep keepWork_stage h)
  · exact h

theorem takeOpenChain_stage : (takeOpenChain p s).state.StageHasCurrent := by
  refine ofLength_keeps h (withChain_keeps h fun c => ?_)
  dsimp only
  repeat' split
  all_goals exact h

theorem takeLoadSegments_stage : (takeLoadSegments p s).state.StageHasCurrent := by
  have hload (c k gs) : (s.load c k gs).StageHasCurrent :=
    chainChanged_stage (s := (s.setChain c (some (k.append gs))).onStore _) h c
  unfold takeLoadSegments
  split
  · exact h
  · split
    · exact h
    · refine withChain_keeps h fun c => ?_
      repeat' split
      · exact h
      · exact h
      · exact h
      · exact h
      · exact h
      · exact h
      · exact hload _ _ _

theorem takeCloseChain_stage : (takeCloseChain p s).state.StageHasCurrent := by
  refine ofLength_keeps h (withChain_keeps h fun c => ?_)
  have hclose (k) : ((s.setChain c k).chainChanged c).StageHasCurrent := chainChanged_stage (s := s.setChain c k) h c
  dsimp only
  repeat' split
  · exact h
  · exact h
  · exact h
  · exact h
  · exact h
  · exact hclose _
  · exact h
  · exact hclose _

theorem takeDropChain_stage : (takeDropChain p s).state.StageHasCurrent := by
  refine ofLength_keeps h (withChain_keeps h fun c => ?_)
  repeat' split
  · exact h
  · exact freeChain_keep keepWork_stage h c
  · exact h

theorem takeQueryChain_stage : (takeQueryChain p s).state.StageHasCurrent := by
  refine ofLength_keeps h (withChain_keeps h fun c => ?_)
  dsimp only
  split
  · exact h
  · exact readSlots_keep keepWork_stage h c _

theorem takeDefineContour_stage : (takeDefineContour p s).state.StageHasCurrent := by
  have hdefine (i d) : (s.define i d).StageHasCurrent := by
    have ht : ((bindFrom i 0 d.passes (s.setContour i (some (newContour d)))).contourChanged i).StageHasCurrent := by
      refine contourChanged_keep keepWork_stage.toKeepChange ?_ i
      generalize 0 = n
      have hs : (s.setContour i (some (newContour d))).StageHasCurrent := h
      generalize s.setContour i (some (newContour d)) = t at hs ⊢
      induction d.passes generalizing t n with
      | nil => exact hs
      | cons q qs ih => exact ih _ (t.onChain q.chain _) hs
    simp only [define]
    split
    · exact choose_severWait_stage ht ‹_›
    · exact ht
  unfold takeDefineContour
  split
  · exact h
  · refine withSlot_keeps h fun i => ?_
    repeat' split
    · exact h
    · exact h
    · exact h
    · exact h
    · exact h
    · exact h
    · exact h
    · unfold defined
      split <;> exact hdefine _ _

theorem takeDeleteContour_stage : (takeDeleteContour p s).state.StageHasCurrent := by
  refine ofLength_keeps h (withSlot_keeps h fun i => ?_)
  split
  · exact h
  · rename_i c _
    split
    · exact h
    · have hfree : ∀ (n k : Nat) (t : State), t.StageHasCurrent → (freeFrom i c n k t).StageHasCurrent := by
        intro n
        induction n with
        | zero => exact fun _ _ ht => ht
        | succ n ih => exact fun k t ht => ih _ _ (freePass_keepWork keepWork_stage ht i c k)
      have ht : (((freeFrom i c c.passCount 0 s).setContour i none).contourChanged i).StageHasCurrent :=
        contourChanged_keep keepWork_stage.toKeepChange (s := (freeFrom i c c.passCount 0 s).setContour i none)
          (hfree _ _ _ h) i
      show (s.delete i c).StageHasCurrent
      simp only [delete]
      split
      · exact choose_severWait_stage ht (And.left ‹_›)
      · exact ht

theorem takeStartJob_stage : (takeStartJob p s).state.StageHasCurrent := by
  unfold takeStartJob
  split
  · unfold takeStart
    split
    · rename_i hc
      exact start_stage h hc.1 hc.2.1
    · exact h
  · refine ofLength_keeps h (withSlot_keeps h fun i => ?_)
    repeat' split
    · exact h
    · exact h
    · exact h
    · exact startResumed_stage h _ _ _

theorem takeAbortJob_stage : (takeAbortJob p s).state.StageHasCurrent := by
  refine ofLength_keeps h ?_
  split
  · exact abort_stage s
  · exact h

theorem takeHold_stage : (takeHold p s).state.StageHasCurrent := by
  refine ofLength_keeps h ?_
  split <;> exact h

theorem takeResume_stage : (takeResume p s).state.StageHasCurrent := by
  refine ofLength_keeps h ?_
  split
  · exact toRun_keepWork keepWork_stage h (And.left ‹_›)
  · exact h

theorem takePark_stage : (takePark p s).state.StageHasCurrent := by
  have hentry {t : State} (ht : t.StageHasCurrent) : t.parkEntry.StageHasCurrent := by
    unfold parkEntry
    split <;> exact ht
  have hask {t : State} (ht : t.StageHasCurrent) : t.askPark.StageHasCurrent := parkIfDue_keep keepWork_stage.toKeepFlags ht
  refine ofLength_keeps h ?_
  split
  · exact hask (t := s.holdEntry) h
  · exact hask h
  · exact h
  · exact hentry h

theorem takeWake_stage : (takeWake p s).state.StageHasCurrent := by
  refine ofLength_keeps h ?_
  split
  · exact wakeCell_keep keepWork_stage.toKeepFlags h
  all_goals exact h

theorem takeSkipContour_stage : (takeSkipContour p s).state.StageHasCurrent := by
  have hother (i c) : (s.skipOther i c).StageHasCurrent := by
    have ht := changeContour_keep keepWork_stage.toKeepChange h i fun c => { c with state := .skipped }
    simp only [skipOther]
    split
    · exact choose_severWait_stage ht (And.left ‹_›)
    · exact ht
  have hskip (i) : (s.skipCurrent i).StageHasCurrent := skipCurrent_keepTable keepTable_stage h i
  refine ofLength_keeps h (withSlot_keeps h fun i => ?_)
  split
  · exact h
  · split
    case h_1 => exact hother _ _
    case h_2 => exact hother _ _
    case h_3 => exact hother _ _
    case h_4 => exact done_same (hskip i)
    case h_10 => exact h
    case h_11 => exact h
    case h_12 => exact h
    case h_13 => exact h
    all_goals
      split
      · exact h
      · exact done_same (hskip i)

theorem release_stage (named : Slot → Bool) : (s.release named).StageHasCurrent := by
  obtain ⟨v, hv, -⟩ := foldl_onContour named Contour.released (List.finRange 64) s
  have ht : (s.withContours v).StageHasCurrent := h
  rw [← hv] at ht
  simp only [release]
  split
  · exact choose_severWait_stage ht (And.right ‹_›)
  · exact ht

theorem takeReleaseSever_stage : (takeReleaseSever p s).state.StageHasCurrent := by
  refine ofLength_keeps h ?_
  split
  · exact release_stage h _
  · refine withSlot_keeps h fun i => ?_
    repeat' split
    · exact h
    · exact release_stage h _
    · exact h

theorem takeConfirmSlug_stage : (takeConfirmSlug p s).state.StageHasCurrent := by
  refine ofLength_keeps h (withSlot_keeps h fun i => ?_)
  split
  · exact dropEnds_keep keepWork_stage h _
  · exact h

theorem takeRethreadDone_stage : (takeRethreadDone p s).state.StageHasCurrent := by
  refine ofLength_keeps h (withSlot_keeps h fun i => ?_)
  split
  · exact takeUp_keepTable keepTable_stage h
  · exact h

theorem takeConfigLine_stage : (takeConfigLine p s).state.StageHasCurrent := by
  refine ofLength_keeps h ?_
  repeat' split
  · exact h
  · exact configure_stage h _ _ _ _
  · exact configure_stage h _ _ _ _
  · exact h

/-- The requests that change no record but their own block's, and report. -/
theorem ofLength_same {n : Nat} {f : Payload → State → Answer} (hf : (f p s).state.job = s.job) :
    (ofLength n p s f).state.StageHasCurrent :=
  ofLength_keeps h (h.congr (by rw [hf]) (by rw [hf]))

theorem answerTo_stage (kind : Byte) : (answerTo kind p s).state.StageHasCurrent := by
  unfold answerTo
  split
  · rename_i f hf
    unfold requestOf at hf
    split at hf <;> cases hf
    · exact ofLength_same h p rfl
    · exact ofLength_same h p rfl
    · exact ofLength_same h p rfl
    · exact ofLength_same h p rfl
    · exact takeSetParam_stage h p
    · exact takeGetParam_stage h p
    · exact takeOpenChain_stage h p
    · exact takeLoadSegments_stage h p
    · exact takeCloseChain_stage h p
    · exact takeDropChain_stage h p
    · exact takeQueryChain_stage h p
    · exact takeDefineContour_stage h p
    · exact takeDeleteContour_stage h p
    · exact ofLength_keeps h (withSlot_keeps h fun _ => h)
    · exact takeStartJob_stage h p
    · exact takeAbortJob_stage h p
    · exact takeHold_stage h p
    · exact takeResume_stage h p
    · exact takePark_stage h p
    · exact takeWake_stage h p
    · exact takeSkipContour_stage h p
    · exact takeReleaseSever_stage h p
    · exact ofLength_keeps h (by split <;> exact h)
    · exact takeConfirmSlug_stage h p
    · exact takeRethreadDone_stage h p
    · exact ofLength_keeps h (writeParam_stage h _ _ _)
    · exact takeConfigLine_stage h p
    · exact ofLength_keeps h (by split <;> exact h)
    · exact ofLength_keeps h (by split <;> exact h)
    · exact ofLength_same h p rfl
    · exact ofLength_keeps h (by split <;> exact h)
    · exact ofLength_keeps h (by repeat' split
                                 all_goals exact h)
    · exact ofLength_keeps h (by split <;> exact h)
  · exact h

end

/-! ## The link (R172 to R174) -/

section
variable (h : s.StageHasCurrent)
include h

theorem arbitrate_stage : s.arbitrate.StageHasCurrent := h.congr (by rw [(arbitrate_sends s).job]) (by rw [(arbitrate_sends s).job])

theorem takeNext_stage : s.takeNext.StageHasCurrent := by
  unfold takeNext
  repeat' split
  · rename_i f rest _
    exact settle_keepTable keepTable_stage (answerTo_stage (s := s.onLink _) h f.payload f.kind)
  · exact h
  · exact h

theorem goodFrame_stage (f : Frame) : (s.goodFrame f).StageHasCurrent := by
  unfold goodFrame
  split
  · exact takeNext_stage (s := s.onLink _) h
  · exact raise_keep keepWork_stage.toKeepFlags (s := s.onLink _) h _

theorem receive_stage (bs : List Byte) : (s.receive bs).StageHasCurrent := by
  unfold receive
  generalize s.link.collecting ++ bs = bs
  generalize bs.length = n
  induction n generalizing s bs with
  | zero => exact h
  | succ n ih =>
    cases bs with
    | nil => exact h
    | cons b bs =>
      simp only [scanBytes]
      repeat' split
      · exact h
      · exact ih (arbitrate_stage (raise_keep keepWork_stage.toKeepFlags (s := s.onLink _) h _)) _
      · exact ih (arbitrate_stage (goodFrame_stage h _)) _
      · exact ih h _

/-! ## Events and the step -/

theorem finish_stage : s.finish.StageHasCurrent := arbitrate_stage (settle_keepTable keepTable_stage h)

/-- An event that keeps the property in its own part keeps it in its step. -/
theorem event_stage {f : State → State} (hf : ∀ t : State, t.StageHasCurrent → (f t).StageHasCurrent) :
    (s.event f).StageHasCurrent :=
  finish_stage (hf _ (settle_keepTable keepTable_stage (s := s.settleWrite) h))

theorem request_stage (kind tag : Byte) (p : Payload) : (s.request kind tag p).StageHasCurrent :=
  event_stage h fun _ ht => receive_stage ht _

theorem transmitEnd_stage : s.transmitEnd.StageHasCurrent := by
  unfold transmitEnd
  split
  · exact takeNext_stage (arbitrate_stage (s := s.onLink _) h)
  · exact h

end

theorem resetStep_stage (s : State) (k : ResetKind) : (s.resetStep k).StageHasCurrent :=
  finish_stage (refreshLevels_keep keepWork_stage.toKeepFlags (s := s.cleared k) rfl)

/-- The events of a gap sample and of a drive update (R54, R62). -/
theorem gapStep_stage (h : s.StageHasCurrent) (voltage pulses shorts opens : Nat) :
    (s.gapStep voltage pulses shorts opens).StageHasCurrent := by
  have K := keepWork_stage
  simp only [gapStep]
  repeat' split
  · rename_i r k q _ _ _
    have hc : (s.countSample r (sampleCase q pulses shorts opens) (s.floorOf r)).StageHasCurrent := by
      simp only [countSample]
      refine decideGapOpen_keep K.toKeepFlags ?_
      split
      · exact raise_keep K.toKeepFlags (onPass_keep K.toKeepFlags h _) _
      · exact onPass_keep K.toKeepFlags h _
    generalize s.countSample r (sampleCase q pulses shorts opens) (s.floorOf r) = t at hc ⊢
    simp only [applySample]
    have ht := readSlots_keep K hc
    have hclamp (u : State) (hu : u.StageHasCurrent) (f p b) : (u.reportClamp r f p b).StageHasCurrent := by
      unfold reportClamp
      repeat' split
      · exact onPass_keep K.toKeepFlags (raise_keep K.toKeepFlags hu _) _
      · exact onPass_keep K.toKeepFlags hu _
      · exact hu
    have hu (l f p b) := movePass_keep K (hclamp _ (ht r.chain l) f p b) k p
    split
    · split
      · split
        · exact arrive_keep K (hu _ _ _ _)
        · unfold retracted
          repeat' split
          · exact recomputeQuietly_keep K (chooseSetting_keep K (hu _ _ _ _))
          · exact recomputeQuietly_keep K (hu _ _ _ _)
          · exact hu _ _ _ _
      · exact report_keep K (genOff_keep K.toKeepFlags (hu _ _ _ _)) _
    · exact ht _ _
  · exact h
  · exact h

theorem motionStep_stage (h : s.StageHasCurrent) : s.motionStep.StageHasCurrent := by
  have K := keepWork_stage
  have ht := readSlots_keep K h
  have hdry (r k) : (s.dryStep r k).StageHasCurrent := by
    simp only [dryStep]
    repeat' split
    · exact arrive_keep K (movePass_keep K (ht _ _) _ _)
    · exact movePass_keep K (ht _ _) _ _
    · exact ht _ _
  have happroach (r k a) : (s.approachStep r k a).StageHasCurrent := by
    simp only [approachStep]
    repeat' split
    · exact report_keep K (onPass_keep K.toKeepFlags (onPath_keep K.toKeepFlags (ht _ _) _) _) _
    · exact onPass_keep K.toKeepFlags (onPath_keep K.toKeepFlags (ht _ _) _) _
    · exact ht _ _
  unfold motionStep
  repeat' split
  · exact rapidStep_keep K h _
  · exact happroach _ _ _
  · exact hdry _ _
  · exact h
  · exact h
  · exact h

theorem eraseComplete_stage (h : s.StageHasCurrent) : s.eraseComplete.StageHasCurrent := by
  have ht (p) := setLive_keep keepWork_stage.toKeepFlags (s := s.onJournal fun j => j.eraseDone p) h .journalBlocked
  simp only [eraseComplete]
  repeat' split
  · exact ht _ _
  · exact ht _ _
  · exact h

theorem exec_stage {i : Instr} {t : State} (hs : s.StageHasCurrent) (h : exec i s = .next t) : t.StageHasCurrent := by
  have K := keepWork_stage
  cases i
  case powerOn => exact next_keep h (resetStep_stage s _)
  case resetLine => exact next_keep h (resetStep_stage s _)
  case receiveFrame bytes => exact next_keep h (event_stage hs fun _ ht => receive_stage ht bytes)
  case transmitEnd =>
    refine next_keep h ?_
    split
    · exact resetStep_stage s _
    · exact event_stage hs fun _ ht => transmitEnd_stage ht
  case journalEraseComplete => exact next_keep h (event_stage hs fun _ ht => eraseComplete_stage ht)
  case lineInputChange l high => exact next_keep h (event_stage hs fun _ ht => inputChange_stage ht l high)
  case lineFilterExpiry l => exact next_keep h (event_stage hs fun _ ht => filterExpiry_stage ht l)
  case axisFaultInput fault =>
    exact next_keep h (event_stage hs fun t ht => refreshLevels_keep K.toKeepFlags (s := t.onSensors _) ht)
  case genFaultInput fault =>
    exact next_keep h (event_stage hs fun t ht => refreshLevels_keep K.toKeepFlags (s := t.onSensors _) ht)
  case wakeSettleExpiry =>
    refine next_keep h (event_stage hs fun t ht => ?_)
    unfold settleExpiry
    split <;> exact ht
  case gapSample v p n o => exact next_keep h (event_stage hs fun _ ht => gapStep_stage ht v p n o)
  case driveUpdate =>
    exact next_keep h (event_stage hs fun _ ht => onPath_keep K.toKeepFlags
      (settle_keepTable keepTable_stage (motionStep_stage ht)) _)
  case tipCutExpiry => exact next_keep h (event_stage hs fun _ ht => tipCutDone_keep K ht)
  case feedTimeoutExpiry => exact next_keep h (event_stage hs fun _ ht => feedTimedOut_keep K ht)
  case retractExpiry => exact next_keep h (event_stage hs fun _ ht => retractDone_keep K ht)
  case unthreadCutExpiry => exact next_keep h (event_stage hs fun _ ht => unthreadCutDone_keep K ht)
  case pullTimeoutExpiry => exact next_keep h (event_stage hs fun _ ht => pullTimedOut_keep K ht)
  case dropWaitExpiry =>
    refine next_keep h (event_stage hs fun t ht => ?_)
    unfold dropExpiry
    split
    · exact dropExpired_keep K ht
    · exact ht
  case holderEngageTimeout => exact next_keep h (event_stage hs fun _ ht => engageTimedOut_keep K ht)
  case holderReleaseTimeout => exact next_keep h (event_stage hs fun _ ht => releaseTimedOut_keep K ht)
  all_goals exact next_keep h (request_stage hs _ _ _)

end State

/-- Settles O37: a contour becomes current with the stage that it is taken into, and the choice that follows its leaving
finds none current. -/
theorem stageAndCurrentContourAgree : Obligations.StageAndCurrentContourAgree := by
  intro s t h hstep
  unfold step at hstep
  split at hstep
  · refine State.next_keep hstep ?_
    unfold State.idle State.upsetSlot
    repeat' split
    all_goals exact h
  · rename_i rest _
    have hp : (s.withPending rest).StageHasCurrent := h
    exact State.exec_stage hp hstep

end Sys2Proof.Machine
end

section
/-! The transmitter: what it chooses at the end of a frame (R174, R157, R175, R176), and that it has nothing waiting while it
is free. -/

set_option Elab.async false

namespace Sys2Proof.Machine

namespace State

variable {s t : State}

/-! ## Every command ends with the arbiter -/

theorem arbitrate_settled (s : State) : s.arbitrate.LinkSettled := by
  unfold LinkSettled arbitrate
  split
  · rename_i h
    intro hn
    rw [hn] at h
    cases h
  · split
    · nofun
    · rename_i hr
      repeat' split
      · nofun
      · nofun
      · nofun
      · exact fun _ => ⟨hr, by simpa using ‹¬s.noticePending = true›, by simpa using ‹¬s.link.progressPending = true›⟩

theorem finish_settled (s : State) : s.finish.LinkSettled := arbitrate_settled _

/-- Whatever a command does, its end is the end that every command has. -/
theorem exec_linkSettled {i : Instr} (h : exec i s = .next t) : t.LinkSettled := by
  cases i
  case transmitEnd =>
    refine next_keep h ?_
    split <;> exact finish_settled _
  all_goals exact next_keep h (finish_settled _)

theorem idle_linkSettled (h : s.LinkSettled) : s.idle.LinkSettled := by
  unfold idle upsetSlot
  repeat' split
  all_goals exact h

theorem step_linkSettled (h : s.LinkSettled) (hstep : step s = .next t) : t.LinkSettled := by
  unfold step at hstep
  split at hstep
  · exact next_keep hstep (idle_linkSettled h)
  · exact exec_linkSettled hstep

/-! ## The end of a frame -/

/-- The frame in transmission has been sent. -/
def freed (s : State) : State := s.onLink fun l => { l with sending := none }

theorem transmitEnd_exec {f : TxFrame} (hs : s.Steady) (hf : s.link.sending = some f) (hr : s.link.resetTaken = false) :
    exec .transmitEnd s = .next s.freed.arbitrate.takeNext.finish := by
  have hd : s.resetDue = false := by rw [resetDue, hr]; rfl
  have he : s.transmitEnd = s.freed.arbitrate.takeNext := by
    unfold transmitEnd
    rw [hf]
    rfl
  show Host.Outcome.next (if s.resetDue = true then _ else s.event State.transmitEnd) = _
  rw [hd, if_neg (by decide), event_eq hs, he]

theorem finish_sending (ha : s.agenda = []) (h : s.link.sending.isSome = true) : s.finish = s := by
  rw [finish, settle_nil s ha, arbitrate_sending s h]

theorem takeNext_replying (h : s.replying = true) : s.takeNext = s := by
  simp [takeNext, ready, h]

theorem takeNext_empty (h : s.link.queue = []) : s.takeNext = s := by
  unfold takeNext
  rw [h]
  simp

theorem takeNext_serves {q : Frame} {qs : List Frame} (h : s.link.queue = q :: qs) (hr : s.ready = true) :
    s.takeNext = (s.onLink fun l => { l with queue := qs }).serve q := by
  rw [takeNext, if_pos hr, h]

/-! ## What a free transmitter takes -/

section
variable (hfree : s.link.sending = none)
include hfree

theorem arbitrate_reply {r : Frame} {rs : List Frame} (h : s.link.replies = r :: rs) :
    s.arbitrate = (s.send .reply r).onLink fun l => { l with replies := rs } := by
  rw [arbitrate, hfree, h]
  rfl

variable (hrep : s.link.replies = [])
include hrep

theorem arbitrate_notice (h : s.noticePending = true) : s.arbitrate = s.takeNotice := by
  rw [arbitrate, hfree, hrep]
  simp [h]

theorem arbitrate_progress (hn : s.noticePending = false) (h : s.link.progressPending = true) :
    s.arbitrate = s.takeProgress := by
  rw [arbitrate, hfree, hrep]
  simp [hn, h]

theorem arbitrate_startup (hn : s.noticePending = false) (hp : s.link.progressPending = false) :
    s.arbitrate = if s.link.startupDue = true then s.takeStartup else s := by
  rw [arbitrate, hfree, hrep]
  simp [hn, hp]

end

theorem progressBytes_eq (s : State) : progressBytes s = progressRecord s := by
  have hr : s.reported = if s.job.current.isSome then s.job.current else s.job.lastChanged := by
    unfold reported
    cases s.job.current <;> rfl
  simp only [progressBytes, progressRecord, reportedBytes, reportedFront, reportedFault, hr]
  rfl

/-- The part whose transmitter has taken a PROGRESS (R66, R156, R175). -/
def progressSent (s : State) : State :=
  { s with
    link := { s.link with sending := some ⟨.progress, ⟨0x7E, 0, progressRecord s⟩⟩, progressPending := false }
    sensors := { s.sensors with slugReference := s.active .slugPresent }
    path := { s.path with pass := s.path.pass.map fun r => { r with segsCompleted := 0 } } }

theorem freed_takeProgress (s : State) : s.freed.takeProgress = s.progressSent := by
  have h : progressBytes s.freed = progressRecord s := progressBytes_eq s.freed
  rw [takeProgress, h]
  rfl

end State

/-- Settles O12: the arbiter's choice by its cases, at the end of the frame and at the end of every step. -/
theorem transmitterChoosesInOrder : Obligations.TransmitterChoosesInOrder := by
  refine ⟨fun s t h hstep => State.step_linkSettled h hstep, fun s f hs hf hr => ?_⟩
  have hend := State.transmitEnd_exec hs hf hr
  have ha : s.agenda = [] := hs.1
  refine ⟨fun r rs hrep => ?_, fun hrep hq => ⟨fun hn => ?_, fun hn hp => ?_, fun hn hp => ?_⟩,
    fun q qs hrep hq hd => ⟨fun hn hp => ?_, fun hn hp => ?_⟩⟩
  · rw [hend, State.arbitrate_reply rfl (s := s.freed) hrep, State.takeNext_replying rfl, State.finish_sending]
    · rfl
    · exact ha
    · rfl
  · rw [State.arbitrate_notice rfl (s := s.freed) hrep hn, State.takeNext_empty (s := s.freed.takeNotice) hq,
      State.finish_sending (s := s.freed.takeNotice) ha rfl] at hend
    exact ⟨_, hend, rfl, fun c => State.mapConds_cond _ _ c, rfl⟩
  · rw [hend, State.arbitrate_progress rfl (s := s.freed) hrep hn hp, State.freed_takeProgress,
      State.takeNext_empty (s := s.progressSent) hq, State.finish_sending (s := s.progressSent) ha rfl]
    rfl
  · have harb := State.arbitrate_startup rfl (s := s.freed) hrep hn hp
    cases hsd : s.link.startupDue with
    | true =>
      rw [if_pos (show s.freed.link.startupDue = true from hsd)] at harb
      rw [hend, harb, State.takeNext_empty (s := s.freed.takeStartup) hq,
        State.finish_sending (s := s.freed.takeStartup) ha rfl]
      rfl
    | false =>
      rw [if_neg (by rw [show s.freed.link.startupDue = false from hsd]; decide)] at harb
      rw [hend, harb, State.takeNext_empty (s := s.freed) hq, State.finish, State.settle_nil s.freed ha, harb]
      rfl
  · have harb := State.arbitrate_startup rfl (s := s.freed) hrep hn hp
    rw [if_neg (by rw [show s.freed.link.startupDue = false from hd]; decide)] at harb
    rw [hend, harb, State.takeNext_serves (s := s.freed) hq (by simp [State.ready, State.freed, State.onLink, State.replying, *])]
    rfl
  · rw [hend, State.arbitrate_progress rfl (s := s.freed) hrep hn hp, State.freed_takeProgress,
      State.takeNext_serves (s := s.progressSent) hq (by simp [State.ready, State.progressSent, State.replying, *])]
    rfl

end Sys2Proof.Machine
end

section
/-! START_JOB without a resume point is refused (R76). -/

set_option Elab.async false

namespace Sys2Proof.Machine

namespace State

variable {s : State}

theorem anyStopped_iff (s : State) : s.anyStopped = true ↔ ∃ i c, s.contour i = some c ∧ c.state = .stopped := by
  constructor
  · intro h
    obtain ⟨i, hi⟩ := Option.isSome_iff_exists.mp h
    have hf := List.find?_some hi
    cases hc : s.contour i with
    | none => simp [hc] at hf
    | some c => exact ⟨i, c, hc, by simpa [hc] using hf⟩
  · rintro ⟨i, c, hc, hst⟩
    exact firstSlot_some hc (by simpa using hst)

/-- No hold-forcing level condition is live where the mode may become RUN (R143). -/
theorem mayRun_iff (s : State) : s.mayRun = true ↔
    ∀ c ∈ [Cond.doorOpen, .tankLow, .axisFault, .genFault, .journalBlocked], (s.cond c).live = false := by
  simp [mayRun, live, and_assoc]

end State

theorem takeStart_refused {s : State} (h : ¬(s.mode = .hold ∧ s.job.state.atRest = true ∧ s.anyStopped = false ∧
    s.mayRun = true)) : answerTo 0x30 [] s = refuse s .wrongState := by
  show takeStart s = _
  rw [takeStart, if_neg h]

/-- Settles O29: each of the four causes fails one of the checks of R76. -/
theorem startJobRefusals : Obligations.StartJobRefusals := by
  intro tag s hq hcause
  refine congrArg _ (State.request_refused hq (by simp) (takeStart_refused ?_))
  rintro ⟨hm, hrest, hst, hrun⟩
  rcases hcause with h | h | h | ⟨c, hc, hlive⟩
  · exact h hm
  · rcases h with h | h | h <;> rw [h] at hrest <;> cases hrest
  · rw [(State.anyStopped_iff s).mpr h] at hst
    cases hst
  · rw [(State.mayRun_iff s).mp hrun c hc] at hlive
    cases hlive

end Sys2Proof.Machine
end

section
/-! ABORT_JOB (R86). -/

set_option Elab.async false

namespace Sys2Proof.Machine

namespace State

variable {s t : State}

/-- The job is ABORTED, flags apart. -/
def aborted (s : State) (j : Journal) : State :=
  ((s.onJob fun b => { b with state := .aborted }).withJournal j).progress

theorem Stirs.abortJob (h : s.Stirs t) (hs : s.job.state ≠ .aborted) : ∃ j,
    (s.aborted j).Stirs ((t.setJobState .aborted).offer (jobRecord .aborted none)) := by
  rw [setJobState, if_neg (by rwa [h.job])]
  exact ⟨_, ((h.apart (apart_onJob _)).apart apart_progress).offer _⟩

/-- HOLD forced in RUN or HOLD is HOLD (R140). -/
theorem Stirs.forceHold_modes (h : s.Stirs t) (hm : s.modes.mode = .run ∨ s.modes.mode = .hold) :
    t.forceHold.modes = { s.modes with mode := .hold } := by
  rcases h.modes with e | ⟨-, e⟩ | ⟨hp, -⟩
  · rcases hm with hm | hm
    · rw [forceHold_mode (by rwa [e]), e]
    · rw [forceHold_of_ne (by rw [e, hm]; nofun), e, ← hm]
  · rw [forceHold_of_ne (by rw [e]; nofun), e]
  · rcases hm with hm | hm <;> rw [hm] at hp <;> cases hp

theorem Stirs.dropCurrent (h : s.Stirs t) : s.noCurrent.Stirs t.dropCurrent :=
  (h.apart (apart_onJob _)).trans (dropCurrent_flags t).toStirs

/-- The part once its current contour is STOPPED and the job ABORTED, flags apart. -/
def stopped (s : State) (i : Slot) (j : Journal) : State :=
  { s with
    contours := (s.onContour i fun c => { c with state := .stopped }).contours
    job := { idleJob s.job with state := .aborted, current := none, resume := none, lastChanged := some i }
    path := { s.path with pass := none, rapid := none, genOn := false }
    thread := none, slug := s.slug.left i, holder := s.holder.left i, journal := j
    link := { s.link with progressPending := true }, agenda := [] }

theorem stopped_eq (s : State) (i : Slot) (j k : Journal) :
    (((((s.workEnded i s.modes).onContour i fun c => { c with state := .stopped }).changed i j).noCurrent).aborted k) =
      s.stopped i k := by
  obtain ⟨_, _, _, _, _, _, _, _, _, _, _, _, _, _, _, _⟩ := s
  rfl

theorem noCurrent_jobState (s : State) (i : Slot) (f : Contour → Contour) (m : ModeUnit) (j : Journal) :
    ((((s.workEnded i m).onContour i f).changed i j).noCurrent).job.state = s.job.state := by
  obtain ⟨_, _, _, _, _, _, _, _, _, _, _, _, _, _, _, _⟩ := s
  rfl

/-- ABORT_JOB with a current contour, but for the mode and flags. -/
theorem abort_current {i : Slot} (hi : s.job.current = some i) (hs : s.job.state ≠ .aborted)
    (hp : s.modes.parkPending = false) (hm : s.modes.mode = .run ∨ s.modes.mode = .hold) :
    ∃ j, (s.stopped i j).Stirs s.abort ∧ s.abort.modes = { s.modes with mode := .hold } := by
  obtain ⟨m, h, hmm⟩ := endWork_stirs s i
  obtain ⟨j, h1⟩ := (h.apart (apart_onContour i fun c => { c with state := .stopped })).contourChanged i
  obtain ⟨k, h3⟩ := h1.dropCurrent.abortJob (by rwa [noCurrent_jobState])
  rw [hmm (.inr hp), stopped_eq] at h3
  rw [abort, hi]
  exact ⟨k, h3.trans (forceHold_stirs _), h3.forceHold_modes hm⟩

/-- ABORT_JOB in SEVER_WAIT, but for the mode and flags. -/
theorem abort_noCurrent (hi : s.job.current = none) (hs : s.job.state ≠ .aborted)
    (hm : s.modes.mode = .run ∨ s.modes.mode = .hold) :
    ∃ j, (s.aborted j).Stirs s.abort ∧ s.abort.modes = { s.modes with mode := .hold } ∧
      s.abort.path.genOn = false := by
  obtain ⟨j, h⟩ := (genOff_stirs s).abortJob hs
  have hg := ((offer_flags (s.genOff.setJobState .aborted) (jobRecord .aborted none)).trans (.refl _)).genOff (by
    rw [setJobState]; split <;> rfl)
  rw [abort, hi]
  exact ⟨j, h.trans (forceHold_stirs _), h.forceHold_modes hm, (forceHold_stirs _).genOff hg⟩

end State

theorem takeAbort_refused {s : State} (h : ¬((s.mode = .run ∨ s.mode = .hold) ∧ s.job.state.underWay = true)) :
    answerTo 0x31 [] s = refuse s .wrongState :=
  if_neg h

theorem takeAbort_done {s : State} (h : (s.mode = .run ∨ s.mode = .hold) ∧ s.job.state.underWay = true) :
    answerTo 0x31 [] s = done s.abort :=
  if_pos h

theorem JobState.underWay_iff (j : JobState) : j.underWay = true ↔ j = .stageA ∨ j = .stageB ∨ j = .severWait := by
  cases j <;> simp [JobState.underWay, JobState.atRest]

theorem SlugRecords.left_watch (g : SlugRecords) (i : Slot) : (g.left i).watch = none := by
  rw [SlugRecords.left]; split <;> rfl

/-- Settles O32: what ABORT_JOB leaves of the part is the stopped contour's work ended, the job ABORTED and HOLD forced. -/
theorem abortStopsTheCurrentContour : Obligations.AbortStopsTheCurrentContour := by
  intro tag s hq
  refine ⟨fun h => congrArg _ (State.request_refused hq (by simp) (takeAbort_refused ?_)), fun hm hp hj => ?_⟩
  · rintro ⟨hm, hu⟩
    rw [JobState.underWay_iff] at hu
    rcases h with (h | h) | (h | h | h) <;> simp_all [State.mode]
  have ha := takeAbort_done ⟨hm, s.job.state.underWay_iff.mpr hj⟩
  have hs : s.job.state ≠ .aborted := by rcases hj with h | h | h <;> rw [h] <;> nofun
  refine ⟨fun i c hi hc => ?_, fun hi => ?_⟩
  · obtain ⟨j, h, hmodes⟩ := State.abort_current hi hs hp hm
    generalize s.abort = u at ha h hmodes
    have hlink : u.link = { s.link with progressPending := true } := h.link
    have hjob : u.job = { State.idleJob s.job with
      state := .aborted, current := none, resume := none, lastChanged := some i } := h.job
    refine ⟨u, congrArg _ (State.request_is hq (by simp) ha (h.agenda.trans hq.1.1.symm) ?_ ?_ ?_), ?_, ?_, ?_, ?_, ?_,
      fun k hk => ?_, h.pass_none rfl, h.rapid, h.genOff rfl, h.commanded, h.thread, ?_, hmodes, ?_, h.store, h.params,
      h.sensors, by rw [hlink]⟩
    · show u.link.collecting = _; rw [hlink]
    · show u.link.replies = _; rw [hlink]
    · show u.link.sending = _; rw [hlink]
    · rw [hjob]
    · rw [hjob]
    · rw [hjob]
    · rw [hjob]
    · rw [h.contour]
      exact (State.contour_onContour_same s i _).trans (by rw [hc]; rfl)
    · rw [h.contour]
      exact State.contour_onContour_ne s hk _
    · rw [h.slug]
      exact s.slug.left_watch i
    · rw [h.holder]; rfl
  · obtain ⟨j, h, hmodes, hgen⟩ := State.abort_noCurrent hi hs hm
    generalize s.abort = u at ha h hmodes hgen
    have hlink : u.link = { s.link with progressPending := true } := h.link
    refine ⟨u, congrArg _ (State.request_is hq (by simp) ha h.agenda ?_ ?_ ?_), h.job, h.contours, hmodes, hgen, h.store⟩
    · show u.link.collecting = _; rw [hlink]
    · show u.link.replies = _; rw [hlink]
    · show u.link.sending = _; rw [hlink]

end Sys2Proof.Machine
end

section
/-! SUPPORT. The contour that the choice takes (R71), and the part when it has been taken (R74). -/

set_option Elab.async false

namespace Sys2Proof.Machine.State

variable {s t : State}

/-- The lowest slot with a property, where it is known. -/
theorem firstSlot_eq {f : Contour → Bool} {i : Slot} {c : Contour} (hc : s.contour i = some c) (hf : f c = true)
    (hlow : ∀ j k, j < i → s.contour j = some k → f k = false) : s.firstSlot f = some i := by
  rw [firstSlot, List.find?_eq_some_iff_getElem]
  refine ⟨by simp only [hc]; exact hf, i.val, by simp, by simp, fun j hj => ?_⟩
  have hlow := hlow ⟨j, hj.trans i.isLt⟩
  simp only [List.getElem_finRange, Fin.cast_mk]
  cases hk : s.contour ⟨j, hj.trans i.isLt⟩ with
  | none => rfl
  | some k => simp only [hlow k hj hk, Bool.not_false]

/-- Outside stage B the lowest QUEUED contour is taken for stage A (R71). -/
theorem choice_queued {i : Slot} (hj : s.job.state ≠ .stageB)
    (hq : (s.firstSlot fun c => decide (c.state = .queued)) = some i) : s.choice = .take i .stageA := by
  rw [choice, hq, decide_eq_false hj]

/-- With no contour QUEUED the lowest eligible one is taken for stage B (R71). -/
theorem choice_eligible {i : Slot} (he : s.firstSlot Contour.eligible = some i)
    (hq : (s.firstSlot fun c => decide (c.state = .queued)) = none) : s.choice = .take i .stageB := by
  rw [choice, he, hq]
  cases hj : decide (s.job.state = .stageB) with
  | true => rfl
  | false => rfl

/-! ## The contour is taken (R74) -/

/-- The job's registers once a contour has been taken. -/
def takenJob (i : Slot) (js : JobState) (n : Nat) (b : Job) : Job :=
  { b with
    state := js, current := some i, resume := none, lastChanged := some i, work := some .firstOrder, due := true
    wire := none, keptHolding := false, keptProceed := false, stageFrom := n }

/-- The part when a contour has been taken, before its first order, flags apart. -/
def takenAt (s : State) (i : Slot) (js : JobState) (n : Nat) (j : Journal) : State :=
  { s with
    contours := (s.onContour i takenContour).contours, job := takenJob i js n s.job, journal := j
    link := { s.link with progressPending := true } }

/-- The part when a contour has been taken, before its first order. -/
def taken (s : State) (i : Slot) (js : JobState) : State :=
  let u := ((s.setJobState js).onJob fun j => { j with
    current := some i, resume := none, work := some .firstOrder, due := true, wire := none
    keptHolding := false, keptProceed := false }).changeContour i takenContour
  (u.onJob fun j => { j with stageFrom := match u.contour i with
    | some c => c.passIndex
    | none => 0 }).refreshLevels

theorem takeContour_eq (s : State) (i : Slot) (js : JobState) : s.takeContour i js = (s.taken i js).giveDue := rfl

theorem taken_flags {i : Slot} {c : Contour} (hc : s.contour i = some c) (js : JobState) :
    ∃ r, (s.takenAt i js (takenContour c).passIndex (s.journal.take r)).Flags (s.taken i js) := by
  obtain ⟨b, hset⟩ := s.setJobState_eq js
  rw [taken, hset]
  generalize hx : ((s.onJob fun j => { j with state := js }).onLink fun l => { l with progressPending := b }).onJob
    (fun j => { j with
      current := some i, resume := none, work := some .firstOrder, due := true, wire := none
      keptHolding := false, keptProceed := false }) = x
  have h := contourChanged_flags (x.onContour i takenContour) i
  have hcon : (x.changeContour i takenContour).contour i = some (takenContour c) := by
    refine (h.contour i).trans ((contour_onContour_same x i takenContour).trans ?_)
    rw [← hx]
    exact congrArg (Option.map takenContour) hc
  rw [hcon]
  generalize (x.onContour i takenContour).stateRecord i = r at h
  refine ⟨r, ?_⟩
  have hu := (h.apart (apart_onJob fun j => { j with stageFrom := (takenContour c).passIndex })).trans (refreshLevels_flags _)
  have e : ((x.onContour i takenContour).changed i ((x.onContour i takenContour).journal.take r)).onJob
      (fun j => { j with stageFrom := (takenContour c).passIndex }) =
        s.takenAt i js (takenContour c).passIndex (s.journal.take r) := by
    rw [← hx]
    rfl
  rw [e] at hu
  exact hu

theorem giveDue_waits (hm : s.modes.mode ≠ .run) : s.giveDue = s := by
  rw [giveDue, if_neg]
  simp [running, hm]

end Sys2Proof.Machine.State
end

section
/-! A release in SEVER_WAIT (R71, R82, R83). -/

set_option Elab.async false

namespace Sys2Proof.Machine

/-- A released BRIDGED contour with an ATTENDED bridge is eligible for stage B. -/
theorem Contour.eligible_attended {c : Contour} (ha : c.defn.attended = true) :
    c.eligible = (decide (c.state = .bridged) && c.severReleased) := by
  rw [Contour.eligible]
  unfold ContourDef.attended at ha
  cases hb : c.defn.bridge with
  | none => rw [hb] at ha; cases ha
  | some b =>
    rw [hb] at ha
    show (_ && (decide (b.attendance = .unattended) || c.severReleased)) = _
    rw [of_decide_eq_true ha]
    rfl

theorem Contour.releasable_bridged {c : Contour} (hst : c.state = .bridged) (ha : c.defn.attended = true) :
    c.releasable = true := by
  rw [Contour.releasable, ha, hst]
  rfl

namespace State

variable {s : State}

/-- A fresh release in SEVER_WAIT sets the field of the contour named, and makes the choice. -/
theorem release_chooses {i : Slot} {c : Contour} (hj : s.job.state = .severWait) (hc : s.contour i = some c)
    (hst : c.state = .bridged) (ha : c.defn.attended = true) (hr : c.severReleased = false) :
    ∃ v, s.release (fun k => decide (k = i)) = (s.withContours v).choose ∧
      (s.withContours v).contour i = some { c with severReleased := true } ∧
      ∀ j, j ≠ i → (s.withContours v).contour j = s.contour j := by
  obtain ⟨v, hv, hcs⟩ := foldl_onContour (fun k => decide (k = i)) Contour.released (List.finRange 64) s
  have hcs := hcs (List.nodup_finRange 64)
  have hrel := Contour.releasable_bridged hst ha
  have hfresh : ((List.finRange 64).any fun k => decide (k = i) && (match s.contour k with
      | some c => c.freshRelease
      | none => false)) = true := by
    refine List.any_eq_true.mpr ⟨i, List.mem_finRange i, ?_⟩
    simp [hc, Contour.freshRelease, hrel, hst, hr]
  refine ⟨v, ?_, ?_, fun j hj => ?_⟩
  · have e : (List.finRange 64).foldl (fun t k => if decide (k = i) then t.onContour k fun c =>
        if c.releasable then { c with severReleased := true } else c else t) s = s.withContours v := hv
    simp only [release, e, withContours_job, hj]
    exact if_pos ⟨hfresh, trivial⟩
  · rw [hcs i, if_pos ⟨List.mem_finRange i, decide_eq_true rfl⟩, hc, Option.map_some, Contour.released, if_pos hrel]
  · rw [hcs j, if_neg fun h => hj (of_decide_eq_true h.2)]

end State

/-- Settles O35: the released contour is the one eligible, and in HOLD its first order waits. -/
theorem releaseInSeverWaitTakesAContour : Obligations.ReleaseInSeverWaitTakesAContour := by
  intro tag i c s hq hj hc hst ha hr hm hno
  obtain ⟨v, hrelease, hcon, hoth⟩ := State.release_chooses hj hc hst ha hr
  have hans : answerTo 0x37 [byte i.val] s = done ((s.withContours v).choose) := by
    show takeReleaseSever [byte i.val] s = _
    rw [takeReleaseSever, ofLength_one, if_neg (by rw [u8_byte (slot_lt i)]; omega), withSlot_byte, hc]
    simp only [Contour.releasable_bridged hst ha, if_true, hrelease]
  have hel : (s.withContours v).firstSlot Contour.eligible = some i := by
    refine State.firstSlot_eq hcon ?_ fun j k hlt hk => ?_
    · rw [Contour.eligible_attended (by exact ha), hst]
      rfl
    · obtain ⟨-, hb⟩ := hno j k (hoth j hlt.ne ▸ hk)
      cases hkb : decide (k.state = .bridged) with
      | false => rw [Contour.eligible, hkb, Bool.false_and]
      | true =>
        obtain ⟨hka, hkr⟩ := hb (of_decide_eq_true hkb)
        rw [Contour.eligible_attended hka, hkr, Bool.and_false]
  have hqu : ((s.withContours v).firstSlot fun c => decide (c.state = .queued)) = none := by
    refine State.firstSlot_none fun j k hk => decide_eq_false ?_
    by_cases hji : j = i
    · rw [hji, hcon] at hk
      rw [← Option.some.inj hk, hst]
      nofun
    · exact (hno j k (hoth j hji ▸ hk)).1
  obtain ⟨r, h⟩ := State.taken_flags hcon .stageB
  have hmode : ((s.withContours v).taken i .stageB).modes.mode ≠ .run := by
    rw [h.toStirs.modes_of_hold hm]
    exact hm ▸ nofun
  rw [State.choose, State.choice_eligible hel hqu, State.applyChoice, State.takeContour_eq, State.giveDue_waits hmode] at hans
  generalize (s.withContours v).taken i .stageB = u at h hans
  have hlink : u.link = { s.link with progressPending := true } := h.link
  refine ⟨u, congrArg _ (State.request_is hq (by simp) hans h.agenda ?_ ?_ ?_), ?_, ?_, ?_, fun j hji => ?_, ?_⟩
  · show u.link.collecting = _; rw [hlink]
  · show u.link.replies = _; rw [hlink]
  · show u.link.sending = _; rw [hlink]
  · rw [h.job]; rfl
  · rw [h.job]; rfl
  · refine (h.contour i).trans ((State.contour_onContour_same _ i _).trans ?_)
    rw [hcon, Option.map_some, State.takenContour, if_pos (by exact hst)]
  · exact (h.contour j).trans ((State.contour_onContour_ne _ hji _).trans (hoth j hji))
  · rw [h.job]; rfl

end Sys2Proof.Machine
end

section
/-! START_JOB without a resume point, taken (R71, R74, R76). -/

set_option Elab.async false

namespace Sys2Proof.Machine

/-- A record written to a journal with room takes the next slot. -/
theorem Journal.Room.take_nextSlot {j : Journal} {n : Nat} (h : j.Room (n + 1)) (r : JRecord) :
    (j.take r).nextSlot = j.nextSlot + 1 := by
  obtain ⟨ha, hq, -, hs, m, hm, hmax⟩ := h
  obtain ⟨p, hp⟩ := Option.isSome_iff_exists.mp ha
  have hne : m ≠ Config.maxSequence := by omega
  have hcan : (j.canWrite && j.queue.isEmpty) = true := by
    simp only [Journal.canWrite, hp, hm, hq, Option.isSome_some, List.isEmpty_nil, Bool.and_true, Bool.true_and,
      decide_eq_true_eq]
    omega
  have hw : (j.writeRecord r).nextSlot = j.nextSlot + 1 ∧ (j.writeRecord r).queue = [] := by
    simp only [Journal.writeRecord, hp, hm, hq, and_self]
  have happ : j.append r = j.writeRecord r := by
    rw [Journal.append]
    refine if_neg ?_
    rw [hw.1]
    omega
  rw [Journal.take, if_pos hcan, happ, Journal.drain, hw.2]
  simp [Journal.drainGo, hw]

namespace State

variable {s t : State}

/-! ## Latches cleared, and kept clear -/

theorem clearLatch_latch (s : State) (c d : Cond) :
    ((s.clearLatch c).cond d).latch = (!decide (d = c) && (s.cond d).latch) := by
  by_cases h : d = c
  · subst h
    rw [clearLatch, cond_setCond_same]
    simp
  · rw [clearLatch, cond_setCond_ne s h]
    simp [h]

theorem clearJobAndPath_latch (s : State) {d : Cond} (hd : d ∈ Cond.jobOrPath) : (s.clearJobAndPath.cond d).latch = false := by
  have hl (l : List Cond) (s : State) (h : d ∈ l ∨ (s.cond d).latch = false) :
      ((l.foldl clearLatch s).cond d).latch = false := by
    induction l generalizing s with
    | nil => exact h.resolve_left List.not_mem_nil
    | cons c l ih =>
      refine ih _ ?_
      rw [clearLatch_latch]
      rcases h with h | h
      · rcases List.mem_cons.mp h with rfl | h
        · exact .inr (by simp)
        · exact .inl h
      · exact .inr (by rw [h, Bool.and_false])
  exact hl _ s (.inl hd)

/-- Without a running pass no level condition of the Job and Path groups has a source (R53). -/
theorem levelValue_noPass (hp : s.path.pass = none) {d : Cond} (hd : d ∈ Cond.jobOrPath) : s.levelValue d = false := by
  have hlow : s.chainLowSource = false := by rw [chainLowSource, hp]
  have hst : s.chainStarvedSource = false := by rw [chainStarvedSource, hp]
  have hsrc : s.source d = false := by
    simp only [Cond.jobOrPath, List.mem_cons, List.not_mem_nil, or_false] at hd
    rcases hd with rfl | rfl | rfl | rfl | rfl | rfl | rfl
    · exact hlow
    · exact hst
    all_goals rfl
  rw [levelValue, hsrc, Bool.and_false]

theorem offer_jobOrPath (s : State) (r : JRecord) {d : Cond} (hd : d ∈ Cond.jobOrPath) :
    ((s.offer r).cond d).latch = (s.cond d).latch :=
  setLive_latch (s.onJournal fun j => j.take r) fun h => absurd (h ▸ hd) (by decide)

/-- The taking of a contour without a running pass latches nothing of the Job and Path groups. -/
theorem taken_latch (hp : s.path.pass = none) (i : Slot) (js : JobState) {d : Cond} (hd : d ∈ Cond.jobOrPath) :
    ((s.taken i js).cond d).latch = (s.cond d).latch := by
  obtain ⟨b, hset⟩ := s.setJobState_eq js
  rw [taken, hset]
  generalize hx : ((s.onJob fun j => { j with state := js }).onLink fun l => { l with progressPending := b }).onJob
    (fun j => { j with
      current := some i, resume := none, work := some .firstOrder, due := true, wire := none
      keptHolding := false, keptProceed := false }) = x
  have hpass : (x.changeContour i takenContour).path.pass = none :=
    (contourChanged_flags (x.onContour i takenContour) i).pass_none (by rw [← hx]; exact hp)
  have hlatch : ((x.changeContour i takenContour).cond d).latch = (s.cond d).latch := by
    refine (offer_jobOrPath ((x.onContour i takenContour).onJob fun j => { j with lastChanged := some i }) _ hd).trans ?_
    rw [← hx]
    rfl
  generalize x.changeContour i takenContour = u at hpass hlatch
  exact (refreshLevels_latch (s := u.onJob _) fun _ => levelValue_noPass (s := u.onJob _) hpass hd).trans hlatch

/-! ## The mode becomes RUN, and the JOB record is offered (R76) -/

/-- The part when START_JOB has set the mode to RUN and its JOB record is written, before the choice is carried out. -/
structure ReadyToStart (s t : State) : Prop where
  rest : t = { s with
    path := { s.path with genOn := false }, modes := { s.modes with mode := .run, parkPending := false }
    conds := t.conds, journal := t.journal }
  calm : t.NoHoldCause
  room : t.journal.Room 1
  nextSlot : t.journal.nextSlot = s.journal.nextSlot + 1
  clear : ∀ d ∈ Cond.jobOrPath, (t.cond d).latch = false

theorem start_run (hidle : s.NothingUnderWay) (hno : s.NoHoldCause) :
    s.clearJobAndPath.toRun = { s with
      path := { s.path with genOn := false }, modes := { s.modes with mode := .run, parkPending := false }
      conds := s.clearJobAndPath.toRun.conds } ∧ s.clearJobAndPath.toRun.NoHoldCause ∧
    ∀ d ∈ Cond.jobOrPath, (s.clearJobAndPath.toRun.cond d).latch = false := by
  obtain ⟨-, hdue, hpass, -, hthread, hdrop, hreq⟩ := hidle
  obtain ⟨hclear, hlive⟩ := s.clearJobAndPath_conds
  have hlatch := fun d => s.clearJobAndPath_latch (d := d)
  generalize s.clearJobAndPath = a at hclear hlive hlatch
  have hrun := toRun_idle (s := a) (by rw [hclear]; exact hpass) (by rw [hclear]; exact hthread)
    (by rw [hclear]; exact hdue) (by rw [hclear]; exact hdrop) (by rw [hclear]; exact hreq)
  have hano : a.NoHoldCause := hno.congr (fun c _ => hlive c) (by rw [hclear]; rfl) (by rw [hclear]; rfl)
  generalize ha : (a.onModes fun m => { m with mode := .run, parkPending := false }) = b at hrun
  have hbp : b.path.pass = none := by rw [← ha, hclear]; exact hpass
  have hcalm := (genOff_flags b).calm (by rw [← ha]; nofun) (by rw [← ha]; exact hano.congr (fun _ _ => rfl) rfl rfl)
  rw [hrun]
  refine ⟨?_, hcalm.2, fun d hd => (b.genOff_latch d).trans (by rw [← ha]; exact hlatch d hd)⟩
  have hb : b = { s with modes := { s.modes with mode := .run, parkPending := false }, conds := a.conds } := by
    rw [← ha, hclear]
    rfl
  rw [genOff_noPass hbp]
  generalize b.genOff.conds = v
  rw [hb]
  rfl

theorem start_ready (hidle : s.NothingUnderWay) (hno : s.NoHoldCause) (hroom : s.journal.Room 2) (rec : JRecord) :
    ReadyToStart s (s.clearJobAndPath.toRun.offer rec) := by
  obtain ⟨hrest, hcalm, hclear⟩ := start_run hidle hno
  generalize s.clearJobAndPath.toRun = b at hrest hcalm hclear
  have hj : b.journal = s.journal := by rw [hrest]
  obtain ⟨hsig, hroom', hno'⟩ := offer_signals (n := 1) (by rw [hrest]; nofun) hcalm (by rw [hj]; exact hroom) rec
  refine ⟨?_, hno', hroom', ?_, fun d hd => (b.offer_jobOrPath rec hd).trans (hclear d hd)⟩
  · conv_lhs => rw [hsig.only]
    rw [hsig.journal, hrest]
    rfl
  · rw [hsig.journal, ← hj]
    exact (hj ▸ hroom : b.journal.Room 2).take_nextSlot rec

/-! ## The first order (R74) -/

theorem askOrder_inRun (hm : s.modes.mode = .run) (w : Work) : s.askOrder w = s.order w := if_pos (running_of_run hm)

/-- The order for the rapid move to the start hole (R74, R113). -/
theorem order_holeRapid {i : Slot} {c : Contour} (hi : s.job.current = some i) (hc : s.contour i = some c)
    (hne : s.path.commanded ≠ c.defn.centre) (hkept : s.store.lineKeptOut s.path.commanded c.defn.centre = false) :
    s.order .holeRapid = s.holeMove c.defn.centre := by
  rw [order, curContour_eq hi hc, hi]
  exact orderRapid_begins (s := s.onJob fun j => { j with work := some .holeRapid, due := false }) hne hkept

/-- The first order of a contour newly taken, LOWER_DETECT inactive, is the rapid move to its start hole. -/
theorem giveDue_holeMove {i : Slot} {c : Contour} (hm : s.modes.mode = .run) (hd : s.job.due = true)
    (hw : s.job.work = some .firstOrder) (hi : s.job.current = some i) (hc : s.contour i = some c)
    (hst : c.state = .threading) (hlow : s.active .lowerDetect = false) (hne : s.path.commanded ≠ c.defn.centre)
    (hkept : s.store.lineKeptOut s.path.commanded c.defn.centre = false) : s.giveDue = s.holeMove c.defn.centre := by
  have hrun := running_of_run hm
  have hnew : ¬ (c.state = .reentry ∧ c.passIndex ≠ 0) := by rw [hst]; exact fun h => nomatch h.1
  rw [giveDue, if_pos (by rw [hrun, hd]; rfl), hw]
  dsimp only
  rw [firstOrder, hlow, if_neg (by decide), towardsHole, curContour_eq hi hc]
  dsimp only
  rw [if_neg hnew, askOrder_inRun hm, order_holeRapid hi hc hne hkept]

end State

theorem takeStart_done {s : State} (h : s.mode = .hold ∧ s.job.state.atRest = true ∧ s.anyStopped = false ∧
    s.mayRun = true) : answerTo 0x30 [] s = done s.start := by
  show takeStart s = _
  rw [takeStart, if_pos h]

namespace State

variable {s : State} {i : Slot} {c : Contour}

/-- What START_JOB leaves where it takes a QUEUED contour away from its start hole. -/
structure JobStarted (i : Slot) (c : Contour) (s t : State) : Prop where
  job : ∃ b, t.job = { s.job with
    state := .stageA, current := some i, resume := none, lastChanged := some i, work := some .holeRapid, due := false
    wire := none, keptHolding := false, keptProceed := false, stageFrom := b }
  contours : t.contours = (s.onContour i takenContour).contours
  modes : t.modes = { s.modes with mode := .run, parkPending := false }
  clear : ∀ d ∈ Cond.jobOrPath, (t.cond d).latch = false
  nextSlot : t.journal.nextSlot = s.journal.nextSlot + 2
  link : t.link = { s.link with progressPending := true }
  path : t.path = { s.path with
    genOn := false
    rapid := some ⟨s.path.commanded, c.defn.centre, distance s.path.commanded c.defn.centre, 0, .contourTable⟩ }
  store : t.store = s.store
  thread : t.thread = s.thread
  holder : t.holder = s.holder
  slug : t.slug = s.slug
  params : t.params = s.params
  sensors : t.sensors = s.sensors
  agenda : t.agenda = s.agenda

/-- The part ready to start takes the contour and orders the move to its start hole. -/
theorem takeContour_started {x : State} (h : ReadyToStart s x) (hp : s.path.pass = none) (hc : s.contour i = some c)
    (hst : c.state = .queued) (hlow : s.active .lowerDetect = false) (hne : s.path.commanded ≠ c.defn.centre)
    (hkept : s.store.lineKeptOut s.path.commanded c.defn.centre = false) :
    JobStarted i c s (x.takeContour i .stageA) := by
  obtain ⟨hrest, hcalm, hroom, hslot, hclear⟩ := h
  have hxp : x.path.pass = none := by rw [hrest]; exact hp
  have hxc : x.contour i = some c := by rw [hrest]; exact hc
  have htaken : takenContour c = { c with state := .threading } := by rw [takenContour, if_neg (by rw [hst]; nofun)]
  obtain ⟨r, hf⟩ := taken_flags hxc .stageA
  have hblocked : (x.journal.take r).blocked = false := (hroom.take r).2.2.1
  obtain ⟨hmodes, -⟩ := hf.calm (by show x.modes.mode ≠ _; rw [hrest]; nofun)
    (hcalm.congr (fun _ _ => rfl) rfl (hblocked.trans hcalm.2.2.2.2.2.symm))
  have hlatch := fun d => taken_latch (d := d) hxp i .stageA
  have hcon := contour_onContour_same x i takenContour
  rw [hxc, Option.map_some, htaken] at hcon
  rw [takeContour_eq]
  generalize x.taken i .stageA = u at hf hmodes hlatch
  have hjob : u.job = takenJob i .stageA (takenContour c).passIndex s.job := hf.job.trans (by rw [hrest]; rfl)
  have hmodes' : u.modes = { s.modes with mode := .run, parkPending := false } := hmodes.trans (by
    show x.modes = _
    rw [hrest])
  have hcmd : u.path.commanded = s.path.commanded := hf.commanded.trans (by
    show x.path.commanded = _
    rw [hrest])
  have hstore : u.store = s.store := hf.store.trans (by show x.store = _; rw [hrest])
  have hsens : u.sensors = s.sensors := hf.sensors.trans (by show x.sensors = _; rw [hrest])
  have hgive := giveDue_holeMove (s := u) (by rw [hmodes']) (by rw [hjob]; rfl) (by rw [hjob]; rfl) (by rw [hjob]; rfl)
    ((hf.contour i).trans hcon) rfl (by rw [active, lineRec, hsens]; exact hlow) (by rw [hcmd]; exact hne)
    (by rw [hstore, hcmd]; exact hkept)
  have hpass := hf.pass_none hxp
  have hgen := hf.genOff (by show x.path.genOn = _; rw [hrest])
  have hpath : u.path = { s.path with genOn := false } := by
    rw [hf.path, hpass, hgen, ← hp]
    show { x.path with pass := s.path.pass, genOn := false } = _
    rw [hrest]
  rw [hgive]
  refine ⟨⟨(takenContour c).passIndex, ?_⟩, ?_, hmodes', fun d hd => (hlatch d hd).trans (hclear d hd), ?_, ?_, ?_,
    hstore, ?_, ?_, ?_, ?_, hsens, ?_⟩
  · show { u.job with work := some .holeRapid, due := false } = _
    rw [hjob]
    rfl
  · refine hf.contours.trans ?_
    rw [hrest]
    rfl
  · show u.journal.nextSlot = _
    rw [hf.journal]
    show (x.journal.take r).nextSlot = _
    rw [hroom.take_nextSlot, hslot]
  · refine hf.link.trans ?_
    rw [hrest]
    rfl
  · show { u.path with rapid := some ⟨u.path.commanded, c.defn.centre, distance u.path.commanded c.defn.centre, 0,
      .contourTable⟩ } = _
    rw [hcmd, hpath]
  · exact hf.thread.trans (by rw [hrest]; rfl)
  · exact hf.holder.trans (by rw [hrest]; rfl)
  · exact hf.slug.trans (by rw [hrest]; rfl)
  · exact hf.params.trans (by rw [hrest]; rfl)
  · exact hf.agenda.trans (by rw [hrest]; rfl)

end State

/-- Settles O30: the lowest QUEUED contour is the choice, and its first order the move to its start hole. -/
theorem startJobTakesTheLowestQueuedContour : Obligations.StartJobTakesTheLowestQueuedContour := by
  intro tag i c s hq hm hj hstopped hno hidle hroom hc hst hlowest hlow hne hkept
  have hcleared := (State.start_run hidle hno).1
  have hany : s.anyStopped = false := by
    rw [Bool.eq_false_iff, Ne, State.anyStopped_iff]
    rintro ⟨j, k, hk, hks⟩
    exact hstopped j k hk hks
  have hans := takeStart_done ⟨hm, atRest_of hj, hany, hno.1⟩
  have hchoice : s.clearJobAndPath.toRun.choice = .take i .stageA := by
    refine State.choice_queued (by rw [hcleared]; rcases hj with h | h | h <;> rw [h] <;> nofun)
      (State.firstSlot_eq (c := c) (by rw [hcleared]; exact hc) (decide_eq_true hst) fun j k hlt hk =>
        decide_eq_false (hlowest j k hlt (by rw [hcleared] at hk; exact hk)))
  have hready := State.start_ready hidle hno hroom.room (State.jobRecord .stageA (some i))
  rw [State.start, hchoice] at hans
  have h := State.takeContour_started hready hidle.2.2.1 hc hst hlow hne hkept
  replace hans : answerTo 0x30 [] s = done
    ((s.clearJobAndPath.toRun.offer (State.jobRecord .stageA (some i))).takeContour i .stageA) := hans
  generalize (s.clearJobAndPath.toRun.offer (State.jobRecord .stageA (some i))).takeContour i .stageA = u at hans h
  obtain ⟨b, hjob⟩ := h.job
  refine ⟨u, congrArg _ (State.request_is hq (by simp) hans h.agenda ?_ ?_ ?_), by rw [hjob], by rw [hjob], by rw [hjob], ?_,
    fun j hji => ?_, h.modes, h.clear, h.nextSlot, by rw [h.link], by rw [h.path], ?_, by rw [h.path], by rw [h.path],
    h.store, ?_, h.holder, h.slug, h.params, h.sensors⟩
  · show u.link.collecting = _; rw [h.link]
  · show u.link.replies = _; rw [h.link]
  · show u.link.sending = _; rw [h.link]
  · rw [State.contour, h.contours]
    refine (State.contour_onContour_same s i _).trans ?_
    rw [hc, Option.map_some, State.takenContour, if_neg (by rw [hst]; nofun)]
  · rw [State.contour, h.contours]
    exact State.contour_onContour_ne s hji _
  · rw [h.path]
    exact hidle.2.2.1
  · exact h.thread.trans hidle.2.2.2.2.1

end Sys2Proof.Machine
end

section
/-! The end of a drop wait, and an early drop (R112, R125, R127, R128). -/

set_option Elab.async false

namespace Sys2Proof.Machine

namespace State

variable {s t u : State}

/-! ## The drop wait expires (R127) -/

/-- A condition that does not wake the cell leaves the mode unit alone (R146, R153). -/
theorem latch_modes_of_asleep {c : Cond} (h : c.wakes = false) (s : State) : (s.latch c).modes = s.modes := by
  simp only [State.latch, h, Bool.false_eq_true, if_false]
  repeat' split
  all_goals rfl

theorem dropExpired_stirs (s : State) :
    (s.onSlug fun g => { g with drop := .expired, dropTimer := none }).Stirs s.dropExpired :=
  (raise_flags _ _).toStirs.trans (forceHold_stirs _)

theorem dropExpired_modes (s : State) :
    (s.modes.mode = .run → s.dropExpired.modes = { s.modes with mode := .hold }) ∧
      (s.modes.mode ≠ .run → s.dropExpired.modes = s.modes) := by
  have h : ((s.onSlug fun g => { g with drop := .expired, dropTimer := none }).raise .slugStuck).modes = s.modes := by
    rw [raise_always rfl, latch_modes_of_asleep rfl]
    rfl
  rw [dropExpired]
  generalize (s.onSlug fun g => { g with drop := .expired, dropTimer := none }).raise .slugStuck = u at h
  exact ⟨fun hm => by rw [forceHold_mode (by rwa [h]), h], fun hm => by rw [forceHold_of_ne (by rwa [h]), h]⟩

theorem dropExpired_latch (s : State) : (s.dropExpired.cond .slugStuck).latch = s.raisedLatch .slugStuck :=
  (forceHold_latch _ _).trans ((congrArg (fun u : State => (u.cond .slugStuck).latch)
    (raise_always rfl (s.onSlug fun g => { g with drop := .expired, dropTimer := none }))).trans (latch_raised _ _))

theorem Sends.contours (h : s.Sends t) : t.contours = s.contours := by rw [h.rest]

/-! ## The watched slug drops early (R125) -/

theorem earlyDrop_stirs (s : State) (i : Slot) :
    (((s.onSlug fun g => { g with watch := none }).setRetention i .droppedEarly)).Stirs (s.earlyDrop i) :=
  (raise_flags _ _).toStirs.trans ((genOff_stirs _).trans (forceHold_stirs _))

theorem earlyDrop_genOn (s : State) (i : Slot) : (s.earlyDrop i).path.genOn = false :=
  (forceHold_stirs _).genOff rfl

theorem earlyDrop_latch (s : State) (i : Slot) : ((s.earlyDrop i).cond .slugEarly).latch = s.raisedLatch .slugEarly := by
  rw [earlyDrop, forceHold_latch, genOff_latch, raise_always rfl, latch_raised]
  rfl

theorem earlyDrop_latch_ne (s : State) (i : Slot) {d : Cond} (hd : d ≠ .slugEarly) :
    ((s.earlyDrop i).cond d).latch = (s.cond d).latch := by
  rw [earlyDrop, forceHold_latch, genOff_latch, raise_latch_ne _ hd]
  rfl

/-- HOLD forced by an early drop: from RUN it is HOLD, and in HOLD and WAKING the mode stays (R140). -/
theorem earlyDrop_modes (h : s.Stirs t) (i : Slot) :
    (s.modes.mode = .run → (t.earlyDrop i).modes = { s.modes with mode := .hold }) ∧
      (s.modes.mode = .hold ∨ s.modes.mode = .waking → (t.earlyDrop i).modes = s.modes) := by
  have ht : ((s.onSlug fun g => { g with watch := none }).setRetention i .droppedEarly).Stirs
      ((((t.onSlug fun g => { g with watch := none }).setRetention i .droppedEarly).raise .slugEarly).genOff) :=
    ((h.apart (apart_onSlug _)).apart (apart_onContour i _)).trans ((raise_flags _ _).toStirs.trans (genOff_stirs _))
  have hm := ht.forceHold_modes
  have hs := (ht.trans (forceHold_stirs _)).modes
  rw [← earlyDrop] at hm hs
  refine ⟨fun hr => hm (.inl hr), fun hw => ?_⟩
  rcases hs with e | ⟨hr, -⟩ | ⟨hp, -⟩
  · exact e
  · replace hr : s.modes.mode = .run := hr
    rcases hw with hw | hw <;> rw [hw] at hr <;> cases hr
  · replace hp : s.modes.mode = .park := hp
    rcases hw with hw | hw <;> rw [hw] at hp <;> cases hp

/-! ## SLUG_PRESENT has changed (R125, R127, R156) -/

/-- SLUG_CHANGE, decided when SLUG_PRESENT has become inactive (R156). -/
def slugChanged (s : State) : State := if s.sensors.slugReference = true then s.raise .slugChange else s

theorem slugChanged_flags (s : State) : s.Flags s.slugChanged := by
  unfold slugChanged
  split
  · exact raise_flags s _
  · exact .refl s

theorem slugChanged_latch (s : State) : (s.slugChanged.cond .slugChange).latch =
    if s.sensors.slugReference = true then s.raisedLatch .slugChange else (s.cond .slugChange).latch := by
  unfold slugChanged
  split
  · rw [raise_always rfl, latch_raised]
  · rfl

theorem slugLine_gone (h : s.active .slugPresent = false) : s.slugLine = s.slugChanged.slugGone := by
  have e : (if s.active .slugPresent = s.sensors.slugReference then s else s.raise .slugChange) = s.slugChanged := by
    rw [slugChanged, h]
    cases s.sensors.slugReference <;> rfl
  have ha : s.slugChanged.active .slugPresent = false := (s.slugChanged_flags.active _).trans h
  simp only [slugLine, e, ha, Bool.false_eq_true, if_false]

theorem slugGone_early {i : Slot} (hd : s.slug.drop = .idle) (hw : s.slug.watch = some i) : s.slugGone = s.earlyDrop i := by
  rw [slugGone, if_pos hd, hw]

/-- A drop wait that ends leaves the retention written, the wait IDLE, and its report. -/
theorem dropEnds_eq {i : Slot} (hd : s.slug.dropContour = some i) (r : Retention) :
    s.dropEnds r = ((s.setRetention i r).dropIdle).report .proceed := by
  rw [dropEnds, hd]

theorem slugGone_ends {i : Slot} (hd : s.slug.drop ≠ .idle) (hc : s.slug.dropContour = some i) :
    s.slugGone = ((s.setRetention i .dropped).dropIdle).report .proceed := by
  rw [slugGone, if_neg hd, dropEnds_eq hc]

/-! ## The contour proceeds (R80, R112) -/

theorem proceed_kept {i : Slot} {c : Contour} (hi : s.job.current = some i) (hc : s.contour i = some c)
    (hst : c.state = .reentry ∨ c.state = .reentryWait) : s.proceed = s.onJob fun j => { j with keptProceed := true } := by
  have hcut : s.cutting = false := by
    rw [cutting, curContour_eq hi hc]
    rcases hst with h | h <;> simp only [h] <;> rfl
  have hre : s.reentering = true := by
    rw [reentering, curContour_eq hi hc]
    rcases hst with h | h <;> simp only [h] <;> rfl
  rw [proceed, hcut, hre]
  rfl

theorem proceed_ends {i : Slot} {c : Contour} (hi : s.job.current = some i) (hc : s.contour i = some c)
    (hst : c.state = .cutting ∨ c.state = .severing) : s.proceed = s.endPass := by
  have hcut : s.cutting = true := by
    rw [cutting, curContour_eq hi hc]
    rcases hst with h | h <;> simp only [h] <;> rfl
  rw [proceed, hcut]
  rfl

theorem nextRole_last {c : Contour} (h : c.defn.passes.length = c.passIndex + 1) : nextRole c = none := by
  rw [nextRole, List.getElem?_eq_none (by omega)]
  rfl

/-- What the end of a last pass leaves in HOLD, where the UNTHREAD of the stage waits for RUN (R79, R81). -/
structure EndsStage (i : Slot) (c : Contour) (s t : State) : Prop where
  contour : t.contour i = some { c with state := .unthreading }
  others : ∀ j, j ≠ i → t.contour j = s.contour j
  job : t.job = { s.job with lastChanged := some i, work := some .stageUnthread, due := true }
  slug : t.slug = s.slug
  pass : t.path.pass = none
  genOff : t.path.genOn = false
  commanded : t.path.commanded = s.path.commanded
  modes : t.modes = s.modes
  store : t.store = s.store
  link : t.link = { s.link with progressPending := true }
  agenda : t.agenda = s.agenda

theorem endPass_endsStage {i : Slot} {c : Contour} (hi : s.job.current = some i) (hc : s.contour i = some c)
    (hn : nextRole c = none) (hm : s.modes.mode = .hold) : EndsStage i c s s.endPass := by
  obtain ⟨j, h⟩ := ((discardPass_stirs s).apart
    (apart_onContour i fun c => { c with state := .unthreading })).contourChanged i
  have e : s.endPass =
      (s.discardPass.changeContour i fun c => { c with state := .unthreading }).askOrder .stageUnthread := by
    rw [endPass, hi, curContour_eq hi hc]
    dsimp only
    rw [hn]
  rw [← changeContour] at h
  generalize s.discardPass.changeContour i (fun c => { c with state := .unthreading }) = w at h e
  have hmodes : w.modes = s.modes := h.modes_of_hold hm
  have hwait : s.endPass = w.onJob fun j => { j with work := some .stageUnthread, due := true } :=
    e.trans (if_neg (by simp [running, hmodes, hm]))
  rw [hwait]
  refine ⟨(h.contour i).trans ?_, fun k hk => (h.contour k).trans ?_, ?_, h.slug, h.pass_none rfl, h.genOff rfl,
    h.commanded, hmodes, h.store, h.link, h.agenda⟩
  · exact (contour_onContour_same (s.onPath fun p => { p with pass := none, genOn := false }) i _).trans
      (congrArg (Option.map _) hc)
  · exact contour_onContour_ne (s.onPath fun p => { p with pass := none, genOn := false }) hk _
  · show { w.job with work := some .stageUnthread, due := true } = _
    rw [h.job]
    rfl

/-- The part when the drop wait has ended with a retention. -/
def waitEnded (s : State) (i : Slot) (r : Retention) : State := (s.setRetention i r).dropIdle

theorem waitEnded_contour {i : Slot} {c : Contour} (hc : s.contour i = some c) (r : Retention) :
    (s.waitEnded i r).contour i = some { c with retention := r } :=
  (contour_onContour_same s i _).trans (congrArg (Option.map _) hc)

theorem waitEnded_contour_ne {i j : Slot} (h : j ≠ i) (r : Retention) : (s.waitEnded i r).contour j = s.contour j :=
  contour_onContour_ne s h _

end State

section
variable {s : State} (hs : s.Steady) (i : Slot) (c : Contour) (r : RunPass)
include hs

theorem earlyDropTaken : EarlyDropTaken i c s := by
  intro hturn hd hw hc
  have hline : (s.filterExpiry .slugPresent) = ((s.turned .slugPresent false).slugChanged).earlyDrop i := by
    rw [State.filterExpiry_turns hturn]
    refine (State.slugLine_gone (s.turned_active .slugPresent false)).trans (State.slugGone_early ?_ ?_)
    · rw [(State.slugChanged_flags _).slug]
      exact hd
    · rw [(State.slugChanged_flags _).slug]
      exact hw
  have hch := (s.turned .slugPresent false).slugChanged_flags.toStirs
  have hlatch := (s.turned .slugPresent false).slugChanged_latch
  generalize (s.turned .slugPresent false).slugChanged = x at hline hch hlatch
  obtain ⟨hrun, hstay⟩ := State.earlyDrop_modes hch i
  have h := ((hch.apart (State.apart_onSlug _)).apart (State.apart_onContour i _)).trans (State.earlyDrop_stirs x i)
  have hearly := (x.earlyDrop_latch i).trans (hch.raised .slugEarly)
  have hchange := (x.earlyDrop_latch_ne i (d := .slugChange) nofun).trans hlatch
  have hgen := x.earlyDrop_genOn i
  generalize x.earlyDrop i = u at hline hrun hstay h hearly hchange hgen
  have ha := u.arbitrate_sends
  refine ⟨u.arbitrate, congrArg _ (State.event_settled (f := (·.filterExpiry .slugPresent)) hs hline (h.agenda.trans hs.1)),
    ha.slug.trans h.slug, ?_,
    fun j hj => ?_, (ha.latch _).trans hearly, (ha.latch _).trans hchange, fun hm => ha.modes.trans (hrun hm),
    fun hm => ha.modes.trans (hstay hm), ha.genOn.trans hgen, ?_, ha.job.trans h.job, ha.store.trans h.store,
    ha.holder.trans h.holder, ha.thread.trans h.thread⟩
  · refine (ha.contour i).trans ((h.contour i).trans ((State.contour_onContour_same _ i _).trans ?_))
    exact congrArg (Option.map _) hc
  · exact (ha.contour j).trans ((h.contour j).trans (State.contour_onContour_ne _ hj _))
  · cases hp : s.path.pass with
    | none => rw [ha.pass_none (h.pass_none hp)]
    | some r =>
      obtain ⟨q, hq, hheld⟩ := h.pass_some hp
      obtain ⟨n, hn⟩ := ha.pass_some hq
      rw [hn, hheld.rest]
      rfl

theorem dropWaitEndsByLine : DropWaitEndsByLine i c r s := by
  intro hturn hd hdc hi hc _
  have hline : (s.filterExpiry .slugPresent) =
      (((s.turned .slugPresent false).slugChanged).waitEnded i .dropped).report .proceed := by
    rw [State.filterExpiry_turns hturn]
    refine (State.slugLine_gone (s.turned_active .slugPresent false)).trans (State.slugGone_ends ?_ ?_)
    · rw [(State.slugChanged_flags _).slug]
      exact hd
    · rw [(State.slugChanged_flags _).slug]
      exact hdc
  have hch := (s.turned .slugPresent false).slugChanged_flags.toStirs
  generalize (s.turned .slugPresent false).slugChanged = x at hline hch
  have hxc : x.contour i = some c := (hch.contour i).trans hc
  have hyc := State.waitEnded_contour hxc .dropped
  have hyi : (x.waitEnded i .dropped).job.current = some i := by
    show x.job.current = _
    rw [hch.job]
    exact hi
  have hyag : (x.waitEnded i .dropped).agenda = [] := hch.agenda.trans hs.1
  have hyjob : (x.waitEnded i .dropped).job = s.job := hch.job
  have hystore : (x.waitEnded i .dropped).store = s.store := hch.store
  have hymodes (hm : s.modes.mode = .hold) : (x.waitEnded i .dropped).modes.mode = .hold := by
    show x.modes.mode = _
    rw [hch.modes_of_hold hm]
    exact hm
  have hyslug : (x.waitEnded i .dropped).slug = { s.slug with drop := .idle, dropContour := none, dropTimer := none } := by
    show { x.slug with drop := .idle, dropContour := none, dropTimer := none } = _
    rw [hch.slug]
    rfl
  generalize x.waitEnded i .dropped = y at hline hyc hyi hyag hyjob hystore hymodes hyslug
  have hset : y.proceed.agenda = [] → s.event (·.filterExpiry .slugPresent) = y.proceed.arbitrate :=
    State.event_reports (f := (·.filterExpiry .slugPresent)) hs hline hyag
  have ha := y.proceed.arbitrate_sends
  refine ⟨_, rfl, fun hst => ?_, fun hst hm hlast => ?_⟩
  · have hkept := State.proceed_kept hyi hyc hst
    rw [hkept] at ha hset
    rw [hset hyag]
    exact ⟨(ha.contour i).trans hyc, ha.job.trans (congrArg (fun j : Job => { j with keptProceed := true }) hyjob),
      ha.slug.trans hyslug, ha.store.trans hystore⟩
  · have hend := State.endPass_endsStage hyi hyc (State.nextRole_last hlast) (hymodes hm)
    rw [State.proceed_ends hyi hyc hst] at ha hset
    rw [hset (hend.agenda.trans hyag)]
    refine ⟨(ha.contour i).trans hend.contour, ?_, ha.slug.trans (hend.slug.trans hyslug), ha.pass_none hend.pass,
      ha.store.trans (hend.store.trans hystore)⟩
    rw [ha.job, hend.job, hyjob]

theorem dropWaitTimesOut (hd : s.slug.drop = .waiting) (ht : s.slug.dropTimer.isSome = true) : ∃ t : State,
    exec .dropWaitExpiry s = .next t ∧ t.slug = { s.slug with drop := .expired, dropTimer := none } ∧
      (s.modes.mode = .run → t.modes = { s.modes with mode := .hold }) ∧ (s.modes.mode ≠ .run → t.modes = s.modes) ∧
      (t.cond .slugStuck).latch = s.raisedLatch .slugStuck ∧ t.contours = s.contours ∧ t.job = s.job ∧ t.store = s.store ∧
      t.holder = s.holder ∧ t.thread = s.thread := by
  have h := s.dropExpired_stirs
  have ha := s.dropExpired.arbitrate_sends
  obtain ⟨hrun, hother⟩ := s.dropExpired_modes
  have hev : s.event State.dropExpiry = s.dropExpired.arbitrate :=
    State.event_settled hs (if_pos ⟨hd, ht⟩) (h.agenda.trans hs.1)
  exact ⟨s.dropExpired.arbitrate, congrArg _ hev, ha.slug.trans h.slug, fun hm => ha.modes.trans (hrun hm),
    fun hm => ha.modes.trans (hother hm), (ha.latch _).trans s.dropExpired_latch, ha.contours.trans h.contours, ha.job.trans h.job, ha.store.trans h.store,
    ha.holder.trans h.holder, ha.thread.trans h.thread⟩

end

/-! ## CONFIRM_SLUG (R128) -/

theorem takeConfirmSlug_eq (i : Slot) (s : State) : answerTo 0x39 [byte i.val] s =
    if s.awaitsSlug i then done (s.dropEnds .released) else refuse s .wrongState := by
  show takeConfirmSlug [byte i.val] s = _
  rw [takeConfirmSlug, ofLength_one, withSlot_byte]

section
variable {i : Slot} {r : RunPass} {s : State} (tag : Byte) (hq : s.Quiet) (hi : s.job.current = some i)
  (hp : s.path.pass = some r) (hr : r.sub = .slugWait) (hd : s.slug.drop ≠ .idle)
  (hdc : s.slug.dropContour = some i)
include hq hi hp hr hd hdc

/-- The confirmed slug's contour proceeds before the reply is formed. -/
theorem confirmSlug_proceeds (hag : (s.waitEnded i .released).proceed.agenda = [])
    (hl : (s.waitEnded i .released).proceed.link.collecting = s.link.collecting ∧
      (s.waitEnded i .released).proceed.link.replies = s.link.replies ∧
      (s.waitEnded i .released).proceed.link.sending = s.link.sending) : exec (.confirmSlug tag [byte i.val]) s =
      .next ((s.waitEnded i .released).proceed.replied 0x39 tag .ok []) := by
  have hwait : s.awaitsSlug i = true := by
    rw [State.awaitsSlug, hi, hp]
    simp [hr, hd]
  have hans := takeConfirmSlug_eq i s
  rw [if_pos hwait, State.dropEnds_eq hdc] at hans
  obtain ⟨hcollect, hreplies, hsending⟩ := hl
  exact congrArg _ (State.request_settles hq (by simp) hans
    (State.settle_report (s := s.waitEnded i .released) hq.1.1 hag) hag hcollect hreplies hsending)

end

/-- Settles O45: the timer, the request and the line each end the drop wait, and the armed watch takes the early drop. -/
theorem dropWaitEndsByTimerOrConfirm : Obligations.DropWaitEndsByTimerOrConfirm := by
  refine ⟨fun i c r s hs => ⟨earlyDropTaken hs i c, dropWaitEndsByLine hs i c r⟩, fun tag i s =>
    ⟨fun hs hd ht => dropWaitTimesOut hs hd ht, fun hq => ⟨fun h => ?_, fun c r hi hc hp hr hd hdc => ⟨fun hst => ?_,
      fun hst hm hlast => ?_⟩⟩⟩⟩
  · refine congrArg _ (State.request_refused hq (by simp) ((takeConfirmSlug_eq i s).trans (if_neg ?_)))
    rw [State.awaitsSlug]
    rcases h with h | h
    · simp [h]
    · have hsub : s.path.pass.map (·.sub) ≠ some .slugWait := fun e => by
        obtain ⟨r, hp, hr⟩ := Option.map_eq_some_iff.mp e
        exact h r hp hr
      simp [hsub]
  · have hkept := State.proceed_kept (s := s.waitEnded i .released) hi (State.waitEnded_contour hc .released) hst
    have h := confirmSlug_proceeds tag hq hi hp hr hd hdc (by rw [hkept]; exact hq.1.1) (by rw [hkept]; exact ⟨rfl, rfl, rfl⟩)
    rw [hkept] at h
    rw [h, State.waitEnded, State.setRetention, State.onContour, hc]
    rfl
  · have hyc := State.waitEnded_contour hc .released
    have hend := State.endPass_endsStage (s := s.waitEnded i .released) hi hyc (State.nextRole_last hlast) hm
    rw [← State.proceed_ends (s := s.waitEnded i .released) hi hyc hst] at hend
    have hlink : (s.waitEnded i .released).proceed.link = { s.link with progressPending := true } := hend.link
    refine ⟨_, confirmSlug_proceeds tag hq hi hp hr hd hdc (hend.agenda.trans hq.1.1) (by rw [hlink]; exact ⟨rfl, rfl, rfl⟩),
      hend.contour, fun j hj => (hend.others j hj).trans (State.waitEnded_contour_ne hj .released), hend.slug, hend.pass,
      hend.genOff, hend.commanded, hend.job, hend.modes, hend.store⟩

end Sys2Proof.Machine
end

section
/-! SUPPORT. A wire break of a contour that cuts (R109 to R111): what stands when it has been taken, before the re-entry
choice, and what the choice then orders (R113, R114, R118). -/

set_option Elab.async false

namespace Sys2Proof.Machine.State

variable {s t u : State} {i : Slot} {c : Contour} {r : RunPass}

/-! ## Flags in HOLD leave the path unit alone -/

theorem latch_path (s : State) (c : Cond) : (s.latch c).path = s.path := by rw [latch_rest]

theorem raise_path (s : State) (c : Cond) : (s.raise c).path = s.path := by
  unfold raise
  split
  · exact latch_path s c
  · rfl

theorem setLive_heldPath (hm : s.modes.mode = .hold) (c : Cond) (v : Bool) : (s.setLive c v).path = s.path := by
  simp only [setLive]
  split
  · rfl
  · split
    · have hlatch := latch_path (s.setCond c { s.cond c with live := v }) c
      have hmode : ((s.setCond c { s.cond c with live := v }).latch c).modes.mode ≠ .run := by
        rw [latch_modes _ c (by show s.modes.mode ≠ _; rw [hm]; nofun)]
        show s.modes.mode ≠ _
        rw [hm]
        nofun
      split
      · rw [forceHold_of_ne hmode]
        exact hlatch
      · exact hlatch
    · rfl

theorem refreshLevels_heldPath (hm : s.modes.mode = .hold) : s.refreshLevels.path = s.path := by
  unfold refreshLevels
  generalize Cond.levels = l
  induction l generalizing s with
  | nil => rfl
  | cons c l ih =>
    have hstep := (setLevel_flags s c).modes_of_hold hm
    exact (ih (s := s.setLive c (s.levelValue c)) (by rw [hstep]; exact hm)).trans (setLive_heldPath hm c _)

theorem changeContour_heldPath (hm : s.modes.mode = .hold) (i : Slot) (f : Contour → Contour) :
    (s.changeContour i f).path = s.path :=
  setLive_heldPath (s := ((s.onContour i f).onJob fun b => { b with lastChanged := some i }).onJournal fun j => j.take _) hm _ _

/-! ## The break is taken (R110, R111) -/

theorem endRapid_none (h : s.path.rapid = none) : s.endRapid = s := by
  simp only [endRapid, onPath, withPath, ← h]

/-- The record of a contour whose wire breaks (R110). -/
def brokenContour (r : RunPass) (c : Contour) : Contour := { c with breakPoint := some (c.passIndex, r.s) }

/-- The break point recorded, the generator off and WIRE_BREAK raised (R110). -/
def brokenAt (s : State) (i : Slot) (r : RunPass) : State := (s.genOff.onContour i (brokenContour r)).raise .wireBreak

/-- The record of a contour that enters re-entry (R111). -/
def reentered (c : Contour) : Contour := { c with state := .reentry, breakCount := c.breakCount + 1 }

/-- The contour has entered re-entry, before its choice (R111, R113). -/
def reentryAt (s : State) (i : Slot) (r : RunPass) : State :=
  (((s.brokenAt i r).onJob fun j => { j with wire := some r.s, work := none, due := false }).changeContour i reentered).refreshLevels

/-- WIRE_INTACT becomes inactive while the contour cuts and the threading unit is IDLE (R109). -/
theorem wireLine_breaks (hw : s.active .wireIntact = false) (ht : s.thread = none) (hi : s.job.current = some i)
    (hc : s.contour i = some c) (hst : c.state = .cutting ∨ c.state = .severing) : s.wireLine = s.takeBreak := by
  rw [wireLine, hw, if_neg (by decide), ht, if_neg (by decide), curContour_eq hi hc]
  exact if_pos (by rcases hst with h | h <;> rw [h] <;> rfl)

section
variable (hi : s.job.current = some i) (hc : s.contour i = some c) (hp : s.path.pass = some r) (hr : s.path.rapid = none)
include hi hc hp hr

/-- A break at BreakLimit faults the contour (R111). -/
theorem takeBreak_limit (hl : s.params.breakLimit ≤ c.breakCount) :
    s.takeBreak = ((s.brokenAt i r).raise .breakLimit).faultCurrent .breakLimit := by
  have hend : s.genOff.endRapid = s.genOff := endRapid_none hr
  rw [takeBreak, hi, curContour_eq hi hc, hp]
  dsimp only
  rw [hend, if_pos hl]
  rfl

/-- A break below BreakLimit makes the re-entry choice (R111, R113). -/
theorem takeBreak_below (hst : c.state = .cutting ∨ c.state = .severing) (hl : c.breakCount < s.params.breakLimit) :
    s.takeBreak = (s.reentryAt i r).reentryChoice := by
  have hend : s.genOff.endRapid = s.genOff := endRapid_none hr
  have hwire : s.breakWire r = some r.s := by
    rw [breakWire, hr, if_neg (by decide), if_pos (cutting_of hi hc hst)]
  have hcut : c.state.isCutting = true := by rcases hst with h | h <;> rw [h] <;> rfl
  rw [takeBreak, hi, curContour_eq hi hc, hp]
  dsimp only
  rw [hend, hwire, if_neg (Nat.not_le.mpr hl), hcut, if_pos rfl]
  rfl

end

theorem brokenAt_flags (s : State) (i : Slot) (r : RunPass) :
    (s.onContour i (brokenContour r)).Flags (s.brokenAt i r) :=
  ((genOff_flags s).apart (apart_onContour i _)).trans (raise_flags _ _)

theorem brokenAt_path (s : State) (i : Slot) (r : RunPass) : (s.brokenAt i r).path = s.genOff.path := raise_path _ _

theorem brokenAt_latch (hi : s.job.current = some i) (r : RunPass) :
    ((s.brokenAt i r).cond .wireBreak).latch = s.raisedLatch .wireBreak := by
  have hgroup : (s.genOff.onContour i (brokenContour r)).groupValid Cond.wireBreak.group = true := by
    show s.job.current.isSome = true
    rw [hi]
    rfl
  exact (raise_raised .wireBreak hgroup).trans ((genOff_flags s).raised .wireBreak)

/-! ## What a break leaves (R110) -/

/-- What stands from a break on, until the unit that is given an order takes it. -/
structure AfterBreak (i : Slot) (r : RunPass) (s t : State) : Prop where
  others : ∀ j, j ≠ i → t.contour j = s.contour j
  latch : (t.cond .wireBreak).latch = s.raisedLatch .wireBreak
  genOff : t.path.genOn = false
  rapid : t.path.rapid = none
  commanded : t.path.commanded = s.path.commanded
  pass : ∃ p, t.path.pass = some p ∧ r.Held p
  modes : s.modes.Stirred t.modes
  current : t.job.current = some i
  thread : t.thread = none
  holder : t.holder = s.holder
  slug : t.slug = s.slug
  store : t.store = s.store
  params : t.params = s.params
  agenda : t.agenda = s.agenda

theorem AfterBreak.onJob (h : AfterBreak i r s t) {f : Job → Job} (hf : ∀ j, (f j).current = j.current) :
    AfterBreak i r s (t.onJob f) :=
  { h with current := (hf t.job).trans h.current }

theorem AfterBreak.chain (h : AfterBreak i r s t) (ch : ChainId) : t.chain ch = s.chain ch := by
  rw [State.chain, h.store, State.chain]

/-- Flags leave what a break left, where they leave the latch of WIRE_BREAK. -/
theorem AfterBreak.stirs (h : AfterBreak i r s t) (hu : t.Stirs u) (hl : (u.cond .wireBreak).latch = (t.cond .wireBreak).latch) :
    AfterBreak i r s u where
  others k hk := (hu.contour k).trans (h.others k hk)
  latch := hl.trans h.latch
  genOff := hu.genOff h.genOff
  rapid := hu.rapid.trans h.rapid
  commanded := hu.commanded.trans h.commanded
  pass := by
    obtain ⟨p, hp, hheld⟩ := h.pass
    obtain ⟨q, hq, hheld'⟩ := hu.pass_some hp
    exact ⟨q, hq, hheld.trans hheld'⟩
  modes := h.modes.trans hu.modes
  current := by
    rw [hu.job]
    exact h.current
  thread := hu.thread.trans h.thread
  holder := hu.holder.trans h.holder
  slug := hu.slug.trans h.slug
  store := hu.store.trans h.store
  params := hu.params.trans h.params
  agenda := hu.agenda.trans h.agenda

/-- A contour's change that is reported leaves what a break left (R91). -/
theorem AfterBreak.changeContour (h : AfterBreak i r s t) (f : Contour → Contour) : AfterBreak i r s (t.changeContour i f) :=
  have hcon : AfterBreak i r s ((t.onContour i f).changed i ((t.onContour i f).journal.take ((t.onContour i f).stateRecord i))) :=
    { h with others := fun k hk => (contour_onContour_ne t hk f).trans (h.others k hk) }
  hcon.stirs (contourChanged_flags (t.onContour i f) i).toStirs (changeContour_keepsLatch (by decide) t i f)

theorem brokenAt_afterBreak (hi : s.job.current = some i) (hp : s.path.pass = some r) (hr : s.path.rapid = none)
    (ht : s.thread = none) : AfterBreak i r s (s.brokenAt i r) := by
  have h := (s.brokenAt_flags i r).toStirs
  obtain ⟨p, hpass, hheld⟩ := h.pass_some (r := r) hp
  exact ⟨fun j hj => (h.contour j).trans (contour_onContour_ne s hj _), brokenAt_latch hi r, by rw [brokenAt_path]; rfl,
    h.rapid.trans hr, h.commanded, ⟨p, hpass, hheld⟩, h.modes, by rw [h.job]; exact hi, h.thread.trans ht, h.holder, h.slug,
    h.store, h.params, h.agenda⟩

/-- What stands when the re-entry choice is made (R110, R111, R113). -/
structure BeforeChoice (i : Slot) (c : Contour) (r : RunPass) (s t : State) : Prop extends AfterBreak i r s t where
  contour : t.contour i = some { c with
    breakPoint := some (c.passIndex, r.s), breakCount := c.breakCount + 1, state := .reentry }
  wire : t.job.wire = some r.s
  inHold : s.modes.mode = .hold → t.path.pass = some { r with openCount := 0, stuckCount := 0 }
  inRun : s.modes.mode = .run → s.NoHoldCause → s.journal.Room 2 → t.modes = s.modes

theorem reentryAt_beforeChoice (hi : s.job.current = some i) (hc : s.contour i = some c) (hp : s.path.pass = some r)
    (hr : s.path.rapid = none) (ht : s.thread = none) : BeforeChoice i c r s (s.reentryAt i r) := by
  have h1 := brokenAt_afterBreak hi hp hr ht
  have hflags := s.brokenAt_flags i r
  have hpath := s.brokenAt_path i r
  rw [reentryAt]
  generalize s.brokenAt i r = b at h1 hflags hpath
  have h2 := h1.onJob (f := fun j => { j with wire := some r.s, work := none, due := false }) fun _ => rfl
  have hbc : (b.onJob fun j => { j with wire := some r.s, work := none, due := false }).contour i =
      some (brokenContour r c) :=
    (hflags.contour i).trans ((contour_onContour_same s i _).trans (congrArg (Option.map _) hc))
  have hbj : (b.onJob fun j => { j with wire := some r.s, work := none, due := false }).journal = s.journal := hflags.journal
  have hbcalm (hm : s.modes.mode ≠ .park) (hno : s.NoHoldCause) :
      (b.onJob fun j => { j with wire := some r.s, work := none, due := false }).modes = s.modes ∧
        (b.onJob fun j => { j with wire := some r.s, work := none, due := false }).NoHoldCause := by
    obtain ⟨e, hc⟩ := hflags.calm hm (hno.congr (fun _ _ => rfl) rfl rfl)
    exact ⟨e, hc.congr (fun _ _ => rfl) rfl rfl⟩
  have hbpath : (b.onJob fun j => { j with wire := some r.s, work := none, due := false }).path = s.genOff.path := hpath
  have hbwire : (b.onJob fun j => { j with wire := some r.s, work := none, due := false }).job.wire = some r.s := rfl
  generalize b.onJob (fun j => { j with wire := some r.s, work := none, due := false }) = d
    at h2 hbc hbj hbcalm hbpath hbwire
  have hch := (contourChanged_flags (d.onContour i reentered) i).toStirs
  have hlevels := (refreshLevels_flags (d.changeContour i reentered)).toStirs
  have h3 := (h2.changeContour reentered).stirs hlevels (refreshLevels_keepsLatch (by decide) _)
  refine ⟨h3, ?_, ?_, fun hm => ?_, fun hm hno hroom => ?_⟩
  · refine (hlevels.contour i).trans ((hch.contour i).trans ((contour_onContour_same d i _).trans ?_))
    rw [hbc]
    rfl
  · rw [hlevels.job]
    refine Eq.trans (congrArg Job.wire hch.job) ?_
    exact hbwire
  · have hdm : d.modes.mode = .hold := by
      rw [h2.modes.of_hold hm]
      exact hm
    have hcm : (d.changeContour i reentered).modes.mode = .hold := (congrArg ModeUnit.mode (hch.modes_of_hold hdm)).trans hdm
    rw [refreshLevels_heldPath hcm, changeContour_heldPath hdm, hbpath]
    show s.path.pass.map _ = _
    rw [hp]
    rfl
  · have hpark : s.modes.mode ≠ .park := by rw [hm]; nofun
    obtain ⟨hdm, hdno⟩ := hbcalm hpark hno
    have hdpark : d.modes.mode ≠ .park := by rw [hdm]; exact hpark
    obtain ⟨j, -, hsig, hchno⟩ := changeContour_signals hdpark hdno (n := 1) (by rw [hbj]; exact hroom) i reentered
    have hcm : (d.changeContour i reentered).modes = s.modes := hsig.sameModes.trans hdm
    rw [((refreshLevels_flags _).calm (by rw [hcm]; exact hpark) hchno).1, hcm]

/-! ## The choice (R113, R114) -/

/-- In-gap threading is to be tried where the wire stands (R113, R114). -/
def GapRoute (s : State) (c : Contour) (k : Chain) (w : Nat) : Prop :=
  c.defn.inGap = true ∧ s.path.commanded = k.point w ∧ k.modeAt w = some .cut

theorem gapAllowed_iff (s : State) (c : Contour) (k : Chain) (w : Nat) : s.gapAllowed c k w = true ↔ s.GapRoute c k w := by
  simp [gapAllowed, GapRoute, and_assoc]

/-- The wire position, kept or forgotten, is a register of the job alone. -/
theorem keepWire_eq (s : State) (k : Chain) (w : Nat) : ∃ o, s.keepWire k w = s.onJob fun j => { j with wire := o } := by
  unfold keepWire
  split
  · exact ⟨s.job.wire, rfl⟩
  · exact ⟨none, rfl⟩

section
variable {k : Chain} {w : Nat} (hc : s.curContour = some c) (hp : s.path.pass = some r) (hk : s.chain r.chain = some k)
  (hs : k.Sound)
include hc hp hk hs

/-- On pass 0 the choice is between the gap where the wire stands and the start hole (R113). -/
theorem reentryChoice_firstPass (h0 : c.passIndex = 0) (hw : s.job.wire = some w) :
    (s.GapRoute c k w → s.reentryChoice = s.askOrder .gapThread) ∧
      (¬ s.GapRoute c k w → ∃ o, s.reentryChoice = (s.onJob fun j => { j with wire := o }).askOrder .holeRapid) := by
  obtain ⟨o, ho⟩ := s.keepWire_eq k w
  have hgap : (s.keepWire k w).gapAllowed c k w = s.gapAllowed c k w := by rw [ho]; rfl
  have e : s.reentryChoice = if s.gapAllowed c k w then (s.keepWire k w).askOrder .gapThread
      else (s.keepWire k w).askOrder .holeRapid := by
    rw [reentryChoice, hc, runChain_eq hp hk]
    dsimp only
    rw [if_pos h0, hw]
    dsimp only
    rw [readSlots_sound hk hs]
    dsimp only
    rw [if_pos rfl, hgap]
  refine ⟨fun h => ?_, fun h => ⟨o, ?_⟩⟩
  · have hkeep : s.keepWire k w = s := if_pos h.2.1
    rw [e, if_pos ((gapAllowed_iff s c k w).mpr h), hkeep]
  · rw [e, if_neg fun h' => h ((gapAllowed_iff s c k w).mp h'), ho]

/-- On a later pass, the wire at point(s), the choice is between the gap and the wait for the operator (R114). -/
theorem reentryChoice_laterPass (h0 : c.passIndex ≠ 0) (hat : s.path.commanded = k.point r.s) :
    (s.GapRoute c k r.s → s.reentryChoice = s.askOrder .gapThread) ∧
      (¬ s.GapRoute c k r.s → s.reentryChoice = s.enterReentryWait) := by
  have e : s.reentryChoice = if c.defn.inGap = true ∧ k.modeAt r.s = some .cut then s.askOrder .gapThread
      else s.enterReentryWait := by
    rw [reentryChoice, hc, runChain_eq hp hk]
    dsimp only
    rw [if_neg h0, laterPassChoice, runChain_eq hp hk]
    dsimp only
    rw [readSlots_sound hk hs]
    dsimp only
    rw [if_pos rfl, if_neg (not_not.mpr hat)]
  rw [e]
  exact ⟨fun h => if_pos ⟨h.1, h.2.2⟩, fun h => if_neg fun h' => h ⟨h'.1, hat, h'.2⟩⟩

end

theorem askOrder_waits (hm : s.modes.mode ≠ .run) (w : Work) :
    s.askOrder w = s.onJob fun j => { j with work := some w, due := true } := by
  rw [askOrder, if_neg (by simp [running, hm])]

/-- In RUN the order for THREAD_IN_GAP begins its first attempt (R103, R113). -/
theorem order_gapThread (hm : s.modes.mode = .run) (hi : s.job.current = some i) (hc : s.contour i = some c)
    (hn : s.params.inGapAttempts ≠ 0) : s.order .gapThread =
      (s.onJob fun j => { j with work := some .gapThread, due := false }).attempting
        ⟨.inGap, i, .tipCut, false, s.params.inGapAttempts, 1, none, none, none, some s.params.tipTime, false⟩ := by
  rw [order, curContour_eq hi hc, hi]
  refine (if_neg hn).trans ?_
  exact beginGapAttempt_eq (s := (s.onJob fun j => { j with work := some .gapThread, due := false }).withThread
    (some (newOp .inGap i .tipCut s.params.inGapAttempts none none))) rfl hm

theorem enterReentryWait_eq (hi : s.job.current = some i) : s.enterReentryWait =
    ((s.changeContour i fun c => { c with state := .reentryWait }).onJob fun j =>
      { j with work := none, due := false }).forceHold := by
  rw [enterReentryWait, hi]

theorem forceHold_mode_ne (s : State) : s.forceHold.modes.mode ≠ .run := by
  by_cases h : s.modes.mode = .run
  · rw [forceHold_mode h]
    nofun
  · rwa [forceHold_of_ne h]

/-! ## The break, once the transmitter has had its turn -/

theorem AfterBreak.breakTaken (h : AfterBreak i r s t) {d : Contour} (hb : d.breakPoint = some (c.passIndex, r.s))
    (hf : d.front = c.front) (hn : d.passIndex = c.passIndex) : BreakTaken s t.arbitrate c d r :=
  have ha := t.arbitrate_sends
  ⟨hb, hf, hn, (ha.latch _).trans h.latch, ha.genOn.trans h.genOff, ha.commanded.trans h.commanded,
    ha.holder.trans h.holder, ha.slug.trans h.slug, ha.store.trans h.store⟩

end Sys2Proof.Machine.State
end

section
/-! A break of a contour that cuts (R109 to R111, R113, R114, R118). -/

set_option Elab.async false

namespace Sys2Proof.Machine

section
variable {i : Slot} {c : Contour} {q : PassRec} {r : RunPass} {k : Chain} {s : State}

/-- The line's turn reaches the contour table, which takes the break. -/
theorem State.Breaks.filterExpiry (h : s.Breaks i c q r k) :
    s.filterExpiry .wireIntact = (s.turned .wireIntact false).takeBreak := by
  obtain ⟨hturn, ht, -, ⟨hi, hc, -, -, -, -⟩, hst⟩ := h
  rw [State.filterExpiry_turns hturn]
  exact State.wireLine_breaks (s := s.turned .wireIntact false) (s.turned_active .wireIntact false) ht hi hc hst

/-- The event of a break whose work leaves no report. -/
theorem State.Breaks.event (h : s.Breaks i c q r k) (hs : s.Steady) {t : State} (e : (s.turned .wireIntact false).takeBreak = t)
    (ha : t.agenda = []) : exec (.lineFilterExpiry .wireIntact) s = .next t.arbitrate :=
  congrArg _ (State.event_settled (f := (·.filterExpiry .wireIntact)) hs (h.filterExpiry.trans e) ha)

theorem breakFaultsAtLimit (hs : s.Steady) : BreakFaultsAtLimit i c q r k s := by
  intro h hl hn
  have hev := fun t => h.event (t := t) hs
  obtain ⟨-, ht, hr, ⟨hi, hc, -, hp, -, -⟩, -⟩ := h
  rw [State.takeBreak_limit (s := s.turned .wireIntact false) hi hc hp hr hl] at hev
  have hbreak := State.brokenAt_afterBreak (s := s.turned .wireIntact false) hi hp hr ht
  have hflags := (s.turned .wireIntact false).brokenAt_flags i r
  have hconds := hbreak.latch
  have hlimit := State.raise_latch_ne ((s.turned .wireIntact false).brokenAt i r) (c := .breakLimit) (d := .wireBreak) nofun
  have hkept : (((s.turned .wireIntact false).brokenAt i r).cond .contourFault).latch = (s.cond .contourFault).latch := by
    rw [State.brokenAt, State.raise_latch_ne _ (by decide : Cond.contourFault ≠ .wireBreak)]
    exact State.genOff_latch (s.turned .wireIntact false) .contourFault
  generalize (s.turned .wireIntact false).brokenAt i r = b at hev hbreak hflags hconds hlimit hkept
  have hraise := (State.raise_flags b .breakLimit).toStirs
  have hgroup : b.groupValid Cond.breakLimit.group = true := by
    show b.job.current.isSome = true
    rw [hbreak.current]
    rfl
  have hraised := State.raise_raised .breakLimit hgroup
  have hcf := State.raise_latch_ne b (c := .breakLimit) (d := .contourFault) nofun
  generalize b.raise .breakLimit = d at hev hlimit hraise hraised hcf
  have hcontours : d.contours = (s.onContour i (State.brokenContour r)).contours := hraise.contours.trans hflags.contours
  have hdc : d.contour i = some (State.brokenContour r c) := by
    rw [State.contour, hcontours]
    exact (State.contour_onContour_same s i _).trans (congrArg (Option.map _) hc)
  have hdo (j : Slot) (hj : j ≠ i) : d.contour j = s.contour j := by
    rw [State.contour, hcontours]
    exact State.contour_onContour_ne s hj _
  have hdn : d.NoneWaiting := by
    intro j f hf
    by_cases hj : j = i
    · rw [hj, hdc] at hf
      rw [← Option.some.inj hf]
      exact hn i c hc
    · exact hn j f (hdo j hj ▸ hf)
  have hsame (e : Cond) : d.raisedLatch e = s.raisedLatch e := (hraise.raised e).trans (hflags.raised e)
  obtain ⟨hag, hsent⟩ := State.faultCurrent_sent (s := d) .breakLimit (by rw [hraise.job]; exact hbreak.current) hdc hdn
  obtain ⟨m, j, hleft, -⟩ := State.faultCurrent_left (s := d) (i := i) (f := .breakLimit) (by rw [hraise.job]; exact hbreak.current)
    (State.noneWaiting_onContour hdn i fun _ => ⟨nofun, nofun⟩)
  refine ⟨_, hev _ rfl hag, hsent.contour, fun j hj => (hsent.others j hj).trans (hdo j hj), ?_, ?_, ?_, hsent.pass,
    (State.arbitrate_sends _).genOn.trans hleft.hasLeft.genOff, hsent.commanded.trans (hraise.commanded.trans hbreak.commanded),
    hsent.thread, hsent.current, hsent.store.trans (hraise.store.trans hbreak.store)⟩
  · rw [hsent.raised .wireBreak ((congrArg CondRec.latch hlimit).trans (hconds.trans (hsame .wireBreak).symm)), hsame]
  · rw [hsent.raised .breakLimit (hraised.trans ((hflags.raised _).trans (hsame .breakLimit).symm)), hsame]
  · exact hsent.contourFault.trans ((congrArg CondRec.latch hcf).trans hkept)

theorem breakInHoldChoosesRoute (hs : s.Steady) : BreakInHoldChoosesRoute i c q r k s := by
  intro h hl hm hroute d
  have hev := fun t => h.event (t := t) hs
  obtain ⟨-, ht, hr, ⟨hi, hc, -, hp, hk, hsound⟩, hst⟩ := h
  rw [State.takeBreak_below (s := s.turned .wireIntact false) hi hc hp hr hst hl] at hev
  have hb := State.reentryAt_beforeChoice (s := s.turned .wireIntact false) hi hc hp hr ht
  generalize (s.turned .wireIntact false).reentryAt i r = v at hev hb
  have hpass : v.path.pass = some { r with openCount := 0, stuckCount := 0 } := hb.inHold hm
  have hvm : v.modes = s.modes := hb.modes.of_hold hm
  have hcur : v.curContour = some d := State.curContour_eq hb.current hb.contour
  have hvk : v.chain ({ r with openCount := 0, stuckCount := 0 } : RunPass).chain = some k := (hb.chain r.chain).trans hk
  have hgap : v.GapRoute d k r.s ↔ s.GapRoute c k r.s := by
    show _ ∧ v.path.commanded = _ ∧ _ ↔ _
    rw [hb.commanded]
    exact Iff.rfl
  have hwait := State.askOrder_waits (s := v) (by rw [hvm, hm]; nofun)
  obtain ⟨o, w, hchoice, hin, hout⟩ : ∃ o w, v.reentryChoice =
      (v.onJob fun j => { j with wire := o, work := some w, due := true }) ∧ (s.GapRoute c k r.s → w = .gapThread) ∧
        (¬ s.GapRoute c k r.s → w = .holeRapid) := by
    by_cases hg : s.GapRoute c k r.s
    · refine ⟨v.job.wire, .gapThread, ?_, fun _ => rfl, fun h => absurd hg h⟩
      by_cases h0 : c.passIndex = 0
      · rw [(State.reentryChoice_firstPass hcur hpass hvk hsound h0 hb.wire).1 (hgap.mpr hg), hwait]
        rfl
      · rw [(State.reentryChoice_laterPass hcur hpass hvk hsound h0 (hgap.mpr hg).2.1).1 (hgap.mpr hg), hwait]
        rfl
    · have h0 : c.passIndex = 0 := hroute.resolve_right hg
      obtain ⟨o, ho⟩ := (State.reentryChoice_firstPass hcur hpass hvk hsound h0 hb.wire).2 fun h => hg (hgap.mp h)
      refine ⟨o, .holeRapid, ?_, fun h => absurd h hg, fun _ => rfl⟩
      rw [ho, State.askOrder_waits (by show v.modes.mode ≠ _; rw [hvm, hm]; nofun)]
      rfl
  have hafter := hb.onJob (f := fun j => { j with wire := o, work := some w, due := true }) fun _ => rfl
  have ha := (v.onJob fun j => { j with wire := o, work := some w, due := true }).arbitrate_sends
  obtain ⟨n, hn⟩ := ha.pass_some (r := { r with openCount := 0, stuckCount := 0 }) hpass
  refine ⟨_, hev _ hchoice (hafter.agenda.trans hs.1), (ha.contour i).trans hb.contour, hafter.breakTaken rfl rfl rfl,
    fun j hj => (ha.contour j).trans (hb.others j hj), ⟨_, hn, rfl, rfl, rfl, rfl, rfl, rfl⟩, ha.thread.trans hb.thread,
    fun hg => ?_, fun hg => ?_, ?_, ?_, ha.modes.trans hvm⟩
  · rw [ha.job, ← hin hg]
    rfl
  · rw [ha.job, ← hout hg]
    rfl
  · rw [ha.job]
    rfl
  · rw [ha.job]
    exact hb.current

theorem breakOnLaterPassWaits (hs : s.Steady) : BreakOnLaterPassWaits i c q r k s := by
  intro h hl h0 hat hno d
  have hev := fun t => h.event (t := t) hs
  obtain ⟨-, ht, hr, ⟨hi, hc, -, hp, hk, hsound⟩, hst⟩ := h
  rw [State.takeBreak_below (s := s.turned .wireIntact false) hi hc hp hr hst hl] at hev
  have hb := State.reentryAt_beforeChoice (s := s.turned .wireIntact false) hi hc hp hr ht
  generalize (s.turned .wireIntact false).reentryAt i r = v at hev hb
  obtain ⟨p, hpass, hheld⟩ := hb.pass
  have hpch : p.chain = r.chain := by rw [hheld.rest]
  have hps : p.s = r.s := by rw [hheld.rest]
  have hvk : v.chain p.chain = some k := by
    rw [hpch]
    exact (hb.chain r.chain).trans hk
  have hchoice := (State.reentryChoice_laterPass (State.curContour_eq hb.current hb.contour) hpass hvk hsound h0
    (by rw [hps]; exact hb.commanded.trans hat)).2 fun h => by
      rw [State.GapRoute, hps] at h
      rcases hno with hno | hno
      · exact Bool.false_ne_true (hno.symm.trans h.1)
      · exact hno h.2.2
  rw [State.enterReentryWait_eq hb.current] at hchoice
  have hafter := hb.changeContour fun c => { c with state := .reentryWait }
  have hcon := (State.contourChanged_flags (v.onContour i fun c => { c with state := .reentryWait }) i).contour i
  replace hcon : (v.changeContour i fun c => { c with state := .reentryWait }).contour i = some d :=
    hcon.trans ((State.contour_onContour_same v i _).trans (congrArg (Option.map _) hb.contour))
  generalize v.changeContour i (fun c => { c with state := .reentryWait }) = x at hchoice hafter hcon
  have hforce := State.forceHold_stirs (x.onJob fun j => { j with work := none, due := false })
  have hwaits := (hafter.onJob (f := fun j => { j with work := none, due := false }) fun _ => rfl).stirs hforce
    (State.forceHold_latch _ _)
  have hmode := State.forceHold_mode_ne (x.onJob fun j => { j with work := none, due := false })
  generalize (x.onJob fun j => { j with work := none, due := false }).forceHold = y at hchoice hforce hwaits hmode
  have ha := y.arbitrate_sends
  obtain ⟨p', hp', hheld'⟩ := hwaits.pass
  obtain ⟨n, hn⟩ := ha.pass_some hp'
  refine ⟨_, hev _ hchoice (hwaits.agenda.trans hs.1), (ha.contour i).trans ((hforce.contour i).trans hcon),
    hwaits.breakTaken rfl rfl rfl, fun j hj => (ha.contour j).trans (hwaits.others j hj), ?_, ha.thread.trans hwaits.thread,
    ?_, ?_, ?_, ?_⟩
  · rw [hn, hheld'.rest]
    rfl
  · rw [ha.job, hforce.job]
    rfl
  · rw [ha.job, hforce.job]
    rfl
  · rw [ha.job]
    exact hwaits.current
  · rw [ha.modes]
    exact hmode

theorem breakInRunGivesOrder (hs : s.Steady) : BreakInRunGivesOrder i c q r k s := by
  intro h hl h0 hm hno hroom
  have hev := fun t => h.event (t := t) hs
  obtain ⟨-, ht, hr, ⟨hi, hc, -, hp, hk, hsound⟩, hst⟩ := h
  rw [State.takeBreak_below (s := s.turned .wireIntact false) hi hc hp hr hst hl] at hev
  have hb := State.reentryAt_beforeChoice (s := s.turned .wireIntact false) hi hc hp hr ht
  have hxno : (s.turned .wireIntact false).NoHoldCause := by
    obtain ⟨hrun, hdoor, htank, haxis, hgen, hjournal⟩ := hno
    exact ⟨hrun, (State.turned_active_ne (by decide) _).trans hdoor, (State.turned_active_ne (by decide) _).trans htank, haxis,
      hgen, hjournal⟩
  generalize (s.turned .wireIntact false).reentryAt i r = v at hev hb
  have hvm : v.modes = s.modes := hb.inRun hm hxno hroom.room
  have hvrun : v.modes.mode = .run := by rw [hvm, hm]
  obtain ⟨p, hpass, hheld⟩ := hb.pass
  have hpch : p.chain = r.chain := by rw [hheld.rest]
  have hvk : v.chain p.chain = some k := by
    rw [hpch]
    exact (hb.chain r.chain).trans hk
  have hvparams : v.params = s.params := hb.params
  have hcontour : v.contour i = some { c with
      breakPoint := some (0, r.s), breakCount := c.breakCount + 1, state := .reentry } := by
    rw [hb.contour, show (c.passIndex, r.s) = (0, r.s) by rw [h0]]
  obtain ⟨hgapRoute, hholeRoute⟩ := State.reentryChoice_firstPass (State.curContour_eq hb.current hb.contour) hpass hvk hsound
    h0 hb.wire
  have hgap : v.GapRoute { c with
      breakPoint := some (c.passIndex, r.s), breakCount := c.breakCount + 1, state := .reentry } k r.s ↔ s.GapRoute c k r.s := by
    show _ ∧ v.path.commanded = _ ∧ _ ↔ _
    rw [hb.commanded]
    exact Iff.rfl
  refine ⟨fun hg hn => ?_, fun hg hne hkept => ?_⟩
  · have hchoice := hgapRoute (hgap.mpr hg)
    rw [State.askOrder_inRun hvrun, State.order_gapThread hvrun hb.current hb.contour (by rw [hvparams]; exact hn),
      hvparams] at hchoice
    have hag : v.agenda = [] := hb.agenda.trans hs.1
    generalize htd : (⟨.inGap, i, .tipCut, false, s.params.inGapAttempts, 1, none, none, none, some s.params.tipTime, false⟩ :
      Threading) = td at hchoice
    have hti : td.contour = i := by rw [← htd]
    have ha := ((v.onJob fun j => { j with work := some .gapThread, due := false }).attempting td).arbitrate_sends
    refine ⟨_, hev _ hchoice hag, ha.thread, (ha.contour i).trans ?_, ?_, ha.modes.trans hvm⟩
    · rw [State.attempting, hti]
      refine (State.contour_onContour_same _ i _).trans ?_
      exact congrArg (Option.map _) hcontour
    · rw [ha.path]
      exact hb.rapid
  · obtain ⟨o, hchoice⟩ := hholeRoute fun h => hg (hgap.mp h)
    have hcmd : v.path.commanded = s.path.commanded := hb.commanded
    rw [State.askOrder_inRun (by exact hvrun), State.order_holeRapid (s := v.onJob fun j => { j with wire := o }) hb.current
      hb.contour (by show v.path.commanded ≠ _; rw [hcmd]; exact hne)
      (by show v.store.lineKeptOut v.path.commanded _ = _; rw [hb.store, hcmd]; exact hkept)] at hchoice
    have hag : v.agenda = [] := hb.agenda.trans hs.1
    have ha := ((v.onJob fun j => { j with wire := o }).holeMove c.defn.centre).arbitrate_sends
    refine ⟨_, hev _ hchoice hag, ?_, (ha.contour i).trans hcontour, ha.thread.trans hb.thread, ha.modes.trans hvm⟩
    rw [ha.path]
    show some _ = _
    rw [← hcmd]
    rfl

end

end Sys2Proof.Machine
end

section
/-! RETHREAD_DONE (R117, R119). -/

set_option Elab.async false

namespace Sys2Proof.Machine

namespace State

variable {s t : State} {i : Slot} {c : Contour} {q : PassRec} {r : RunPass} {k : Chain}

/-! ## Cutting is taken up in HOLD (R117) -/

/-- The running-pass record at the taking up of cutting in HOLD, before its stop point. -/
def takenUpPaused (r : RunPass) (k : Chain) : RunPass := { takenUpPass r k with sub := .paused }

/-- The part at the taking up of cutting in HOLD, its contour's change reported, before its stop point. -/
def takenUpAt (s : State) (i : Slot) (r : RunPass) (k : Chain) : State :=
  ((s.changeContour i fun c => { c with state := cutState c }).onJob takenUpJob).withPath
    { s.path with pass := some (takenUpPaused r k), commanded := k.point r.s }

/-- What stands then. -/
structure TakenUpAt (i : Slot) (c : Contour) (r : RunPass) (k : Chain) (s t : State) : Prop where
  contour : t.contour i = some { c with state := cutState c }
  others : ∀ j, j ≠ i → t.contour j = s.contour j
  path : t.path = { s.path with pass := some (takenUpPaused r k), commanded := k.point r.s }
  modes : t.modes = s.modes
  current : t.job.current = s.job.current
  store : t.store = s.store
  thread : t.thread = s.thread
  agenda : t.agenda = s.agenda
  link : t.link = { s.link with progressPending := true }

theorem takenUpAt_stands (hm : s.modes.mode = .hold) (hc : s.contour i = some c) (r : RunPass) (k : Chain) :
    TakenUpAt i c r k s (s.takenUpAt i r k) := by
  have h := (contourChanged_flags (s.onContour i fun c => { c with state := cutState c }) i).toStirs
  rw [takenUpAt]
  replace h : Stirs _ (s.changeContour i fun c => { c with state := cutState c }) := h
  generalize s.changeContour i (fun c => { c with state := cutState c }) = x at h
  refine ⟨?_, fun j hj => (h.contour j).trans (contour_onContour_ne s hj _), rfl, h.modes_of_hold hm, ?_, h.store, h.thread,
    h.agenda, h.link⟩
  · exact (h.contour i).trans ((contour_onContour_same s i _).trans (congrArg (Option.map _) hc))
  · show x.job.current = _
    rw [h.job]
    rfl

/-- In HOLD the taking up of cutting on a pass that moves, or would, is the stop point computed anew for a PAUSED pass. -/
theorem takeUp_inHold (hm : s.modes.mode = .hold) (hi : s.job.current = some i) (hc : s.contour i = some c)
    (hp : s.path.pass = some r) (hk : s.chain r.chain = some k) (hs : k.Sound) (hres : s.job.resume = none)
    (hsub : r.sub = .moving ∨ r.sub = .paused ∨ r.sub = .starved) : s.takeUp = (s.takenUpAt i r k).recompute := by
  have hslug : r.sub ≠ .slugWait := by rcases hsub with h | h | h <;> rw [h] <;> nofun
  have hhold : ¬ (r.sub = .waitHolder ∧ s.job.keptHolding = false) := fun h' => by
    rcases hsub with h | h | h <;> rw [h] at h' <;> cases h'.1
  have hxk : (s.changeContour i fun c => { c with state := cutState c }).chain r.chain = some k :=
    ((contourChanged_flags (s.onContour i fun c => { c with state := cutState c }) i).chain r.chain).trans hk
  have hxp := changeContour_heldPath hm i fun c => { c with state := cutState c }
  have hxm : (s.changeContour i fun c => { c with state := cutState c }).modes = s.modes :=
    (contourChanged_flags (s.onContour i fun c => { c with state := cutState c }) i).modes_of_hold hm
  rw [takenUpAt]
  generalize hx : s.changeContour i (fun c => { c with state := cutState c }) = x at hxk hxp hxm
  have hread : readSlots r.chain (runReads k r.s) (x.onJob takenUpJob) = (_, true) :=
    readSlots_sound (s := x.onJob takenUpJob) hxk hs _
  have e : s.takeUp = ((((x.onJob takenUpJob).onPass fun q =>
      { q with approach := none, floorReported := false, cutRunStart := runStart k r.s }).onPath fun p =>
        { p with commanded := k.point r.s }).liftSub).recompute := by
    unfold takenUpJob at hread
    rw [takeUp, hi, curContour_eq hi hc, runChain_eq hp hk]
    simp only [hres, Option.isSome_none, Bool.false_and, Bool.false_eq_true, if_false, hx, hread, if_true, if_neg hslug,
      if_neg hhold]
    rfl
  have hrun : ¬ s.modes.mode = .run := by rw [hm]; nofun
  rw [e]
  simp only [liftSub, moveState, mode, onPass, onPath, onJob, withPath, withJob, hxm, hrun, hxp, hp, if_false, Option.map_some,
    takenUpPaused, takenUpPass]

/-- What the taking up of cutting leaves in HOLD (R117). -/
structure PausedTakeUp (i : Slot) (c : Contour) (r : RunPass) (k : Chain) (s t : State) : Prop where
  contour : t.contour i = some { c with state := cutState c }
  others : ∀ j, j ≠ i → t.contour j = s.contour j
  pass : ∃ v, t.path.pass = some v ∧ v.s = r.s ∧ v.sub = .paused ∧ v.floorReported = false ∧
    v.stopPoint = c.defn.passEnd c.passIndex k.loaded
  genOff : t.path.genOn = false
  commanded : t.path.commanded = k.point r.s
  modes : t.modes = s.modes
  current : t.job.current = s.job.current
  store : t.store = s.store
  thread : t.thread = s.thread
  agenda : t.agenda = s.agenda
  link : t.link = { s.link with progressPending := true }

theorem takeUp_pauses (hm : s.modes.mode = .hold) (hi : s.job.current = some i) (hc : s.contour i = some c)
    (hp : s.path.pass = some r) (hk : s.chain r.chain = some k) (hres : s.job.resume = none) (hmethod : c.defn.method = .drop)
    (hcl : k.state = .closed) (hcut : k.SoundCut) (hne : k.segs ≠ []) (hlt : r.s < c.defn.passEnd c.passIndex k.loaded)
    (hsub : r.sub = .moving ∨ r.sub = .paused ∨ r.sub = .starved) : PausedTakeUp i c r k s s.takeUp := by
  have hat := takenUpAt_stands hm hc r k
  rw [takeUp_inHold hm hi hc hp hk hcut.sound hres hsub]
  generalize s.takenUpAt i r k = a at hat
  have hap : a.path.pass = some (takenUpPaused r k) := by rw [hat.path]
  have hacur : a.curContour = some { c with state := cutState c } := curContour_eq (hat.current.trans hi) hat.contour
  have hak : a.chain (takenUpPaused r k).chain = some k := by
    rw [State.chain, hat.store]
    exact hk
  have hset := settlePosition_eq hap hak
  have hstop : a.settlePosition.stopPointAt { c with state := cutState c } k r.s = c.defn.passEnd c.passIndex k.loaded := by
    rw [hset]
    exact stopPointAt_closed hcut (tackSpans_drop (s := a.onPass _) hacur hmethod) hcl hmethod hlt.le
  have hrec := recompute_beyond hap hacur hak hcut.sound (modeAt_cut hcut hne r.s) (runStart_isSome hcut hne r.s)
    (by rw [show (takenUpPaused r k).s = r.s from rfl, hstop]; exact hlt.ne') nofun
  rw [show (takenUpPaused r k).s = r.s from rfl, hstop, hset] at hrec
  have hw : ((a.onPass fun q => { q with floor := a.floorOf q, segIndex := segmentAt k.segs q.s }).onPass fun q =>
      { q with stopPoint := c.defn.passEnd c.passIndex k.loaded }) = a.withPass { takenUpPaused r k with
        floor := a.floorOf (takenUpPaused r k), segIndex := segmentAt k.segs r.s
        stopPoint := c.defn.passEnd c.passIndex k.loaded } := by
    rw [onPass, onPass, withPass, onPath, onPath, onPath, hap]
    rfl
  rw [hw, refreshGen_off (by show a.modes.mode ≠ _; rw [hat.modes, hm]; nofun)] at hrec
  have h := (genOff_stirs (a.withPass { takenUpPaused r k with
    floor := a.floorOf (takenUpPaused r k), segIndex := segmentAt k.segs r.s
    stopPoint := c.defn.passEnd c.passIndex k.loaded })).trans (refreshLevels_flags _).toStirs
  have hgen := (refreshLevels_flags (a.withPass { takenUpPaused r k with
    floor := a.floorOf (takenUpPaused r k), segIndex := segmentAt k.segs r.s
    stopPoint := c.defn.passEnd c.passIndex k.loaded }).genOff).genOff rfl
  rw [← hrec] at h hgen
  obtain ⟨v, hv, hheld⟩ := h.pass_some rfl
  refine ⟨(h.contour i).trans hat.contour, fun j hj => (h.contour j).trans (hat.others j hj), ⟨v, hv, ?_, ?_, ?_, ?_⟩, hgen, ?_,
    (h.modes_of_hold (by show a.modes.mode = _; rw [hat.modes, hm])).trans hat.modes, ?_, h.store.trans hat.store,
    h.thread.trans hat.thread, h.agenda.trans hat.agenda, h.link.trans hat.link⟩
  · rw [hheld.rest]
    rfl
  · exact hheld.sub.elim id (·.2)
  · rw [hheld.rest]
    rfl
  · rw [hheld.rest]
  · refine h.commanded.trans ?_
    show a.path.commanded = _
    rw [hat.path]
  · rw [h.job]
    exact hat.current

end State

/-! ## The request (R119) -/

theorem takeRethreadDone_eq (i : Slot) (s : State) : answerTo 0x3A [byte i.val] s =
    if s.slotState i = .reentryWait ∧ s.active .lowerDetect = true ∧ s.active .wireIntact = true ∧ s.standsAtPass = true then
      done s.takeUp
    else refuse s .wrongState := by
  show takeRethreadDone [byte i.val] s = _
  rw [takeRethreadDone, ofLength_one, withSlot_byte]

theorem State.standsAtPass_eq {s : State} {r : RunPass} {k : Chain} (hp : s.path.pass = some r)
    (hk : s.chain r.chain = some k) : s.standsAtPass = decide (s.path.commanded = k.point r.s) := by
  rw [State.standsAtPass, State.runChain_eq hp hk]

/-- Settles O36: each outcome of a break, and RETHREAD_DONE by its checks and by what the taking up of cutting leaves. -/
theorem rethreadDoneTakesUpCutting : Obligations.RethreadDoneTakesUpCutting := by
  refine ⟨fun i c q r k s hs => ⟨breakFaultsAtLimit hs, breakInHoldChoosesRoute hs, breakOnLaterPassWaits hs,
    breakInRunGivesOrder hs⟩, fun tag i s hq => ⟨fun h => ?_, fun c q r k hc hst hi hp hk hpass hlow hwire =>
      ⟨fun hne => ?_, fun hat hm hres hmethod hcl hcut hseg hlt hsub => ?_⟩⟩⟩
  · refine congrArg _ (State.request_refused hq (by simp) ((takeRethreadDone_eq i s).trans (if_neg ?_)))
    rintro ⟨hst, hlow, hwire, -⟩
    rcases h with h | h | h
    · exact h hst
    · rw [hlow] at h; cases h
    · rw [hwire] at h; cases h
  · refine congrArg _ (State.request_refused hq (by simp) ((takeRethreadDone_eq i s).trans (if_neg ?_)))
    rintro ⟨-, -, -, hstands⟩
    rw [State.standsAtPass_eq hp hk] at hstands
    exact hne (of_decide_eq_true hstands)
  · have hslot : s.slotState i = .reentryWait := by rw [State.slotState, hc]; exact hst
    have hans := (takeRethreadDone_eq i s).trans
      (if_pos ⟨hslot, hlow, hwire, (State.standsAtPass_eq hp hk).trans (decide_eq_true hat)⟩)
    have h := State.takeUp_pauses hm hi hc hp hk hres hmethod hcl hcut hseg hlt hsub
    generalize s.takeUp = u at hans h
    refine ⟨u, congrArg _ (State.request_is hq (by simp) hans h.agenda ?_ ?_ ?_), ?_, h.others, h.pass, h.genOff,
      h.commanded.trans hat.symm, h.modes, h.current.trans hi, h.store, h.thread⟩
    · show u.link.collecting = _; rw [h.link]
    · show u.link.replies = _; rw [h.link]
    · show u.link.sending = _; rw [h.link]
    · rw [h.contour, State.cutState_eq hpass]

end Sys2Proof.Machine
end

section
/-! SUPPORT. The holder (R129 to R134): what its confirmation, the end of a release and the loss of a slug make of its record
and of its owner's retention, and the stop point that the path unit then computes in HOLD. -/

set_option Elab.async false

namespace Sys2Proof.Machine.State

variable {s t : State}

/-! ## The owner's retention (R133, R134) -/

/-- The holder's owner, where there is one, has its retention written. -/
def ownerGets (s : State) (v : Retention) : State :=
  match s.holder.owner with
  | some i => s.setRetention i v
  | none => s

theorem ownerGets_none (h : s.holder.owner = none) (v : Retention) : s.ownerGets v = s := by
  rw [ownerGets, h]

theorem ownerGets_some {i : Slot} (h : s.holder.owner = some i) (v : Retention) : s.ownerGets v = s.setRetention i v := by
  rw [ownerGets, h]

theorem ownerGets_contours (s : State) (v : Retention) : ∃ cs, s.ownerGets v = s.withContours cs := by
  unfold ownerGets
  split
  · exact ⟨_, rfl⟩
  · exact ⟨_, rfl⟩

theorem ownerGets_contour {i : Slot} (h : s.holder.owner = some i) (v : Retention) :
    (s.ownerGets v).contour i = (s.contour i).map fun c => { c with retention := v } := by
  rw [ownerGets_some h]
  exact contour_onContour_same s i _

theorem ownerGets_contour_ne {i : Slot} (h : s.holder.owner ≠ some i) (v : Retention) :
    (s.ownerGets v).contour i = s.contour i := by
  cases ho : s.holder.owner with
  | none => rw [ownerGets_none ho]
  | some j =>
    rw [ownerGets_some ho]
    exact contour_onContour_ne s (fun e => h (ho.trans (congrArg some e.symm))) _

/-! ## A waiting engage request (R130) -/

theorem takeUpWaiting_none (h : ∀ j, s.holder.request ≠ some (.waiting, j)) : s.takeUpWaiting = s := by
  unfold takeUpWaiting
  split
  · rename_i j hr _
    exact absurd hr (h j)
  · rfl

/-- An engage has begun (R131). -/
def engagingFor (s : State) (j : Slot) : State := s.onHolder fun h =>
  { h with state := .engaging, claimant := some j, output := true, timer := some s.params.holderTimeout, request := none }

/-- Where HOLDER_ENGAGED is inactive, a FREE holder begins the engage that waits. -/
theorem takeUpWaiting_engages {j : Slot} (hr : s.holder.request = some (.waiting, j)) (hf : s.holder.state = .free)
    (ha : s.active .holderEngaged = false) : (s.engagingFor j).Stirs s.takeUpWaiting := by
  have h := (refreshLevels_flags (s.engagingFor j)).toStirs
  have hoff : (s.engagingFor j).refreshLevels.active .holderEngaged = false := (h.active _).trans ha
  have hbegin : s.beginEngage j = if (s.engagingFor j).refreshLevels.active .holderEngaged = true then
      (s.engagingFor j).refreshLevels.holderConfirmed else (s.engagingFor j).refreshLevels := rfl
  rw [takeUpWaiting, hr, hf]
  dsimp only
  rwa [hbegin, hoff, if_neg Bool.false_ne_true]

/-! ## HOLDER_ENGAGED has changed (R131, R133, R134) -/

/-- The holder is HOLDING for a contour (R131). -/
def holdingFor (s : State) (i : Slot) : State :=
  s.onHolder fun h => { h with state := .holding, owner := some i, claimant := none, timer := none }

/-- The part when HOLDER_ENGAGED has become active for a claimant. -/
def confirmed (s : State) (i : Slot) : State := (s.turned .holderEngaged true).holdingFor i

theorem holderLine_confirms {i : Slot} (ha : s.active .holderEngaged = true) (hst : s.holder.state = .engaging)
    (hc : s.holder.claimant = some i) : s.holderLine =
      if s.job.current = some i then (s.holdingFor i).report .holderHolding else s.holdingFor i := by
  have hfor : (s.holdingFor i).holdsForCurrent = decide (s.job.current = some i) := by
    show (true && true && decide (some i = s.job.current)) = _
    rw [Bool.true_and, Bool.true_and, decide_eq_decide]
    exact eq_comm
  have e : s.holderLine = if (s.holdingFor i).holdsForCurrent then (s.holdingFor i).report .holderHolding
      else s.holdingFor i := by
    simp only [holderLine, hst, ha, holderConfirmed, onHolder, hc]
    rfl
  rw [e, hfor]
  simp only [decide_eq_true_eq]

/-- The holder is FREE after a release (R133). -/
def holderFreed (s : State) : State := s.onHolder fun h => { h with state := .free, owner := none, timer := none }

theorem holderLine_releases (ha : s.active .holderEngaged = false) (hst : s.holder.state = .releasing) :
    s.holderLine = ((s.ownerGets .released).holderFreed).takeUpWaiting := by
  cases ho : s.holder.owner <;> simp only [holderLine, hst, ha, releaseDone, ownerGets, ho] <;> rfl

/-- The holder is FREE and open once its slug is lost (R134). -/
def holderEmptied (s : State) : State :=
  s.onHolder fun h => { h with state := .free, owner := none, output := false, timer := none }

/-- The part when a lost slug has been told and HOLD forced, before the path unit takes the loss. -/
def lossTold (s : State) : State := ((s.ownerGets .lost).raise .holderLost).holderEmptied.forceHold

theorem lossTold_stirs (s : State) : (s.ownerGets .lost).holderEmptied.Stirs s.lossTold :=
  ((raise_flags _ _).toStirs.apart (apart_onHolder _)).trans (forceHold_stirs _)

theorem holderLine_loses (ha : s.active .holderEngaged = false) (hst : s.holder.state = .holding)
    (hw : ∀ j, s.holder.request ≠ some (.waiting, j)) : s.holderLine =
      if s.holder.owner.isSome = true ∧ s.holder.owner = s.job.current then s.lossTold.lostForCurrent else s.lossTold := by
  have hholder : s.lossTold.holder.request = s.holder.request := by
    obtain ⟨cs, e⟩ := s.ownerGets_contours .lost
    rw [s.lossTold_stirs.holder, e]
    rfl
  have htake : s.lossTold.takeUpWaiting = s.lossTold := takeUpWaiting_none (by rwa [hholder])
  conv_rhs => rw [← htake]
  simp only [holderLine, hst, ha]
  rfl

/-! ## What a lost slug leaves of latch and mode (R134, R140, R146) -/

theorem lossTold_latch (s : State) : (s.lossTold.cond .holderLost).latch = s.raisedLatch .holderLost := by
  obtain ⟨cs, e⟩ := s.ownerGets_contours .lost
  refine (forceHold_latch _ _).trans ?_
  rw [raise_always rfl, e]
  exact latch_raised _ _

/-- Outside PARK the loss, as it is raised, leaves the mode unit alone. -/
theorem lossRaised_modes (hm : s.modes.mode ≠ .park) :
    ((s.ownerGets .lost).raise .holderLost).holderEmptied.modes = s.modes := by
  obtain ⟨cs, e⟩ := s.ownerGets_contours .lost
  rw [raise_always rfl, e]
  exact latch_modes _ _ hm

theorem lossTold_run (hm : s.modes.mode = .run) :
    s.lossTold.modes = { s.modes with mode := .hold } ∧ s.lossTold.path.genOn = false := by
  have h := lossRaised_modes (s := s) (by rw [hm]; nofun)
  rw [lossTold]
  generalize ((s.ownerGets .lost).raise .holderLost).holderEmptied = u at h
  refine ⟨by rw [forceHold_mode (by rwa [h]), h], ?_⟩
  rw [forceHold, if_pos (show u.mode = .run by rw [mode, h, hm])]
  rfl

theorem lossTold_stays (hm : s.modes.mode = .hold ∨ s.modes.mode = .waking) : s.lossTold.modes = s.modes := by
  have hpark : s.modes.mode ≠ .park := by rcases hm with hm | hm <;> rw [hm] <;> nofun
  have hrun : s.modes.mode ≠ .run := by rcases hm with hm | hm <;> rw [hm] <;> nofun
  have h := lossRaised_modes hpark
  rw [lossTold, forceHold_of_ne (by rwa [h]), h]

/-- A condition that wakes, latched while enabled, wakes a parked cell (R146). -/
theorem latch_wakesCell {c : Cond} (hw : c.wakes = true) (hm : s.modes.mode = .park) (hl : (s.cond c).latch = false)
    (he : (s.cond c).enable = true) : (s.latch c).modes =
      { s.modes with mode := .waking, pump := true, settle := some s.params.wakeSettle } := by
  simp only [State.latch, hl, he, hw, if_true, Bool.false_eq_true, if_false]
  rw [wakeCell, if_pos (by exact hm)]
  rfl

theorem lossTold_park (hm : s.modes.mode = .park) (hl : (s.cond .holderLost).latch = false)
    (he : (s.cond .holderLost).enable = true) : s.lossTold.modes =
      { s.modes with mode := .waking, pump := true, settle := some s.params.wakeSettle } := by
  have h : ((s.ownerGets .lost).raise .holderLost).holderEmptied.modes =
      { s.modes with mode := .waking, pump := true, settle := some s.params.wakeSettle } := by
    obtain ⟨cs, e⟩ := s.ownerGets_contours .lost
    rw [raise_always rfl, e]
    exact latch_wakesCell (s := s.withContours cs) rfl hm hl he
  rw [lossTold, forceHold_of_ne (by rw [h]; nofun), h]

/-! ## The stop point with and without the holder (R7, R51) -/

theorem tackSpans_untacked {c : Contour} (hc : s.curContour = some c) (h : c.defn.method ≠ .tack) : s.tackSpans = [] := by
  rw [tackSpans, hc]
  exact if_neg fun h' => h h'.2

/-- On a CLOSED chain of CUT segments without tack spans the stop point is the pass end, or an engage point before it. -/
theorem stopPointAt_engage {c : Contour} {k : Chain} {pos : Nat} (hcut : k.SoundCut) (htack : s.tackSpans = [])
    (hk : k.state = .closed) (hpos : pos ≤ c.defn.passEnd c.passIndex k.loaded) : s.stopPointAt c k pos =
      (s.engageCandidate c k pos).elim (c.defn.passEnd c.passIndex k.loaded) (min (c.defn.passEnd c.passIndex k.loaded)) := by
  have hend : endCandidate c k pos = some (c.defn.passEnd c.passIndex k.loaded) := by
    rw [endCandidate, if_pos hk]
    exact Option.filter_eq_some_iff.mpr ⟨rfl, decide_eq_true hpos⟩
  have hlimit : limitCandidate c k pos = none := if_neg (by rw [hk]; nofun)
  have hspan : tackBoundary s.tackSpans pos = none := by rw [htack]; rfl
  rw [stopPointAt, hend, modeBoundary_none hcut, hspan, hlimit]
  cases s.engageCandidate c k pos <;> rfl

section
variable {c : Contour} {k : Chain} {pos : Nat} (hc : s.curContour = some c) (hmethod : c.defn.method = .holder)
  (hk : k.state = .closed) (hcut : k.SoundCut)
include hc hmethod hk hcut

/-- While the holder is HOLDING for the contour its engage point is no candidate, and the stop point is the pass end. -/
theorem stopPointAt_held (hheld : s.holdsForCurrent = true) (hpos : pos ≤ c.defn.passEnd c.passIndex k.loaded) :
    s.stopPointAt c k pos = c.defn.passEnd c.passIndex k.loaded := by
  have hengage : s.engageCandidate c k pos = none := if_neg fun h => by rw [hheld] at h; exact nomatch h.2
  rw [stopPointAt_engage hcut (tackSpans_untacked hc (by rw [hmethod]; nofun)) hk hpos, hengage]
  rfl

/-- While it is not, the stop point on the closing pass is the engage point. -/
theorem stopPointAt_unheld (hfree : s.holdsForCurrent = false) (hclosing : c.passIndex = c.defn.closingPass)
    (hpos : pos ≤ k.loaded - c.defn.engage.getD 0)
    (hle : k.loaded - c.defn.engage.getD 0 ≤ c.defn.passEnd c.passIndex k.loaded) :
    s.stopPointAt c k pos = k.loaded - c.defn.engage.getD 0 := by
  have hengage : s.engageCandidate c k pos = some (k.loaded - c.defn.engage.getD 0) := by
    rw [engageCandidate, if_pos ⟨hk, hfree⟩, engagePoint, if_pos ⟨hmethod, hclosing⟩]
    exact Option.filter_eq_some_iff.mpr ⟨rfl, decide_eq_true hpos⟩
  rw [stopPointAt_engage hcut (tackSpans_untacked hc (by rw [hmethod]; nofun)) hk (hpos.trans hle), hengage]
  exact min_eq_right hle

end

/-- In HOLD a stop point beyond s is computed anew with the generator off; a STARVED pass becomes PAUSED, and any other keeps
its sub-state (R51, R53, R61). -/
theorem recompute_inHold {c : Contour} {r : RunPass} {k : Chain} (hp : s.path.pass = some r) (hc : s.curContour = some c)
    (hk : s.chain r.chain = some k) (hcut : k.SoundCut) (hne : k.segs ≠ []) (hm : s.modes.mode = .hold)
    (hlt : s.stopPointAt c k r.s ≠ r.s) : ∃ v : RunPass, v.s = r.s ∧ v.stopPoint = s.stopPointAt c k r.s ∧
      (r.sub = .paused → v.sub = .paused) ∧ (s.withPass v).Stirs s.recompute := by
  have hstirs (v : RunPass) : (s.withPass v).Stirs (s.withPass v).genOff.refreshLevels :=
    (genOff_stirs _).trans (refreshLevels_flags _).toStirs
  by_cases hsub : r.sub = .starved
  · obtain ⟨v, -, hs, hv, hstop, e⟩ := recompute_pauses hp hc hk hcut hne hm (.inl hsub) hlt
    exact ⟨v, hs, hstop, fun _ => hv, e ▸ hstirs v⟩
  · obtain ⟨v, -, hs, hv, e⟩ := settle_onCut hp hk hcut hne
    have hstop : (s.withPass v).stopPointAt c k r.s = s.stopPointAt c k r.s := rfl
    refine ⟨{ v with stopPoint := s.stopPointAt c k r.s }, hs, rfl, hv.trans, ?_⟩
    have hrec : s.recompute =
        (s.withPass { v with stopPoint := s.stopPointAt c k r.s }).genOff.refreshLevels := by
      rw [recompute, hp, hc]
      dsimp only
      rw [hk]
      dsimp only
      rw [readSlots_sound hk hcut.sound]
      dsimp only
      rw [if_pos rfl, e, hstop, if_neg hlt, if_neg hsub, refreshGen_off (by show s.modes.mode ≠ _; rw [hm]; nofun)]
      rfl
    exact hrec ▸ hstirs _

/-! ## The path unit takes the change (R112, R134) -/

theorem holderHolds_kept {i : Slot} {c : Contour} (hi : s.job.current = some i) (hc : s.contour i = some c)
    (hst : c.state = .reentry ∨ c.state = .reentryWait) :
    s.holderHolds = s.onJob fun j => { j with keptHolding := true } := by
  have hcut : s.cutting = false := by
    rw [cutting, curContour_eq hi hc]
    rcases hst with h | h <;> simp only [h] <;> rfl
  have hre : s.reentering = true := by
    rw [reentering, curContour_eq hi hc]
    rcases hst with h | h <;> simp only [h] <;> rfl
  rw [holderHolds, hcut, hre]
  rfl

/-- A pass that waits for the holder may move again, PAUSED in HOLD, and its stop point is computed anew. -/
theorem holderHolds_lifts {i : Slot} {c : Contour} {r : RunPass} (hi : s.job.current = some i) (hc : s.contour i = some c)
    (hst : c.state = .cutting ∨ c.state = .severing) (hp : s.path.pass = some r) (hsub : r.sub = .waitHolder)
    (hm : s.modes.mode = .hold) : s.holderHolds = (s.withPass { r with sub := .paused }).recompute := by
  have hlift : s.liftSub = s.withPass { r with sub := .paused } := by
    rw [liftSub, moveState, mode, hm, onPass, onPath, hp]
    rfl
  rw [holderHolds, cutting_of hi hc hst, if_pos rfl, hp, Option.map_some, hsub, ← hlift]
  rfl

theorem lostForCurrent_closing {i : Slot} {c : Contour} (hi : s.job.current = some i) (hc : s.contour i = some c)
    (hst : c.state = .cutting ∨ c.state = .severing) (hcl : c.passIndex = c.defn.closingPass) :
    s.lostForCurrent = s.recompute := by
  have hclosing : s.onClosingPass = true := by
    rw [onClosingPass, curContour_eq hi hc]
    exact decide_eq_true hcl
  rw [lostForCurrent, cutting_of hi hc hst, hclosing]
  rfl

end Sys2Proof.Machine.State
end

section
/-! RELEASE_HOLDER, and the changes of HOLDER_ENGAGED (R112, R130 to R134). -/

set_option Elab.async false

namespace Sys2Proof.Machine

/-! ## HOLDER_ENGAGED ends its hold -/

section
variable {s : State} (hs : s.Steady)
include hs

theorem lineExpiry_settled {l : Line} {t : State} (e : s.filterExpiry l = t) (ha : t.agenda = []) :
    exec (.lineFilterExpiry l) s = .next t.arbitrate :=
  congrArg Host.Outcome.next (State.event_settled (f := (·.filterExpiry l)) hs e ha)

theorem lineExpiry_reports {l : Line} {t : State} {r : Report} (e : s.filterExpiry l = t.report r) (ha : t.agenda = [])
    (h : (t.handle r).agenda = []) : exec (.lineFilterExpiry l) s = .next (t.handle r).arbitrate :=
  congrArg Host.Outcome.next (State.event_reports (f := (·.filterExpiry l)) hs e ha h)

theorem engageIsConfirmed (i : Slot) : EngageConfirmed i s := by
  intro hturn hst hclaim
  have hline : s.filterExpiry .holderEngaged =
      if s.job.current = some i then (s.confirmed i).report .holderHolding else s.confirmed i :=
    (State.filterExpiry_turns hturn).trans (State.holderLine_confirms (s.turned_active .holderEngaged true) hst hclaim)
  have hreport (hi : s.job.current = some i) : (s.confirmed i).holderHolds.agenda = [] →
      exec (.lineFilterExpiry .holderEngaged) s = .next (s.confirmed i).holderHolds.arbitrate :=
    lineExpiry_reports hs (hline.trans (if_pos hi)) hs.1
  refine ⟨fun hi => ?_, fun c hi hc hstate => ?_, fun c q r k hpass hstate hmethod hsub hk hcut hne hlt hm => ?_⟩
  · exact lineExpiry_settled hs (hline.trans (if_neg hi)) hs.1
  · have hkept := State.holderHolds_kept (s := s.confirmed i) hi hc hstate
    have hevent := hreport hi
    rw [hkept] at hevent
    exact hevent hs.1
  · obtain ⟨hi, hc, -, hp, hch, -⟩ := hpass
    have hevent := hreport hi
    rw [State.holderHolds_lifts (s := s.confirmed i) hi hc hstate hp hsub hm] at hevent
    have hcur : ((s.confirmed i).withPass { r with sub := .paused }).curContour = some c :=
      State.curContour_eq (s := s.confirmed i) hi hc
    have hholds : ((s.confirmed i).withPass { r with sub := .paused }).holdsForCurrent = true := by
      show (true && true && decide (some i = s.job.current)) = true
      rw [hi]
      exact decide_eq_true rfl
    have hstop := State.stopPointAt_held hcur hmethod hk hcut hholds hlt.le
    obtain ⟨v, hv, hvstop, hvsub, h⟩ := State.recompute_inHold (s := (s.confirmed i).withPass { r with sub := .paused }) rfl
      hcur hch hcut hne hm (by rw [hstop]; exact hlt.ne')
    generalize ((s.confirmed i).withPass { r with sub := .paused }).recompute = u at hevent h
    have ha := u.arbitrate_sends
    obtain ⟨w, hw, hheld⟩ := h.pass_some (r := v) rfl
    obtain ⟨n, hn⟩ := ha.pass_some hw
    have hwsub : w.sub = .paused := hheld.sub.elim (·.trans (hvsub rfl)) (·.2)
    refine ⟨_, hevent (h.agenda.trans hs.1), ha.holder.trans h.holder, ⟨_, hn, ?_, hwsub, ?_⟩,
      ha.contours.trans h.contours, ha.job.trans h.job, ha.store.trans h.store, ha.modes.trans (h.modes_of_hold hm)⟩
    · rw [hheld.rest]
      exact hv
    · rw [hheld.rest]
      exact hvstop.trans hstop

theorem releaseIsCompleted : ReleaseCompleted s := by
  intro hturn hst
  have hline : s.filterExpiry .holderEngaged =
      (((s.turned .holderEngaged false).ownerGets .released).holderFreed).takeUpWaiting :=
    (State.filterExpiry_turns hturn).trans (State.holderLine_releases (s.turned_active .holderEngaged false) hst)
  have hactive := s.turned_active .holderEngaged false
  refine ⟨fun hw => ⟨fun ho => ?_, fun i c ho hc => ?_⟩, fun j hr => ?_⟩
  · rw [State.ownerGets_none (s := s.turned .holderEngaged false) ho,
      State.takeUpWaiting_none (s := (s.turned .holderEngaged false).holderFreed) hw] at hline
    exact lineExpiry_settled hs hline hs.1
  · rw [State.ownerGets_some (s := s.turned .holderEngaged false) ho,
      State.takeUpWaiting_none (s := ((s.turned .holderEngaged false).setRetention i .released).holderFreed) hw,
      State.setRetention, State.onContour, show (s.turned .holderEngaged false).contour i = some c from hc] at hline
    exact lineExpiry_settled hs hline hs.1
  · have hcontour {i : Slot} (ho : s.holder.owner = some i) :=
      State.ownerGets_contour (s := s.turned .holderEngaged false) ho .released
    obtain ⟨cs, e⟩ := (s.turned .holderEngaged false).ownerGets_contours .released
    rw [e] at hline hcontour
    have h := State.takeUpWaiting_engages (s := ((s.turned .holderEngaged false).withContours cs).holderFreed) hr rfl hactive
    rw [← hline] at h
    have ha := (s.filterExpiry .holderEngaged).arbitrate_sends
    refine ⟨_, lineExpiry_settled hs rfl (h.agenda.trans hs.1),
      ha.holder.trans h.holder, fun i ho => ?_, ha.job.trans h.job, ha.store.trans h.store, ha.thread.trans h.thread⟩
    rw [ha.contour, h.contour]
    refine (congrArg (Option.map (·.retention)) (hcontour ho)).trans ?_
    rw [Option.map_map]
    rfl

theorem slugIsLost : SlugLost s := by
  intro hturn hst hw
  have hline := (State.filterExpiry_turns hturn).trans
    (State.holderLine_loses (s.turned_active .holderEngaged false) hst hw)
  have hlost {i : Slot} (ho : s.holder.owner = some i) :=
    State.ownerGets_contour (s := s.turned .holderEngaged false) ho .lost
  have hother {i : Slot} (ho : s.holder.owner ≠ some i) :=
    State.ownerGets_contour_ne (s := s.turned .holderEngaged false) ho .lost
  have h := (s.turned .holderEngaged false).lossTold_stirs
  have hlatch := (s.turned .holderEngaged false).lossTold_latch
  have hrun (hm : s.modes.mode = .run) := State.lossTold_run (s := s.turned .holderEngaged false) hm
  have hstay (hm : s.modes.mode = .hold ∨ s.modes.mode = .waking) :=
    State.lossTold_stays (s := s.turned .holderEngaged false) hm
  have hpark (hm : s.modes.mode = .park) (hl : (s.cond .holderLost).latch = false)
      (he : (s.cond .holderLost).enable = true) := State.lossTold_park (s := s.turned .holderEngaged false) hm hl he
  obtain ⟨cs, e⟩ := (s.turned .holderEngaged false).ownerGets_contours .lost
  rw [e] at h hlost hother
  generalize (s.turned .holderEngaged false).lossTold = u at hline h hlatch hrun hstay hpark
  refine ⟨fun howner => ?_, fun i c q r k hpass ho hstate hmethod hclosing hk hcut hne hlt hle hm => ?_⟩
  · have hnot : ¬ (s.holder.owner.isSome = true ∧ s.holder.owner = s.job.current) := by
      rintro ⟨hsome, hcur⟩
      rcases howner with hnone | hne
      · rw [hnone] at hsome
        cases hsome
      · exact hne hcur
    have hevent := lineExpiry_settled hs (hline.trans (if_neg hnot)) (h.agenda.trans hs.1)
    have ha := u.arbitrate_sends
    exact ⟨_, hevent, ha.holder.trans h.holder,
      fun i hi => (ha.contour i).trans ((h.contour i).trans (hother hi)),
      fun i c hi hc => (ha.contour i).trans ((h.contour i).trans ((hlost hi).trans (congrArg (Option.map _) hc))),
      (ha.latch _).trans hlatch, fun hm => ⟨ha.modes.trans (hrun hm).1, ha.genOn.trans (hrun hm).2⟩,
      fun hm => ha.modes.trans (hstay hm), fun hm hl he => ha.modes.trans (hpark hm hl he), ha.job.trans h.job,
      ha.store.trans h.store, ha.slug.trans h.slug, ha.thread.trans h.thread⟩
  · obtain ⟨hi, hc, -, hp, hch, -⟩ := hpass
    have hui : u.job.current = some i := (congrArg Job.current h.job).trans hi
    have huc : u.contour i = some { c with retention := .lost } :=
      (h.contour i).trans ((hlost ho).trans (congrArg (Option.map _) hc))
    have hcur := State.curContour_eq hui huc
    have hfree : u.holdsForCurrent = false := by rw [State.holdsForCurrent, h.holder]; rfl
    obtain ⟨p, hup, hheld⟩ := h.pass_some hp
    have hps : p.s = r.s := by rw [hheld.rest]
    have huch : u.chain p.chain = some k := by rw [h.chain, hheld.rest]; exact hch
    have hstop := State.stopPointAt_unheld hcur hmethod hk hcut hfree hclosing (hps.trans_le hlt.le) hle
    obtain ⟨v, hv, hvstop, -, hrec⟩ := State.recompute_inHold hup hcur huch hcut hne
      ((congrArg ModeUnit.mode (hstay (.inl hm))).trans hm) (by rw [hstop, hps]; exact hlt.ne')
    have hend : s.filterExpiry .holderEngaged = u.recompute :=
      hline.trans ((if_pos ⟨ho ▸ rfl, ho.trans hi.symm⟩).trans (State.lostForCurrent_closing hui huc hstate hclosing))
    have ha := u.recompute.arbitrate_sends
    obtain ⟨w, hw', hwheld⟩ := hrec.pass_some (r := v) rfl
    obtain ⟨n, hn⟩ := ha.pass_some hw'
    refine ⟨_, lineExpiry_settled hs hend (hrec.agenda.trans (h.agenda.trans hs.1)),
      (ha.contour i).trans ((hrec.contour i).trans huc), ?_, ?_⟩
    · rw [hn, hwheld.rest]
      exact congrArg some (hv.trans hps)
    · rw [hn, hwheld.rest]
      exact congrArg some (hvstop.trans hstop)

end

/-! ## RELEASE_HOLDER (R132) -/

theorem takeReleaseHolder_eq (s : State) : answerTo 0x38 [] s =
    if s.holderReleasable then done s.openHolder else refuse s .wrongState := rfl

theorem holderReleasable_iff (s : State) : s.holderReleasable = true ↔ s.holder.state = .holding ∧
    ∀ i, s.holder.owner = some i → ∃ c, s.contour i = some c ∧ c.retention = .held := by
  rw [State.holderReleasable, Bool.and_eq_true, decide_eq_true_eq]
  refine and_congr_right fun _ => ?_
  cases s.holder.owner with
  | none => simp
  | some i => simp [Option.map_eq_some_iff]

/-- Settles O43: each change of HOLDER_ENGAGED by the holder's state, and RELEASE_HOLDER by its check. -/
theorem releaseHolderOpensAHeldSlug : Obligations.ReleaseHolderOpensAHeldSlug := by
  refine ⟨fun s hs => ⟨engageIsConfirmed hs, releaseIsCompleted hs, slugIsLost hs⟩, fun tag s hq =>
    ⟨fun h => ?_, fun h => ?_⟩⟩
  · have hans := (takeReleaseHolder_eq s).trans (if_pos ((holderReleasable_iff s).mpr h))
    exact congrArg _ (State.request_is hq (by simp) hans rfl rfl rfl rfl)
  · have hans := (takeReleaseHolder_eq s).trans (if_neg (mt (holderReleasable_iff s).mp h))
    exact congrArg _ (State.request_refused hq (by simp) hans)

end Sys2Proof.Machine
end

section
/-! SUPPORT. HOLD forced after the level conditions have taken their values (R140, R142, R146): from RUN it is HOLD with the
generator off, in HOLD and WAKING the mode stays, and a parked cell whose waking conditions show their sources stays parked. -/

set_option Elab.async false

namespace Sys2Proof.Machine.State

variable {s t u : State}

/-! ## From RUN the generator is off (R61, R140) -/

/-- The cell runs, or its generator is commanded off. -/
def RunsOrOff (s : State) : Prop := s.modes.mode = .run ∨ s.path.genOn = false

theorem RunsOrOff.forceHold (h : s.RunsOrOff) : s.forceHold.path.genOn = false := by
  rcases h with hm | hg
  · rw [State.forceHold, if_pos (show s.mode = .run from hm)]
    rfl
  · exact (forceHold_stirs s).genOff hg

theorem RunsOrOff.setLive (h : s.RunsOrOff) (c : Cond) (v : Bool) : (s.setLive c v).RunsOrOff := by
  rcases h with hm | hg
  · have hlatch : ((s.setCond c { s.cond c with live := v }).latch c).modes.mode = .run := by
      rw [latch_modes _ c (by show s.modes.mode ≠ _; rw [hm]; nofun)]
      exact hm
    simp only [State.setLive]
    repeat' split
    · exact .inl hm
    · exact .inr (RunsOrOff.forceHold (.inl hlatch))
    · exact .inl hlatch
    · exact .inl hm
  · exact .inr ((setLive_stirs s c v).genOff hg)

theorem RunsOrOff.refreshLevels (h : s.RunsOrOff) : s.refreshLevels.RunsOrOff :=
  foldl_keep _ (fun _ c ht => ht.setLive c _) _ h

/-! ## A parked cell stays parked (R146) -/

/-- The conditions that wake the cell and are level conditions show what their sources say (R146, R153). -/
def WakersShown (s : State) : Prop := ∀ c ∈ [Cond.doorOpen, .axisFault, .genFault], (s.cond c).live = s.source c

theorem waker_level {c : Cond} (hc : c ∈ [Cond.doorOpen, .axisFault, .genFault]) : c ∈ Cond.levels := by
  revert c
  decide

theorem waker_of_wakes {c : Cond} (hc : c ∈ Cond.levels) (hw : c.wakes = true) :
    c ∈ [Cond.doorOpen, .axisFault, .genFault] := by
  cases c <;> simp_all [Cond.levels, Cond.wakes]

/-- The wakers belong to the cell's own group, which is valid always (R154). -/
theorem levelValue_waker (s : State) {c : Cond} (hc : c ∈ [Cond.doorOpen, .axisFault, .genFault]) :
    s.levelValue c = s.source c := by
  simp only [List.mem_cons, List.not_mem_nil, or_false] at hc
  rcases hc with rfl | rfl | rfl <;> rfl

/-- A change of flags changes no source of a waker. -/
theorem Stirs.source_waker (h : s.Stirs t) {c : Cond} (hc : c ∈ [Cond.doorOpen, .axisFault, .genFault]) :
    t.source c = s.source c := by
  rw [← levelValue_waker t hc, h.levelValue (waker_level hc), levelValue_waker s hc]

/-- Once the levels have been taken the wakers show their sources, a forced hold after it or none. -/
theorem wakersShown_forced (s : State) : s.refreshLevels.forceHold.WakersShown := by
  intro c hc
  have h := (refreshLevels_flags s).toStirs.trans (forceHold_stirs _)
  have hgap : c ≠ .gapOpen := by
    rintro rfl
    revert hc
    decide
  rw [forceHold_live _ hgap, refreshLevels_live s (waker_level hc), levelValue_waker s hc, h.source_waker hc]

/-- A level taken outside RUN leaves the mode unit alone where the condition does not wake the cell, or shows the value
already. -/
theorem setLive_modes_quiet {c : Cond} {v : Bool} (hm : s.modes.mode ≠ .run) (h : c.wakes = true → (s.cond c).live = v) :
    (s.setLive c v).modes = s.modes := by
  simp only [setLive]
  split
  · rfl
  · rename_i hlive
    have hasleep : c.wakes = false := Bool.eq_false_iff.mpr fun hw => hlive (h hw)
    have hlatch : ((s.setCond c { s.cond c with live := v }).latch c).modes = s.modes := latch_modes_of_asleep hasleep _
    split
    · split
      · rw [forceHold_of_ne (by rw [hlatch]; exact hm), hlatch]
      · exact hlatch
    · rfl

theorem foldl_setLive_modes_quiet (v : Cond → Bool) (l : List Cond) (hm : s.modes.mode ≠ .run)
    (h : ∀ c ∈ l, c.wakes = true → (s.cond c).live = v c) : (l.foldl (fun t c => t.setLive c (v c)) s).modes = s.modes := by
  induction l generalizing s with
  | nil => rfl
  | cons c l ih =>
    have hc : (s.setLive c (v c)).modes = s.modes := setLive_modes_quiet hm (h c (.head _))
    refine (ih (s := s.setLive c (v c)) (by rwa [hc]) fun d hd hw => ?_).trans hc
    rw [setLive_live s c d _ (by rintro rfl; cases hw)]
    split
    · rename_i e
      rw [e]
    · exact h d (.tail c hd) hw

theorem WakersShown.refreshLevels_modes (h : s.WakersShown) (hm : s.modes.mode ≠ .run) : s.refreshLevels.modes = s.modes := by
  rw [refreshLevels_eq]
  refine foldl_setLive_modes_quiet s.levelValue Cond.levels hm fun c hc hw => ?_
  have hwaker := waker_of_wakes hc hw
  rw [h c hwaker, levelValue_waker s hwaker]

/-! ## HOLD forced (R142) -/

/-- In HOLD and WAKING no change of flags touches the mode unit (R140, R146). -/
theorem Stirs.modes_still (h : s.Stirs t) (hm : s.modes.mode = .hold ∨ s.modes.mode = .waking) : t.modes = s.modes := by
  rcases h.modes with e | ⟨e, -⟩ | ⟨e, -⟩
  · exact e
  · rcases hm with hm | hm <;> rw [hm] at e <;> cases e
  · rcases hm with hm | hm <;> rw [hm] at e <;> cases e

theorem refreshed_holdForced (s : State) : HoldForced s s.refreshLevels.forceHold := by
  have h := (refreshLevels_flags s).toStirs
  refine ⟨fun hm => ⟨h.forceHold_modes (.inl hm), (RunsOrOff.refreshLevels (.inl hm)).forceHold⟩,
    (h.trans (forceHold_stirs _)).modes_still, fun hm (hw : s.WakersShown) => ?_⟩
  have hmodes := hw.refreshLevels_modes (by rw [hm]; nofun)
  rw [forceHold_of_ne (by rw [hmodes, hm]; nofun), hmodes]


end Sys2Proof.Machine.State
end

section
/-! The two holder timeouts (R130, R131, R133, R142). -/

set_option Elab.async false

namespace Sys2Proof.Machine

variable {s t u : State}

/-! ## What is carried on after HOLD has been forced -/

theorem HoldForced.carried (h : HoldForced s t) (hm : u.modes = t.modes)
    (hg : t.path.genOn = false → u.path.genOn = false) : HoldForced s u := by
  obtain ⟨hrun, hstill, hpark⟩ := h
  exact ⟨fun e => ⟨hm.trans (hrun e).1, hg (hrun e).2⟩, fun e => hm.trans (hstill e), fun e hw => hm.trans (hpark e hw)⟩

theorem HoldForced.since (h : HoldForced t u) (hm : t.modes = s.modes) (hw : s.WakersShown → t.WakersShown) :
    HoldForced s u := by
  obtain ⟨hrun, hstill, hpark⟩ := h
  rw [hm] at hrun hstill hpark
  exact ⟨hrun, hstill, fun e h => hpark e (hw h)⟩

/-- The holder's record is no source of a waker (R153). -/
theorem State.WakersShown.onHolder (h : s.WakersShown) (f : Holder → Holder) : (s.onHolder f).WakersShown := by
  intro c hc
  refine (h c hc).trans ?_
  simp only [List.mem_cons, List.not_mem_nil, or_false] at hc
  rcases hc with rfl | rfl | rfl <;> rfl

theorem HolderTimedOut.sends (h : HolderTimedOut s t) (ha : t.Sends u) : HolderTimedOut s u := by
  obtain ⟨hlatch, hforced, hcontours, hjob, hstore, hslug, hthread⟩ := h
  exact ⟨(ha.latch _).trans hlatch, hforced.carried ha.modes ha.genOn.trans, ha.contours.trans hcontours,
    ha.job.trans hjob, ha.store.trans hstore, ha.slug.trans hslug, ha.thread.trans hthread⟩

/-- An engage that begins after the timeout leaves what the timeout left, the holder's record apart. -/
theorem HolderTimedOut.engages (h : HolderTimedOut s t) (hm : t.modes.mode ≠ .run) (hw : t.WakersShown) (j : Slot) :
    HolderTimedOut s (t.engagingFor j).refreshLevels := by
  obtain ⟨hlatch, hforced, hcontours, hjob, hstore, hslug, hthread⟩ := h
  have hr := (State.refreshLevels_flags (t.engagingFor j)).toStirs
  have hmodes : (t.engagingFor j).refreshLevels.modes = t.modes :=
    State.WakersShown.refreshLevels_modes (hw.onHolder _) hm
  exact ⟨(State.refreshLevels_keepsLatch (d := .holderTimeout) (by decide) _).trans hlatch,
    hforced.carried hmodes hr.genOff, hr.contours.trans hcontours, hr.job.trans hjob, hr.store.trans hstore,
    hr.slug.trans hslug, hr.thread.trans hthread⟩

namespace State

/-- HOLDER_TIMEOUT is raised and the holder's record written. -/
def timeoutTold (s : State) (f : Holder → Holder) : State := (s.raise .holderTimeout).onHolder f

theorem timeoutTold_stirs (s : State) (f : Holder → Holder) : (s.onHolder f).Stirs (s.timeoutTold f) :=
  (raise_flags s _).toStirs.apart (apart_onHolder f)

/-- HOLDER_TIMEOUT does not wake the cell (R153). -/
theorem timeoutTold_modes (s : State) (f : Holder → Holder) : (s.timeoutTold f).modes = s.modes := by
  show (s.raise .holderTimeout).modes = s.modes
  rw [raise_always rfl, latch_modes_of_asleep rfl]

theorem timeoutTold_latch (s : State) (f : Holder → Holder) :
    ((s.timeoutTold f).cond .holderTimeout).latch = s.raisedLatch .holderTimeout :=
  raise_raised .holderTimeout rfl

theorem WakersShown.timeoutTold (h : s.WakersShown) (f : Holder → Holder) : (s.timeoutTold f).WakersShown := by
  refine WakersShown.onHolder (fun c hc => ?_) f
  have hne : c ≠ .holderTimeout := by
    rintro rfl
    revert hc
    decide
  rw [(raise_flags s .holderTimeout).source_waker hc, raise_latch_ne s hne, h c hc]

/-! ## The engage timer expires (R131) -/

/-- The engage has timed out, before a request that waits is taken up. -/
def engageEnded (s : State) (f : Holder → Holder) : State := (s.timeoutTold f).refreshLevels.forceHold

theorem engageEnded_stirs (s : State) (f : Holder → Holder) : (s.onHolder f).Stirs (s.engageEnded f) :=
  (s.timeoutTold_stirs f).trans ((refreshLevels_flags _).toStirs.trans (forceHold_stirs _))

theorem engageEnded_holdForced (s : State) (f : Holder → Holder) : HoldForced s (s.engageEnded f) :=
  (refreshed_holdForced (s.timeoutTold f)).since (s.timeoutTold_modes f) (·.timeoutTold f)

theorem engageEnded_mode_ne (s : State) (f : Holder → Holder) : (s.engageEnded f).modes.mode ≠ .run := by
  rw [engageEnded]
  exact forceHold_mode_ne _

theorem engageEnded_shown (s : State) (f : Holder → Holder) : (s.engageEnded f).WakersShown :=
  wakersShown_forced _

theorem engageEnded_timedOut (s : State) (f : Holder → Holder) : HolderTimedOut s (s.engageEnded f) := by
  have h := s.engageEnded_stirs f
  refine ⟨?_, s.engageEnded_holdForced f, h.contours, h.job, h.store, h.slug, h.thread⟩
  rw [engageEnded, forceHold_latch, refreshLevels_keepsLatch (by decide), timeoutTold_latch]

section
variable {i : Slot} (ht : s.holder.timer.isSome = true) (hst : s.holder.state = .engaging)
  (hclaim : s.holder.claimant = some i)
include ht hst hclaim

/-- A claimant that is the current contour leaves its request TIMED_OUT. -/
theorem engageTimedOut_current (hi : s.job.current = some i) : s.engageTimedOut =
    (s.engageEnded fun h => { h with
      state := .free, output := false, claimant := none, timer := none, request := some (.timedOut, i) }).takeUpWaiting := by
  simp only [engageTimedOut, hst, ht, hclaim, hi, and_self, if_true]
  rfl

theorem engageTimedOut_other (hi : s.job.current ≠ some i) : s.engageTimedOut =
    (s.engageEnded fun h => { h with state := .free, output := false, claimant := none, timer := none }).takeUpWaiting := by
  simp only [engageTimedOut, hst, ht, hclaim, hi, and_self, if_true, if_false]
  rfl

end

/-- Where HOLDER_ENGAGED is inactive, the engage that waits begins with the level conditions taken again (R130). -/
theorem takeUpWaiting_begins {j : Slot} (hr : s.holder.request = some (.waiting, j)) (hf : s.holder.state = .free)
    (ha : s.active .holderEngaged = false) : s.takeUpWaiting = (s.engagingFor j).refreshLevels := by
  have hoff : (s.engagingFor j).refreshLevels.active .holderEngaged = false :=
    ((refreshLevels_flags (s.engagingFor j)).active _).trans ha
  have hbegin : s.beginEngage j = if (s.engagingFor j).refreshLevels.active .holderEngaged = true then
      (s.engagingFor j).refreshLevels.holderConfirmed else (s.engagingFor j).refreshLevels := rfl
  rw [takeUpWaiting, hr, hf]
  dsimp only
  rw [hbegin, hoff, if_neg Bool.false_ne_true]

/-! ## The release timer expires (R133) -/

theorem releaseTimedOut_eq (ht : s.holder.timer.isSome = true) (hst : s.holder.state = .releasing) :
    s.releaseTimedOut = (s.timeoutTold fun h => { h with timer := none }).forceHold := if_pos ⟨hst, ht⟩

end State

section
variable (hs : s.Steady)
include hs

theorem engageTimeout_leaves (e : s.engageTimedOut = u) (hag : u.agenda = []) (h : HolderTimedOut s u) :
    ∃ t : State, exec .holderEngageTimeout s = .next t ∧ HolderTimedOut s t ∧ t.holder = u.holder :=
  ⟨u.arbitrate, congrArg Host.Outcome.next (State.event_settled hs e hag), h.sends u.arbitrate_sends,
    u.arbitrate_sends.holder⟩

/-- An engage that times out with no request left to wait leaves the holder's record as the timeout has written it. -/
theorem engageTimeout_ends {f : Holder → Holder} (e : s.engageTimedOut = (s.engageEnded f).takeUpWaiting)
    (hw : ∀ j, (f s.holder).request ≠ some (.waiting, j)) :
    ∃ t : State, exec .holderEngageTimeout s = .next t ∧ HolderTimedOut s t ∧ t.holder = f s.holder := by
  have h := s.engageEnded_stirs f
  have hholder : (s.engageEnded f).holder = f s.holder := h.holder
  rw [State.takeUpWaiting_none (by rwa [hholder])] at e
  have hleft := engageTimeout_leaves hs e (h.agenda.trans hs.1) (s.engageEnded_timedOut f)
  rwa [hholder] at hleft

/-- One that leaves a request waiting at a FREE holder begins the next engage. -/
theorem engageTimeout_begins {f : Holder → Holder} {j : Slot} (e : s.engageTimedOut = (s.engageEnded f).takeUpWaiting)
    (hr : (f s.holder).request = some (.waiting, j)) (hf : (f s.holder).state = .free)
    (ha : s.active .holderEngaged = false) :
    ∃ t : State, exec .holderEngageTimeout s = .next t ∧ HolderTimedOut s t ∧ t.holder = { f s.holder with
      state := .engaging, claimant := some j, output := true, timer := some s.params.holderTimeout, request := none } := by
  have h := s.engageEnded_stirs f
  have htold := s.engageEnded_timedOut f
  have hmode := s.engageEnded_mode_ne f
  have hshown := s.engageEnded_shown f
  generalize s.engageEnded f = x at e h htold hmode hshown
  have hholder : x.holder = f s.holder := h.holder
  rw [State.takeUpWaiting_begins (by rwa [hholder]) (by rwa [hholder]) ((h.active _).trans ha)] at e
  have hbegun := (State.refreshLevels_flags (x.engagingFor j)).toStirs
  obtain ⟨t, hexec, ht, hnext⟩ :=
    engageTimeout_leaves hs e (hbegun.agenda.trans (h.agenda.trans hs.1)) (htold.engages hmode hshown j)
  refine ⟨t, hexec, ht, hnext.trans (hbegun.holder.trans ?_)⟩
  rw [State.engagingFor, State.onHolder, State.withHolder_holder, hholder, h.params]
  rfl

theorem releaseTimesOut (ht : s.holder.timer.isSome = true) (hst : s.holder.state = .releasing) : ∃ t : State,
    exec .holderReleaseTimeout s = .next t ∧ t.holder = { s.holder with timer := none } ∧
      (s.modes.mode = .run → t.modes = { s.modes with mode := .hold }) ∧ (s.modes.mode ≠ .run → t.modes = s.modes) ∧
      (t.cond .holderTimeout).latch = s.raisedLatch .holderTimeout ∧ t.contours = s.contours ∧ t.job = s.job ∧
      t.store = s.store ∧ t.slug = s.slug ∧ t.thread = s.thread := by
  have e := State.releaseTimedOut_eq ht hst
  have h := (s.timeoutTold_stirs fun h => { h with timer := none }).trans (State.forceHold_stirs _)
  have hmodes := s.timeoutTold_modes fun h => { h with timer := none }
  have hlatch := s.timeoutTold_latch fun h => { h with timer := none }
  generalize (s.timeoutTold fun h => { h with timer := none }) = x at e h hmodes hlatch
  have ha := x.forceHold.arbitrate_sends
  refine ⟨_, congrArg Host.Outcome.next (State.event_settled hs e (h.agenda.trans hs.1)), ha.holder.trans h.holder,
    fun hm => ha.modes.trans ?_, fun hm => ha.modes.trans ?_,
    (ha.latch _).trans ((State.forceHold_latch _ _).trans hlatch), ha.contours.trans h.contours, ha.job.trans h.job,
    ha.store.trans h.store, ha.slug.trans h.slug, ha.thread.trans h.thread⟩
  · rw [State.forceHold_mode (by rwa [hmodes]), hmodes]
  · rw [State.forceHold_of_ne (by rwa [hmodes]), hmodes]

end

/-- Settles O44: the engage timer by its claimant and by the request that waits, and the release timer. -/
theorem holderTimersForceHold : Obligations.HolderTimersForceHold := by
  intro s hs ht
  refine ⟨fun i hst hclaim => ⟨fun hi => ?_, fun hi hw => ?_, fun j hi hr ha => ?_⟩, releaseTimesOut hs ht⟩
  · exact engageTimeout_ends hs (State.engageTimedOut_current ht hst hclaim hi) fun j => nofun
  · exact engageTimeout_ends hs (State.engageTimedOut_other ht hst hclaim hi) hw
  · exact engageTimeout_begins hs (State.engageTimedOut_other ht hst hclaim hi) hr rfl ha

end Sys2Proof.Machine
end

section
/-! The mode unit's record (R138): what its changes keep is kept by every step. -/

namespace Sys2Proof.Machine

/-- What R138 says of the mode unit's record: the pump, the settle timer and park pending agree with the mode. -/
structure ModeUnit.Consistent (m : ModeUnit) : Prop where
  pump : m.pump = decide (m.mode ≠ .park)
  settle : m.settle.isSome = true → m.mode = .waking
  pending : m.parkPending = true → m.mode = .hold

theorem modes_consistent_iff (s : State) : s.modes.Consistent ↔ s.PumpFollowsMode ∧ s.ModeTimers :=
  ⟨fun h => ⟨h.pump, h.settle, h.pending⟩, fun ⟨hp, hs, hq⟩ => ⟨hp, hs, hq⟩⟩

/-- A record of a mode in which neither the settle timer runs nor PARK is pending. -/
theorem ModeUnit.Consistent.of_rest {m : ModeUnit} (hp : m.pump = decide (m.mode ≠ .park)) (hs : m.settle = none)
    (hq : m.parkPending = false) : m.Consistent where
  pump := hp
  settle h := by rw [hs] at h; cases h
  pending h := by rw [hq] at h; cases h

/-- Outside WAKING the settle timer is stopped. -/
theorem ModeUnit.Consistent.settle_none {m : ModeUnit} (h : m.Consistent) (hm : m.mode ≠ .waking) : m.settle = none :=
  Option.not_isSome_iff_eq_none.mp fun hs => hm (h.settle hs)

/-- Outside HOLD no PARK is pending. -/
theorem ModeUnit.Consistent.not_pending {m : ModeUnit} (h : m.Consistent) (hm : m.mode ≠ .hold) : m.parkPending = false :=
  Bool.eq_false_iff.mpr fun hp => hm (h.pending hp)

/-- Outside PARK the pump is on. -/
theorem ModeUnit.Consistent.pump_on {m : ModeUnit} (h : m.Consistent) (hm : m.mode ≠ .park) : m.pump = true :=
  h.pump.trans (decide_eq_true hm)

/-- Every change that the mode unit makes to its record keeps R138. -/
theorem ModeMove.consistent {m n : ModeUnit} (hmove : ModeMove m n) (h : m.Consistent) : n.Consistent := by
  cases hmove with
  | hold hm =>
    exact .of_rest (h.pump_on (by rw [hm]; decide)) (h.settle_none (by rw [hm]; decide)) (h.not_pending (by rw [hm]; decide))
  | wake ms hm => exact ⟨rfl, fun _ => rfl, fun hp => by simp [h.not_pending (by rw [hm]; decide)] at hp⟩
  | run hm => exact .of_rest (h.pump_on (by rw [hm]; decide)) (h.settle_none (by rw [hm]; decide)) rfl
  | ask hm => exact ⟨h.pump, h.settle, fun _ => hm⟩
  | withdraw hm => exact .of_rest h.pump (h.settle_none (by rw [hm]; decide)) rfl
  | refused _ => exact .of_rest rfl rfl rfl
  | park _ => exact .of_rest rfl rfl rfl
  | settled hm => exact .of_rest (h.pump_on (by rw [hm]; decide)) rfl (h.not_pending (by rw [hm]; decide))

/-- What the mode unit alone decides, and every change of its record keeps, is kept by every step, where it holds of the
record at reset. -/
theorem keepAll_modes {Q : ModeUnit → Prop} (hmove : ∀ m n, ModeMove m n → Q m → Q n) (hreset : Q ModeUnit.reset) :
    KeepAll fun s : State => Q s.modes where
  path _ _ h := h
  conds _ _ h := h
  modes _ _ h hm := hmove _ _ hm h
  journal _ _ h _ := h
  contours _ _ h := h
  job _ _ h _ _ := h
  link _ _ h := h
  thread _ _ h := h
  slug _ _ h := h
  holder _ _ h := h
  agenda _ _ h := h
  store _ _ h _ := h
  jobAny _ _ h := h
  params _ _ h := h
  sensors _ _ h := h
  free _ _ h := h
  pending _ _ h := h
  reset _ _ _ := hreset

/-- Settles O42: each change of the mode unit's record keeps what R138 says of it, and so does a reset. -/
theorem modeRecordStaysConsistent : Obligations.ModeRecordStaysConsistent := fun s t hp ht h =>
  (modes_consistent_iff t).mp (State.step_keep (P := fun s => s.modes.Consistent)
    (keepAll_modes (fun _ _ hm => hm.consistent) (.of_rest rfl rfl rfl)) ((modes_consistent_iff s).mpr ⟨hp, ht⟩) h)

end Sys2Proof.Machine
end

section
/-! SUPPORT. The requests of the mode unit (R141, R143, R144, R146), and what each makes of the mode: the hold, RUN with
nothing under way to take up, and PARK with what may stand in its way (R60, R140, R145). -/

namespace Sys2Proof.Machine

/-! ## A request of the mode unit on a quiet link (R173) -/

section
variable {s u : State} {kind tag : Byte} {m : Mode}

theorem request_modeTaken (h : s.Quiet) (e : answerTo kind [] s = modeTaken u) (ha : u.agenda = s.agenda)
    (hl : u.link = s.link) (hm : u.modes.mode = m) : s.request kind tag [] = u.replied kind tag .ok [byte m.code] := by
  subst hm
  exact State.request_is (a := modeTaken u) h (by simp) e ha (congrArg _ hl) (congrArg _ hl) (congrArg _ hl)

theorem request_modeRefused (h : s.Quiet) (e : answerTo kind [] s = modeRefused s) (hm : s.modes.mode = m) :
    s.request kind tag [] = s.replied kind tag .wrongState [byte m.code] := by
  subst hm
  exact State.request_is (a := modeRefused s) h (by simp) e rfl rfl rfl rfl

end

/-! ## The answers by the mode -/

section
variable {s : State}

theorem takeHold_run (hm : s.modes.mode = .run) : answerTo 0x32 [] s = modeTaken s.holdEntry := by
  show takeHold [] s = _
  simp [takeHold, ofLength, State.mode, hm]

theorem takeHold_hold (hm : s.modes.mode = .hold) :
    answerTo 0x32 [] s = modeTaken (s.onModes fun m => { m with parkPending := false }) := by
  show takeHold [] s = _
  simp [takeHold, ofLength, State.mode, hm]

theorem takeHold_refused (hm : s.modes.mode = .park ∨ s.modes.mode = .waking) : answerTo 0x32 [] s = modeRefused s := by
  show takeHold [] s = _
  rcases hm with hm | hm <;> simp [takeHold, ofLength, State.mode, hm]

theorem takeResume_eq (s : State) : answerTo 0x33 [] s =
    if s.mode = .hold ∧ s.mayRun = true then modeTaken s.toRun else modeRefused s := rfl

theorem takePark_run (hm : s.modes.mode = .run) : answerTo 0x34 [] s = modeTaken s.holdEntry.askPark := by
  show takePark [] s = _
  simp [takePark, ofLength, State.mode, hm]

theorem takePark_hold (hm : s.modes.mode = .hold) : answerTo 0x34 [] s = modeTaken s.askPark := by
  show takePark [] s = _
  simp [takePark, ofLength, State.mode, hm]

theorem takePark_park (hm : s.modes.mode = .park) : answerTo 0x34 [] s = modeTaken s := by
  show takePark [] s = _
  simp [takePark, ofLength, State.mode, hm]

theorem takePark_waking (hm : s.modes.mode = .waking) : answerTo 0x34 [] s = modeTaken s.parkEntry := by
  show takePark [] s = _
  simp [takePark, ofLength, State.mode, hm]

theorem takeWake_park (hm : s.modes.mode = .park) : answerTo 0x35 [] s = modeTaken s.wakeCell := by
  show takeWake [] s = _
  simp [takeWake, ofLength, State.mode, hm]

theorem takeWake_waking (hm : s.modes.mode = .waking) : answerTo 0x35 [] s = modeTaken s := by
  show takeWake [] s = _
  simp [takeWake, ofLength, State.mode, hm]

theorem takeWake_refused (hm : s.modes.mode = .run ∨ s.modes.mode = .hold) : answerTo 0x35 [] s = modeRefused s := by
  show takeWake [] s = _
  rcases hm with hm | hm <;> simp [takeWake, ofLength, State.mode, hm]

end

/-! ## The mode becomes HOLD (R140) -/

/-- The running pass as the entry into HOLD leaves it: its counts 0, and PAUSED where it was MOVING. -/
def RunPass.paused (r : RunPass) : RunPass :=
  { r with openCount := 0, stuckCount := 0, sub := if r.sub = .moving then .paused else r.sub }

namespace State

variable {s t : State}

theorem holdEntry_eq (s : State) : s.holdEntry = { s with
    modes := { s.modes with mode := .hold }
    path := { s.path with genOn := false, pass := s.path.pass.map RunPass.paused }
    conds := s.holdEntry.conds } := by
  have hpass : s.holdEntry.path.pass = s.path.pass.map RunPass.paused := by
    show ((s.path.pass.map _).map _) = _
    rw [Option.map_map]
    refine congrArg (Option.map · _) (funext fun r => ?_)
    simp only [Function.comp_apply, RunPass.paused]
    split <;> rfl
  rw [← hpass]
  rfl

theorem holdEntry_cond (s : State) (c : Cond) :
    s.holdEntry.cond c = if c = .gapOpen then { s.cond c with live := false } else s.cond c := by
  show (s.setCond .gapOpen { s.cond .gapOpen with live := false }).cond c = _
  split
  · rename_i h
    rw [h, cond_setCond_same]
  · exact cond_setCond_ne s ‹_› _

/-! ## The mode becomes RUN (R60, R61, R143) -/

/-- The generator has come to follow its conditions: the running pass as it was but for its counts, the setting, and
condition records. -/
structure GenFollows (s t : State) : Prop where
  rest : t = { s with path := t.path, conds := t.conds }
  gen : t.path.genOn = s.genAllowed
  pass : ∃ f : RunPass → RunPass, (∀ r : RunPass, (f r).sub = r.sub ∧ (f r).cutRunStart = r.cutRunStart) ∧
    t.path.pass = s.path.pass.map f
  rapid : t.path.rapid = s.path.rapid
  commanded : t.path.commanded = s.path.commanded

/-- The conditions of R60 rest on nothing that the generator's following changes. -/
theorem GenFollows.genAllowed (h : s.GenFollows t) : t.genAllowed = s.genAllowed := by
  obtain ⟨f, hf, hp⟩ := h.pass
  have hr : t.running = s.running := by rw [h.rest]; rfl
  have hc : t.cutting = s.cutting := by rw [h.rest]; rfl
  have ha : t.active .wireIntact = s.active .wireIntact := by rw [h.rest]; rfl
  simp only [State.genAllowed, hp, hr, hc, ha]
  cases s.path.pass with
  | none => rfl
  | some r => simp only [Option.map_some, (hf r).1, (hf r).2]

theorem refreshGen_follows (hm : s.modes.mode ≠ .park) : s.GenFollows s.refreshGen := by
  have hself (p : Option RunPass) : ∃ f : RunPass → RunPass,
      (∀ r : RunPass, (f r).sub = r.sub ∧ (f r).cutRunStart = r.cutRunStart) ∧ p = p.map f :=
    ⟨id, fun _ => ⟨rfl, rfl⟩, (congrFun Option.map_id p).symm⟩
  cases hg : s.genAllowed with
  | false =>
    have e : s.refreshGen = s.genOff := by rw [refreshGen, hg]; rfl
    rw [e]
    exact ⟨rfl, hg.symm, ⟨fun r => { r with openCount := 0, stuckCount := 0 }, fun _ => ⟨rfl, rfl⟩, rfl⟩, rfl, rfl⟩
  | true =>
    cases hon : s.path.genOn with
    | true =>
      have e : s.refreshGen = s := by rw [refreshGen, hg, hon]; rfl
      rw [e]
      exact ⟨rfl, hon.trans hg.symm, hself _, rfl, rfl⟩
    | false =>
      obtain ⟨g, e⟩ : ∃ g, s.chooseSetting.onPath (fun p => { p with genOn := true }) = s.generator true g := by
        unfold chooseSetting
        split
        · exact ⟨_, rfl⟩
        · exact ⟨s.path.genSetting, rfl⟩
      have h := decideGapOpen_signals (s := s.generator true g) hm
      have hu : s.refreshGen = (s.generator true g).decideGapOpen := by rw [refreshGen, hg, hon, ← e]; rfl
      rw [← hu] at h
      have hpath : s.refreshGen.path = (s.generator true g).path := h.samePath
      refine ⟨?_, by rw [hpath, hg]; rfl, by rw [hpath]; exact hself _, by rw [hpath]; rfl, by rw [hpath]; rfl⟩
      conv_lhs => rw [h.only]
      rw [hpath]
      rfl

/-- The mode becomes RUN with no threading step, order, drop wait or timed-out engage to take up: the blocks go on with the
running pass and the generator alone. -/
theorem toRun_resumes (ht : s.thread = none) (hd : s.job.due = false) (hdrop : s.slug.drop = .idle)
    (hreq : ∀ i, s.holder.request ≠ some (.timedOut, i)) :
    s.toRun = (s.onModes fun m => { m with mode := .run, parkPending := false }).resumePass := by
  have h := refreshGen_follows (s := (s.onModes fun m => { m with mode := .run, parkPending := false }).onPass fun r =>
    if r.sub = .paused then { r with sub := .moving } else r) (by nofun)
  rw [← resumePass] at h
  rw [toRun]
  generalize (s.onModes fun m => { m with mode := .run, parkPending := false }).resumePass = u at h
  have hthread : u.thread = none := by rw [h.rest]; exact ht
  have hdue : u.job.due = false := by rw [h.rest]; exact hd
  have hidle : u.slug.drop = .idle := by rw [h.rest]; exact hdrop
  have hholder : u.holder = s.holder := by rw [h.rest]; rfl
  have hbegin : u.beginHeld = u := by rw [beginHeld, hthread]
  have hgive : u.giveDue = u := by rw [giveDue, if_neg (by rw [hdue, Bool.and_false]; decide)]
  have hrestart : u.restartDrop = u := if_pos hidle
  rw [hbegin, hgive, hrestart, takeUpTimedOut]
  split
  · rename_i i e
    exact absurd (hholder ▸ e) (hreq i)
  · rfl

/-! ## The mode becomes PARK (R144, R145) -/

theorem num_surjective : Function.Surjective Cond.num := by
  intro n
  obtain ⟨c, -, h⟩ : ∃ c ∈ [Cond.doorOpen, .tankLow, .axisFault, .genFault, .aux, .journalBlocked, .storeCorrected,
      .storeCorrupt, .linkError, .slugChange, .shortRetract, .retraceExhausted, .gapOpen, .chainLow, .chainStarved,
      .wireBreak, .breakLimit, .discontinuous, .threadRetry, .threadFailed, .ingapFailed, .slugEarly, .slugStuck,
      .holderTimeout, .holderBusy, .holderLost, .jobComplete, .contourFault], c.num = n := by
    revert n
    decide
  exact ⟨c, h⟩

/-- An enabled latch stands in the way of PARK (R145). -/
theorem latchedEnabled_iff (s : State) :
    s.latchedEnabled = true ↔ ∃ c, (s.cond c).latch = true ∧ (s.cond c).enable = true := by
  simp only [latchedEnabled, List.any_eq_true, Vector.mem_toList_iff, Bool.and_eq_true]
  constructor
  · rintro ⟨r, hr, h⟩
    obtain ⟨n, hn, rfl⟩ := Vector.getElem_of_mem hr
    obtain ⟨c, hc⟩ := num_surjective ⟨n, hn⟩
    have e : s.cond c = s.conds[n] := by simp only [cond, hc]; rfl
    exact ⟨c, by rwa [e]⟩
  · rintro ⟨c, h⟩
    exact ⟨s.cond c, Vector.getElem_mem c.num.isLt, h⟩

/-- A threading step runs: a timed step that is not held (R95). -/
theorem stepRunning_iff (s : State) : s.stepRunning = true ↔
    ∃ t, s.thread = some t ∧ t.held = false ∧ t.step ≠ .searchMove ∧ t.step ≠ .centreMove := by
  rw [stepRunning]
  cases s.thread with
  | none => simp
  | some t => cases hs : t.step <;> simp [hs]

/-- The mode unit's record once PARK falls to be entered: PARK, or HOLD where an enabled latch turns the entry (R145). -/
def parkModes (s : State) : ModeUnit :=
  if s.latchedEnabled then ⟨.hold, false, none, true⟩ else ⟨.park, false, none, false⟩

theorem parkEntry_eq (s : State) : s.parkEntry = s.withModes s.parkModes := by
  rw [parkEntry, parkModes]
  split <;> rfl

theorem parkModes_latched (h : s.latchedEnabled = true) : s.parkModes = ⟨.hold, false, none, true⟩ := if_pos h

theorem parkModes_clear (h : ¬ s.latchedEnabled = true) : s.parkModes = ⟨.park, false, none, false⟩ := if_neg h

/-- Asked for in HOLD, PARK is deferred while a threading step runs. -/
theorem askPark_deferred (hr : s.stepRunning = true) :
    s.askPark = s.onModes fun m => { m with parkPending := true } := by
  rw [askPark, parkIfDue, if_neg]
  rw [show (s.onModes fun m => { m with parkPending := true }).stepRunning = true from hr, Bool.not_true, Bool.and_false]
  nofun

/-- Asked for in HOLD, PARK falls to be entered where no threading step runs. -/
theorem askPark_entered (hm : s.modes.mode = .hold) (hr : ¬ s.stepRunning = true) :
    s.askPark = s.withModes s.parkModes := by
  have hdue : ((s.onModes fun m => { m with parkPending := true }).modes.parkPending &&
      decide ((s.onModes fun m => { m with parkPending := true }).mode = .hold) &&
      !(s.onModes fun m => { m with parkPending := true }).stepRunning) = true := by
    show (true && decide (s.modes.mode = .hold) && !s.stepRunning) = true
    rw [hm, Bool.eq_false_iff.mpr hr]
    rfl
  rw [askPark, parkIfDue, if_pos hdue, parkEntry_eq]
  rfl

end State

end Sys2Proof.Machine
end

section
/-! HOLD, RESUME, PARK and WAKE, and the settle timer's expiry (R140, R141, R143 to R147). -/

namespace Sys2Proof.Machine

/-! ## HOLD (R141) -/

/-- Settles O38, mode by mode. -/
theorem holdRequestFollowsTheMode : Obligations.HoldRequestFollowsTheMode := by
  intro tag s hq
  refine ⟨fun hm => ⟨s.holdEntry, ?_, s.holdEntry_eq, s.holdEntry_cond⟩, fun hm => ?_, fun hm => ?_, fun hm => ?_⟩
  · exact congrArg _ (request_modeTaken hq (takeHold_run hm) rfl rfl rfl)
  · exact congrArg _ (request_modeTaken hq (takeHold_hold hm) rfl rfl hm)
  · exact congrArg _ (request_modeRefused hq (takeHold_refused (.inl hm)) hm)
  · exact congrArg _ (request_modeRefused hq (takeHold_refused (.inr hm)) hm)

/-! ## RESUME (R143) -/

/-- What RESUME leaves where nothing waits to be taken up: RUN, a PAUSED pass MOVING, the generator as R60 says. -/
theorem State.resumePass_leaves (s : State) {u : State}
    (e : u = (s.onModes fun m => { m with mode := .run, parkPending := false }).resumePass) :
    u = { s with modes := u.modes, path := u.path, conds := u.conds } ∧
      u.modes = { s.modes with mode := .run, parkPending := false } ∧
      u.path.pass.map (·.sub) = (s.path.pass.map (·.sub)).map (fun b => if b = .paused then .moving else b) ∧
      u.path.genOn = u.genAllowed ∧ u.path.commanded = s.path.commanded ∧ u.path.rapid = s.path.rapid := by
  have h := State.refreshGen_follows (s := (s.onModes fun m => { m with mode := .run, parkPending := false }).onPass fun r =>
    if r.sub = .paused then { r with sub := .moving } else r) (by nofun)
  rw [← State.resumePass, ← e] at h
  obtain ⟨f, hf, hpass⟩ := h.pass
  refine ⟨?_, by rw [h.rest]; rfl, ?_, h.gen.trans h.genAllowed.symm, h.commanded, h.rapid⟩
  · conv_lhs => rw [h.rest]
    rw [h.rest]
    rfl
  · rw [hpass]
    show ((s.path.pass.map _).map f).map _ = _
    cases s.path.pass with
    | none => rfl
    | some r =>
      simp only [Option.map_some, (hf _).1]
      split <;> rfl

/-- Settles O39: the two refusals fail the check of R143, and what passes it goes on with the running pass alone. -/
theorem resumeRequestReturnsToRun : Obligations.ResumeRequestReturnsToRun := by
  intro tag s hq
  refine ⟨fun h => ?_, fun hm hlive ht hd hdrop hreq => ?_⟩
  · refine congrArg _ (request_modeRefused hq ((takeResume_eq s).trans (if_neg ?_)) rfl)
    rintro ⟨hm, hrun⟩
    rcases h with h | ⟨c, hc, hl⟩
    · exact h hm
    · rw [s.mayRun_iff.mp hrun c hc] at hl
      cases hl
  · have hans := (takeResume_eq s).trans (if_pos ⟨hm, s.mayRun_iff.mpr hlive⟩)
    obtain ⟨hrest, hmodes, hleft⟩ := s.resumePass_leaves (State.toRun_resumes ht hd hdrop hreq)
    generalize s.toRun = u at hans hrest hmodes hleft
    have h := request_modeTaken (tag := tag) hq hans (by rw [hrest]) (by rw [hrest]) (m := .run) (by rw [hmodes])
    obtain ⟨hsub, hgen, hcommanded, hrapid⟩ := hleft
    exact ⟨u, congrArg _ h, hmodes, hsub, hgen, hcommanded, hrapid, hrest⟩

/-! ## PARK (R144, R145) -/

section
variable {s a : State} {tag : Byte}

/-- PARK asked for of a part in HOLD, `a`, that the entry into HOLD or nothing has made of `s`: the mode unit's record by the
step that runs and the latches that stand. -/
theorem park_asked (hq : s.Quiet) (hans : answerTo 0x34 [] s = modeTaken a.askPark) (hrest : a =
      { s with modes := { s.modes with mode := .hold }, path := a.path, conds := a.conds }) :
    a.askPark = { s with modes := a.askPark.modes, path := a.path, conds := a.conds } ∧
      (a.stepRunning = true → exec (.park tag []) s = .next (a.askPark.replied 0x34 tag .ok [1]) ∧
        a.askPark.modes = { s.modes with mode := .hold, parkPending := true }) ∧
      (¬ a.stepRunning = true → a.latchedEnabled = true →
        exec (.park tag []) s = .next (a.askPark.replied 0x34 tag .ok [1]) ∧ a.askPark.modes = ⟨.hold, false, none, true⟩) ∧
      (¬ a.stepRunning = true → ¬ a.latchedEnabled = true →
        exec (.park tag []) s = .next (a.askPark.replied 0x34 tag .ok [2]) ∧ a.askPark.modes = ⟨.park, false, none, false⟩) := by
  have hmodes : a.modes = { s.modes with mode := .hold } := by rw [hrest]
  have hm : a.modes.mode = .hold := by rw [hmodes]
  have hasked : a.askPark = a.withModes a.askPark.modes := by
    by_cases hr : a.stepRunning = true
    · rw [State.askPark_deferred hr]
      rfl
    · rw [State.askPark_entered hm hr]
      rfl
  have answer {m : ModeUnit} (e : a.askPark.modes = m) :
      exec (.park tag []) s = .next (a.askPark.replied 0x34 tag .ok [byte m.mode.code]) ∧ a.askPark.modes = m :=
    ⟨congrArg _ (request_modeTaken hq hans (by rw [hasked, hrest]; rfl) (by rw [hasked, hrest]; rfl) (by rw [e])), e⟩
  refine ⟨?_, fun hr => answer (m := { s.modes with mode := .hold, parkPending := true }) ?_,
    fun hr hl => answer (m := ⟨.hold, false, none, true⟩) ?_, fun hr hl => answer (m := ⟨.park, false, none, false⟩) ?_⟩
  · generalize a.askPark = u at hasked
    conv_lhs => rw [hasked, hrest]
    rfl
  · rw [State.askPark_deferred hr]
    exact congrArg (fun m : ModeUnit => { m with parkPending := true }) hmodes
  · rw [State.askPark_entered hm hr]
    exact State.parkModes_latched hl
  · rw [State.askPark_entered hm hr]
    exact State.parkModes_clear hl

end

/-- The entry into HOLD sets and clears no latch and no enable (R140). -/
theorem State.holdEntry_latchedEnabled (s : State) : s.holdEntry.latchedEnabled = true ↔ s.latchedEnabled = true := by
  rw [latchedEnabled_iff, latchedEnabled_iff]
  refine exists_congr fun c => ?_
  rw [holdEntry_cond]
  split <;> rfl

/-- Settles O40: the modes from which PARK is asked for, after the entry into HOLD from RUN, and those from which it is
not. -/
theorem parkRequestFollowsTheMode : Obligations.ParkRequestFollowsTheMode := by
  intro tag s hq latched running
  have hlatched : s.latchedEnabled = true ↔ latched := s.latchedEnabled_iff
  have hrunning : s.stepRunning = true ↔ running := s.stepRunning_iff
  refine ⟨fun hm => ?_, fun hm => ?_, fun hm => ⟨fun hl => ?_, fun hl => ?_⟩⟩
  · rw [← hlatched, ← hrunning]
    rcases hm with hm | hm
    · obtain ⟨hrest, hasked⟩ := park_asked (tag := tag) hq (takePark_run hm) (a := s.holdEntry) rfl
      have hpath : s.holdEntry.askPark.path = s.holdEntry.path := by rw [hrest]
      rw [s.holdEntry_latchedEnabled] at hasked
      refine ⟨s.holdEntry.askPark, ?_, fun h => absurd (hm.symm.trans h) (by decide), by rw [hpath]; rfl, fun _ => ?_, hasked⟩
      · conv_lhs => rw [hrest]
        rw [hrest]
      · rw [hpath, s.holdEntry_eq]
        refine ⟨rfl, ?_⟩
        simp only [Option.map_map]
        rfl
    · have hself : s = { s with modes := { s.modes with mode := .hold }, path := s.path, conds := s.conds } := by rw [← hm]
      obtain ⟨hrest, hasked⟩ := park_asked (tag := tag) hq (takePark_hold hm) hself
      have hpath : s.askPark.path = s.path := by rw [hrest]
      have hconds : s.askPark.conds = s.conds := by rw [hrest]
      refine ⟨s.askPark, ?_, fun _ => ⟨hpath, hconds⟩, by rw [hpath], fun h => absurd (hm.symm.trans h) (by decide), hasked⟩
      rw [hpath, hconds]
      exact hrest
  · exact congrArg _ (request_modeTaken hq (takePark_park hm) rfl rfl hm)
  all_goals
    have hans := takePark_waking hm
    rw [s.parkEntry_eq] at hans
  · rw [State.parkModes_latched (hlatched.mpr hl)] at hans
    exact congrArg _ (request_modeTaken hq hans rfl rfl rfl)
  · rw [State.parkModes_clear (mt hlatched.mp hl)] at hans
    exact congrArg _ (request_modeTaken hq hans rfl rfl rfl)

/-! ## WAKE and the settle time (R146, R147) -/

theorem State.wakeCell_park {s : State} (hm : s.modes.mode = .park) : s.wakeCell = s.onModes fun m =>
    { m with mode := .waking, pump := true, settle := some s.params.wakeSettle } := if_pos hm

/-- Settles O41, mode by mode. -/
theorem wakeAndSettleLeadToHold : Obligations.WakeAndSettleLeadToHold := by
  intro tag s
  refine ⟨fun hq => ⟨fun hm => ?_, fun hm => ?_, fun hm => ?_, fun hm => ?_⟩, fun hs => ⟨fun hm ht => ?_, fun hm => ?_⟩⟩
  · have hans := takeWake_park hm
    rw [State.wakeCell_park hm] at hans
    exact congrArg _ (request_modeTaken hq hans rfl rfl rfl)
  · exact congrArg _ (request_modeTaken hq (takeWake_waking hm) rfl rfl hm)
  · exact congrArg _ (request_modeRefused hq (takeWake_refused (.inl hm)) hm)
  · exact congrArg _ (request_modeRefused hq (takeWake_refused (.inr hm)) hm)
  · exact congrArg Host.Outcome.next (State.event_settled hs (if_pos ⟨hm, ht⟩) hs.1)
  · exact congrArg Host.Outcome.next (State.event_settled hs (if_neg fun h => hm h.1) hs.1)

end Sys2Proof.Machine
end

section
/-! SUPPORT. The level conditions taken, seen from one of them (R142, R146, R153, R155, R156): its record when all have been
taken, and what its rise makes of the mode. -/

namespace Sys2Proof.Machine

/-! ## The mode after a hold and a waking -/

theorem ModeUnit.Stirred.mode_ne_run {m n : ModeUnit} (h : m.Stirred n) (hm : m.mode ≠ .run) : n.mode ≠ .run := by
  rcases h with rfl | ⟨hr, -⟩ | ⟨-, ms, rfl⟩
  · exact hm
  · exact absurd hr hm
  · nofun

theorem ModeUnit.Stirred.mode_ne_park {m n : ModeUnit} (h : m.Stirred n) (hm : m.mode ≠ .park) : n.mode ≠ .park := by
  rcases h with rfl | ⟨-, rfl⟩ | ⟨hp, -⟩
  · exact hm
  · nofun
  · exact absurd hp hm

/-- What has left RUN has left it for HOLD (R140). -/
theorem ModeUnit.Stirred.eq_hold {m n : ModeUnit} (h : m.Stirred n) (hm : m.mode = .run) (hn : n.mode ≠ .run) :
    n = { m with mode := .hold } := by
  rcases h with rfl | ⟨-, h⟩ | ⟨hp, -⟩
  · exact absurd hm hn
  · exact h
  · rw [hm] at hp
    cases hp

/-- What has left PARK has left it for WAKING, with the pump on (R146). -/
theorem ModeUnit.Stirred.eq_waking {m n : ModeUnit} (h : m.Stirred n) (hm : m.mode = .park) (hn : n.mode ≠ .park) :
    n.mode = .waking ∧ n.pump = true := by
  rcases h with rfl | ⟨hr, -⟩ | ⟨-, ms, rfl⟩
  · exact absurd hm hn
  · rw [hm] at hr
    cases hr
  · exact ⟨rfl, rfl⟩

namespace State

variable {s : State}

/-! ## One level taken -/

/-- A level taken leaves the records of the other conditions as they were, GAP_OPEN apart, which falls with the generator. -/
theorem setLive_cond_ne (s : State) {c d : Cond} (v : Bool) (hd : d ≠ c) (hgap : d ≠ .gapOpen) :
    (s.setLive c v).cond d = s.cond d := by
  have hforce (t : State) : t.forceHold.cond d = t.cond d := by
    unfold forceHold
    split
    · exact cond_setCond_ne t hgap _
    · rfl
  simp only [setLive]
  repeat' split
  · rfl
  · rw [hforce, latch_latch_ne _ hd, cond_setCond_ne s hd]
  · rw [latch_latch_ne _ hd, cond_setCond_ne s hd]
  · exact cond_setCond_ne s hd _

/-- A level taken latches its own condition at a rise that is enabled, or with LatchDisabled on (R155, R156). -/
theorem setLive_levelLatch (s : State) (c : Cond) (v : Bool) : ((s.setLive c v).cond c).latch = s.levelLatch c v := by
  cases v with
  | false =>
    rw [setLive_latch s fun _ => rfl, levelLatch, Bool.false_and, Bool.false_and, Bool.or_false]
  | true =>
    cases hl : (s.cond c).live with
    | true => simp [setLive, levelLatch, hl]
    | false =>
      have hrise : ((s.setLive c true).cond c).latch = (((s.setCond c { s.cond c with live := true }).latch c).cond c).latch := by
        simp only [setLive, hl, Bool.false_eq_true, if_false, if_true]
        split
        · exact forceHold_latch _ c
        · rfl
      rw [hrise, latch_raised, raisedLatch, cond_setCond_same, levelLatch, hl]
      simp [setCond, Bool.or_assoc]

/-- A rise of one of the five conditions that force HOLD does not leave the cell running (R142, R158). -/
theorem setLive_rise_ne_run {c : Cond} (hf : c.forcesHold = true) (hl : (s.cond c).live = false) :
    (s.setLive c true).modes.mode ≠ .run := by
  simp only [setLive, hl, Bool.false_eq_true, if_false, if_true, hf]
  exact forceHold_mode_ne _

/-- A rise that latches while enabled does not leave the cell parked, where the condition wakes it (R146). -/
theorem setLive_rise_ne_park {c : Cond} (hw : c.wakes = true) (hl : (s.cond c).live = false)
    (hlatch : (s.cond c).latch = false) (he : (s.cond c).enable = true) : (s.setLive c true).modes.mode ≠ .park := by
  have hwoken : ((s.setCond c { s.cond c with live := true }).latch c).modes.mode ≠ .park := by
    rw [latch_wokenIf (by rw [cond_setCond_same]; exact hlatch) (by rw [cond_setCond_same]; exact he), wokenIf, hw]
    split
    · nofun
    · rename_i hn
      exact fun hm => hn ⟨hm, rfl⟩
  simp only [setLive, hl, Bool.false_eq_true, if_false, if_true]
  split
  · exact (forceHold_stirs _).modes.mode_ne_park hwoken
  · exact hwoken

/-- A level taken leaves the mode unit alone where the condition neither forces HOLD nor wakes the cell, or shows the value
already. -/
theorem setLive_modes_shown {c : Cond} {v : Bool} (h : c.forcesHold = true ∨ c.wakes = true → (s.cond c).live = v) :
    (s.setLive c v).modes = s.modes := by
  simp only [setLive]
  split
  · rfl
  · rename_i hlive
    have hf : c.forcesHold = false := Bool.eq_false_iff.mpr fun hf => hlive (h (.inl hf))
    have hw : c.wakes = false := Bool.eq_false_iff.mpr fun hw => hlive (h (.inr hw))
    rw [hf]
    split
    · exact latch_modes_of_asleep hw _
    · rfl

/-! ## All levels taken -/

/-- Levels taken one after the other leave the record of a condition that is not among them as it was. -/
theorem foldl_setLive_others (v : Cond → Bool) {l : List Cond} {c : Cond} (hc : c ∉ l) (hgap : c ≠ .gapOpen) (s : State) :
    s.Stirs (l.foldl (fun t c => t.setLive c (v c)) s) ∧
      (l.foldl (fun t c => t.setLive c (v c)) s).cond c = s.cond c := by
  induction l generalizing s with
  | nil => exact ⟨.refl s, rfl⟩
  | cons d l ih =>
    obtain ⟨hstirs, hcond⟩ := ih (fun h => hc (.tail d h)) (s.setLive d (v d))
    exact ⟨(setLive_stirs s d _).trans hstirs, hcond.trans (setLive_cond_ne s _ (fun h => hc (h ▸ .head l)) hgap)⟩

/-- Where levels are taken one after the other, those before a condition leave its record as it was, and those after it leave
it as its own taking has made it. -/
theorem foldl_setLive_at (v : Cond → Bool) {l : List Cond} (hl : l.Nodup) {c : Cond} (hc : c ∈ l) (hgap : c ≠ .gapOpen)
    (s : State) : ∃ t : State, s.Stirs t ∧ t.cond c = s.cond c ∧
      (t.setLive c (v c)).Stirs (l.foldl (fun t c => t.setLive c (v c)) s) ∧
      (l.foldl (fun t c => t.setLive c (v c)) s).cond c = (t.setLive c (v c)).cond c := by
  induction l generalizing s with
  | nil => cases hc
  | cons d l ih =>
    obtain ⟨hd, hl⟩ := List.nodup_cons.mp hl
    rcases List.mem_cons.mp hc with rfl | hc
    · exact ⟨s, .refl s, rfl, foldl_setLive_others v hd hgap _⟩
    · obtain ⟨t, hst, hcond, hafter⟩ := ih hl hc (s.setLive d (v d))
      have hne : c ≠ d := fun h => hd (h ▸ hc)
      exact ⟨t, (setLive_stirs s d _).trans hst, hcond.trans (setLive_cond_ne s _ hne hgap), hafter⟩

section
variable {c : Cond} (hc : c ∈ Cond.levels)
include hc

theorem refreshLevels_at (s : State) : ∃ t : State, s.Stirs t ∧ t.cond c = s.cond c ∧
    (t.setLive c (s.levelValue c)).Stirs s.refreshLevels ∧
    s.refreshLevels.cond c = (t.setLive c (s.levelValue c)).cond c := by
  have hgap : c ≠ .gapOpen := by
    rintro rfl
    revert hc
    decide
  rw [refreshLevels_eq]
  exact foldl_setLive_at s.levelValue (by decide) hc hgap s

theorem refreshLevels_levelLatch (s : State) : (s.refreshLevels.cond c).latch = s.levelLatch c (s.levelValue c) := by
  obtain ⟨t, hst, hcond, -, h⟩ := s.refreshLevels_at hc
  rw [h, setLive_levelLatch, levelLatch, hcond, hst.params, levelLatch]

variable (hv : s.levelValue c = true) (hl : (s.cond c).live = false)
include hv hl

/-- The rise of a condition that forces HOLD takes a running cell to HOLD, the generator off (R140, R142). -/
theorem refreshLevels_rise_run (hf : c.forcesHold = true) (hm : s.modes.mode = .run) :
    s.refreshLevels.modes = { s.modes with mode := .hold } ∧ s.refreshLevels.path.genOn = false := by
  obtain ⟨t, -, hcond, hafter, -⟩ := s.refreshLevels_at hc
  rw [hv] at hafter
  have hne : s.refreshLevels.modes.mode ≠ .run :=
    hafter.modes.mode_ne_run (setLive_rise_ne_run hf (by rw [hcond]; exact hl))
  exact ⟨(refreshLevels_flags s).modes.eq_hold hm hne, (RunsOrOff.refreshLevels (.inl hm)).resolve_left hne⟩

/-- The rise of a condition that wakes the cell wakes a parked one, where it latches while enabled (R146). -/
theorem refreshLevels_rise_park (hw : c.wakes = true) (hlatch : (s.cond c).latch = false) (he : (s.cond c).enable = true)
    (hm : s.modes.mode = .park) : s.refreshLevels.modes.mode = .waking ∧ s.refreshLevels.modes.pump = true := by
  obtain ⟨t, -, hcond, hafter, -⟩ := s.refreshLevels_at hc
  rw [hv] at hafter
  have hne : s.refreshLevels.modes.mode ≠ .park := hafter.modes.mode_ne_park
    (setLive_rise_ne_park hw (by rw [hcond]; exact hl) (by rw [hcond]; exact hlatch) (by rw [hcond]; exact he))
  exact (refreshLevels_flags s).modes.eq_waking hm hne

end

theorem foldl_setLive_modes_shown (v : Cond → Bool) (l : List Cond)
    (h : ∀ c ∈ l, c.forcesHold = true ∨ c.wakes = true → (s.cond c).live = v c) :
    (l.foldl (fun t c => t.setLive c (v c)) s).modes = s.modes := by
  induction l generalizing s with
  | nil => rfl
  | cons c l ih =>
    refine (ih (s := s.setLive c (v c)) fun d hd hcause => ?_).trans (setLive_modes_shown (h c (.head l)))
    rw [setLive_live s c d _ (by rintro rfl; rcases hcause with h | h <;> cases h)]
    split
    · rename_i e
      rw [e]
    · exact h d (.tail c hd) hcause

/-- The mode unit is left alone where the conditions that force HOLD or wake the cell show their values already. -/
theorem refreshLevels_modes_shown
    (h : ∀ c ∈ Cond.levels, c.forcesHold = true ∨ c.wakes = true → (s.cond c).live = s.levelValue c) :
    s.refreshLevels.modes = s.modes := by
  rw [refreshLevels_eq]
  exact foldl_setLive_modes_shown s.levelValue Cond.levels h

/-! ## The transmitter's turn -/

/-- The transmitter's turn leaves the live values and the fault inputs and lines as they were (R156, R174). -/
theorem arbitrate_live (s : State) (c : Cond) : (s.arbitrate.cond c).live = (s.cond c).live := by
  unfold arbitrate
  split
  · rfl
  · split
    · rfl
    · split
      · rw [takeNotice, mapConds_cond]
        split <;> rfl
      · repeat' split
        all_goals rfl

theorem arbitrate_sensors (s : State) :
    s.arbitrate.sensors = { s.sensors with slugReference := s.arbitrate.sensors.slugReference } := by
  unfold arbitrate
  repeat' split
  all_goals rfl

end State

end Sys2Proof.Machine
end

section
/-! The fault inputs, and the door, tank and AUX lines (R142, R146, R153, R155, R156, R158). -/

namespace Sys2Proof.Machine

variable {s : State}

/-! ## A level condition follows its source -/

/-- A level condition has taken the value `v` in an event of lines and fault inputs: its live value and its latch, HOLD from
RUN where its rise forces it, a parked cell woken where its rise wakes it, and the other blocks as they were. -/
structure LevelTaken (c : Cond) (v : Bool) (s t : State) : Prop where
  live : (t.cond c).live = v
  latch : (t.cond c).latch = s.levelLatch c v
  run : c.forcesHold = true → v = true → (s.cond c).live = false → s.modes.mode = .run →
    t.modes = { s.modes with mode := .hold } ∧ t.path.genOn = false
  park : c.wakes = true → v = true → (s.cond c).live = false → s.modes.mode = .park → (s.cond c).latch = false →
    (s.cond c).enable = true → t.modes.mode = .waking ∧ t.modes.pump = true
  others : t.contours = s.contours ∧ t.job = s.job ∧ t.store = s.store ∧ t.holder = s.holder ∧ t.slug = s.slug

/-- Lines and fault inputs changed, the level conditions taken, and the transmitter's turn. -/
theorem levelTaken_of_sensors (s : State) (n : Sensors) {c : Cond} (hc : c ∈ Cond.levels) {v : Bool}
    (hv : (s.withSensors n).levelValue c = v) : LevelTaken c v s (s.withSensors n).refreshLevels.arbitrate := by
  have h := (State.refreshLevels_flags (s.withSensors n)).toStirs
  have ha := (s.withSensors n).refreshLevels.arbitrate_sends
  refine ⟨?_, ?_, fun hf hrise hl hm => ?_, fun hw hrise hl hm hlatch he => ?_, ha.contours.trans h.contours,
    ha.job.trans h.job, ha.store.trans h.store, ha.holder.trans h.holder, ha.slug.trans h.slug⟩
  · rw [State.arbitrate_live, State.refreshLevels_live _ hc, hv]
  · rw [ha.latch, State.refreshLevels_levelLatch hc, hv]
    rfl
  · rw [ha.modes, ha.genOn]
    exact State.refreshLevels_rise_run (s := s.withSensors n) hc (hv.trans hrise) hl hf hm
  · rw [ha.modes]
    exact State.refreshLevels_rise_park (s := s.withSensors n) hc (hv.trans hrise) hl hw hlatch he hm

/-! ## The lines -/

/-- The end of a hold of a line that the level conditions alone read. -/
theorem lineExpiry_levels (hs : s.Steady) {l : Line} {v : Bool} (hturn : s.Turns l v)
    (hl : ∀ t : State, t.lineChanged l = t.refreshLevels) :
    exec (.lineFilterExpiry l) s = .next (s.turned l v).refreshLevels.arbitrate :=
  lineExpiry_settled hs ((State.filterExpiry_turns hturn).trans (hl _))
    ((State.refreshLevels_flags (s.turned l v)).agenda.trans hs.1)

theorem levelTaken_of_turned (s : State) (l : Line) (b : Bool) {c : Cond} (hc : c ∈ Cond.levels) {v : Bool}
    (hv : (s.turned l b).levelValue c = v) : LevelTaken c v s (s.turned l b).refreshLevels.arbitrate :=
  levelTaken_of_sensors s (s.turned l b).sensors hc hv

/-- A condition that is live while a line is inactive, and forces HOLD. -/
theorem doorAndTankFollow (hs : s.Steady) (l : Line) {c : Cond} (hl : ∀ t : State, t.lineChanged l = t.refreshLevels)
    (hc : c ∈ Cond.levels) (hf : c.forcesHold = true) (hsource : ∀ t : State, t.levelValue c = !t.active l) (v : Bool) :
    DoorAndTankFollowTheirLines l c v s := by
  intro hturn
  have h := levelTaken_of_turned s l v hc (by rw [hsource, s.turned_active])
  have hexec := lineExpiry_levels hs hturn hl
  generalize (s.turned l v).refreshLevels.arbitrate = t at h hexec
  refine ⟨t, hexec, h.live, h.latch, fun e hlive hm => h.run hf (by rw [e]; rfl) hlive hm,
    fun e hdoor hlive hm hlatch he => h.park (by rw [hdoor]; rfl) (by rw [e]; rfl) hlive hm hlatch he, h.others⟩

/-- The level conditions that can stir the mode unit are the five that force HOLD. -/
theorem forcesHold_of_stirring {c : Cond} (hc : c ∈ Cond.levels) (h : c.forcesHold = true ∨ c.wakes = true) :
    c.forcesHold = true := by
  rcases h with h | h
  · exact h
  · have hw := State.waker_of_wakes hc h
    simp only [List.mem_cons, List.not_mem_nil, or_false] at hw
    rcases hw with rfl | rfl | rfl <;> rfl

/-- The five that force HOLD belong to the cell's own group, which is valid always (R153, R154), and read no AUX line. -/
theorem State.levelValue_turned_aux (s : State) {l : Line} (hl : l = .aux0 ∨ l = .aux1) (v : Bool) {c : Cond}
    (hc : c.forcesHold = true) : (s.turned l v).levelValue c = s.source c := by
  have hdoor : Line.doorClosed ≠ l := by rcases hl with rfl | rfl <;> nofun
  have htank : Line.tankFull ≠ l := by rcases hl with rfl | rfl <;> nofun
  have hmem := forcesHold_mem hc
  simp only [List.mem_cons, List.not_mem_nil, or_false] at hmem
  rcases hmem with rfl | rfl | rfl | rfl | rfl
  · show (true && !(s.turned l v).active .doorClosed) = _
    rw [turned_active_ne hdoor]
    rfl
  · show (true && !(s.turned l v).active .tankFull) = _
    rw [turned_active_ne htank]
    rfl
  all_goals rfl

/-- AUX is live while either of its lines is active (R153). -/
theorem State.levelValue_aux (s : State) {l : Line} (hl : l = .aux0 ∨ l = .aux1) (v : Bool) :
    (s.turned l v).levelValue .aux = (v || s.active (if l = .aux0 then .aux1 else .aux0)) := by
  show (true && ((s.turned l v).active .aux0 || (s.turned l v).active .aux1)) = _
  rw [Bool.true_and]
  rcases hl with rfl | rfl
  · rw [turned_active, turned_active_ne (by nofun)]
    rfl
  · rw [turned_active, turned_active_ne (by nofun), Bool.or_comm]
    rfl

theorem auxFollows (hs : s.Steady) (l : Line) (v : Bool) : AuxFollowsItsLines l v s := by
  intro hturn hl
  have h := levelTaken_of_turned s l v (c := .aux) (by decide) (s.levelValue_aux hl v)
  have hexec := lineExpiry_levels hs hturn (by rcases hl with rfl | rfl <;> exact fun _ => rfl)
  have hmodes : (∀ c ∈ [Cond.doorOpen, .tankLow, .axisFault, .genFault, .journalBlocked], (s.cond c).live = s.source c) →
      (s.turned l v).refreshLevels.arbitrate.modes = s.modes := by
    intro hshown
    refine (State.arbitrate_sends _).modes.trans
      (State.refreshLevels_modes_shown (s := s.turned l v) fun c hc hcause => ?_)
    have hf := forcesHold_of_stirring hc hcause
    rw [s.levelValue_turned_aux hl v hf]
    exact hshown c (State.forcesHold_mem hf)
  generalize (s.turned l v).refreshLevels.arbitrate = t at h hexec hmodes
  exact ⟨t, hexec, h.live, by rw [h.live]; exact h.latch, hmodes, h.others⟩

/-! ## The fault inputs -/

/-- The event of a fault input: the level conditions taken with the sensors changed, which the transmitter's turn leaves but
for the SLUG_CHANGE reference. -/
theorem faultInput_taken (hs : s.Steady) (f : Sensors → Sensors) {i : Instr} {c : Cond} (hc : c ∈ Cond.levels) {v : Bool}
    (hv : (s.onSensors f).levelValue c = v) (hi : exec i s = .next (s.event fun t => (t.onSensors f).refreshLevels)) :
    ∃ t, exec i s = .next t ∧ LevelTaken c v s t ∧
      t.sensors = { f s.sensors with slugReference := t.sensors.slugReference } := by
  have h := (State.refreshLevels_flags (s.onSensors f)).toStirs
  refine ⟨_, hi.trans (congrArg Host.Outcome.next
    (State.event_settled (f := fun t => (t.onSensors f).refreshLevels) hs rfl (h.agenda.trans hs.1))),
    levelTaken_of_sensors s (f s.sensors) hc hv, ?_⟩
  conv_lhs => rw [State.arbitrate_sensors, h.sensors]
  rfl

/-- Settles O48: each row's event takes the level conditions, and its own as one of them. -/
theorem faultInputsRaiseTheirConditions : Obligations.FaultInputsRaiseTheirConditions := by
  refine ⟨fun v s hs => ⟨?_, ?_, fun l => auxFollows hs l v⟩, fun fault s hs row hrow => ?_⟩
  · exact doorAndTankFollow hs .doorClosed (fun _ => rfl) (by decide) rfl (fun _ => rfl) v
  · exact doorAndTankFollow hs .tankFull (fun _ => rfl) (by decide) rfl (fun _ => rfl) v
  · simp only [List.mem_cons, List.not_mem_nil, or_false] at hrow
    rcases hrow with rfl | rfl
    · obtain ⟨t, hexec, h, hn⟩ := faultInput_taken (i := .axisFaultInput fault) (c := .axisFault) (v := fault) hs
        (fun n => { n with axisFault := fault }) (by decide) rfl rfl
      exact ⟨t, hexec, h.live, by rw [hn]; rfl, by rw [hn]; rfl, by rw [hn], h.latch, h.run rfl, h.park rfl, h.others⟩
    · obtain ⟨t, hexec, h, hn⟩ := faultInput_taken (i := .genFaultInput fault) (c := .genFault) (v := fault) hs
        (fun n => { n with genFault := fault }) (by decide) rfl rfl
      exact ⟨t, hexec, h.live, by rw [hn]; rfl, by rw [hn]; rfl, by rw [hn], h.latch, h.run rfl, h.park rfl, h.others⟩

end Sys2Proof.Machine
end

section
/-! SUPPORT. The filters of the lines (R149 to R152): the blocks write no line's record, so that what a filter has written stands
at the end of the event; and what each operation of a filter writes. -/

set_option Elab.async false

namespace Sys2Proof.Machine

/-- The record of a line that has taken its input's level (R149, R150). -/
def LineRec.atInput (r : LineRec) : LineRec :=
  { r with level := r.input, holding := false, active := decide (r.polarity = .activeHigh) == r.input }

namespace State

variable {s : State}

/-! ## The blocks write no line's record (R149) -/

/-- The fault inputs, the lines and the SLUG_CHANGE reference are the given ones. -/
def HasSensors (n : Sensors) (s : State) : Prop := s.sensors = n

theorem keepWork_sensors (n : Sensors) : KeepWork (HasSensors n) where
  path _ _ h := h
  conds _ _ h := h
  modes _ _ h _ := h
  journal _ _ h _ := h
  contours _ _ h := h
  job _ _ h _ _ := h
  link _ _ h := h
  thread _ _ h := h
  slug _ _ h := h
  holder _ _ h := h
  agenda _ _ h := h
  store _ _ h _ := h

/-- Nor does the choice of the next contour (R71 to R74). -/
theorem applyChoice_sensors (s : State) (c : Choice) : (s.applyChoice c).HasSensors s.sensors := by
  have K := keepWork_sensors s.sensors
  have hstate (js : JobState) : (s.setJobState js).HasSensors s.sensors := by
    unfold setJobState
    split <;> rfl
  unfold applyChoice
  cases c with
  | take i js =>
    unfold takeContour
    refine giveDue_keepWork K (refreshLevels_keep K.toKeepFlags (onJob_keep K (changeContour_keep K.toKeepChange ?_ i _) _ rfl rfl))
    exact hstate js
  | wait => exact hstate .severWait
  | complete =>
    unfold completeJob
    exact progress_keep K.toKeepChange (raise_keep K.toKeepFlags (offer_keep K.toKeepOffer (hstate .complete) _) _)

theorem keepTable_sensors (n : Sensors) : KeepTable (HasSensors n) where
  toKeepWork := keepWork_sensors n
  leave s h := (s.dropCurrent.applyChoice_sensors _).trans ((dropCurrent_flags s).toStirs.sensors.trans h)

theorem lineChanged_sensors (s : State) (l : Line) : (s.lineChanged l).sensors = s.sensors :=
  lineChanged_keepTable (keepTable_sensors s.sensors) rfl l

theorem settle_sensors (s : State) : s.settle.sensors = s.sensors := settle_keepTable (keepTable_sensors s.sensors) rfl

/-- The end of an event writes the SLUG_CHANGE reference at most (R156). -/
theorem finish_lineRec (s : State) (l : Line) : s.finish.lineRec l = s.lineRec l := by
  rw [finish, lineRec, arbitrate_sensors, settle_sensors, lineRec]

/-! ## A line's record replaced -/

theorem setLine_setLine (s : State) (l : Line) (q r : LineRec) : (s.setLine l q).setLine l r = s.setLine l r := by
  simp [setLine, onSensors, withSensors]

theorem putLine_same {l : Line} {r : LineRec} (h : r.active = s.active l) : s.putLine l r = s.setLine l r := if_pos h

theorem putLine_changed {l : Line} {r : LineRec} (h : r.active ≠ s.active l) : s.putLine l r = (s.setLine l r).lineChanged l :=
  if_neg h

theorem putLine_sensors (s : State) (l : Line) (r : LineRec) : (s.putLine l r).sensors = (s.setLine l r).sensors := by
  by_cases h : r.active = s.active l
  · rw [putLine_same h]
  · rw [putLine_changed h, lineChanged_sensors]

theorem putLine_lineRec (s : State) (l m : Line) (r : LineRec) : (s.putLine l r).lineRec m = (s.setLine l r).lineRec m := by
  rw [lineRec, putLine_sensors, lineRec]

/-! ## A level taken (R150) -/

theorem takeLevel_eq (s : State) (l : Line) : s.takeLevel l = s.putLine l (s.lineRec l).atInput := by
  rw [LineRec.atInput, ← matches_eq]
  rfl

/-- The level taken stands at the end of the event, whatever the blocks make of it. -/
theorem takeLevel_finish (s : State) (l : Line) : (s.takeLevel l).finish.lineRec l = (s.lineRec l).atInput ∧
    ∀ m, m ≠ l → (s.takeLevel l).finish.lineRec m = s.lineRec m := by
  refine ⟨?_, fun m hm => ?_⟩
  · rw [finish_lineRec, takeLevel_eq, putLine_lineRec, lineRec_setLine_same]
  · rw [finish_lineRec, takeLevel_eq, putLine_lineRec, lineRec_setLine_ne _ hm]

/-! ## The input changes (R150, R151) -/

/-- The input of a line stands at a new level, which its filter has not followed yet. -/
def inputAt (s : State) (l : Line) (high : Bool) : State := s.setLine l { s.lineRec l with input := high }

theorem inputAt_lineRec (s : State) (l : Line) (high : Bool) :
    (s.inputAt l high).lineRec l = { s.lineRec l with input := high } := lineRec_setLine_same s l _

theorem inputChange_masked {l : Line} (h : (s.lineRec l).mask = true) (high : Bool) :
    s.inputChange l high = s.inputAt l high := if_pos (by rw [lineRec_setLine_same]; exact h)

theorem inputChange_unmasked {l : Line} (h : (s.lineRec l).mask = false) (high : Bool) :
    s.inputChange l high = (s.inputAt l high).follow l :=
  if_neg (by rw [lineRec_setLine_same]; exact Bool.eq_false_iff.mp h)

theorem follow_back {l : Line} {high : Bool} (h : high = (s.lineRec l).level) : (s.inputAt l high).follow l =
    s.setLine l { s.lineRec l with input := high, holding := false } := by
  rw [follow, inputAt_lineRec, if_pos (by exact h), inputAt, setLine_setLine]

theorem follow_holds {l : Line} {high : Bool} (h : high ≠ (s.lineRec l).level) (hf : (s.lineRec l).filter ≠ 0) :
    (s.inputAt l high).follow l = s.setLine l { s.lineRec l with input := high, holding := true } := by
  rw [follow, inputAt_lineRec, if_neg (by exact h), if_neg (by exact hf), inputAt, setLine_setLine]

theorem follow_atOnce {l : Line} {high : Bool} (h : high ≠ (s.lineRec l).level) (hf : (s.lineRec l).filter = 0) :
    (s.inputAt l high).follow l = (s.inputAt l high).takeLevel l := by
  rw [follow, inputAt_lineRec, if_neg (by exact h), if_pos (by exact hf)]

/-- With a filter time the hold runs exactly while the input differs from the filtered level. -/
theorem follow_timed {l : Line} (high : Bool) (hf : (s.lineRec l).filter ≠ 0) : (s.inputAt l high).follow l =
    s.setLine l { s.lineRec l with input := high, holding := decide (high ≠ (s.lineRec l).level) } := by
  by_cases h : high = (s.lineRec l).level
  · rw [follow_back h, decide_eq_false (not_not_intro h)]
  · rw [follow_holds h hf, decide_eq_true h]

/-! ## CONFIG_LINE (R152) -/

/-- With mask yes polarity and filter time are written on a line that is masked, or has just been frozen. -/
theorem configure_masks (s : State) (l : Line) (p : Polarity) (f : Nat) : s.configure l p f true =
    s.setLine l { s.lineRec l with
      polarity := p, filter := f, mask := true
      holding := if (s.lineRec l).mask then (s.lineRec l).holding else false } := by
  cases hm : (s.lineRec l).mask with
  | true => simp [configure, rewrite, hm]
  | false => simp [configure, rewrite, freeze, hm, setLine_setLine]

/-- With mask no on an unmasked line whose hold is not running the active value follows the polarity. -/
theorem configure_unmasked {l : Line} (hm : (s.lineRec l).mask = false) (hh : (s.lineRec l).holding = false) (p : Polarity)
    (f : Nat) : s.configure l p f false = (s.putLine l { s.lineRec l with
      polarity := p, filter := f, active := decide (p = .activeHigh) == (s.lineRec l).level }).settle := by
  simp [configure, rewrite, hm, hh, matches_eq]

end State

end Sys2Proof.Machine
end

section
/-! A line's filter follows its input (R149 to R151). -/

namespace Sys2Proof.Machine

section
variable {s : State} (hs : s.Steady)
include hs

/-- An input that leaves a line's record written and nothing more. -/
theorem inputChange_settled {l : Line} {high : Bool} {r : LineRec} (e : s.inputChange l high = s.setLine l r) :
    exec (.lineInputChange l high) s = .next (s.setLine l r).arbitrate :=
  congrArg Host.Outcome.next (State.event_settled (f := (·.inputChange l high)) hs e hs.1)

/-- An input whose level is taken at once (R150). -/
theorem inputChange_taken {l : Line} {high : Bool} (e : s.inputChange l high = (s.inputAt l high).takeLevel l) :
    ∃ t : State, exec (.lineInputChange l high) s = .next t ∧
      t.lineRec l = LineRec.atInput { s.lineRec l with input := high } ∧ ∀ m, m ≠ l → t.lineRec m = s.lineRec m := by
  obtain ⟨hl, hm⟩ := (s.inputAt l high).takeLevel_finish l
  refine ⟨((s.inputAt l high).takeLevel l).finish, congrArg Host.Outcome.next ?_, ?_, fun m hne => ?_⟩
  · rw [← e]
    exact State.event_eq hs (·.inputChange l high)
  · rw [hl, State.inputAt_lineRec]
  · rw [hm m hne, State.inputAt, State.lineRec_setLine_ne _ hne]

/-- The end of a running hold (R150). -/
theorem lineExpiry_taken {l : Line} (h : (s.lineRec l).holding = true) :
    ∃ t : State, exec (.lineFilterExpiry l) s = .next t ∧ t.lineRec l = (s.lineRec l).atInput ∧
      ∀ m, m ≠ l → t.lineRec m = s.lineRec m := by
  have e : s.filterExpiry l = s.takeLevel l := if_pos h
  refine ⟨(s.takeLevel l).finish, congrArg Host.Outcome.next ?_, s.takeLevel_finish l⟩
  rw [← e]
  exact State.event_eq hs (·.filterExpiry l)

end

/-- Settles O47: each case of the filter writes the line's record, and what the blocks and the transmitter then do leaves the
lines as they are. -/
theorem lineFilterFollowsTheInput : Obligations.LineFilterFollowsTheInput := by
  intro l high s hs
  refine ⟨fun hm => ?_, fun hm hf => ?_, fun hm hf => ⟨fun h => ?_, fun h => ?_⟩, lineExpiry_taken hs, fun h => ?_⟩
  · exact inputChange_settled hs (State.inputChange_masked hm high)
  · exact inputChange_settled hs ((State.inputChange_unmasked hm high).trans (State.follow_timed high hf))
  · exact inputChange_settled hs ((State.inputChange_unmasked hm high).trans (State.follow_back h))
  · exact inputChange_taken hs ((State.inputChange_unmasked hm high).trans (State.follow_atOnce h hf))
  · exact lineExpiry_settled hs (if_neg (Bool.eq_false_iff.mp h)) hs.1

end Sys2Proof.Machine
end

section
/-! CONFIG_LINE (R152). -/

namespace Sys2Proof.Machine

variable {s : State}

/-! ## The request -/

theorem lineOfNat_lineNum (l : Line) : lineOfNat (lineNum l).val = some l := by cases l <;> rfl

theorem lineOfNat_beyond {n : Nat} (h : 7 < n) : lineOfNat n = none := dif_neg (by omega)

theorem polarityOf_code (p : Polarity) : polarityOf p.code = some p := by cases p <;> rfl

theorem polarityOf_beyond {n : Nat} (h : 1 < n) : polarityOf n = none := by
  obtain ⟨k, rfl⟩ := Nat.exists_eq_add_of_le' h
  rfl

/-- A line, a polarity or a mask out of range is refused. -/
theorem takeConfigLine_refuses {n pol m : Byte} (h : 7 < n.toNat ∨ 1 < pol.toNat ∨ 1 < m.toNat) (f : Byte) (s : State) :
    takeConfigLine [n, pol, f, m] s = refuse s .badValue := by
  rw [takeConfigLine, ofLength, if_pos (by rfl)]
  split
  · rename_i l p hl hp
    have hl : lineOfNat n.toNat = some l := hl
    have hp : polarityOf pol.toNat = some p := hp
    rcases h with h | h | h
    · rw [lineOfNat_beyond h] at hl
      cases hl
    · rw [polarityOf_beyond h] at hp
      cases hp
    · exact if_pos h
  · rfl

/-- Any other is taken, a filter time above 15 as 15. -/
theorem takeConfigLine_takes (l : Line) (p : Polarity) (f : Byte) {m : Byte} (hm : m.toNat ≤ 1) (s : State) :
    takeConfigLine [byte (lineNum l).val, byte p.code, f, m] s =
      ⟨s.configure l p (min 15 f.toNat) (decide (m.toNat = 1)), if f.toNat ≤ 15 then .ok else .clamped,
        fun _ => if f.toNat ≤ 15 then [] else [15]⟩ := by
  have hl : lineOfNat (u8 [byte (lineNum l).val, byte p.code, f, m] 0) = some l := by
    rw [u8_byte (by omega), lineOfNat_lineNum]
  have hp : polarityOf (u8 [byte (lineNum l).val, byte p.code, f, m] 1) = some p := by
    rw [u8_drop (r := [f, m]) rfl (by cases p <;> decide), polarityOf_code]
  have hmask : ¬ 1 < u8 [byte (lineNum l).val, byte p.code, f, m] 3 := Nat.not_lt.mpr hm
  rw [takeConfigLine, ofLength, if_pos (by rfl)]
  simp only [hl, hp, hmask, if_false]
  show (if f.toNat ≤ 15 then _ else _) = _
  split <;> rfl

/-- On a quiet link the request is answered when its reports, where there are any, have been worked off. -/
theorem configLine_answered (hq : s.Quiet) (tag : Byte) (l : Line) (p : Polarity) (f : Byte) {m : Byte} (hm : m.toNat ≤ 1)
    {t : State} (e : (s.configure l p (min 15 f.toNat) (decide (m.toNat = 1))).settle = t) (ha : t.agenda = s.agenda)
    (hl : t.link = s.link) : exec (.configLine tag [byte (lineNum l).val, byte p.code, f, m]) s =
      .next (t.replied 0x40 tag (if f.toNat ≤ 15 then .ok else .clamped) (if f.toNat ≤ 15 then [] else [15])) :=
  congrArg Host.Outcome.next (State.request_settles (kind := 0x40) (p := [byte (lineNum l).val, byte p.code, f, m]) hq
    (show 4 ≤ 250 by decide) (takeConfigLine_takes l p f hm s) e (ha.trans hq.1.1) (by rw [hl]) (by rw [hl]) (by rw [hl]))

/-- The answer to a request that leaves the line's record written and nothing more. -/
theorem configLine_written (hq : s.Quiet) (tag : Byte) (l : Line) (p : Polarity) (f : Byte) {m : Byte} (hm : m.toNat ≤ 1)
    {r : LineRec} (e : s.configure l p (min 15 f.toNat) (decide (m.toNat = 1)) = s.setLine l r) :
    exec (.configLine tag [byte (lineNum l).val, byte p.code, f, m]) s =
      .next ((s.setLine l r).replied 0x40 tag (if f.toNat ≤ 15 then .ok else .clamped) (if f.toNat ≤ 15 then [] else [15])) :=
  configLine_answered hq tag l p f hm (by rw [e]; exact State.settle_nil _ hq.1.1) rfl rfl

/-! ## The polarity changes -/

/-- The record of a line whose polarity is changed, and its active value with it (R152). -/
def LineRec.flipped (r : LineRec) (p : Polarity) (f : Nat) : LineRec :=
  { r with polarity := p, filter := f, active := !r.active }

/-- The polarity of a line that the level conditions alone read is changed, and its active value flips: they take their values
anew (R152, R153). -/
theorem configure_flips (hs : s.Steady) {l : Line} (hm : (s.lineRec l).mask = false) (hh : (s.lineRec l).holding = false)
    (hl : ∀ t : State, t.lineChanged l = t.refreshLevels) {p : Polarity}
    (hne : (s.lineRec l).active ≠ (decide (p = .activeHigh) == (s.lineRec l).level)) (f : Nat) :
    s.configure l p f false = (s.setLine l ((s.lineRec l).flipped p f)).refreshLevels := by
  have hflip : (decide (p = .activeHigh) == (s.lineRec l).level) = !(s.lineRec l).active := Bool.eq_not.mpr hne.symm
  rw [State.configure_unmasked hm hh, hflip, State.putLine_changed (by exact Bool.not_ne_self _), hl]
  exact State.settle_nil _ ((State.refreshLevels_flags _).agenda.trans hs.1)

/-- The lines that the level conditions alone read (R153). -/
theorem lineChanged_levels {l : Line} (h : l ∈ [Line.doorClosed, .tankFull, .aux0, .aux1]) (t : State) :
    t.lineChanged l = t.refreshLevels := by
  simp only [List.mem_cons, List.not_mem_nil, or_false] at h
  rcases h with rfl | rfl | rfl | rfl <;> rfl

/-- The conditions of doors, tank, faults and AUX lines belong to the group that is always valid, so that each is live as its
source says (R153, R154). -/
theorem State.refreshLevels_shown (t : State) {c : Cond} (h : c ∈ [Cond.doorOpen, .tankLow, .axisFault, .genFault, .aux]) :
    (t.refreshLevels.cond c).live = t.refreshLevels.source c := by
  have hr := (t.refreshLevels_flags).toStirs
  simp only [List.mem_cons, List.not_mem_nil, or_false] at h
  rcases h with rfl | rfl | rfl | rfl | rfl
  all_goals
    rw [refreshLevels_live t (by decide), ← hr.levelValue (by decide)]
    exact Bool.true_and _

/-- Settles O46: the request's three steps come to one writing of the record, and to the level conditions taken anew where the
active value flips. -/
theorem configLineWritesTheRecord : Obligations.ConfigLineWritesTheRecord := by
  intro tag l f s hq
  refine ⟨fun n pol m h => ?_, fun p => ?_, fun hm hh hact => ?_, fun hm hh hl p hne => ?_⟩
  · exact congrArg _ (State.request_refused (kind := 0x40) (p := [n, pol, f, m]) hq (show 4 ≤ 250 by decide)
      (takeConfigLine_refuses h f s))
  · exact configLine_written hq tag l p f (m := 1) (by decide) (s.configure_masks l p _)
  · refine configLine_written hq tag l _ f (m := 0) (by decide) ?_
    refine (State.configure_unmasked hm hh _ _).trans ?_
    rw [← hact, State.putLine_same (by rfl)]
    exact State.settle_nil _ hq.1.1
  · have e := configure_flips hq.1 hm hh (lineChanged_levels hl) hne (min 15 f.toNat)
    have hr := (State.refreshLevels_flags (s.setLine l ((s.lineRec l).flipped p (min 15 f.toNat)))).toStirs
    refine ⟨_, configLine_answered hq tag l p f (m := 0) (by decide) (t := State.refreshLevels _) ?_ hr.agenda hr.link,
      (hr.lineRec l).trans (s.lineRec_setLine_same l _), fun m hne => (hr.lineRec m).trans (s.lineRec_setLine_ne hne _),
      fun c hc => State.refreshLevels_shown _ hc, hr.contours, hr.job, hr.store, hr.holder⟩
    refine (congrArg State.settle e).trans (State.settle_nil _ ?_)
    exact hr.agenda.trans hq.1.1

end Sys2Proof.Machine
end

section
/-! The requests on the sets of conditions (R159 to R161). -/

namespace Sys2Proof.Machine

/-! ## A set in its four bytes (R180) -/

theorem uN_leBytes {n v : Nat} (h : v < 256 ^ n) : uN n (leBytes n v) 0 = v :=
  uN_drop (r := []) (List.append_nil _).symm h

section
variable {set : Nat} (hset : set < 2 ^ 32)
include hset

theorem takeEnableConditions_eq (s : State) : takeEnableConditions (leBytes 4 set) s =
    if setOk set then done (s.mapConds fun n r => r.enabled (inSet set n)) else refuse s .badValue := by
  rw [takeEnableConditions, ofLength, if_pos (leBytes_length 4 set), uN_leBytes hset]

theorem takeClearConditions_eq (s : State) : takeClearConditions (leBytes 4 set) s =
    if setOk set then done (s.mapConds fun n r => if inSet set n then r.cleared else r) else refuse s .badValue := by
  rw [takeClearConditions, ofLength, if_pos (leBytes_length 4 set), uN_leBytes hset]

end

theorem setOk_iff (set : Nat) : setOk set = true ↔ set < 2 ^ 28 := decide_eq_true_iff

/-- The record under a new enable, which changes nothing where it is the old one (R159). -/
theorem CondRec.enabled_eq (r : CondRec) (on : Bool) : r.enabled on =
    if on = r.enable then r
    else if on = true then { r with enable := true, pending := r.pending || (r.latch && !r.noticed) }
    else { r with enable := false, pending := false } := by
  rw [CondRec.enabled]
  simp only [eq_comm]

/-! ## The requests -/

/-- A request on a quiet link that changes condition records alone. -/
theorem conditions_written {s : State} (hq : s.Quiet) {kind : Byte} (tag : Byte) {p : Payload} (hp : p.length ≤ 250)
    {f : Nat → CondRec → CondRec} (e : answerTo kind p s = done (s.mapConds f)) :
    s.request kind tag p = (s.mapConds f).replied kind tag .ok [] :=
  State.request_is hq hp e rfl rfl rfl rfl

/-- Settles O50: each set request maps its change over the records, and the query answers from the part as it stands. -/
theorem conditionSetsAreWrittenAndReported : Obligations.ConditionSetsAreWrittenAndReported := by
  intro tag set s hq hset
  have hlen : (leBytes 4 set).length ≤ 250 := by rw [leBytes_length]; decide
  refine ⟨fun h => ?_, fun h => ?_, ?_⟩
  · have hbad : ¬ setOk set = true := fun hok => Nat.not_lt.mpr h ((setOk_iff set).mp hok)
    exact ⟨congrArg _ (State.request_refused (kind := 0x41) hq hlen ((takeEnableConditions_eq hset s).trans (if_neg hbad))),
      congrArg _ (State.request_refused (kind := 0x42) hq hlen ((takeClearConditions_eq hset s).trans (if_neg hbad)))⟩
  · have hok := (setOk_iff set).mpr h
    have henable := conditions_written (kind := 0x41) hq tag hlen ((takeEnableConditions_eq hset s).trans (if_pos hok))
    have hclear := conditions_written (kind := 0x42) hq tag hlen ((takeClearConditions_eq hset s).trans (if_pos hok))
    exact ⟨⟨_, congrArg _ henable, rfl, fun c => (s.mapConds_cond _ c).trans (CondRec.enabled_eq _ _)⟩,
      ⟨_, congrArg _ hclear, rfl, s.mapConds_cond _⟩⟩
  · exact congrArg _ (State.request_is (kind := 0x43) (p := []) (a := report s conditionBytes) hq (by decide) rfl rfl rfl rfl rfl)

end Sys2Proof.Machine
end

section
/-! The form of the journal (R163, R165, R166, R168, R171): what its changes keep is kept by every step. -/

namespace Sys2Proof.Machine

/-- Every change made to the journal keeps its form. -/
theorem JournalMove.form {j k : Journal} (hmove : JournalMove j k) (h : j.Form) : k.Form := by
  cases hmove with
  | take r => exact Journal.take_form h r
  | settled => exact Journal.settled_form h
  | erased p _ => exact Journal.eraseDone_form h p
  | eraseAll _ => exact Journal.eraseAll_form h

/-- The start-up scan of what a reset leaves of the storage makes a journal that has the form (R168). -/
theorem cleared_journalForm {s : State} (h : s.JournalForm) (k : ResetKind) : (s.cleared k).JournalForm :=
  Journal.scan_form (Journal.memAfterReset_wf h s.free)

theorem keepAll_journalForm : KeepAll State.JournalForm where
  path _ _ h := h
  conds _ _ h := h
  modes _ _ h _ := h
  journal _ _ h hmove := hmove.form h
  contours _ _ h := h
  job _ _ h _ _ := h
  link _ _ h := h
  thread _ _ h := h
  slug _ _ h := h
  holder _ _ h := h
  agenda _ _ h := h
  store _ _ h _ := h
  jobAny _ _ h := h
  params _ _ h := h
  sensors _ _ h := h
  free _ _ h := h
  pending _ _ h := h
  reset _ k h := cleared_journalForm h k

/-- Settles O54: the four changes made to the journal keep its form, and so does the scan after a reset. -/
theorem journalFormIsKept : Obligations.JournalFormIsKept := fun _ _ hs hstep =>
  State.step_keep keepAll_journalForm hs hstep

end Sys2Proof.Machine
end

section
/-! SUPPORT. What reads and blank checks find in the journal's storage once a slot has been written or a page erased (R163,
R165, R166). -/

namespace Sys2Proof.Machine

variable {m : List Host.Cell}

theorem memSorted_of_wf (h : memWf m = true) : memSorted m = true := by
  rw [memWf, Bool.and_eq_true] at h
  exact h.1

/-! ## Widths (R182) -/

theorem headerBytes_length (seq : Nat) : (headerBytes seq).length = 20 := by
  simp [headerBytes, leBytes_length]

theorem slotByte_length (i : Option Slot) : (slotByte i).length = 1 := by
  cases i <;> rfl

theorem recordBytes_length (seq : Nat) (r : JRecord) : (recordBytes seq r).length = 20 := by
  simp [recordBytes, recordBody, leBytes_length, slotByte_length]

/-! ## Addresses -/

/-- Two slots share no byte. -/
theorem slotAddr_disjoint {p q k l : Nat} (hk : k < 128) (hl : l < 128) (hne : p ≠ q ∨ k ≠ l) :
    slotAddr p k + 20 ≤ slotAddr q l ∨ slotAddr q l + 20 ≤ slotAddr p k := by
  simp only [slotAddr]
  omega

/-- A slot lies within its page. -/
theorem slotAddr_within {k : Nat} (p : Nat) (hk : k < 128) :
    slotAddr p 0 ≤ slotAddr p k ∧ slotAddr p k + 20 ≤ slotAddr p 0 + 2560 := by
  simp only [slotAddr]
  omega

/-- A slot of another page lies outside a page. -/
theorem slotAddr_outside {p q k : Nat} (hk : k < 128) (hne : p ≠ q) :
    slotAddr p k + 20 ≤ slotAddr q 0 ∨ slotAddr q 0 + 2560 ≤ slotAddr p k := by
  simp only [slotAddr]
  omega

/-! ## Blank bytes -/

/-- A listed byte reads as it is listed. -/
theorem memRead_listed (h : memSorted m = true) {c : Host.Cell} (hc : c ∈ m) : memRead m c.1 = c.2 := by
  obtain ⟨hpair, -⟩ := (memSorted_iff m).mp h
  clear h
  induction m with
  | nil => cases hc
  | cons d m ih =>
    obtain ⟨hd, hm⟩ := List.pairwise_cons.mp hpair
    rcases List.mem_cons.mp hc with rfl | hc
    · exact if_pos rfl
    · exact (if_neg (hd c hc).ne).trans (ih hc hm)

/-- In canonical form bytes are blank where each of them reads all-ones. -/
theorem memBlank_iff (h : memSorted m = true) (a n : Nat) :
    memBlank m a n = true ↔ ∀ x, a ≤ x → x < a + n → memRead m x = erasedByte := by
  refine ⟨fun hb x h1 h2 => memRead_blank hb h1 h2, fun hx => ?_⟩
  rw [memBlank, List.all_eq_true]
  intro c hc
  have hlisted := ((memSorted_iff m).mp h).2 c hc
  rw [← memRead_listed h hc] at hlisted
  have hout : ¬ (a ≤ c.1 ∧ c.1 < a + n) := fun ⟨h1, h2⟩ => hlisted (hx c.1 h1 h2)
  rw [Bool.not_eq_true', Bool.and_eq_false_iff, decide_eq_false_iff_not, decide_eq_false_iff_not]
  omega

theorem slotBlank_of_pageBlank {p k : Nat} (h : memSorted m = true) (hb : pageBlank m p = true) (hk : k < 128) :
    slotBlank m p k = true := by
  have hin := slotAddr_within p hk
  exact (memBlank_iff h _ _).mpr fun x h1 h2 => memRead_blank hb (by omega) (by omega)

/-! ## A slot written -/

theorem slotWrite_sorted (h : memSorted m = true) (p k : Nat) (bs : List Byte) : memSorted (slotWrite m p k bs) = true := by
  unfold slotWrite
  generalize bs.take 20 = l
  generalize slotAddr p k = a
  induction l generalizing m a with
  | nil => exact h
  | cons b l ih => exact ih (memWrite_sorted h a b) (a + 1)

/-- A write leaves every byte outside its slot as it was. -/
theorem memRead_slotWrite_outside (h : memSorted m = true) (bs : List Byte) {p k a : Nat}
    (ha : a < slotAddr p k ∨ slotAddr p k + 20 ≤ a) : memRead (slotWrite m p k bs) a = memRead m a := by
  rw [slotWrite, memRead_memWriteAll h]
  refine if_neg ?_
  rw [List.length_take]
  omega

/-- Bytes that lie outside a written slot are blank after the write where they were so before. -/
theorem memBlank_slotWrite_outside (h : memSorted m = true) (bs : List Byte) {p k a n : Nat}
    (ha : a + n ≤ slotAddr p k ∨ slotAddr p k + 20 ≤ a) : memBlank (slotWrite m p k bs) a n = memBlank m a n := by
  rw [Bool.eq_iff_iff, memBlank_iff (slotWrite_sorted h p k bs), memBlank_iff h]
  refine forall₃_congr fun x h1 h2 => ?_
  rw [memRead_slotWrite_outside h bs (by omega)]

theorem slotBlank_slotWrite_ne (h : memSorted m = true) (bs : List Byte) {p q k l : Nat} (hk : k < 128) (hl : l < 128)
    (hne : q ≠ p ∨ l ≠ k) : slotBlank (slotWrite m p k bs) q l = slotBlank m q l :=
  memBlank_slotWrite_outside h bs (slotAddr_disjoint hl hk hne)

theorem pageBlank_slotWrite_ne (h : memSorted m = true) (bs : List Byte) {p q k : Nat} (hk : k < 128) (hne : p ≠ q) :
    pageBlank (slotWrite m p k bs) q = pageBlank m q :=
  memBlank_slotWrite_outside h bs (slotAddr_outside hk hne).symm

theorem memBytes_congr {m' : List Host.Cell} {a n : Nat} (h : ∀ x, a ≤ x → x < a + n → memRead m x = memRead m' x) :
    memBytes m a n = memBytes m' a n := by
  induction n generalizing a with
  | zero => rfl
  | succ n ih =>
    rw [memBytes, memBytes, h a (le_refl a) (by omega), ih fun x h1 h2 => h x (by omega) (by omega)]

/-- A write leaves the bytes of the other slots as they were. -/
theorem slotBytes_slotWrite_ne (h : memSorted m = true) (bs : List Byte) {p q k l : Nat} (hk : k < 128) (hl : l < 128)
    (hne : q ≠ p ∨ l ≠ k) : slotBytes (slotWrite m p k bs) q l = slotBytes m q l := by
  have hout := slotAddr_disjoint hl hk hne
  exact memBytes_congr fun x h1 h2 => memRead_slotWrite_outside h bs (by omega)

/-! ## A page erased -/

theorem memRead_pageErase_outside {p a : Nat} (ha : a < slotAddr p 0 ∨ slotAddr p 0 + 2560 ≤ a) :
    memRead (pageErase m p) a = memRead m a := by
  rw [pageErase, memRead_memErase]
  exact if_neg (by omega)

theorem pageBlank_pageErase (m : List Host.Cell) (p : Nat) : pageBlank (pageErase m p) p = true := by
  rw [pageBlank, memBlank, List.all_eq_true]
  exact fun c hc => (List.mem_filter.mp hc).2

end Sys2Proof.Machine
end

section
/-! SUPPORT. Each operation of the journal by its cases (R165 to R167, R171). -/

namespace Sys2Proof.Machine.Journal

variable {j : Journal}

/-! ## Writing (R165) -/

theorem Form.sorted (h : j.Form) : memSorted j.mem = true := memSorted_of_wf h.mem

theorem canWrite_of {p n : Nat} (hp : j.active = some p) (hn : j.nextSeq = some n) (hs : j.nextSlot ≤ 127) :
    j.canWrite = true := by
  simp [canWrite, hp, hn, hs]

/-- The journal with a record in its next slot, under a sequence that is not the last. -/
def written (j : Journal) (p n : Nat) (r : JRecord) : Journal :=
  { j with
    mem := slotWrite j.mem p j.nextSlot (recordBytes n r)
    nextSlot := j.nextSlot + 1
    nextSeq := some (n + 1)
    writing := some (p, j.nextSlot) }

theorem writeRecord_eq {p n : Nat} (hp : j.active = some p) (hn : j.nextSeq = some n) (hlt : n < Config.maxSequence)
    (r : JRecord) : j.writeRecord r = j.written p n r := by
  simp only [writeRecord, hp, hn, seqAfter, if_neg hlt.ne, written]

theorem drain_empty (h : j.queue = []) : j.drain = { j with blocked := false } := by
  rw [drain, h]
  simp [drainGo, h]

/-- An offer that is written, into a slot that does not fill the page. -/
theorem take_written {p n : Nat} (hp : j.active = some p) (hn : j.nextSeq = some n) (hlt : n < Config.maxSequence)
    (hs : j.nextSlot < 127) (hq : j.queue = []) (r : JRecord) :
    j.take r = { j.written p n r with blocked := false } := by
  have happ : j.append r = j.written p n r := by
    rw [append, writeRecord_eq hp hn hlt]
    exact if_neg (by show j.nextSlot + 1 ≠ 128; omega)
  have hqueue : (j.written p n r).queue = [] := hq
  rw [take, if_pos (by rw [canWrite_of hp hn hs.le, hq]; rfl), happ, drain_empty hqueue]

/-- An offer that is written, and fills the page. -/
theorem take_rolls {p n : Nat} (hp : j.active = some p) (hn : j.nextSeq = some n) (hlt : n < Config.maxSequence)
    (hs : j.nextSlot = 127) (hq : j.queue = []) (r : JRecord) :
    j.take r = { (j.written p n r).roll with blocked := false } := by
  have happ : j.append r = (j.written p n r).roll := by
    rw [append, writeRecord_eq hp hn hlt]
    exact if_pos (by show j.nextSlot + 1 = 128; omega)
  have hqueue : (j.written p n r).roll.queue = [] := (roll_idle _).2.1.trans hq
  rw [take, if_pos (by rw [canWrite_of hp hn hs.le, hq]; rfl), happ, drain_empty hqueue]

/-! ## Erases begun and listed (R166) -/

/-- The first listed page begins to be erased where none is. -/
theorem startErase_begins (j : Journal) : j.startErase = { j with
    erasing := if j.erasing = none then j.eraseList.head? else j.erasing
    eraseList := if j.erasing = none then j.eraseList.tail else j.eraseList } := by
  obtain ⟨mem, active, slot, seq, pageSeq, erasing, list, queue, roll, first, blocked, all, writing⟩ := j
  cases erasing with
  | some p => rfl
  | none => cases list <;> rfl

/-- The pages due for erase once the page after `p` has been listed. -/
def listed (j : Journal) (p : Nat) : List Nat := j.eraseList ++ [nextPage p]

theorem activate_eq (j : Journal) (p : Nat) : j.activate p = { j with
    mem := slotWrite j.mem p 0 (headerBytes j.nextPageSeq)
    active := some p
    nextSlot := 1
    nextPageSeq := if j.nextPageSeq = Config.maxSequence then Config.pageSequenceAfterLast else j.nextPageSeq + 1
    waitRoll := none
    writing := some (p, 0)
    erasing := if j.erasing = none then (j.listed p).head? else j.erasing
    eraseList := if j.erasing = none then (j.listed p).tail else j.listed p } := by
  simp only [activate, listErase, startErase_begins, listed]

theorem activate_mem (j : Journal) (p : Nat) : (j.activate p).mem = slotWrite j.mem p 0 (headerBytes j.nextPageSeq) := by
  rw [activate_eq]

/-- A page has become active, and the page after it has gone to the end of the erase list (R166). -/
structure Activated (j : Journal) (p : Nat) (k : Journal) : Prop where
  active : k.active = some p
  nextSlot : k.nextSlot = 1
  waitRoll : k.waitRoll = none
  header : slotBytes k.mem p 0 = headerBytes j.nextPageSeq
  nextPageSeq : j.nextPageSeq < Config.maxSequence → k.nextPageSeq = j.nextPageSeq + 1
  begins : j.erasing = none → k.erasing = (j.listed p).head? ∧ k.eraseList = (j.listed p).tail
  waits : j.erasing ≠ none → k.erasing = j.erasing ∧ k.eraseList = j.listed p

theorem activate_activated (h : memSorted j.mem = true) (p : Nat) : j.Activated p (j.activate p) where
  active := by rw [activate_eq]
  nextSlot := by rw [activate_eq]
  waitRoll := by rw [activate_eq]
  header := by rw [activate_mem, slotBytes_slotWrite h p 0 (headerBytes_length _)]
  nextPageSeq hmax := by
    rw [activate_eq]
    exact if_neg hmax.ne
  begins he := by
    rw [activate_eq]
    exact ⟨if_pos he, if_pos he⟩
  waits he := by
    rw [activate_eq]
    exact ⟨if_neg he, if_neg he⟩

theorem roll_activates {p : Nat} (hp : j.active = some p) (hb : pageBlank j.mem (nextPage p) = true)
    (hw : j.awaitsErase (nextPage p) = false) : j.roll = j.activate (nextPage p) := by
  simp [roll, hp, hb, hw]

theorem roll_waits {p : Nat} (hp : j.active = some p)
    (h : ¬ (pageBlank j.mem (nextPage p) = true ∧ j.awaitsErase (nextPage p) = false)) :
    j.roll = { j with active := none, waitRoll := some (nextPage p) } := by
  have hcond : ¬ (pageBlank j.mem (nextPage p) && !j.awaitsErase (nextPage p)) = true := by
    rwa [Bool.and_eq_true, Bool.not_eq_true']
  simp only [roll, hp, if_neg hcond]

/-! ## The pending queue (R167) -/

theorem take_enqueues (h : j.active = none ∨ 127 < j.nextSlot ∨ j.nextSeq = none ∨ j.queue ≠ []) (r : JRecord) :
    j.take r = j.enqueue r := by
  refine if_neg ?_
  simp only [canWrite, Bool.and_eq_true, decide_eq_true_eq, List.isEmpty_iff, not_and]
  rintro ⟨⟨ha, hs⟩, hn⟩ hq
  rcases h with h | h | h | h
  · rw [h] at ha; cases ha
  · omega
  · rw [h] at hn; cases hn
  · exact h hq

theorem samePosition_iff (r q : JRecord) : samePosition r q = true ↔
    r.kind = .position ∧ q.kind = .position ∧ q.slot = r.slot ∧ q.pass = r.pass := by
  simp [samePosition, and_assoc]

theorem dropLast_last {f : JRecord → Bool} {before after : List JRecord} {q : JRecord} (hq : f q = true)
    (hafter : ∀ x ∈ after, ¬ f x = true) : dropLast f (before ++ q :: after) = before ++ after := by
  have hrev : ∀ x ∈ after.reverse, ¬ f x = true := fun x hx => hafter x (List.mem_reverse.mp hx)
  have hl : (before ++ q :: after).reverse = after.reverse ++ q :: before.reverse := by simp
  rw [dropLast, hl, List.eraseP_append_right _ hrev, List.eraseP_cons_of_pos hq]
  simp

theorem enqueue_replaces {r q : JRecord} {before after : List JRecord} (hj : j.queue = before ++ q :: after)
    (hq : samePosition r q = true) (hafter : ∀ x ∈ after, ¬ samePosition r x = true) :
    j.enqueue r = { j with queue := before ++ after ++ [r] } := by
  have hany : j.queue.any (samePosition r) = true := List.any_eq_true.mpr ⟨q, by rw [hj]; simp, hq⟩
  rw [enqueue, if_pos hany, hj, dropLast_last hq hafter]

theorem notQueued {r : JRecord} (hno : ∀ q ∈ j.queue, ¬ samePosition r q = true) :
    ¬ j.queue.any (samePosition r) = true := by
  rw [List.any_eq_true]
  rintro ⟨q, hq, hsame⟩
  exact hno q hq hsame

theorem enqueue_joins {r : JRecord} (hno : ∀ q ∈ j.queue, ¬ samePosition r q = true) (hlen : j.queue.length < 8) :
    j.enqueue r = { j with queue := j.queue ++ [r] } := by
  rw [enqueue, if_neg (notQueued hno)]
  exact if_pos hlen

theorem enqueue_discards {r : JRecord} (hno : ∀ q ∈ j.queue, ¬ samePosition r q = true) (hlen : 8 ≤ j.queue.length) :
    j.enqueue r = { j with blocked := true } := by
  rw [enqueue, if_neg (notQueued hno)]
  exact if_neg (Nat.not_lt.mpr hlen)

/-! ## The end of an erase (R166, R171) -/

/-- The journal when the erase of a page has ended and the next listed one has begun. -/
def ended (j : Journal) (p : Nat) : Journal :=
  { j with mem := pageErase j.mem p, erasing := j.eraseList.head?, eraseList := j.eraseList.tail }

theorem ended_eq (j : Journal) (p : Nat) :
    ({ j with mem := pageErase j.mem p, erasing := none } : Journal).startErase = j.ended p := startErase_begins _

/-- Once an erase has ended, the pages due are those that were listed. -/
theorem ended_awaits (j : Journal) (p q : Nat) : (j.ended p).awaitsErase q = j.eraseList.contains q := by
  rw [← ended_eq, startErase_awaits]
  rfl

/-- Once an erase has ended and a page has become active, the pages due follow each other in the order of the list. -/
theorem Activated.due_ended {k : Journal} {p q : Nat} (h : (j.ended p).Activated q k) :
    k.erasing = (j.listed q).head? ∧ k.eraseList = (j.listed q).tail := by
  cases hl : j.eraseList with
  | nil =>
    obtain ⟨he, hr⟩ := h.begins (by simp [ended, hl])
    simp [he, hr, listed, ended, hl]
  | cons n rest =>
    obtain ⟨he, hr⟩ := h.waits (by simp [ended, hl])
    simp [he, hr, listed, ended, hl]

theorem eraseDone_goesOn (ha : j.erasingAll = true) (hl : j.eraseList ≠ []) (p : Nat) : j.eraseDone p = j.ended p := by
  obtain ⟨q, rest, hq⟩ := List.exists_cons_of_ne_nil hl
  have hbusy : ¬ (j.ended p).erasing.isNone = true := by simp [ended, hq]
  rw [eraseDone, ended_eq]
  exact (if_pos ha).trans (if_neg hbusy)

/-- The journal when the last erase of JOURNAL_ERASE has ended and page 0 has become active (R171). -/
def restarted (j : Journal) (p : Nat) : Journal :=
  ({ j.ended p with erasingAll := false, nextSeq := some 1 } : Journal).activateFirst

theorem restarted_mem (j : Journal) (p : Nat) :
    (j.restarted p).mem = slotWrite (pageErase j.mem p) 0 0 (headerBytes 1) := by
  simp only [restarted, activateFirst, ended]

theorem restarted_append (j : Journal) (p : Nat) : (j.restarted p).active = some 0 ∧ (j.restarted p).nextSlot = 1 ∧
    (j.restarted p).nextSeq = some 1 ∧ (j.restarted p).nextPageSeq = 2 := ⟨rfl, rfl, rfl, rfl⟩

theorem restarted_rest (j : Journal) (p : Nat) : (j.restarted p).queue = j.queue ∧
    (j.restarted p).erasing = j.eraseList.head? ∧ (j.restarted p).erasingAll = false := by
  simp only [restarted, activateFirst, ended, and_self]

theorem eraseDone_last (ha : j.erasingAll = true) (hl : j.eraseList = []) (p : Nat) :
    j.eraseDone p = (j.restarted p).drain := by
  have hidle : (j.ended p).erasing.isNone = true := by simp [ended, hl]
  rw [eraseDone, ended_eq]
  exact (if_pos ha).trans (if_pos hidle)

section
variable (ha : j.erasingAll = false)
include ha

/-- A page that is listed once more is waited for again. -/
theorem eraseDone_listed {p : Nat} (hp : p ∈ j.eraseList) : j.eraseDone p = j.ended p := by
  rw [eraseDone, ended_eq]
  refine (if_neg (by simp [ended, ha])).trans (if_pos ?_)
  rw [ended_awaits]
  exact List.contains_iff_mem.mpr hp

theorem eraseDone_rolls {p : Nat} (hp : p ∉ j.eraseList) (hf : j.waitFirst = false) (hr : j.waitRoll = some p) :
    j.eraseDone p = ((j.ended p).activate p).drain := by
  rw [eraseDone, ended_eq]
  refine (if_neg (by simp [ended, ha])).trans ((if_neg ?_).trans ((if_neg ?_).trans (if_pos hr)))
  · rw [ended_awaits]
    exact fun h => hp (List.contains_iff_mem.mp h)
  · simp [ended, hf]

theorem eraseDone_plain (hf : j.waitFirst = false) (hr : j.waitRoll = none) (p : Nat) : j.eraseDone p = j.ended p := by
  rw [eraseDone, ended_eq]
  refine (if_neg (by simp [ended, ha])).trans ?_
  simp [ended, hf, hr]

end

end Sys2Proof.Machine.Journal
end

section
/-! A record offered to the journal (R165 to R167): written into the next slot, rolling a full page, or waiting. -/

namespace Sys2Proof.Machine

theorem State.offer_journal (s : State) (r : JRecord) : (s.offer r).journal = s.journal.take r := (offer_flags s r).journal

/-! ## An offer that is written (R165) -/

/-- An offer that does not fill the page changes its slot alone. -/
theorem offerWritten {s : State} (r : JRecord) {p n : Nat} (hform : s.JournalForm) (hp : s.journal.active = some p)
    (hn : s.journal.nextSeq = some n) (hlt : n < 4294967295) (hs : s.journal.nextSlot < 127) (hq : s.journal.queue = []) :
    let j := (s.offer r).journal
    j.nextSlot = s.journal.nextSlot + 1 ∧ j.nextSeq = some (n + 1) ∧ j.active = some p ∧ j.queue = [] ∧
    slotBytes j.mem p s.journal.nextSlot = recordBytes n r ∧
    (∀ a, (a < slotAddr p s.journal.nextSlot ∨ slotAddr p s.journal.nextSlot + 20 ≤ a) →
      memRead j.mem a = memRead s.journal.mem a) ∧
    j.erasing = s.journal.erasing ∧ j.eraseList = s.journal.eraseList ∧ j.nextPageSeq = s.journal.nextPageSeq := by
  rw [s.offer_journal, Journal.take_written hp hn hlt hs hq]
  dsimp only [Journal.written]
  exact ⟨rfl, rfl, hp, hq, slotBytes_slotWrite hform.sorted _ _ (recordBytes_length n r),
    fun a ha => memRead_slotWrite_outside hform.sorted _ ha, rfl, rfl, rfl⟩

/-! ## An offer that fills its page (R166) -/

/-- A roll writes no slot of the page that was full. -/
theorem Journal.roll_slotBytes {j : Journal} (h : memSorted j.mem = true) {p k : Nat} (hp : j.active = some p) (hk : k < 128) :
    slotBytes j.roll.mem p k = slotBytes j.mem p k := by
  by_cases hc : pageBlank j.mem (nextPage p) = true ∧ j.awaitsErase (nextPage p) = false
  · rw [roll_activates hp hc.1 hc.2, activate_mem, slotBytes_slotWrite_ne h _ (by decide) hk (.inl (nextPage_ne p).symm)]
  · rw [roll_waits hp hc]

theorem offerRolls (r : JRecord) (p n : Nat) (s : State) : OfferRolls r p n s := by
  intro hform hp hn hlt hs hq
  have hwp : (s.journal.written p n r).active = some p := hp
  have hws : memSorted (s.journal.written p n r).mem = true := slotWrite_sorted hform.sorted _ _ _
  have hnext : (pageBlank s.journal.mem ((p + 1) % 4) = true ∧ s.journal.erasing ≠ some ((p + 1) % 4) ∧
      (p + 1) % 4 ∉ s.journal.eraseList) ↔ (pageBlank (s.journal.written p n r).mem (nextPage p) = true ∧
        (s.journal.written p n r).awaitsErase (nextPage p) = false) := by
    have hblank : pageBlank (s.journal.written p n r).mem (nextPage p) = pageBlank s.journal.mem (nextPage p) :=
      pageBlank_slotWrite_ne hform.sorted _ (by omega) (nextPage_ne p).symm
    rw [hblank, Journal.awaitsErase_false]
    rfl
  obtain ⟨hseq, hqueue, -⟩ := Journal.roll_idle (s.journal.written p n r)
  rw [s.offer_journal, Journal.take_rolls hp hn hlt hs hq, hnext]
  refine ⟨?_, hseq, hqueue.trans hq, rfl, fun ⟨hb, hw⟩ => ?_, fun hc => ?_⟩
  · refine (Journal.roll_slotBytes hws hwp (by decide)).trans ?_
    rw [← hs, Journal.written, slotBytes_slotWrite hform.sorted _ _ (recordBytes_length n r)]
  · rw [Journal.roll_activates hwp hb hw]
    have h := Journal.activate_activated hws (nextPage p)
    exact ⟨h.active, h.nextSlot, h.header, h.nextPageSeq, h.begins, h.waits⟩
  · rw [Journal.roll_waits hwp hc]
    exact ⟨rfl, rfl, rfl, rfl⟩

/-! ## An offer that waits (R167) -/

/-- A discarded offer makes JOURNAL_BLOCKED live, and its rise takes a running cell to HOLD with the generator off
(R142, R158). -/
theorem discarded_blocks {s : State} {r : JRecord} (hb : (s.journal.take r).blocked = true) :
    ((s.offer r).cond .journalBlocked).live = true ∧
      ((s.cond .journalBlocked).live = false → s.modes.mode = .run →
        (s.offer r).modes = { s.modes with mode := .hold } ∧ (s.offer r).path.genOn = false) := by
  have hoffer : s.offer r = (s.withJournal (s.journal.take r)).setLive .journalBlocked true :=
    congrArg ((s.withJournal (s.journal.take r)).setLive .journalBlocked) hb
  refine ⟨?_, fun hl hm => ?_⟩
  · rw [hoffer, State.setLive_live _ _ _ _ (by decide), if_pos rfl]
  · have hne : (s.offer r).modes.mode ≠ .run := by
      rw [hoffer]
      exact State.setLive_rise_ne_run rfl hl
    have hruns : (s.offer r).RunsOrOff := by
      rw [hoffer]
      exact State.RunsOrOff.setLive (s := s.withJournal (s.journal.take r)) (.inl hm) _ _
    exact ⟨(State.offer_flags s r).modes.eq_hold hm hne, hruns.resolve_left hne⟩

theorem offerWaits (r : JRecord) (s : State) : OfferWaits r s := by
  have hflags := (State.offer_flags s r).toStirs
  intro hwaits
  simp only [← Journal.samePosition_iff, s.offer_journal]
  have hj := Journal.take_enqueues hwaits r
  refine ⟨fun before q after hqueue hq hafter => hj.trans (Journal.enqueue_replaces hqueue hq hafter),
    fun hno hlen => hj.trans (Journal.enqueue_joins hno hlen), fun hno hlen => ?_,
    hflags.contours, hflags.job, hflags.store⟩
  have hdiscards := hj.trans (Journal.enqueue_discards hno hlen)
  exact ⟨hdiscards, discarded_blocks (by rw [hdiscards])⟩

/-- Settles O51: an offer is written, rolls the page that it fills, or waits. -/
theorem offerIsWrittenInTheNextSlot : Obligations.OfferIsWrittenInTheNextSlot :=
  ⟨offerRolls, fun r s => offerWaits r s, fun _ r _ _ hform hp hn hlt hs hq _ => offerWritten r hform hp hn hlt hs hq⟩

end Sys2Proof.Machine
end

section
/-! JOURNAL_READ and JOURNAL_SUMMARY (R169, R170, R182): the slots as stored, and what the summary draws from the records. -/

namespace Sys2Proof.Machine

/-! ## JOURNAL_READ (R170) -/

/-- The ranges that JOURNAL_READ refuses (R170). -/
def ReadBeyond (page first count : Byte) : Prop :=
  3 < page.toNat ∨ 127 < first.toNat ∨ count = 0 ∨ 8 < count.toNat ∨ 128 < first.toNat + count.toNat

/-- JOURNAL_READ answers by its three cases (R170). -/
theorem takeJournalRead_eq (page first count : Byte) (s : State) : answerTo 0x51 [page, first, count] s =
    if 3 < page.toNat ∨ 127 < first.toNat ∨ count.toNat = 0 ∨ 8 < count.toNat ∨ 128 < first.toNat + count.toNat then
      refuse s .badValue
    else if s.journal.erasing = some page.toNat then refuse s .wrongState
    else report s fun t => readBytes t.journal.mem page.toNat first.toNat count.toNat := rfl

theorem readBeyond_iff (page first count : Byte) : ReadBeyond page first count ↔
    3 < page.toNat ∨ 127 < first.toNat ∨ count.toNat = 0 ∨ 8 < count.toNat ∨ 128 < first.toNat + count.toNat := by
  rw [ReadBeyond, ← BitVec.toNat_inj]
  rfl

section
variable {s : State} (hq : s.Quiet) (tag : Byte) {page first count : Byte}
include hq

theorem journalRead_beyond (h : ReadBeyond page first count) :
    exec (.journalRead tag [page, first, count]) s = .next (s.replied 0x51 tag .badValue []) :=
  congrArg _ (State.request_refused (kind := 0x51) hq (by simp)
    ((takeJournalRead_eq page first count s).trans (if_pos ((readBeyond_iff page first count).mp h))))

theorem journalRead_erasing (h : ¬ ReadBeyond page first count) (he : s.journal.erasing = some page.toNat) :
    exec (.journalRead tag [page, first, count]) s = .next (s.replied 0x51 tag .wrongState []) :=
  congrArg _ (State.request_refused (kind := 0x51) hq (by simp)
    ((takeJournalRead_eq page first count s).trans
      ((if_neg (mt (readBeyond_iff page first count).mpr h)).trans (if_pos he))))

theorem journalRead_reports (h : ¬ ReadBeyond page first count) (he : s.journal.erasing ≠ some page.toNat) :
    exec (.journalRead tag [page, first, count]) s = .next (s.replied 0x51 tag .ok
      (readBytes s.journal.mem page.toNat first.toNat count.toNat)) :=
  congrArg _ (State.request_is (kind := 0x51) hq (by simp)
    ((takeJournalRead_eq page first count s).trans
      ((if_neg (mt (readBeyond_iff page first count).mpr h)).trans (if_neg he))) rfl rfl rfl rfl)

end

/-! ## The records that the summary is drawn from (R169) -/

namespace Journal

theorem mem_readable {j : Journal} {p : Nat} : p ∈ j.readable ↔ p < 4 ∧ j.erasing ≠ some p ∧ p ∉ j.eraseList := by
  have hpages : p ∈ [0, 1, 2, 3] ↔ p < 4 := by
    simp only [List.mem_cons, List.not_mem_nil, or_false]
    omega
  rw [readable, List.mem_filter, hpages, Bool.not_eq_true', awaitsErase_false]

theorem mem_pageRecords {m : List Host.Cell} {p : Nat} {bs : List Byte} :
    bs ∈ pageRecords m p ↔ ∃ n < 128, 1 ≤ n ∧ bs = slotBytes m p n ∧ recordValid bs = true := by
  rw [pageRecords]
  split
  · rename_i hblank
    refine ⟨nofun, ?_⟩
    rintro ⟨n, hn, -, rfl, hv⟩
    rw [recordValid_blank hn hblank] at hv
    cases hv
  · rw [List.mem_filter, List.mem_map]
    constructor
    · rintro ⟨⟨k, hk, rfl⟩, hv⟩
      exact ⟨k + 1, Nat.succ_lt_succ (List.mem_range.mp hk), Nat.le_add_left 1 k, rfl, hv⟩
    · rintro ⟨n, hn, h1, rfl, hv⟩
      exact ⟨⟨n - 1, List.mem_range.mpr (by omega), by rw [Nat.sub_add_cancel h1]⟩, hv⟩

theorem mem_records_iff {s : State} {bs : List Byte} : bs ∈ s.journal.records ↔ s.Kept bs := by
  rw [records, List.mem_flatMap]
  constructor
  · rintro ⟨p, hp, hb⟩
    obtain ⟨hp4, he, hl⟩ := mem_readable.mp hp
    exact ⟨p, hp4, he, hl, mem_pageRecords.mp hb⟩
  · rintro ⟨p, hp4, he, hl, hb⟩
    exact ⟨p, mem_readable.mpr ⟨hp4, he, hl⟩, mem_pageRecords.mpr hb⟩

/-! ## The newest record -/

/-- The newer of a record found so far and another one. -/
def newer (best : Option (List Byte)) (r : List Byte) : Option (List Byte) :=
  match best with
  | some b => if slotSeq b < slotSeq r then some r else best
  | none => some r

theorem newest_eq (rs : List (List Byte)) (f : List Byte → Bool) : newest rs f = (rs.filter f).foldl newer none := rfl

/-- A record of the highest sequence of a list, absent where the list is empty. -/
def IsHighest (rs : List (List Byte)) : Option (List Byte) → Prop
  | some b => b ∈ rs ∧ ∀ r ∈ rs, slotSeq r ≤ slotSeq b
  | none => rs = []

theorem isHighest_newer {rs : List (List Byte)} {best : Option (List Byte)} (h : IsHighest rs best) (r : List Byte) :
    IsHighest (rs ++ [r]) (newer best r) := by
  cases best with
  | none =>
    obtain rfl : rs = [] := h
    exact ⟨List.mem_singleton_self r, fun q hq => (congrArg slotSeq (List.mem_singleton.mp hq)).le⟩
  | some b =>
    obtain ⟨hb, hmax⟩ := h
    simp only [newer]
    split
    · rename_i hlt
      refine ⟨List.mem_append_right rs (List.mem_singleton_self r), fun q hq => ?_⟩
      rcases List.mem_append.mp hq with hq | hq
      · exact (hmax q hq).trans hlt.le
      · exact (congrArg slotSeq (List.mem_singleton.mp hq)).le
    · rename_i hge
      refine ⟨List.mem_append_left [r] hb, fun q hq => ?_⟩
      rcases List.mem_append.mp hq with hq | hq
      · exact hmax q hq
      · exact (congrArg slotSeq (List.mem_singleton.mp hq)).le.trans (Nat.not_lt.mp hge)

theorem isHighest_foldl (rs : List (List Byte)) : IsHighest rs (rs.foldl newer none) := by
  induction rs using List.reverseRecOn with
  | nil => rfl
  | append_singleton rs r ih =>
    rw [List.foldl_append]
    exact isHighest_newer ih r

end Journal

/-- The newest of the journal's records with a property, as the summary sends it (R169). -/
theorem newest_newestIs (s : State) {f : List Byte → Bool} {g : List Byte → Prop} (hfg : ∀ bs, f bs = true ↔ g bs) :
    s.NewestIs g (recordOpt (Journal.newest s.journal.records f)) := by
  have hmem (bs : List Byte) : bs ∈ s.journal.records.filter f ↔ s.Kept bs ∧ g bs := by
    rw [List.mem_filter, Journal.mem_records_iff, hfg]
  have h := Journal.isHighest_foldl (s.journal.records.filter f)
  rw [← Journal.newest_eq] at h
  cases hnew : Journal.newest s.journal.records f with
  | none =>
    rw [hnew] at h
    exact .inr ⟨rfl, fun cs hk hg => List.eq_nil_iff_forall_not_mem.mp h cs ((hmem cs).mpr ⟨hk, hg⟩)⟩
  | some bs =>
    rw [hnew] at h
    obtain ⟨hin, hmax⟩ := h
    obtain ⟨hk, hg⟩ := (hmem bs).mp hin
    exact .inl ⟨hk, hg, fun cs hkc hgc => hmax cs ((hmem cs).mpr ⟨hkc, hgc⟩)⟩

/-- The lowest and the highest sequence of the journal's records, as the summary sends them (R169). -/
theorem spanBytes_spanIs (s : State) : s.SpanIs (spanBytes s.journal.records) := by
  have hseq (v : Nat) : v ∈ s.journal.records.map slotSeq ↔ ∃ bs, s.Kept bs ∧ slotSeq bs = v := by
    simp only [List.mem_map, Journal.mem_records_iff]
  rw [spanBytes]
  cases hmin : (s.journal.records.map slotSeq).min? with
  | none =>
    have hnil := List.min?_eq_none_iff.mp hmin
    rw [List.max?_eq_none_iff.mpr hnil]
    refine .inr ⟨rfl, fun bs hk => ?_⟩
    have hin := (hseq (slotSeq bs)).mpr ⟨bs, hk, rfl⟩
    rw [hnil] at hin
    cases hin
  | some lo =>
    cases hmax : (s.journal.records.map slotSeq).max? with
    | none =>
      rw [List.max?_eq_none_iff.mp hmax] at hmin
      cases hmin
    | some hi =>
      obtain ⟨hlo, hle⟩ := List.min?_eq_some_iff.mp hmin
      obtain ⟨hhi, hge⟩ := List.max?_eq_some_iff.mp hmax
      refine .inl ⟨lo, hi, rfl, (hseq lo).mp hlo, (hseq hi).mp hhi, fun bs hk => ?_⟩
      have hin := (hseq (slotSeq bs)).mpr ⟨bs, hk, rfl⟩
      exact ⟨hle _ hin, hge _ hin⟩

/-! ## JOURNAL_SUMMARY (R169) -/

/-- JOURNAL_SUMMARY answers by its two cases (R169). -/
theorem takeJournalSummary_eq (first count : Byte) (s : State) : answerTo 0x50 [first, count] s =
    if 63 < first.toNat ∨ 6 < count.toNat ∨ 64 < first.toNat + count.toNat then refuse s .badValue
    else report s fun t => summaryBytes t.journal first.toNat count.toNat := rfl

theorem journalSummary_beyond {s : State} (hq : s.Quiet) (tag : Byte) {first count : Byte}
    (h : 63 < first.toNat ∨ 6 < count.toNat ∨ 64 < first.toNat + count.toNat) :
    exec (.journalSummary tag [first, count]) s = .next (s.replied 0x50 tag .badValue []) :=
  congrArg _ (State.request_refused (kind := 0x50) hq (by simp) ((takeJournalSummary_eq first count s).trans (if_pos h)))

theorem journalSummary_reports {s : State} (hq : s.Quiet) (tag : Byte) {first count : Byte}
    (h : ¬ (63 < first.toNat ∨ 6 < count.toNat ∨ 64 < first.toNat + count.toNat)) :
    exec (.journalSummary tag [first, count]) s = .next (s.replied 0x50 tag .ok
      (summaryBytes s.journal first.toNat count.toNat)) :=
  congrArg _ (State.request_is (kind := 0x50) hq (by simp)
    ((takeJournalSummary_eq first count s).trans (if_neg h)) rfl rfl rfl rfl)

/-- The newest STATE record of each slot of a range, as the summary sends them (R169). -/
def rangeRecords (s : State) (first count : Nat) : List (List Byte) :=
  (List.range count).map fun n =>
    recordOpt (Journal.newest s.journal.records fun r => ofKind .state r && decide (u8 r 5 = first + n))

theorem rangeRecords_newestIs {s : State} {first count n : Nat} {bs : List Byte} (h : (rangeRecords s first count)[n]? = some bs) :
    s.NewestIs (fun cs => u8 cs 4 = 0 ∧ u8 cs 5 = first + n) bs := by
  obtain ⟨hn, rfl⟩ := List.getElem?_eq_some_iff.mp h
  simp only [rangeRecords, List.getElem_map, List.getElem_range]
  refine newest_newestIs s fun bs => ?_
  rw [Bool.and_eq_true, ofKind, decide_eq_true_eq, decide_eq_true_eq]
  rfl

theorem summaryBytes_eq (s : State) (first count : Nat) : summaryBytes s.journal first count =
    recordOpt (Journal.newest s.journal.records (ofKind .state)) ++
    recordOpt (Journal.newest s.journal.records (ofKind .position)) ++
    recordOpt (Journal.newest s.journal.records (ofKind .job)) ++ (rangeRecords s first count).flatten ++
    spanBytes s.journal.records ++
    [byte s.journal.queue.length, boolByte s.journal.erasing.isSome, byte s.journal.eraseList.length] := by
  rw [rangeRecords, ← List.flatMap_def, summaryBytes]

/-- Settles O52: each request answers by its cases, from the part as it stands. -/
theorem journalRequestsReadAndChangeNothing : Obligations.JournalRequestsReadAndChangeNothing := by
  intro tag page first count s hq
  refine ⟨journalRead_beyond hq tag, journalRead_erasing hq tag, journalRead_reports hq tag, journalSummary_beyond hq tag,
    fun hfirst hcount hsum => ⟨_, _, _, _, rangeRecords s first.toNat count.toNat, ?_,
      newest_newestIs s (f := ofKind .state) fun _ => decide_eq_true_iff,
      newest_newestIs s (f := ofKind .position) fun _ => decide_eq_true_iff,
      newest_newestIs s (f := ofKind .job) fun _ => decide_eq_true_iff, ?_, fun n bs => rangeRecords_newestIs,
      spanBytes_spanIs s⟩⟩
  · rw [← summaryBytes_eq]
    exact journalSummary_reports hq tag (by omega)
  · rw [rangeRecords, List.length_map, List.length_range]

end Sys2Proof.Machine
end

section
/-! JOURNAL_ERASE and the end of an erase (R166, R171). -/

namespace Sys2Proof.Machine

/-! ## The request (R171) -/

/-- JOURNAL_ERASE answers by its two cases (R171). -/
theorem takeJournalErase_eq (s : State) : answerTo 0x52 [] s =
    if s.job.state.atRest = true ∧ s.journal.erasingAll = false then
      ⟨s.onJournal fun j => j.eraseAll, .accepted, fun _ => []⟩
    else refuse s .wrongState := rfl

theorem Journal.eraseAll_eq (j : Journal) : j.eraseAll = { j with
    active := none, waitRoll := none, waitFirst := false, erasingAll := true
    erasing := if j.erasing = none then some 0 else j.erasing
    eraseList := if j.erasing = none then [1, 2, 3] else [0, 1, 2, 3] } := startErase_begins _

theorem journalErase_refused {s : State} (hq : s.Quiet) (tag : Byte)
    (h : (s.job.state = .stageA ∨ s.job.state = .stageB ∨ s.job.state = .severWait) ∨ s.journal.erasingAll = true) :
    exec (.journalErase tag []) s = .next (s.replied 0x52 tag .wrongState []) := by
  refine congrArg _ (State.request_refused (kind := 0x52) hq (by simp) ((takeJournalErase_eq s).trans (if_neg ?_)))
  rintro ⟨hrest, hall⟩
  rcases h with (h | h | h) | h
  · rw [h] at hrest; cases hrest
  · rw [h] at hrest; cases hrest
  · rw [h] at hrest; cases hrest
  · rw [h] at hall; cases hall

theorem journalErase_accepted {s : State} (hq : s.Quiet) (tag : Byte)
    (hrest : s.job.state = .idle ∨ s.job.state = .complete ∨ s.job.state = .aborted) (hall : s.journal.erasingAll = false) :
    exec (.journalErase tag []) s = .next ((s.onJournal fun j => j.eraseAll).replied 0x52 tag .accepted []) := by
  have hrest : s.job.state.atRest = true := by rcases hrest with h | h | h <;> rw [h] <;> rfl
  exact congrArg _ (State.request_is (kind := 0x52) hq (by simp)
    ((takeJournalErase_eq s).trans (if_pos ⟨hrest, hall⟩)) rfl rfl rfl rfl)

/-! ## The event -/

theorem State.Sends.journal {s t : State} (h : s.Sends t) : t.journal = s.journal := by rw [h.rest]

/-- A PROGRESS that is pending is still so after the transmitter's turn, or is in transmission (R174, R175). -/
theorem State.arbitrate_progressDue {s : State} (h : s.link.progressPending = true) :
    s.arbitrate.link.progressPending = true ∨ ∃ f, s.arbitrate.link.sending = some ⟨.progress, f⟩ := by
  unfold arbitrate
  split
  · exact .inl h
  · split
    · exact .inl h
    · split
      · exact .inl h
      · exact .inr ⟨_, rfl⟩

/-- What the end of an erase leaves: the journal with that erase done, contours and job as they were, and PROGRESS pending
or in transmission where JOURNAL_ERASE ends (R166, R171). -/
structure EraseEnded (p : Nat) (s t : State) : Prop where
  journal : t.journal = s.journal.eraseDone p
  contours : t.contours = s.contours
  job : t.job = s.job
  progress : s.journal.erasingAll = true → (s.journal.eraseDone p).erasingAll = false →
    t.link.progressPending = true ∨ ∃ f, t.link.sending = some ⟨.progress, f⟩

/-- The part with the erase of a page done, and JOURNAL_BLOCKED at the value of its source (R166, R167). -/
def State.erased (s : State) (p : Nat) : State :=
  (s.withJournal (s.journal.eraseDone p)).setLive .journalBlocked (s.journal.eraseDone p).blocked

theorem State.erased_stirs (s : State) (p : Nat) : (s.withJournal (s.journal.eraseDone p)).Stirs (s.erased p) :=
  setLive_stirs _ _ _

theorem State.eraseComplete_eq {s : State} {p : Nat} (he : s.journal.erasing = some p) : s.eraseComplete =
    if s.journal.erasingAll && !(s.journal.eraseDone p).erasingAll then (s.erased p).progress else s.erased p := by
  rw [eraseComplete, he]
  rfl

theorem eraseComplete_ends {s : State} {p : Nat} (hs : s.Steady) (he : s.journal.erasing = some p) :
    ∃ t, exec .journalEraseComplete s = .next t ∧ EraseEnded p s t := by
  have hu := s.erased_stirs p
  have hcomplete := State.eraseComplete_eq he
  have hevent {v : State} (hv : s.eraseComplete = v) (ha : v.agenda = []) :
      exec .journalEraseComplete s = .next v.arbitrate := congrArg Host.Outcome.next (State.event_settled hs hv ha)
  have hag : (s.erased p).agenda = [] := hu.agenda.trans hs.1
  split at hcomplete
  · have hends := (s.erased p).progress.arbitrate_sends
    exact ⟨_, hevent hcomplete hag, hends.journal.trans hu.journal, hends.contours.trans hu.contours,
      hends.job.trans hu.job, fun _ _ => State.arbitrate_progressDue rfl⟩
  · rename_i hgoes
    have hends := (s.erased p).arbitrate_sends
    exact ⟨_, hevent hcomplete hag, hends.journal.trans hu.journal, hends.contours.trans hu.contours,
      hends.job.trans hu.job, fun h1 h2 => (hgoes (by rw [h1, h2]; rfl)).elim⟩

/-! ## What follows the erase (R166, R171) -/

section
variable {p : Nat} {s t : State}

/-- The page is blank and the others are as they were, where no page becomes active. -/
theorem EraseEnded.pageErased (h : EraseEnded p s t) (hj : s.journal.eraseDone p = s.journal.ended p) : PageErased p s t := by
  have hm : t.journal.mem = pageErase s.journal.mem p := by
    rw [h.journal, hj]
    rfl
  rw [PageErased, hm]
  exact ⟨fun a ha => memRead_pageErase_outside ha, pageBlank_pageErase _ p, h.contours, h.job⟩

variable (hs : s.Steady) (he : s.journal.erasing = some p)
include hs he

/-- No roll and no first activation waits: the page is blank, and the next listed one begins to be erased. -/
theorem erasePlain (hall : s.journal.erasingAll = false) (hroll : s.journal.waitRoll = none)
    (hfirst : s.journal.waitFirst = false) : ∃ t : State,
    exec .journalEraseComplete s = .next t ∧ pageBlank t.journal.mem p = true ∧
    (∀ a, (a < slotAddr p 0 ∨ slotAddr p 0 + 2560 ≤ a) → memRead t.journal.mem a = memRead s.journal.mem a) ∧
    t.journal.erasing = s.journal.eraseList.head? ∧ t.journal.eraseList = s.journal.eraseList.tail ∧
    t.journal.active = s.journal.active ∧ t.contours = s.contours ∧ t.job = s.job := by
  obtain ⟨t, hexec, h⟩ := eraseComplete_ends hs he
  have hj := Journal.eraseDone_plain hall hfirst hroll p
  obtain ⟨hothers, hblank, hcontours, hjob⟩ := h.pageErased hj
  refine ⟨t, hexec, hblank, hothers, ?_⟩
  rw [h.journal, hj]
  exact ⟨rfl, rfl, rfl, hcontours, hjob⟩

variable (hform : s.JournalForm)
include hform

theorem eraseGoesOn : EraseGoesOn p s := by
  intro hall hl
  obtain ⟨t, hexec, h⟩ := eraseComplete_ends hs he
  have hj := Journal.eraseDone_goesOn hall hl p
  refine ⟨t, hexec, h.pageErased hj, ?_⟩
  rw [h.journal, hj]
  exact ⟨rfl, rfl, hall, (hform.all hall).1, rfl, rfl⟩

theorem eraseMakesTheRoll : EraseMakesTheRoll p s := by
  intro hall hroll
  have hfirst : s.journal.waitFirst = false := Bool.eq_false_iff.mpr fun hf => by
    rw [hform.first hf] at hroll
    cases hroll
  have hactive : s.journal.active = none := Option.eq_none_iff_forall_ne_some.mpr fun a ha => by
    rw [(hform.idle a ha).1] at hroll
    cases hroll
  obtain ⟨t, hexec, h⟩ := eraseComplete_ends hs he
  refine ⟨fun hp hqueue => ?_, fun hp => ?_⟩
  · have hsorted : memSorted (s.journal.ended p).mem = true := memSorted_of_wf (pageErase_wf hform.mem p)
    have hempty : ((s.journal.ended p).activate p).queue = [] := (Journal.activate_idle _ p).2.1.trans hqueue
    have hblank : ∀ n < 128, 1 ≤ n → slotBlank ((s.journal.ended p).activate p).mem p n = true := fun n hn h1 => by
      rw [Journal.activate_mem, slotBlank_slotWrite_ne hsorted _ (by decide) hn (.inr (by omega))]
      exact slotBlank_of_pageBlank hsorted (pageBlank_pageErase _ p) hn
    have hk := Journal.activate_activated hsorted p
    refine ⟨t, hexec, ?_⟩
    rw [h.journal, Journal.eraseDone_rolls hall hp hfirst hroll, Journal.drain_empty hempty]
    generalize (s.journal.ended p).activate p = k at hk hblank
    obtain ⟨hnext, hrest⟩ := hk.due_ended
    exact ⟨hk.active, hk.nextSlot, hk.waitRoll, hk.header, hblank, hk.nextPageSeq, hnext, hrest, h.contours, h.job⟩
  · have hj := Journal.eraseDone_listed hall hp
    refine ⟨t, hexec, h.pageErased hj, ?_⟩
    rw [h.journal, hj]
    exact ⟨hactive, hroll, rfl, rfl⟩

/-- The last erase of JOURNAL_ERASE makes page 0 active, and PROGRESS pending (R171). -/
theorem eraseAllEnds (hall : s.journal.erasingAll = true) (hl : s.journal.eraseList = []) (hq : s.journal.queue = []) :
    ∃ t : State, exec .journalEraseComplete s = .next t ∧ t.journal.active = some 0 ∧ t.journal.nextSlot = 1 ∧
      t.journal.nextSeq = some 1 ∧ t.journal.nextPageSeq = 2 ∧ t.journal.erasing = none ∧
      t.journal.erasingAll = false ∧ slotBytes t.journal.mem 0 0 = headerBytes 1 ∧
      (t.link.progressPending = true ∨ ∃ f, t.link.sending = some ⟨.progress, f⟩) ∧
      t.contours = s.contours ∧ t.job = s.job := by
  obtain ⟨t, hexec, h⟩ := eraseComplete_ends hs he
  have hheader : slotBytes (s.journal.restarted p).mem 0 0 = headerBytes 1 := by
    rw [Journal.restarted_mem, slotBytes_slotWrite (memSorted_of_wf (pageErase_wf hform.mem p)) 0 0 (headerBytes_length 1)]
  obtain ⟨hactive, hslot, hseq, hpageSeq⟩ := s.journal.restarted_append p
  obtain ⟨hqueue, herasing, hended⟩ := s.journal.restarted_rest p
  have hj := (Journal.eraseDone_last hall hl p).trans (Journal.drain_empty (hqueue.trans hq))
  have hprogress := h.progress hall
  refine ⟨t, hexec, ?_⟩
  rw [hj] at hprogress
  rw [h.journal, hj]
  generalize s.journal.restarted p = k at *
  exact ⟨hactive, hslot, hseq, hpageSeq, herasing.trans (congrArg List.head? hl), hended, hheader, hprogress hended,
    h.contours, h.job⟩

end

/-- Settles O53: the request by its two cases, and the end of an erase by what waits for it. -/
theorem journalEraseRunsToPageZero : Obligations.JournalEraseRunsToPageZero := by
  intro tag s p
  refine ⟨fun hq => ⟨journalErase_refused hq tag, fun hrest hall => ?_⟩, fun hs hform he =>
    ⟨eraseGoesOn hs he hform, eraseMakesTheRoll hs he hform, erasePlain hs he, eraseAllEnds hs he hform⟩⟩
  rw [journalErase_accepted hq tag hrest hall]
  simp only [Journal.eraseAll_eq]

end Sys2Proof.Machine
end

section
/-! SUPPORT. The receiver (R172): bytes that begin no frame, frames that are too long, wrong or not all there, and the end of a
command whose bytes have been worked through (R174). -/

namespace Sys2Proof.Machine

/-! ## The bytes after a SYNC -/

theorem readFrame_long {len : Byte} (h : 250 < len.toNat) (bs : List Byte) : readFrame (len :: bs) = .bad := if_pos h

/-- All bytes of a frame are there: its CRC decides. -/
theorem readFrame_whole {f : Frame} (h : f.payload.length ≤ 250) (lo hi : Byte) :
    readFrame (frameBody f ++ [lo, hi]) =
      if [lo, hi] = leBytes 2 (crc (frameBody f)) then .good f [] else .bad := by
  obtain ⟨kind, tag, p⟩ := f
  have hlen : (byte p.length).toNat = p.length := byte_toNat_of_lt (Nat.lt_of_le_of_lt h (by decide))
  have hshort : ¬ 250 < p.length := Nat.not_lt.mpr h
  have hcrc : (kind :: tag :: (p ++ [lo, hi])).drop (p.length + 2) = [lo, hi] := by simp
  have hrest : (kind :: tag :: (p ++ [lo, hi])).drop (p.length + 4) = [] := by simp
  have hbody : (kind :: tag :: (p ++ [lo, hi])).take (p.length + 2) = kind :: tag :: p := by simp
  have hpayload : ((kind :: tag :: (p ++ [lo, hi])).drop 2).take p.length = p := by simp
  simp only [frameBody, List.cons_append, readFrame, hlen, hshort, hcrc, hrest, hbody, hpayload, if_false]
  rw [if_neg (by simp)]
  rfl

/-- A frame that is not all there is waited for. -/
theorem readFrame_partial {f : Frame} (h : f.payload.length ≤ 250) {n : Nat} (hn : n < f.payload.length + 5) :
    readFrame ((frameBody f ++ leBytes 2 (crc (frameBody f))).take n) = .more := by
  cases n with
  | zero => rfl
  | succ n =>
    have hlen : (byte f.payload.length).toNat = f.payload.length :=
      byte_toNat_of_lt (Nat.lt_of_le_of_lt h (by decide))
    rw [frameBody, List.cons_append, List.take_succ_cons, readFrame, hlen, if_neg (Nat.not_lt.mpr h), if_pos]
    rw [List.length_take]
    omega

theorem frameBytes_length (f : Frame) : (frameBytes f).length = f.payload.length + 6 := by
  simp [frameBytes, frameBody, leBytes_length]

namespace State

variable {s t : State}

/-! ## Bytes one after another -/

theorem scanBytes_nil (n : Nat) (s : State) : scanBytes n [] s = s.collect [] := by cases n <;> rfl

/-- Bytes that are no SYNC are passed over. -/
theorem scanBytes_noise {noise : List Byte} (h : ∀ b ∈ noise, b ≠ sync) (n : Nat) (bs : List Byte) (s : State) :
    scanBytes (noise.length + n) (noise ++ bs) s = scanBytes n bs s := by
  induction noise with
  | nil => rw [List.length_nil, Nat.zero_add, List.nil_append]
  | cons b noise ih =>
    obtain ⟨hb, hnoise⟩ := List.forall_mem_cons.mp h
    rw [List.length_cons, Nat.add_right_comm, List.cons_append, scanBytes, if_neg hb, ih hnoise]

section
variable (hc : s.link.collecting = [])
include hc

theorem receive_hunting (bs : List Byte) : s.receive bs = scanBytes bs.length bs s := by
  rw [receive, hc, List.nil_append]

theorem receive_noise {noise : List Byte} (h : ∀ b ∈ noise, b ≠ sync) (bs : List Byte) :
    s.receive (noise ++ bs) = s.receive bs := by
  rw [receive_hunting hc, receive_hunting hc, List.length_append, scanBytes_noise h]

/-- A frame is discarded, and none of its bytes begins another. -/
theorem receive_bad {bs : List Byte} (hbad : readFrame bs = .bad) (h : ∀ b ∈ bs, b ≠ sync) :
    s.receive (sync :: bs) = s.discardFrame.arbitrate.collect [] := by
  have hrest := scanBytes_noise h 0 [] s.discardFrame.arbitrate
  rw [Nat.add_zero, List.append_nil] at hrest
  rw [receive_hunting hc, List.length_cons, scanBytes, if_pos rfl, hbad]
  exact hrest

/-- A frame that is not all there is kept, from its SYNC on. -/
theorem receive_more {bs : List Byte} (h : readFrame bs = .more) : s.receive (sync :: bs) = s.collect (sync :: bs) := by
  rw [receive_hunting hc, List.length_cons, scanBytes, if_pos rfl, h]

end

/-! ## A whole frame (R172, R173) -/

/-- The next request may not be taken: a reply waits or is sent, a STARTUP is due or sent, or a RESET has been taken. -/
theorem ready_false (h : s.link.replies ≠ [] ∨ s.replying = true ∨ s.link.startupDue = true ∨ s.link.resetTaken = true) :
    s.ready = false := by
  rw [ready]
  rcases h with h | h | h | h
  · rw [List.isEmpty_eq_false_iff.mpr h]
    rfl
  all_goals simp [h]

theorem goodFrame_joins {f : Frame} (hr : s.ready = false) (hq : s.link.queue.length < 4) :
    s.goodFrame f = s.onLink fun l => { l with queue := l.queue ++ [f] } := by
  have hready : (s.onLink fun l => { l with queue := l.queue ++ [f] }).ready = false := hr
  have hroom : s.link.queue.length < Config.receiveQueue := hq
  rw [goodFrame, if_pos hroom, takeNext, hready]
  rfl

theorem goodFrame_full {f : Frame} (hq : 4 ≤ s.link.queue.length) : s.goodFrame f = s.discardFrame :=
  if_neg (Nat.not_lt.mpr hq)

/-- LINK_ERROR is in force always, so that its event latches it (R153, R154). -/
theorem discardFrame_eq (s : State) : s.discardFrame =
    (s.onLink fun l => { l with errors := min 65535 (l.errors + 1) }).latch .linkError := rfl

theorem discardFrame_link (s : State) :
    s.discardFrame.link = { s.link with errors := min 65535 (s.link.errors + 1) } := by
  rw [discardFrame_eq]
  exact (latch_stirs _ _).link

theorem discardFrame_agenda (s : State) : s.discardFrame.agenda = s.agenda := by
  rw [discardFrame_eq]
  exact (latch_stirs _ _).agenda

/-! ## The end of the command (R174) -/

/-- A second turn of the transmitter takes nothing: after the first it either sends, or has found nothing to take. -/
theorem arbitrate_arbitrate (s : State) : s.arbitrate.arbitrate = s.arbitrate := by
  have h : s.arbitrate.link.sending.isSome = true ∨ s.arbitrate = s := by
    unfold arbitrate
    repeat' split
    · exact .inr rfl
    · exact .inl rfl
    · exact .inl rfl
    · exact .inl rfl
    · exact .inl rfl
    · exact .inr rfl
  rcases h with h | h
  · exact arbitrate_sending _ h
  · rw [h, h]

theorem arbitrate_collecting (s : State) : s.arbitrate.link.collecting = s.link.collecting := by
  unfold arbitrate
  repeat' split
  all_goals rfl

theorem arbitrate_agenda (s : State) : s.arbitrate.agenda = s.agenda := by rw [(arbitrate_sends s).rest]

theorem collect_self {bs : List Byte} (h : s.link.collecting = bs) : s.collect bs = s := by
  rw [← h]
  rfl

/-- Bytes are received, and no report is left to work off. -/
theorem receiveFrame_exec (hs : s.Steady) {bs : List Byte} (e : s.receive bs = t) (ha : t.agenda = []) :
    exec (.receiveFrame bs) s = .next t.arbitrate := by
  show Host.Outcome.next (s.event fun u => u.receive bs) = _
  rw [event_eq hs, e, finish, settle_nil t ha]

/-- The bytes of one frame are received, after which the receiver hunts on. -/
theorem receiveFrame_hunts (hs : s.Steady) {bs : List Byte} (e : s.receive bs = t.arbitrate.collect [])
    (hc : t.link.collecting = []) (ha : t.agenda = []) : exec (.receiveFrame bs) s = .next t.arbitrate := by
  rw [collect_self ((arbitrate_collecting t).trans hc)] at e
  rw [receiveFrame_exec hs e ((arbitrate_agenda t).trans ha), arbitrate_arbitrate]

section
variable (hs : s.Steady) (hc : s.link.collecting = [])
include hs hc

/-- A good frame that may not be taken yet joins the queue, whatever comes before its SYNC. -/
theorem receiveFrame_joins {f : Frame} (hf : f.payload.length ≤ 250) {noise : List Byte} (h : ∀ b ∈ noise, b ≠ sync)
    (hr : s.ready = false) (hq : s.link.queue.length < 4) : exec (.receiveFrame (noise ++ frameBytes f)) s =
      .next (s.onLink fun l => { l with queue := l.queue ++ [f] }).arbitrate := by
  refine receiveFrame_hunts hs ?_ hc hs.1
  rw [receive_noise hc h, receive_frame s f hf hc, goodFrame_joins hr hq]

/-- A discarded frame is counted and raises LINK_ERROR, and nothing more. -/
theorem receiveFrame_discards {bs : List Byte} (e : s.receive bs = s.discardFrame.arbitrate.collect []) :
    exec (.receiveFrame bs) s =
      .next ((s.onLink fun l => { l with errors := min 65535 (l.errors + 1) }).latch .linkError).arbitrate := by
  rw [← discardFrame_eq]
  exact receiveFrame_hunts hs e ((congrArg Link.collecting (discardFrame_link s)).trans hc)
    ((discardFrame_agenda s).trans hs.1)

end

end State
end Sys2Proof.Machine
end

section
/-! The step, and the link group: the receiver's frames (R172, R173), IDENTIFY, READ_STATUS, QUERY_RESET_CAUSE and RESET (R176
to R178). -/

namespace Sys2Proof.Machine

/-- Settles O1: the queue is not empty, and its front command is taken from it. -/
theorem frontCommandIsExecuted : Obligations.FrontCommandIsExecuted := fun _ _ _ => rfl

/-! ## Frames received (R172) -/

/-- Settles O10: each of the three frames is discarded, and the receiver finds no other in its bytes. -/
theorem discardedFramesAreCounted : Obligations.DiscardedFramesAreCounted := by
  intro s hs hc
  refine ⟨fun len hlen => ?_, fun f lo hi hf hcrc hsync => ?_, fun f hf hq => ?_⟩
  · have hno : ∀ b ∈ [len], b ≠ sync := by
      intro b hb e
      rw [← List.mem_singleton.mp hb, e] at hlen
      exact absurd hlen (by decide)
    exact State.receiveFrame_discards hs hc (State.receive_bad hc (readFrame_long hlen []) hno)
  · have hbad : readFrame (frameBody f ++ [lo, hi]) = .bad := (readFrame_whole hf lo hi).trans (if_neg hcrc)
    exact State.receiveFrame_discards hs hc (State.receive_bad hc hbad hsync)
  · refine State.receiveFrame_discards hs hc ?_
    rw [State.receive_frame s f hf hc, State.goodFrame_full hq]

/-- Settles O11: a whole frame joins the queue, and a partial one stays with the receiver. -/
theorem goodFramesJoinTheQueue : Obligations.GoodFramesJoinTheQueue := by
  intro s f hs hc hf
  refine ⟨fun noise hnoise hq hbusy => State.receiveFrame_joins hs hc hf hnoise (State.ready_false hbusy) hq,
    fun n hpos hn => ?_⟩
  obtain ⟨n, rfl⟩ := Nat.exists_eq_succ_of_ne_zero hpos.ne'
  rw [frameBytes_length] at hn
  have hmore := readFrame_partial hf (n := n) (by omega)
  exact State.receiveFrame_exec hs (State.receive_more hc hmore) hs.1

/-! ## Reports of the link group (R176, R178) -/

/-- On a quiet link a request that reports has no effect but its reply. -/
theorem State.request_reports {s : State} {kind tag : Byte} {p : Payload} {f : State → List Byte} (h : s.Quiet)
    (hp : p.length ≤ 250) (e : answerTo kind p s = Machine.report s f) :
    s.request kind tag p = s.replied kind tag .ok (f s) :=
  State.request_is (a := Machine.report s f) h hp e rfl rfl rfl rfl

/-- Settles O4: both requests report, and their bytes are those of the rule. -/
theorem identifyAndReadStatusReport : Obligations.IdentifyAndReadStatusReport := by
  intro tag s hq
  have hidentify : answerTo 0x01 [] s =
      report s fun _ => partName ++ [byte Config.revision] ++ capacities.flatMap (leBytes 2) := rfl
  have hstatus : answerTo 0x02 [] s = report s statusBytes := rfl
  exact ⟨congrArg _ (State.request_reports hq (by simp) hidentify),
    congrArg _ (State.request_reports hq (by simp) hstatus)⟩

/-- Settles O5: the reply carries the flags of the state before they are cleared. -/
theorem queryResetCauseReportsThenClears : Obligations.QueryResetCauseReportsThenClears := by
  intro tag s hq
  have hans : answerTo 0x03 [] s = report
      (s.onLink fun l => { l with causePowerOn := false, causeLine := false, causeRequest := false })
      fun _ => causeBytes s.link := rfl
  exact congrArg _ (State.request_is hq (by decide) hans rfl rfl rfl rfl)

/-! ## RESET (R177) -/

/-- The RESET request kind keeps the position and the held holder, and sets its own cause beside the others (R69, R137, R176). -/
theorem resetStep_request (s : State) : ResetKept s (s.resetStep .request) ∧
    (s.resetStep .request).link.causePowerOn = s.link.causePowerOn ∧
    (s.resetStep .request).link.causeLine = s.link.causeLine ∧ (s.resetStep .request).link.causeRequest = true := by
  obtain ⟨f, d, hlink, -⟩ := s.resetStep_link .request
  have hholder : (s.resetStep .request).holder = s.holder.afterReset .request (s.lineRec .holderEngaged).input :=
    (s.resetStep_firstTurn .request).holder.trans (s.resetBy_stirs .request).holder
  refine ⟨⟨(s.resetStep_path .request).2.2.2.2, ?_⟩, ?_⟩
  · rw [hholder]
    cases (s.lineRec .holderEngaged).input <;> exact ⟨rfl, rfl⟩
  · rw [hlink]
    exact ⟨rfl, rfl, rfl⟩

/-- The end of RESET's reply is the reset. -/
theorem transmitEnd_resets {s : State} {f : Frame} (hr : s.link.resetTaken = true) (hf : s.link.sending = some ⟨.reply, f⟩) :
    exec .transmitEnd s = .next (s.resetStep .request) := by
  have hdue : s.resetDue = true := by
    rw [State.resetDue, hr, hf]
    rfl
  show Host.Outcome.next (if s.resetDue = true then _ else _) = _
  rw [if_pos hdue]

/-- Settles O8: the request, the frames that arrive behind it, and the end of its reply. -/
theorem resetRequestActsAtTheEndOfItsReply : Obligations.ResetRequestActsAtTheEndOfItsReply := by
  intro tag s
  refine ⟨fun hq => ?_, fun f hs hc hr hsend hq hf => ?_, fun f hr hf => ?_⟩
  · have hans : answerTo 0x04 [] s = done (s.onLink fun l => { l with resetTaken := true }) := rfl
    exact congrArg _ (State.request_is hq (by decide) hans rfl rfl rfl rfl)
  · have hjoins := State.receiveFrame_joins hs hc hf (noise := []) nofun (State.ready_false (.inr (.inr (.inr hr)))) hq
    rw [State.arbitrate_sending (s.onLink fun l => { l with queue := l.queue ++ [f] }) hsend] at hjoins
    exact hjoins
  · exact ⟨s.resetStep .request, transmitEnd_resets hr hf, s.resetLeft .request, resetStep_request s⟩

/-! ## Kinds and lengths (R173) -/

theorem requestOf_unassigned {kind : Byte} (h : assignedKinds.contains kind.toNat = false) : requestOf kind = none := by
  unfold requestOf
  split
  case h_34 => rfl
  all_goals
    rename_i hk
    rw [hk] at h
    cases h

/-- A row of the table whose request has one length only: it sends the frame of a KIND, and a payload of another length is
refused. -/
structure FixedLength (row : (Byte → Payload → Instr) × Byte × Nat) : Prop where
  sends : ∀ tag p s, exec (row.1 tag p) s = .next (s.request row.2.1 tag p)
  answer : ∀ p s, p.length ≠ row.2.2 → answerTo row.2.1 p s = refuse s .badLength

theorem FixedLength.refused {row : (Byte → Payload → Instr) × Byte × Nat} (h : FixedLength row) {s : State} (hq : s.Quiet)
    (tag : Byte) {p : Payload} (hp : p.length ≤ 250) (hne : p.length ≠ row.2.2) :
    exec (row.1 tag p) s = .next (s.replied row.2.1 tag .badLength []) := by
  rw [h.sends, State.request_refused hq hp (h.answer p s hne)]

theorem takeStartJob_badLength {p : Payload} (h : p.length ≠ 0 ∧ p.length ≠ 10) (s : State) :
    answerTo 0x30 p s = refuse s .badLength := by
  show takeStartJob p s = _
  rw [takeStartJob, if_neg h.1, ofLength, if_neg h.2]

/-- Settles O9: no request has such a KIND, and each row of one length refuses any other. -/
theorem unknownKindsAndLengthsAreRefused : Obligations.UnknownKindsAndLengthsAreRefused := by
  intro tag p s hq hp
  refine ⟨fun kind hk => ?_, fun row hrow => FixedLength.refused ?_ hq tag hp, fun h => ?_⟩
  · have hans : answerTo kind p s = refuse s .unknownKind := by rw [answerTo, requestOf_unassigned hk]
    exact congrArg _ (State.request_refused hq hp hans)
  · revert row
    simp only [List.forall_mem_cons, List.not_mem_nil, false_implies, implies_true, and_true]
    and_intros
    all_goals exact ⟨fun _ _ _ => rfl, fun _ _ hne => if_neg hne⟩
  · have hans := takeStartJob_badLength h s
    exact ⟨congrArg _ (State.request_refused hq hp hans), congrArg _ (State.request_refused hq hp hans)⟩

end Sys2Proof.Machine
end

section
/-! The parameter set: SET_PARAM and SET_OVERRIDE of the parameters 1 to 22, and GET_PARAM (R53, R67, R68, R111, R179). -/

namespace Sys2Proof.Machine

/-! ## The parameters by their ids -/

/-- The values of the parameters 1 to 22, in their order. -/
def Params.values (q : Params) : List Nat :=
  [q.retraceDepth, q.stuckSamples, q.openLimit, q.dryStep, q.rapidStep, q.override, q.tackSetting, q.lowWater,
    q.progressEvery, q.checkpointEvery, q.threadAttempts, q.searchRadius, q.inGapAttempts, q.tipTime, q.feedTimeout,
    q.retractTime, q.pullTimeout, q.breakLimit, q.dropWait, q.holderTimeout, q.wakeSettle, if q.latchDisabled then 1 else 0]

section
variable (q : Params) {id : Nat} (hid : 1 ≤ id ∧ id ≤ 22)
include hid

theorem Params.get_eq : q.get id = q.values.getD (id - 1) 0 := by
  obtain ⟨h1, h22⟩ := hid
  interval_cases id <;> rfl

/-- A parameter is written alone; LatchDisabled (22) is a yes or a no. -/
theorem Params.values_put {w : Nat} (hw : id = 22 → w ≤ 1) : (q.put id w).values = q.values.set (id - 1) w := by
  obtain ⟨h1, h22⟩ := hid
  by_cases hlatch : id = 22
  · have hbit := hw hlatch
    subst hlatch
    interval_cases w <;> rfl
  · have h21 : id ≤ 21 := by omega
    interval_cases id <;> rfl

theorem Params.get_put {w other : Nat} (hw : id = 22 → w ≤ 1) (ho : 1 ≤ other ∧ other ≤ 22) :
    (q.put id w).get other = if other = id then w else q.get other := by
  have hlt : id - 1 < q.values.length := by
    show id - 1 < 22
    omega
  rw [Params.get_eq _ ho, Params.get_eq _ ho, q.values_put hid hw, List.getD_eq_getElem?_getD, List.getD_eq_getElem?_getD,
    List.getElem?_set]
  by_cases h : other = id
  · rw [if_pos h, if_pos (by rw [h]), if_pos hlt, Option.getD_some]
  · rw [if_neg h, if_neg (by omega)]

end

/-! ## The rows of the index (R179) -/

/-- What the model knows of a parameter is what its row says. -/
theorem parameterRows_eq : ∀ row ∈ parameterRows, (1 ≤ row.1 ∧ row.1 ≤ 22) ∧ paramWidth row.1 = some row.2.1 ∧
    row.2.1 ≤ 4 ∧ paramRange row.1 = row.2.2 := by decide

theorem paramTaken_eq {id lo hi : Nat} {tuning : Bool} (h : paramRange id = (tuning, lo, hi)) (v : Nat) :
    paramTaken id v = valueTaken id tuning lo hi v := by
  rw [paramTaken, h]
  rfl

/-- The value taken for LatchDisabled is 0 or 1. -/
theorem paramTaken_latchDisabled {v w : Nat} (h : paramTaken 22 v = some w) : w ≤ 1 := by
  have hif : (if 0 ≤ v ∧ v ≤ 1 then some v else none) = some w := h
  split at hif
  · rename_i hv
    exact Option.some.inj hif ▸ hv.2
  · cases hif

/-! ## A parameter written -/

theorem breakCountAbove_false {s : State} {v : Nat}
    (h : ∀ i c, s.contour i = some c → c.state ≠ .faulted → c.breakCount ≤ v) : breakCountAbove s v = false := by
  refine List.any_eq_false.mpr fun c hc => ?_
  obtain ⟨i, hi, rfl⟩ := Vector.mem_iff_getElem.mp (Vector.mem_toList_iff.mp hc)
  split
  · rename_i c e
    have hle := h ⟨i, hi⟩ c e
    simpa using hle
  · decide

theorem paramBarred_false {s : State} {id w : Nat} (h : writeAllowed s id w) : paramBarred s id w = false := by
  obtain ⟨hcur, hbreaks⟩ := h
  rw [paramBarred, Bool.or_eq_false_iff, Bool.and_eq_false_iff, Bool.and_eq_false_iff, decide_eq_false_iff_not,
    decide_eq_false_iff_not]
  constructor
  · by_cases h : id = 1 ∨ id = 18
    · exact .inr (by rw [hcur h]; rfl)
    · exact .inl h
  · by_cases h : id = 18
    · exact .inr (breakCountAbove_false (hbreaks h))
    · exact .inl h

/-- The part with a parameter set that differs in one parameter: LowWater (8) is reflected in CHAIN_LOW (R53). -/
def State.paramsWritten (s : State) (id : Nat) (q : Params) : State :=
  if id = 8 then (s.withParams q).refreshLevels else s.withParams q

theorem State.paramsWritten_stirs (s : State) (id : Nat) (q : Params) : (s.withParams q).Stirs (s.paramsWritten id q) := by
  unfold State.paramsWritten
  split
  · exact (State.refreshLevels_flags _).toStirs
  · exact .refl _

/-- A value that is taken is written, and told where it is not the value sent. -/
theorem writeParam_taken {s : State} {id width v w : Nat} (ht : paramTaken id v = some w) (hb : paramBarred s id w = false) :
    writeParam id width v s = ⟨s.paramsWritten id (s.params.put id w), if w = v then .ok else .clamped,
      fun _ => if w = v then [] else leBytes width w⟩ := by
  rw [writeParam, ht]
  simp only [hb, Bool.false_eq_true, if_false]
  split
  · rfl
  · rfl

theorem writeParam_none {s : State} {id width v : Nat} (ht : paramTaken id v = none) :
    writeParam id width v s = refuse s .badValue := by
  rw [writeParam, ht]

theorem request_writes {s : State} (hq : s.Quiet) {kind tag : Byte} {p : Payload} (hp : p.length ≤ 250) {id width v w : Nat}
    (e : answerTo kind p s = writeParam id width v s) (ht : paramTaken id v = some w) (hb : paramBarred s id w = false) :
    s.request kind tag p = (s.paramsWritten id (s.params.put id w)).replied kind tag (if w = v then .ok else .clamped)
      (if w = v then [] else leBytes width w) := by
  have h := s.paramsWritten_stirs id (s.params.put id w)
  exact State.request_is hq hp (e.trans (writeParam_taken ht hb)) h.agenda (congrArg _ h.link) (congrArg _ h.link)
    (congrArg _ h.link)

/-! ## SET_PARAM and SET_OVERRIDE -/

theorem takeSetParam_eq {id width : Nat} (hid : id ≤ 22) (hw : paramWidth id = some width) {v : Nat} (hv : v < 256 ^ width)
    (s : State) : answerTo 0x05 (byte id :: leBytes width v) s = writeParam id width v s := by
  have hb : (byte id).toNat = id := byte_toNat_of_lt (by omega)
  have hlen : (byte id :: leBytes width v).length = 1 + width := by rw [List.length_cons, leBytes_length, Nat.add_comm]
  have hval : uN width (byte id :: leBytes width v) 1 = v := uN_drop (r := []) (List.append_nil _).symm hv
  show takeSetParam (byte id :: leBytes width v) s = _
  simp only [takeSetParam, hb, hw]
  rw [if_pos hlen, if_neg (by omega), if_neg (by omega), if_neg (by omega), hval]

theorem takeSetOverride_eq {v : Nat} (hv : v < 256 ^ 2) (s : State) :
    answerTo 0x3B (leBytes 2 v) s = writeParam 6 2 v s := by
  show takeSetOverride (leBytes 2 v) s = _
  rw [takeSetOverride, ofLength, if_pos (leBytes_length 2 v), uN_leBytes hv]

/-- Settles O13: a value out of a structural range is refused, any other is written as it is taken, into its parameter alone. -/
theorem parametersTakeValuesInRange : Obligations.ParametersTakeValuesInRange := by
  intro tag s hq row hrow v hv id width answers
  obtain ⟨hid, hwidth, hfour, hrange⟩ := parameterRows_eq row hrow
  have htaken : paramTaken id v = valueTaken id row.2.2.1 row.2.2.2.1 row.2.2.2.2 v := paramTaken_eq hrange v
  have answered {kind : Byte} {p : Payload} {c : Instr} (hc : exec c s = .next (s.request kind tag p)) (hp : p.length ≤ 250)
      (e : answerTo kind p s = writeParam id width v s) : answers kind c := by
    simp only [answers, hc, ← htaken]
    cases ht : paramTaken id v with
    | none => exact congrArg _ (State.request_refused hq hp (e.trans (writeParam_none ht)))
    | some w =>
      intro hallowed
      have hput {other : Nat} := s.params.get_put hid (w := w) (other := other)
        (fun h => paramTaken_latchDisabled (v := v) (h ▸ ht))
      refine ⟨s.params.put id w, (hput hid).trans (if_pos rfl), fun other ho hne => ?_, ?_⟩
      · exact (hput (parameterRows_eq other ho).1).trans (if_neg hne)
      · exact congrArg _ (request_writes hq hp e ht (paramBarred_false hallowed))
  refine ⟨answered rfl ?_ (takeSetParam_eq hid.2 hwidth hv s), fun h6 => answered rfl ?_ ?_⟩
  · rw [List.length_cons, leBytes_length]
    omega
  · rw [leBytes_length]
    decide
  · have hw : width = 2 := by
      rw [show row.1 = 6 from h6] at hwidth
      exact (Option.some.inj hwidth).symm
    have e : answerTo 0x3B (leBytes 2 v) s = writeParam 6 2 v s := takeSetOverride_eq (hw ▸ hv) s
    rw [h6, hw]
    exact e

/-! ## GET_PARAM -/

/-- A row of the index as GET_PARAM reports it: the id and width of a parameter 1 to 22, and its present value. -/
structure Reported (row : Byte × Nat × (Params → Nat)) : Prop where
  id : row.1.toNat ≤ 22
  width : paramWidth row.1.toNat = some row.2.1
  value : ∀ q : Params, q.get row.1.toNat = row.2.2 q

theorem Reported.answer {row : Byte × Nat × (Params → Nat)} (h : Reported row) (s : State) :
    answerTo 0x06 [row.1] s = report s fun t => leBytes row.2.1 (row.2.2 t.params) := by
  obtain ⟨hid, hwidth, hvalue⟩ := h
  show takeGetParam [row.1] s = _
  simp only [takeGetParam, hwidth, hvalue]
  rw [if_pos (by rw [if_neg (by omega)]; rfl), if_neg (by omega), if_neg (by omega), if_neg (by omega)]

/-- GET_PARAM of a keep-out rectangle (R40, R179). -/
theorem takeGetParam_keepOut (b : Byte) (s : State) : answerTo 0x06 [24, b] s =
    if 3 < b.toNat then refuse s .badValue else report s fun t => keepOutBytes t b.toNat := rfl

theorem keepOutBytes_val (s : State) (n : Fin 4) : keepOutBytes s n.val =
    [byte n.val, boolByte s.store.keepOuts[n].enabled] ++ intBytes s.store.keepOuts[n].rect.xMin ++
      intBytes s.store.keepOuts[n].rect.yMin ++ intBytes s.store.keepOuts[n].rect.xMax ++
      intBytes s.store.keepOuts[n].rect.yMax := by
  have h : s.store.keepOuts[n.val]? = some s.store.keepOuts[n] := Vector.getElem?_eq_getElem n.isLt
  rw [keepOutBytes, h]

/-- Settles O15: each parameter of the index is reported from the part as it stands. -/
theorem getParamReportsPresentValues : Obligations.GetParamReportsPresentValues := by
  intro tag s hq
  refine ⟨fun row hrow => congrArg _ (State.request_reports hq (by simp) (Reported.answer ?_ s)), ?_, fun n => ?_,
    fun b hb => ?_, ?_⟩
  · revert row
    simp only [List.forall_mem_cons, List.not_mem_nil, false_implies, implies_true, and_true]
    and_intros
    all_goals exact ⟨by decide, rfl, fun _ => rfl⟩
  · have hans : answerTo 0x06 [23] s = report s fun t => windowBytes t.store.window := rfl
    exact congrArg _ (State.request_reports hq (by simp) hans)
  · have hn : (byte n.val).toNat = n.val := byte_toNat_of_lt (by omega)
    have hans := (takeGetParam_keepOut (byte n.val) s).trans (if_neg (by omega))
    have hreply := State.request_reports hq (tag := tag) (by simp) hans
    rw [hn, keepOutBytes_val] at hreply
    exact congrArg _ hreply
  · exact congrArg _ (State.request_refused hq (by simp) ((takeGetParam_keepOut b s).trans (if_pos hb)))
  · have hans : answerTo 0x06 [25] s = report s fun t => [byte t.store.corrected] := rfl
    exact congrArg _ (State.request_reports hq (by simp) hans)

end Sys2Proof.Machine
end

section
/-! Every step answers (section "What each step holds"): a command is a reset or an event at the part, and both come to a
state. -/

namespace Sys2Proof.Machine

theorem exec_transmitEnd (s : State) : exec .transmitEnd s =
    .next (if s.resetDue = true then s.resetStep .request else s.event State.transmitEnd) := rfl

/-- What a command is: a reset, or an event of the operation that its row gives. A request is the event of its frame's
arrival; TRANSMIT_END is the one row that can be either (R177). -/
theorem exec_resets_or_event (i : Instr) (s : State) :
    (∃ k, exec i s = .next (s.resetStep k)) ∨ ∃ f, exec i s = .next (s.event f) := by
  cases i
  case powerOn => exact .inl ⟨.powerOn, rfl⟩
  case resetLine => exact .inl ⟨.line, rfl⟩
  case transmitEnd =>
    rw [exec_transmitEnd]
    split
    · exact .inl ⟨.request, rfl⟩
    · exact .inr ⟨State.transmitEnd, rfl⟩
  all_goals exact .inr ⟨_, rfl⟩

theorem exec_answers (i : Instr) (s : State) : ∃ t, exec i s = .next t := by
  obtain ⟨_, hreset⟩ | ⟨_, hevent⟩ := exec_resets_or_event i s
  · exact ⟨_, hreset⟩
  · exact ⟨_, hevent⟩

theorem step_idles {s : State} (h : s.pending = []) : step s = .next s.idle := by
  rw [step, h]

theorem step_executes {s : State} {c : Instr} {rest : List Instr} (h : s.pending = c :: rest) :
    step s = exec c (s.withPending rest) := by
  rw [step, h]

/-- Settles O3: a part with an empty queue idles, and a command at its front answers whatever it is. -/
theorem everyStepAnswers : Obligations.EveryStepAnswers := by
  intro s
  cases h : s.pending with
  | nil => exact ⟨s.idle, step_idles h⟩
  | cons c rest =>
    obtain ⟨t, ht⟩ := exec_answers c (s.withPending rest)
    exact ⟨t, (step_executes h).trans ht⟩

end Sys2Proof.Machine
end
